-- ==== Sys2Proof/Word.lean ====
section
/-! DEFINITION. The words of the register window, of shared memory and of the line frames. -/

namespace Sys2Proof

/-- One byte of shared memory or of a line frame. -/
abbrev Byte := BitVec 8

/-- A two-byte field (spec 12: little-endian in memory; the frame check is sent high byte first). -/
abbrev Half := BitVec 16

/-- A register of the register window, or a four-byte field (spec 12). -/
abbrev Word := BitVec 32

end Sys2Proof
end

