-- ==== Sys2Proof/Syntax.lean ====
section
/-! DEFINITION. The commands of the block: one constructor for each row of spec/opcode_table.json. -/

namespace Sys2Proof

/-- The parts of the shared region a memory fault names (R16), in the code order of spec 12.2. -/
inductive Region where
  | directory | course | wave | screen | runner | chip | work | pageDirectory | page | screenStatus
  deriving DecidableEq, Repr

/-- The two registers whose writes are ignored (R3). -/
inductive ReadOnlyRegister where
  | ident | status
  deriving DecidableEq, Repr

/-- A mat line or a panel line: 0 or 1 (spec 00, section 5.5). -/
abbrev LineIx := Fin 2

/-- A face of a screen: 0 or 1 (spec 00, section 5.5). -/
abbrev FaceIx := Fin 2

/-- A frame as it arrived on a line (R186), less its type byte, which the command's row gives:
the local time at which it began, its address and length bytes, its payload and its check. -/
structure RxFrame where
  /-- Local time at which the frame began: it is a reply only when that lies in the reply window (R57, R169). -/
  begun   : Nat
  address : Byte
  length  : Byte
  payload : List Byte
  /-- The two check bytes, high byte first on the wire (R186). -/
  check   : Half
  deriving DecidableEq, Repr

/-- A step of the part that writes shared memory and may be under way when a reset is taken or a memory fault is
reported (R16, R17, R35, R114, R131): what it acts on stands in the state, or arrived on a line. -/
inductive Underway where
  /-- The work table scan of a load, and the entry into PREP (R9, R10). -/
  | load
  /-- END, whose last work is the seal of the page (R12, R182). -/
  | endRace
  /-- The item in flight in the split unit (R90, R109). -/
  | item
  /-- A visit of the running sweep (R26). -/
  | slotVisit
  /-- The end of an item (R32). -/
  | itemEnd
  /-- A pass of the status timer (R152). -/
  | statusTimer
  /-- A seal by the seal timer (R178). -/
  | sealTimer
  /-- A record drained from the spill buffer (R181). -/
  | drain
  /-- A flush (R182). -/
  | flushJournal
  /-- A draw, with its EXCEPTION record (R75). -/
  | draw
  /-- A reply of a decoder, with its LINE records (R70, R71). -/
  | batch (line : LineIx) (frame : RxFrame)
  | empty (line : LineIx) (frame : RxFrame)
  | busy (line : LineIx) (frame : RxFrame)
  /-- A silence, with its LINE record (R69). -/
  | silence (line : LineIx) (failed : Bool)
  /-- A reply of a panel, with its LINE record (R172, R174). -/
  | ack (line : LineIx) (frame : RxFrame)
  | wait (line : LineIx) (frame : RxFrame)
  /-- A missing reply, with its LINE record (R171). -/
  | noReply (line : LineIx) (failed : Bool)
  deriving DecidableEq, Repr

/-- A step cut short: how many of its writes to shared memory were made, and where after the last of them it stands
(R17, R114; log entry 8). -/
structure Cut where
  step : Underway
  made : Nat
  /-- Clear: the step stands right after its last write made, or has not begun where none was made. Set: it has gone on
  from there as far as its next write, or to its end where none is left. -/
  onward : Bool
  deriving DecidableEq, Repr

/-- What a report of a memory fault says: the region of the refused access (R16), and the steps under way, in order, each
with how many of its shared-memory writes had been made (R114, R131). -/
structure FaultReport where
  region : Region
  cuts   : List Cut
  deriving DecidableEq, Repr

/-- The steps of the block (spec 95: each whole and indivisible). An event of the part's own blocks
takes its data from the state (the head of a queue, the running sweep); a command of an outside
agent carries what that agent gives. -/
inductive Instr where
  /-- LOAD (R4): the LOAD code written to CONTROL. -/
  | load
  /-- START (R11): the START code written to CONTROL. -/
  | start
  /-- END (R12): the END code written to CONTROL. -/
  | endRace
  /-- RESET (R17): the RESET code written to CONTROL. `cuts` are the steps under way, in order, each with how many of its
  shared-memory writes had been made. -/
  | reset (cuts : List Cut)
  /-- UNKNOWN_COMMAND (R2): a code that names no command written to CONTROL. -/
  | unknownCommand (code : Word)
  /-- BASE_LO_WRITE (R3). -/
  | baseLoWrite (value : Word)
  /-- BASE_HI_WRITE (R3). -/
  | baseHiWrite (value : Word)
  /-- SWEEP_WRITE (R24): any value. -/
  | sweepWrite (value : Word)
  /-- CAUSE_WRITE (R183). -/
  | causeWrite (value : Word)
  /-- CAUSE_ENABLE_WRITE (R3, R183). -/
  | causeEnableWrite (value : Word)
  /-- REGISTER_WRITE_IGNORED (R3): a write to IDENT or STATUS. -/
  | registerWriteIgnored (register : ReadOnlyRegister) (value : Word)
  /-- LOAD_PASSED (R9). -/
  | loadPassed
  /-- LOAD_FAILED (R10). -/
  | loadFailed
  /-- MEMORY_FAULT (R16): a refused access is reported. -/
  | memoryFault (report : FaultReport)
  /-- POWER_ON_RESET (R18). How far the steps under way had come is a free value (R114; log entry 8). -/
  | powerOnReset
  /-- SECOND_MARK (R14). -/
  | secondMark
  /-- CLOCK_CEILING (R13): the race clock has reached the ceiling. -/
  | clockCeiling
  /-- ROUND (R56) of a mat line. -/
  | round (line : LineIx)
  /-- CALL (R57) of a mat line. -/
  | call (line : LineIx)
  /-- BATCH (R61 to R64): a frame of type BATCH arrives on a mat line. -/
  | batch (line : LineIx) (frame : RxFrame)
  /-- EMPTY (R68): a frame of type EMPTY arrives on a mat line. -/
  | empty (line : LineIx) (frame : RxFrame)
  /-- BUSY (R67): a frame of type BUSY arrives on a mat line. -/
  | busy (line : LineIx) (frame : RxFrame)
  /-- SILENCE (R69): the exchange ends with no valid reply, at the close of its reply window, or
  (`failed`) at the end of a reception that failed. -/
  | silence (line : LineIx) (failed : Bool)
  /-- MARK (R60) of a mat line. -/
  | mark (line : LineIx)
  /-- DRAW (R73). -/
  | draw
  /-- CLUSTER_EXPIRY (R81) of the cluster with this key. -/
  | clusterExpiry (point : Nat) (chip : Word)
  /-- CLOSED_CROSSING_OFFER (R82). -/
  | closedCrossingOffer
  /-- SLOT_VISIT (R26) of the running sweep. -/
  | slotVisit
  /-- SWEEP_TIMER (R23). -/
  | sweepTimer
  /-- ITEM_END (R32) of the item whose end was reported first. -/
  | itemEnd
  /-- LOCAL_CROSSING (R93): the closed crossing at the head of the intake queue. -/
  | localCrossing
  /-- REMOTE_CROSSING (R117): that item at the head of the intake queue. -/
  | remoteCrossing
  /-- START_WAVE (R118): that item at the head of the intake queue. -/
  | startWave
  /-- RUNNER_STATUS (R120): that item at the head of the intake queue. -/
  | runnerStatus
  /-- SET_WATCH (R123): that item at the head of the intake queue. -/
  | setWatch
  /-- SET_NAME (R124): that item at the head of the intake queue. -/
  | setName
  /-- CORRECT_SPLIT (R125): that item at the head of the intake queue. -/
  | correctSplit
  /-- SCREEN_REQUEST (R135): the request at the head of the scheduler's hand-overs. -/
  | screenRequest
  /-- PURGE (R145): the purge at the head of the scheduler's hand-overs. -/
  | purge
  /-- REMOVAL (R146): the removal at the head of the scheduler's hand-overs. -/
  | removal
  /-- ENTRY_DUE (R141) at a screen. -/
  | entryDue (screen : Nat)
  /-- LEAVE_TIME (R142) of a screen's entry for a runner and face. -/
  | leaveTime (screen runner : Nat) (face : FaceIx)
  /-- MISSED (R143) of a screen's entry for a runner and face. -/
  | missed (screen runner : Nat) (face : FaceIx)
  /-- BANNER (R148): the first BANNER item in the scheduler's hands. -/
  | banner
  /-- BANNER_EXPIRY (R149) of a screen's banner. -/
  | bannerExpiry (screen : Nat)
  /-- STATUS_TIMER (R152). -/
  | statusTimer
  /-- WAKE_LEAD_REACHED (R155) for a face of a screen. -/
  | wakeLeadReached (screen : Nat) (face : FaceIx)
  /-- DIM_AFTER (R156) for a face of a screen. -/
  | dimAfter (screen : Nat) (face : FaceIx)
  /-- DARK_AFTER (R159) for a screen. -/
  | darkAfter (screen : Nat)
  /-- WAKE_AGE_OUT (R160) for a screen. -/
  | wakeAgeOut (screen : Nat)
  /-- PANEL_EXCHANGE (R168, R169) of a panel line. -/
  | panelExchange (line : LineIx)
  /-- ACK (R169, R172): a frame of type ACK arrives on a panel line. -/
  | ack (line : LineIx) (frame : RxFrame)
  /-- WAIT (R170): a frame of type WAIT arrives on a panel line. -/
  | wait (line : LineIx) (frame : RxFrame)
  /-- NO_REPLY (R171): the exchange ends with no valid reply, as for SILENCE. -/
  | noReply (line : LineIx) (failed : Bool)
  /-- BACK_OFF_END (R168) of the panel of a screen. -/
  | backOffEnd (screen : Nat)
  /-- PROBE_DUE (R172) of the panel of a screen. -/
  | probeDue (screen : Nat)
  /-- CLOCK (R173) of a panel line. -/
  | clock (line : LineIx)
  /-- SEAL_TIMER (R178). -/
  | sealTimer
  /-- DRAIN (R181). -/
  | drain
  /-- FLUSH_JOURNAL (R182): the first flush item in the journal writer's hands. -/
  | flushJournal
  deriving DecidableEq, Repr

end Sys2Proof
end

