-- ==== Sys2Proof/WellFormed.lean ====
section
/-! DEFINITION. Which commands are well formed: operands inside the ranges the manual gives. -/

namespace Sys2Proof

/-- A received frame: its length byte counts its payload (R57: a frame is received to the end its length byte declares). -/
def RxFrame.wf (f : RxFrame) : Bool :=
  f.payload.length == f.length.toNat

/-- A step under way carries a whole frame where it carries one. -/
def Underway.wf : Underway → Bool
  | .batch _ f | .empty _ f | .busy _ f | .ack _ f | .wait _ f => f.wf
  | .load | .endRace | .item | .slotVisit | .itemEnd | .statusTimer | .sealTimer | .drain | .flushJournal | .draw
  | .silence _ _ | .noReply _ _ => true

/-- The block whose step it is: the engine, the split unit, the work sweep, the screen scheduler, the journal writer, the
assembler, a mat line, a panel line. -/
def Underway.block : Underway → Nat
  | .load | .endRace => 0
  | .item => 1
  | .slotVisit | .itemEnd => 2
  | .statusTimer => 3
  | .sealTimer | .drain | .flushJournal => 4
  | .draw => 5
  | .batch l _ | .empty l _ | .busy l _ | .silence l _ => 6 + l.val
  | .ack l _ | .wait l _ | .noReply l _ => 8 + l.val

/-- Steps under way: their frames whole, and of each block one step at most. -/
def cutsWf : List Cut → Bool
  | [] => true
  | c :: rest => c.step.wf && rest.all (fun d => d.step.block != c.step.block) && cutsWf rest

/-- The checks on a command's operands: an unknown code is none of the four (R2); screens are 0 to 31,
runners 0 to 64,999 and points 0 to 31 (spec 00, section 5.5); a frame is whole (R57);
of each block one step at most is under way (spec 95). -/
def Instr.wf : Instr → Bool
  | .unknownCommand code => !([1, 2, 3, 4].contains code.toNat)
  | .batch _ f | .empty _ f | .busy _ f | .ack _ f | .wait _ f => f.wf
  | .reset cuts => cutsWf cuts
  | .memoryFault report => cutsWf report.cuts
  | .clusterExpiry point _ => decide (point < 32)
  | .leaveTime screen runner _ | .missed screen runner _ => decide (screen < 32) && decide (runner < 65000)
  | .entryDue screen | .bannerExpiry screen | .darkAfter screen | .wakeAgeOut screen
  | .backOffEnd screen | .probeDue screen => decide (screen < 32)
  | .wakeLeadReached screen _ | .dimAfter screen _ => decide (screen < 32)
  | .load | .start | .endRace | .baseLoWrite _ | .baseHiWrite _ | .sweepWrite _
  | .causeWrite _ | .causeEnableWrite _ | .registerWriteIgnored _ _ | .loadPassed | .loadFailed
  | .powerOnReset | .secondMark | .clockCeiling | .round _ | .call _
  | .silence _ _ | .mark _ | .draw | .closedCrossingOffer | .slotVisit | .sweepTimer | .itemEnd
  | .localCrossing | .remoteCrossing | .startWave | .runnerStatus | .setWatch | .setName
  | .correctSplit | .screenRequest | .purge | .removal | .banner | .statusTimer
  | .panelExchange _ | .noReply _ _ | .clock _ | .sealTimer | .drain | .flushJournal => true

end Sys2Proof
end

