-- ==== Sys2Proof/Decode.lean ====
section
/-! DEFINITION. The command a table word spells. No row of spec/opcode_table.json gives bits
(spec 98: "n_rows_with_fixed": 0), so no word spells a command (log entry 9). -/

namespace Sys2Proof

/-- The command spelled by an `nbits`-bit word: none, since no row of the table gives bits. -/
def decodeTableWord (_nbits _w : Nat) : Option Instr := none

end Sys2Proof
end

