-- ==== Sys2Proof/Config.lean ====
section
/-! DEFINITION. The constants the manual fixes for the part, and the free values it leaves open. -/

namespace Sys2Proof.Config

/-- The clock ceiling, 12 hours less one millisecond (spec 00, section 5.1; R13). -/
abbrev clockCeiling : Nat := 43199999

/-- The 32-bit value that stands for an absent time (spec 00, section 5.1; R185). -/
abbrev absentWord : Nat := 4294967295

/-- Byte addresses of shared memory: BASE has 64 bits (spec 12.2). -/
abbrev addressSpace : Nat := 18446744073709551616

/-- What a byte of shared memory reads as that nothing has written. DESIGN CHOICE, log entry 4 (unsafe). -/
abbrev unwrittenByte : Byte := 0

/-- The magic word and the format version (spec 12.3). -/
abbrev magic : Nat := 0x5A543630
abbrev formatVersion : Nat := 1

/-- IDENT: part code 0x2E3C and revision 1 (spec 12.2). -/
abbrev ident : Word := 0x2E3C0001

/-- Capacities: landing buffer (R55), cluster table (R76), closed-crossing memory (R84), intake
queue (R90), schedule (R134), wake history (R160), spill buffer (R176), records of a page (R176). -/
abbrev landingCapacity : Nat := 64
abbrev holdClearsAt : Nat := 16
abbrev clusterCapacity : Nat := 1024
abbrev closedMemoryCapacity : Nat := 512
abbrev intakeCapacity : Nat := 256
abbrev scheduleCapacity : Nat := 48
abbrev wakeCapacity : Nat := 15
abbrev spillCapacity : Nat := 256
abbrev pageRecords : Nat := 128
abbrev tallyLimit : Nat := 65535

/-- Intervals in milliseconds: mat reply window (R57), round (R56), stale and future limits (R75),
panel reply window (R169), back-off (R170), probe (R171), status timer (R152). -/
abbrev matWindow : Nat := 2
abbrev roundInterval : Nat := 5
abbrev staleLimit : Nat := 60000
abbrev futureLimit : Nat := 2000
abbrev panelWindow : Nat := 20
abbrev backOff : Nat := 50
abbrev probeInterval : Nat := 5000
abbrev statusInterval : Nat := 1000

/-- The longest a frame begun before the close of a reply window is received past it, in milliseconds: 260 characters
(address, type, length, 255 payload bytes, check) with up to ten character times before each (R57, R169, R186; the bit
rates of spec 04 and 10; log entry 11). -/
abbrev matReception : Nat := 29
abbrev panelReception : Nat := 58

/-- FREE VALUE: which of the part's ready events is taken next, and whether time passes first, at
each idle step (the manual fixes no order between its blocks: R29, R147, R177; log entry 3). -/
opaque pick : Nat → Nat

/-- FREE VALUE: which steps are under way when a power-on reset comes, and how many of its writes each has made. The
manual lets the writes of an abandoned step be made in part (R114) and does not say how many. Log entry 8. -/
opaque underwayAtPowerOn : Nat → List Cut

/-- FREE VALUE: the elapsed time from `u` to `t` of the split arithmetic where `u` is later than `t`.
R101 and R102 rely on the course order of the record and state no result where the host has broken
it. DESIGN CHOICE, log entry 15. -/
opaque unstatedElapsed : Nat → Nat → Nat

end Sys2Proof.Config
end

