-- ==== Sys2Proof/Machine/State.lean ====
section
/-! DEFINITION. The state of the engine as plain data: every block's registers, collections and
timers, the shared memory, and the queue of commands that wait. -/

namespace Sys2Proof.Machine

/-! ## Codes the manual names -/

/-- The six engine states (R1), in the code order of spec 12.2. -/
inductive Engine where
  | idle | loading | prep | race | closed | halted
  deriving DecidableEq, Repr

/-- The load error of STATUS (R10), in the code order of spec 12.2. -/
inductive LoadError where
  | noError | badMagic | badSize | badCourse | badPointOrder | badMatset | badWave | badScreen
  | badFace | unsortedChips | dupChip | badRunnerRef | badJournal
  deriving DecidableEq, Repr

/-- The nine notice causes (R183), in the bit order of spec 12.2. -/
inductive Cause where
  | workDone | pageSealed | watch | journalSpill | journalGap | lineFault | clockCeiling | loadDone
  | memoryFault
  deriving DecidableEq, Repr

/-- The kind of a course point (R37). -/
inductive PointKind where
  | start | split | finish
  deriving DecidableEq, Repr

/-- The source of a point's crossings (R38): LOCAL or REMOTE. -/
inductive Source where
  | fromMats | fromHost
  deriving DecidableEq, Repr

/-- The time choice of a point (R39). -/
inductive TimeChoice where
  | first | peak
  deriving DecidableEq, Repr

/-- The status of a runner (R46), in the code order of spec 12.3. -/
inductive Status where
  | registered | onCourse | finished | withdrawn | held
  deriving DecidableEq, Repr

/-- The eight work item kinds (R27), in the code order of spec 12.4 from 1. -/
inductive WorkKind where
  | remoteCrossing | startWave | runnerStatus | setWatch | setName | correctSplit | banner | flushJournal
  deriving DecidableEq, Repr

/-- The outcome codes an item ends with (R34), in the code order of spec 12.4. -/
inductive OutcomeCode where
  | ok | badKind | badState | noRunner | badPoint | badTime | conflict | refusedStatus | aborted
  deriving DecidableEq, Repr

/-- The exception codes (R111, R75), in the code order of spec 12.5 from 1. -/
inductive ExceptionCode where
  | strayChip | staleRead | futureRead | withdrawnRunner | repeated | beforeGun | orderConflict | suspectFast
  deriving DecidableEq, Repr

/-- The LINE events (R71, R174), in the code order of spec 12.5 from 1. -/
inductive LineEvent where
  | decoderSilent | decoderBack | antennaFault | antennaClear | panelOffline | panelBack
  deriving DecidableEq, Repr

/-- The actions of RUNNER_STATUS (R120), in the code order of spec 12.4. -/
inductive StatusAction where
  | withdraw | reinstate | hold | release
  deriving DecidableEq, Repr

/-- A face's activity (R155, R156). -/
inductive Activity where
  | busy | quiet | idle
  deriving DecidableEq, Repr

/-- A screen's power state (R158), in the code order of spec 12.3. -/
inductive Power where
  | active | dim | dark
  deriving DecidableEq, Repr

/-! ## The loaded copy (R36) -/

/-- A course point of the loaded copy (R36 to R39). -/
structure Point where
  distance : Nat
  kind     : PointKind
  source   : Source
  /-- Bit m set: mat m belongs to the point. -/
  mats     : Byte
  /-- Merge window, ms, default applied. -/
  window   : Nat
  choice   : TimeChoice
  deriving DecidableEq, Repr

/-- A face of a screen in the loaded copy (R44). -/
structure Face where
  feed   : Nat
  x      : Nat
  lead   : Nat
  linger : Nat
  deriving DecidableEq, Repr

/-- A screen of the loaded copy, defaults applied and the plus-one fields decoded (R42, R43). -/
structure Screen where
  line       : LineIx
  address    : Nat
  rows       : Nat
  face0      : Face
  /-- Absent when the face count is 1 (R44). -/
  face1      : Option Face
  dwell      : Nat
  high       : Nat
  low        : Nat
  /-- dim_after, dark_after, wake lead and flap window in seconds, as the table holds them. -/
  dimAfter   : Nat
  darkAfter  : Nat
  wakeLead   : Nat
  flapLimit  : Nat
  flapWindow : Nat
  deriving DecidableEq, Repr

/-- The loaded copy (R36): directory settings with their defaults, table offsets and counts, points,
screens and page offsets. The counts of points, screens and pages are the lengths of their lists, and the finish
distance and each mat's point are read off the points. -/
structure Loaded where
  points        : List Point
  screens       : List Screen
  sweepInterval : Nat
  sealInterval  : Nat
  pMin          : Nat
  pMax          : Nat
  cutoff        : Nat
  waveOffset    : Nat
  runnerOffset  : Nat
  runnerCount   : Nat
  chipOffset    : Nat
  chipCount     : Nat
  courseOffset  : Nat
  screenOffset  : Nat
  pageDirOffset : Nat
  workOffset    : Nat
  slotCount     : Nat
  statusOffset  : Nat
  /-- Page offsets from BASE, one per page. -/
  pages         : List Nat
  deriving DecidableEq, Repr

/-! ## Mat lines (R55) -/

/-- A landed read (R62): the antenna number is not kept. -/
structure Read where
  chip     : Word
  stamp    : Nat
  strength : Byte
  mat      : Fin 8
  deriving DecidableEq, Repr

/-- A decoder record (R55). -/
structure Decoder where
  /-- The decoder's mat belongs to some point (R38). -/
  present      : Bool
  /-- SILENT rather than ACTIVE. -/
  silent       : Bool
  silentCount  : Nat
  lastTaken    : Option Byte
  hold         : Bool
  antennaFault : Bool
  /-- Landing buffer, oldest read first (R65). -/
  buffer       : List Read
  deriving DecidableEq, Repr

/-- An exchange in flight on a line (R57, R169): whom it calls, when its reply window opened and when it closes, and
whether a frame begun in the window is still being received after the close. -/
structure Exchange where
  /-- Mat line: the decoder address. Panel line: the panel's screen index. -/
  target    : Nat
  opened    : Nat
  closes    : Nat
  /-- The window has closed and a reception begun in it goes on: the exchange ends when the reception ends. -/
  receiving : Bool
  deriving DecidableEq, Repr

/-- The line-wide state of a mat line (R55, R56, R60). -/
structure MatLine where
  /-- Round number, 0 to 7. -/
  round       : Nat
  /-- The address the round visits next: 1 to 4, or 5 when it has visited address 4. -/
  nextAddress : Nat
  /-- Local time at which the round began. -/
  roundBegan  : Nat
  pendingMark : Option Nat
  exchange    : Option Exchange
  /-- The frame last sent on the line, as bytes on the wire (log entry 13). -/
  sent        : List Byte
  deriving DecidableEq, Repr

/-! ## Crossing assembler (R76, R84, R86) -/

/-- A cluster of the cluster table (R76). -/
structure Cluster where
  point    : Nat
  chip     : Word
  first    : Nat
  chosen   : Nat
  best     : Byte
  count    : Nat
  deadline : Nat
  /-- CLOSING rather than OPEN. -/
  closing  : Bool
  early    : Bool
  deriving DecidableEq, Repr

/-- An entry of the closed-crossing memory (R84). -/
structure ClosedEntry where
  point  : Nat
  chip   : Word
  chosen : Nat
  deriving DecidableEq, Repr

/-- A read with its point (R74). -/
structure PlacedRead where
  read  : Read
  point : Nat
  deriving DecidableEq, Repr

/-- The crossing assembler. The CLOSING list is computed from the table (R82). -/
structure Assembler where
  clusters   : List Cluster
  /-- Closed-crossing memory, oldest first. -/
  memory     : List ClosedEntry
  held       : Option PlacedRead
  arbiter    : Fin 8
  /-- An offer was refused; the next is made when the split unit next takes an item (R82). -/
  offerWaits : Bool
  deriving DecidableEq, Repr

/-! ## Intake queue and work items (R90) -/

/-- A closed crossing as the intake queue takes it (R83). -/
structure ClosedCrossing where
  point : Nat
  chip  : Word
  time  : Nat
  count : Nat
  best  : Byte
  early : Bool
  deriving DecidableEq, Repr

/-- A work item as the sweep read it from its slot (R26, R90). -/
structure WorkItem where
  slot   : Nat
  kind   : WorkKind
  notify : Bool
  /-- The 40 bytes of the body. -/
  body   : List Byte
  deriving DecidableEq, Repr

/-- An item of the intake queue (R90). -/
inductive IntakeItem where
  | crossing (c : ClosedCrossing)
  | work (w : WorkItem)
  deriving DecidableEq, Repr

/-- A reported end of an item that the sweep unit has yet to write to its slot (R32). -/
structure EndReport where
  slot    : Nat
  outcome : OutcomeCode
  word0   : Word
  word1   : Word
  notify  : Bool
  deriving DecidableEq, Repr

/-- The work sweep (R22 to R24, R32). -/
structure Sweep where
  /-- The slot the running sweep visits next; none: no sweep runs. -/
  at?       : Option Nat
  /-- The sweep has taken and failed that slot and goes on once its outcome and FAILED are written (R26, R27, R28). -/
  waits     : Bool
  requested : Bool
  /-- Local time at which the sweep timer started; none: stopped. -/
  timer     : Option Nat
  inFlight  : List Nat
  ends      : List EndReport
  deriving DecidableEq, Repr

/-! ## Screen scheduler (R132, R133, R154) -/

/-- What a row shows (R133). -/
structure Snapshot where
  bib        : Nat
  name       : List Byte
  net        : Nat
  pace       : Nat
  projection : Option Nat
  watch      : Bool
  deriving DecidableEq, Repr

/-- A schedule entry (R133): PENDING while `shownSince` is absent, SHOWN while it is present. -/
structure Entry where
  runner     : Nat
  face       : FaceIx
  onTime     : Nat
  arrival    : Nat
  offTime    : Nat
  priority   : Nat
  shownSince : Option Nat
  snapshot   : Snapshot
  deriving DecidableEq, Repr

/-- A screen's banner (R132). -/
structure Banner where
  text   : List Byte
  expiry : Option Nat
  deriving DecidableEq, Repr

/-- A face's activity and its idle since (R154); the latter counts while the face is not BUSY. -/
structure FaceState where
  activity  : Activity
  idleSince : Nat
  deriving DecidableEq, Repr

/-- The scheduler's state of one screen (R132, R154). The board is computed from the schedule (R140). -/
structure ScreenState where
  schedule : List Entry
  floor    : Nat
  dropped  : Nat
  missed   : Nat
  banner   : Option Banner
  faces    : Vector FaceState 2
  power    : Power
  dimSince : Option Nat
  demoted  : Bool
  force    : Bool
  /-- Wake history, oldest first. -/
  wakes    : List Nat
  deriving DecidableEq, Repr

/-- A screen request (R112). -/
structure Request where
  screen   : Nat
  face     : FaceIx
  runner   : Nat
  onTime   : Nat
  arrival  : Nat
  offTime  : Nat
  priority : Nat
  snapshot : Snapshot
  deriving DecidableEq, Repr

/-- A hand-over from the split unit to the scheduler (R112, R122, R130). -/
inductive HandOver where
  | request (r : Request)
  | purge (runner : Nat)
  | removal (screen : Nat) (face : FaceIx) (runner : Nat)
  deriving DecidableEq, Repr

/-! ## Panel lines (R164) -/

/-- The key a frame waits under (R166). -/
inductive FrameKey where
  | row (r : Nat)
  | brightness
  | banner
  | ping
  deriving DecidableEq, Repr

/-- A frame of an outbox: its key, its type byte, its rendered payload and its replaced-since-sent indicator (R166, R167). -/
structure OutFrame where
  key      : FrameKey
  type     : Byte
  payload  : List Byte
  replaced : Bool
  deriving DecidableEq, Repr

/-- A panel record (R164). It belongs to the screen at its place in the list. -/
structure Panel where
  line     : LineIx
  address  : Nat
  online   : Bool
  outbox   : List OutFrame
  misses   : Nat
  waits    : Nat
  backOff  : Option Nat
  probeDue : Option Nat
  deriving DecidableEq, Repr

/-- The line-wide state of a panel line (R164, R173). -/
structure PanelLine where
  /-- Service position, a panel address 1 to 16. -/
  position     : Nat
  pendingClock : Option Nat
  exchange     : Option Exchange
  /-- The frame last sent on the line, as bytes on the wire (log entry 13). -/
  sent         : List Byte
  deriving DecidableEq, Repr

/-! ## Journal writer (R176) -/

/-- A journal record by the fields of spec 12.5; `tail` is bytes 28 to 31. -/
structure JRecord where
  kind   : Byte
  point  : Byte
  flags  : Half
  code   : Byte
  second : Byte
  runner : Half
  time   : Word
  value1 : Word
  value2 : Word
  value3 : Word
  value4 : Word
  tail   : Word
  deriving DecidableEq, Repr

/-- A record of the spill buffer, with the serial it took (R181) and its watch mark (R182). -/
structure Spilled where
  record : JRecord
  serial : Word
  gap    : Bool
  watch  : Bool
  deriving DecidableEq, Repr

/-- The journal writer (R176). -/
structure Journal where
  current   : Option Nat
  fill      : Nat
  nextPage  : Nat
  serial    : Word
  pageSeq   : Word
  /-- Spill buffer, oldest first. -/
  spill     : List Spilled
  dropped   : Nat
  /-- Local time at which the seal timer started; none: stopped. -/
  sealTimer : Option Nat
  /-- FLUSH_JOURNAL items handed over and not yet acted on (R182). -/
  flushes   : List WorkItem
  deriving DecidableEq, Repr

/-! ## The memory port -/

/-- The memory port within a step: free, or, in a step that a reset or a fault report cuts short, the number of writes
it still makes before it stops at the next one, or the number of writes it makes before the one it stops after; then
stopped, in the engine state given (R16, R17; log entry 8). Between steps it is free. -/
inductive Port where
  | free
  | left (writes : Nat)
  | last (before : Nat)
  | stopped (engine : Engine)
  deriving DecidableEq, Repr

/-! ## The whole part -/

/-- The state of the part, the shared memory, and the commands that wait. -/
structure State where
  engine         : Engine
  loadError      : LoadError
  /-- The command-refused flag of STATUS (R2). -/
  commandRefused : Bool
  /-- The memory-fault region of STATUS (R16); none: NONE. -/
  faultRegion    : Option Region
  base           : BitVec 64
  cause          : BitVec 9
  causeEnable    : BitVec 9
  watchLevel     : BitVec 3
  raceClock      : Nat
  localTime      : Nat
  /-- The race second of the last second mark given since START (R14). -/
  lastMark       : Option Nat
  /-- CLOCK_CEILING has been set since START (R13). -/
  ceilingGiven   : Bool
  /-- The resume-load record (R9): whether the clock start value of the load was non-zero. -/
  resume         : Option Bool
  loaded         : Option Loaded
  /-- Shared memory: cells at strictly rising addresses, none equal to what an unlisted byte reads as. -/
  mem            : List Host.Cell
  /-- Byte addresses the board's memory refuses (R16; log entry 6). -/
  refused        : List Nat
  /-- The memory port within a step (log entry 8). -/
  port           : Port
  matLines       : Vector MatLine 2
  decoders       : Vector Decoder 8
  assembler      : Assembler
  /-- Intake queue; its head is the item in flight (R90). -/
  intake         : List IntakeItem
  /-- The item's clock reading: the race clock when the item in flight became the head (R91); none: no item. -/
  itemClock      : Option Nat
  sweep          : Sweep
  screens        : List ScreenState
  handovers      : List HandOver
  bannerItems    : List WorkItem
  /-- Local time at which the status timer started; none: stopped (R152). -/
  statusTimer    : Option Nat
  panels         : List Panel
  panelLines     : Vector PanelLine 2
  journal        : Journal
  /-- How many free choices the idle steps have made (log entry 3). -/
  picks          : Nat
  /-- The commands that wait, first in first out. -/
  pending        : List Instr
  deriving DecidableEq, Repr

/-- Reasons for a machine stop by a fault. The manual names none: a memory fault (R16) is a next
state, HALTED; a refused command (R2) is a next state with its flag set. No command raises one. -/
inductive Fault where
  deriving DecidableEq, Repr

/-- Reasons for a refusal. -/
inductive Refusal where
  /-- Raised by an arm of `exec` whose command has no meaning yet; safe (the machine stops). No arm raises it now. -/
  | notModelled (mnemonic : String)
  deriving DecidableEq, Repr

/-! ## Reset -/

/-- A decoder record after either reset (R55, R72). Presence is not known until PREP. -/
def Decoder.reset : Decoder :=
  ⟨false, false, 0, none, false, false, []⟩

/-- A mat line after either reset (R72); the items no rule gives are those of log entry 14. -/
def MatLine.reset : MatLine :=
  ⟨0, 5, 0, none, none, []⟩

/-- The assembler after either reset (R89). -/
def Assembler.reset : Assembler :=
  ⟨[], [], none, 0, false⟩

/-- The sweep unit after either reset (R35). -/
def Sweep.reset : Sweep :=
  ⟨none, false, false, none, [], []⟩

/-- A panel line after either reset (R175); the service position is that of log entry 14. -/
def PanelLine.reset : PanelLine :=
  ⟨1, none, none, []⟩

/-- The journal writer after either reset (R176); the next page is that of log entry 14. -/
def Journal.reset : Journal :=
  ⟨none, 0, 0, 0, 0, [], 0, none, []⟩

/-- The part right after power-on (R18), with nothing listed in shared memory, no refused address and no command waiting. -/
def State.reset : State where
  engine         := .idle
  loadError      := .noError
  commandRefused := false
  faultRegion    := none
  base           := 0
  cause          := 0
  causeEnable    := 0
  watchLevel     := 0
  raceClock      := 0
  localTime      := 0
  lastMark       := none
  ceilingGiven   := false
  resume         := none
  loaded         := none
  mem            := []
  refused        := []
  port           := .free
  matLines       := #v[MatLine.reset, MatLine.reset]
  decoders       := #v[Decoder.reset, Decoder.reset, Decoder.reset, Decoder.reset,
                       Decoder.reset, Decoder.reset, Decoder.reset, Decoder.reset]
  assembler      := Assembler.reset
  intake         := []
  itemClock      := none
  sweep          := Sweep.reset
  screens        := []
  handovers      := []
  bannerItems    := []
  statusTimer    := none
  panels         := []
  panelLines     := #v[PanelLine.reset, PanelLine.reset]
  journal        := Journal.reset
  picks          := 0
  pending        := []

end Sys2Proof.Machine
end

