-- ==== Sys2Proof/Machine/Ops.lean ====
section
/-! DEFINITION. The named operations every block uses: little-endian fields, shared memory, the
memory port with its faults, and the accessors of the collections. -/

namespace Sys2Proof.Machine

/-! ## Little-endian fields (R185) -/

/-- The `n` bytes of a field, least significant first. -/
def leBytes : (n : Nat) → (value : Nat) → List Byte
  | 0, _ => []
  | n + 1, v => BitVec.ofNat 8 v :: leBytes n (v / 256)

/-- The value of a field whose bytes are given least significant first. -/
def leValue : List Byte → Nat
  | [] => 0
  | b :: bs => b.toNat + 256 * leValue bs

/-! ## Shared memory -/

/-- The byte at an address; one that is not listed reads as `Config.unwrittenByte` (log entry 4). -/
def Memory.read : List Host.Cell → Nat → Byte
  | [], _ => Config.unwrittenByte
  | (k, b) :: m, a => if k = a then b else Memory.read m a

/-- One byte written, in the canonical form: the cell is removed when it would hold what an unlisted byte reads as. -/
def Memory.write : List Host.Cell → Nat → Byte → List Host.Cell
  | [], a, v => if v = Config.unwrittenByte then [] else [(a, v)]
  | (k, b) :: m, a, v =>
    if a < k then
      if v = Config.unwrittenByte then (k, b) :: m else (a, v) :: (k, b) :: m
    else if a = k then
      if v = Config.unwrittenByte then m else (a, v) :: m
    else (k, b) :: Memory.write m a v

/-- The canonical form: addresses strictly rising, no cell equal to what an unlisted byte reads as. -/
def Memory.wf : List Host.Cell → Bool
  | [] => true
  | [(_, b)] => b != Config.unwrittenByte
  | (k, b) :: (k', b') :: m => decide (k < k') && b != Config.unwrittenByte && Memory.wf ((k', b') :: m)

/-- The next byte address; the address space wraps (log entry 5). -/
def nextAddr (a : Nat) : Nat := (a + 1) % Config.addressSpace

/-- `n` bytes from an address up. -/
def Memory.readBytes (m : List Host.Cell) : (a n : Nat) → List Byte
  | _, 0 => []
  | a, n + 1 => Memory.read m a :: Memory.readBytes m (nextAddr a) n

/-- Bytes written from an address up. -/
def Memory.writeBytes : List Host.Cell → Nat → List Byte → List Host.Cell
  | m, _, [] => m
  | m, a, b :: bs => Memory.writeBytes (Memory.write m a b) (nextAddr a) bs

/-- Whether `x` is one of the `n` bytes from address `a` up. -/
def inBytes (a n x : Nat) : Bool :=
  decide ((x + Config.addressSpace - a) % Config.addressSpace < n)

/-! ## Notice causes (R183) -/

/-- The bit of a cause in CAUSE and CAUSE_ENABLE (spec 12.2). -/
def Cause.bit : Cause → Nat
  | .workDone => 0
  | .pageSealed => 1
  | .watch => 2
  | .journalSpill => 3
  | .journalGap => 4
  | .lineFault => 5
  | .clockCeiling => 6
  | .loadDone => 7
  | .memoryFault => 8

/-- CAUSE with one cause set; setting a set cause changes nothing (R183). -/
def withCause (cause : BitVec 9) (c : Cause) : BitVec 9 :=
  cause ||| (1#9 <<< c.bit)

/-- A cause is set (R183). -/
def State.setCause (c : Cause) (s : State) : State :=
  { s with cause := withCause s.cause c }

/-- Whether a cause is set. -/
def State.hasCause (c : Cause) (s : State) : Bool :=
  s.cause.getLsbD c.bit

/-! ## Memory faults (R16) and the memory port -/

/-- The engine leaves RACE: a pending mark not yet sent is cleared (R60). -/
def MatLine.dropMark (l : MatLine) : MatLine := { l with pendingMark := none }

/-- The engine leaves RACE: a pending clock not yet sent is cleared (R173). -/
def PanelLine.dropClock (l : PanelLine) : PanelLine := { l with pendingClock := none }

/-- Both lines of a pair changed alike. -/
def mapTwo {α : Type} (f : α → α) (v : Vector α 2) : Vector α 2 :=
  #v[f v[0], f v[1]]

/-- A memory fault is reported for a region (R16): HALTED, MEMORY_FAULT set, the first fault's region
kept; the sweep and status timers stop (R23, R152), marks and clocks not yet sent go (R60, R173),
and every collection stays. -/
def State.halt (r : Region) (s : State) : State :=
  { s with
    engine      := .halted
    faultRegion := if s.engine = .halted then s.faultRegion else some r
    cause       := withCause s.cause .memoryFault
    matLines    := mapTwo MatLine.dropMark s.matLines
    panelLines  := mapTwo PanelLine.dropClock s.panelLines
    sweep       := { s.sweep with timer := none }
    statusTimer := none }

/-- What a step does next, unless a memory fault has halted the engine: every block then stops where it stands (R16). -/
def State.andThen (s : State) (f : State → State) : State :=
  if s.engine = .halted then s else f s

/-- Whether the board's memory refuses an access to the `n` bytes from `a` up (log entry 6). -/
def State.refuses (s : State) (a n : Nat) : Bool :=
  s.refused.any (inBytes a n)

/-- An access through the memory port for a region: a refused one is a memory fault (R16). -/
def State.access (r : Region) (a n : Nat) (s : State) : State :=
  if s.refuses a n then s.halt r else s

/-- Shared memory replaced. -/
def State.withMem (m : List Host.Cell) (s : State) : State := { s with mem := m }

/-- The memory port stops the step here (R16, R17). -/
def State.stopPort (s : State) : State := { s with engine := .halted, port := .stopped s.engine }

/-- A field written through the port. A step cut short stops before the field where no write is left to it, and right
after the field where that is the last it makes; otherwise one write fewer is left. -/
def State.put (a : Nat) (bs : List Byte) (s : State) : State :=
  match s.port with
  | .left 0 => s.stopPort
  | .left (n + 1) => { s with mem := Memory.writeBytes s.mem a bs, port := .left n }
  | .last 0 => (s.withMem (Memory.writeBytes s.mem a bs)).stopPort
  | .last (n + 1) => { s with mem := Memory.writeBytes s.mem a bs, port := .last n }
  | .free | .stopped _ => s.withMem (Memory.writeBytes s.mem a bs)

/-- One write access of the memory port: the field is written whole or, refused, left as it was (R53, R54). -/
def State.store (r : Region) (a : Nat) (bs : List Byte) (s : State) : State :=
  (s.access r a bs.length).andThen (State.put a bs)

/-- A list of read accesses, in order. -/
def State.accessAll : List (Region × Nat × Nat) → State → State
  | [], s => s
  | (r, a, n) :: rest, s => (s.access r a n).andThen (State.accessAll rest)

/-- A list of write accesses, each complete before the next begins. -/
def State.storeAll : List (Region × Nat × List Byte) → State → State
  | [], s => s
  | (r, a, bs) :: rest, s => (s.store r a bs).andThen (State.storeAll rest)

/-- The address of a byte offset from BASE (spec 12; log entry 5). -/
def State.addr (s : State) (offset : Nat) : Nat :=
  (s.base.toNat + offset) % Config.addressSpace

/-- The value of the `n`-byte field at an offset from BASE, as memory holds it. -/
def State.field (s : State) (offset n : Nat) : Nat :=
  leValue (Memory.readBytes s.mem (s.addr offset) n)

/-- The bytes of the `n`-byte field at an offset from BASE. -/
def State.fieldBytes (s : State) (offset n : Nat) : List Byte :=
  Memory.readBytes s.mem (s.addr offset) n

/-! ## Steps cut short (R16, R17, R114) -/

/-- The state a step left when it was cut short: the port is free again, and the engine is in the state the step had
it in where the port stopped it. -/
def State.openPort (s : State) : State :=
  match s.port with
  | .stopped e => { s with engine := e, port := .free }
  | .free | .left _ | .last _ => { s with port := .free }

/-- A step carried out with the memory port as given. -/
def State.withPort (p : Port) (step : State → State) (s : State) : State := (step { s with port := p }).openPort

/-- A step carried out until it has made `made` writes: it stops right after the last of them (before it begins, where
there is none), or, onward, before the next. -/
def cutAt (made : Nat) (onward : Bool) (step : State → State) (s : State) : State :=
  if onward then s.withPort (.left made) step
  else
    match made with
    | 0 => s
    | n + 1 => s.withPort (.last n) step

/-! ## Accessors -/

/-- The loaded copy with nothing in it: what the blocks see before a load has reached PREP (R36). -/
def Loaded.blank : Loaded :=
  ⟨[], [], 0, 0, 0, 0, 0, 0, 0, 0, 0, 0, 0, 0, 0, 0, 0, 0, []⟩

/-- The loaded copy the blocks use (R36). -/
def State.config (s : State) : Loaded := s.loaded.getD Loaded.blank

/-- The engine is in one of the states in which the blocks work: PREP, RACE, CLOSED (R1). -/
def State.working (s : State) : Bool :=
  s.engine = .prep || s.engine = .race || s.engine = .closed

/-- The engine is in RACE or CLOSED, where the assembler draws (R73). -/
def State.racing (s : State) : Bool :=
  s.engine = .race || s.engine = .closed

/-- The mat line controllers call: in RACE, and in PREP unless the load was a resume load (R58). -/
def State.polls (s : State) : Bool :=
  s.engine = .race || (s.engine = .prep && s.resume = some false)

/-- A mat line's state replaced. -/
def State.withMatLine (l : LineIx) (x : MatLine) (s : State) : State :=
  { s with matLines := s.matLines.set l x }

/-- A decoder's record replaced. -/
def State.withDecoder (m : Fin 8) (d : Decoder) (s : State) : State :=
  { s with decoders := s.decoders.set m d }

/-- A panel line's state replaced. -/
def State.withPanelLine (l : LineIx) (x : PanelLine) (s : State) : State :=
  { s with panelLines := s.panelLines.set l x }

/-- The assembler replaced. -/
def State.withAssembler (a : Assembler) (s : State) : State := { s with assembler := a }

/-- The work sweep replaced. -/
def State.withSweep (w : Sweep) (s : State) : State := { s with sweep := w }

/-- The journal writer replaced. -/
def State.withJournal (j : Journal) (s : State) : State := { s with journal := j }

/-- An item joins the tail of the intake queue; at an empty queue it becomes the head, its handling begins, and its clock
reading is taken (R90, R91). -/
def State.pushIntake (x : IntakeItem) (s : State) : State :=
  { s with
    intake    := s.intake ++ [x]
    itemClock := if s.intake.isEmpty then some s.raceClock else s.itemClock }

/-- The item leaves the head of the intake queue and the next one, if any, becomes the head with its own clock reading;
a waiting offer of the assembler may now be made (R82, R90, R91). -/
def State.popIntake (s : State) : State :=
  { s with
    intake    := s.intake.tail
    itemClock := if s.intake.tail.isEmpty then none else some s.raceClock
    assembler := { s.assembler with offerWaits := false } }

/-- The item's clock reading: "the race clock now" of the item in flight (R91). -/
def State.itemNow (s : State) : Nat := s.itemClock.getD s.raceClock

/-- A panel record replaced (nothing where no screen has that index). -/
def State.withPanel (i : Nat) (p : Panel) (s : State) : State :=
  { s with panels := s.panels.set i p }

/-- A screen's state replaced (nothing where no screen has that index). -/
def State.withScreen (i : Nat) (x : ScreenState) (s : State) : State :=
  { s with screens := s.screens.set i x }

/-- The mat at a decoder address of a mat line: four times the line plus the address less one (spec 00, section 5.5). -/
def matAt (l : LineIx) (address : Nat) : Fin 8 :=
  Fin.ofNat 8 (4 * l.val + (address - 1))

/-- Whether an interval that started at a local time has elapsed (R15). -/
def State.elapsed (s : State) (since interval : Nat) : Bool :=
  decide (since + interval ≤ s.localTime)

end Sys2Proof.Machine
end

