-- ==== Sys2Proof/Machine/Flags.lean ====
section
/-! DEFINITION. The register views, the interrupt line, and the flag words of split slots and journal records. -/

namespace Sys2Proof.Machine

/-! ## Register views (spec 12.2) -/

/-- The registers of the register window. -/
inductive Register where
  | ident | control | status | baseLo | baseHi | sweep | cause | causeEnable
  deriving DecidableEq, Repr

def Engine.code : Engine → Nat
  | .idle => 0 | .loading => 1 | .prep => 2 | .race => 3 | .closed => 4 | .halted => 5

def LoadError.code : LoadError → Nat
  | .noError => 0 | .badMagic => 1 | .badSize => 2 | .badCourse => 3 | .badPointOrder => 4
  | .badMatset => 5 | .badWave => 6 | .badScreen => 7 | .badFace => 8 | .unsortedChips => 9
  | .dupChip => 10 | .badRunnerRef => 11 | .badJournal => 12

def Region.code : Region → Nat
  | .directory => 1 | .course => 2 | .wave => 3 | .screen => 4 | .runner => 5 | .chip => 6
  | .work => 7 | .pageDirectory => 8 | .page => 9 | .screenStatus => 10

/-- The memory-fault region field: 0 is NONE. -/
def regionField : Option Region → Nat
  | none => 0
  | some r => Region.code r

/-- STATUS: engine state in bits 2 to 0, load error in 11 to 8, the command-refused flag in 12, the memory-fault region in
19 to 16 (R3). The bits that no field names read 0: the model's choice, log entry 29. -/
def State.statusWord (s : State) : Word :=
  BitVec.ofNat 32 (s.engine.code + 256 * s.loadError.code + 4096 * s.commandRefused.toNat
    + 65536 * regionField s.faultRegion)

/-- What a read of a register returns (R3); it has no side effect. -/
def readRegister (r : Register) (s : State) : Word :=
  match r with
  | .ident => Config.ident
  | .control => 0
  | .status => s.statusWord
  | .baseLo => s.base.truncate 32
  | .baseHi => (s.base >>> 32).truncate 32
  | .sweep => 0
  | .cause => s.cause.zeroExtend 32
  | .causeEnable => (s.causeEnable.zeroExtend 32) ||| ((s.watchLevel.zeroExtend 32) <<< 24)

/-- The interrupt line: asserted while a cause is both set and enabled (R183). -/
def State.interruptLine (s : State) : Bool :=
  s.cause &&& s.causeEnable != 0

/-! ## Flag words -/

/-- A flag word from the flags that stand, each at its bit. -/
def flagWord : List (Bool × Nat) → Half
  | [] => 0
  | (b, i) :: rest => (if b then 1#16 <<< i else 0) ||| flagWord rest

/-- The flags a crossing or a correction collects (R95 to R106, R126). -/
structure SplitFlags where
  netEstimated : Bool := false
  startClamped : Bool := false
  suspect      : Bool := false
  slow         : Bool := false
  missed       : Bool := false
  lateFill     : Bool := false
  lateStart    : Bool := false
  remote       : Bool := false
  earlyClose   : Bool := false
  held         : Bool := false
  gunUnknown   : Bool := false
  beyondCutoff : Bool := false
  corrected    : Bool := false
  deriving DecidableEq, Repr

/-- The flags a split slot keeps (R47, R108), by the bits of spec 12.3. -/
def SplitFlags.slotWord (f : SplitFlags) : Half :=
  flagWord [(f.suspect, 0), (f.remote, 1), (f.lateFill, 2), (f.earlyClose, 3), (f.held, 4),
    (f.gunUnknown, 5), (f.corrected, 6), (f.startClamped, 7)]

/-- The flags a journal record carries (R110, R129), by the bits of spec 12.5. -/
def SplitFlags.journalWord (f : SplitFlags) : Half :=
  flagWord [(f.netEstimated, 0), (f.startClamped, 1), (f.suspect, 2), (f.slow, 3), (f.missed, 4),
    (f.lateFill, 5), (f.lateStart, 6), (f.remote, 7), (f.earlyClose, 8), (f.held, 9),
    (f.gunUnknown, 10), (f.beyondCutoff, 11), (f.corrected, 12)]

/-- SUSPECT in a slot's flag word (spec 12.3). -/
def slotSuspect (flags : Half) : Bool := flags.getLsbD 0

end Sys2Proof.Machine
end

