-- ==== Sys2Proof/Machine/Operands.lean ====
section
/-! DEFINITION. How fields are read and written: optional times, codes, the runner record and its
split slots, wave entries, work slot bodies, line frames and their check, and display text. -/

namespace Sys2Proof.Machine

/-! ## Optional values and codes (R185) -/

/-- A time field of a table: a value above the clock ceiling, the absent value among them, reads as absent (R40, R45). -/
def optTime (raw : Nat) : Option Nat :=
  if raw ≤ Config.clockCeiling then some raw else none

/-- An optional value as its field holds it: absent is 4,294,967,295 (R185). -/
def absentOr : Option Nat → Nat
  | none => Config.absentWord
  | some v => v

/-- A value as a four-byte field. -/
def toWord (n : Nat) : Word := BitVec.ofNat 32 n

def PointKind.ofCode : Nat → Option PointKind
  | 0 => some .start
  | 1 => some .split
  | 2 => some .finish
  | _ => none

def Source.ofCode : Nat → Option Source
  | 0 => some .fromMats
  | 1 => some .fromHost
  | _ => none

def TimeChoice.ofCode : Nat → Option TimeChoice
  | 0 => some .first
  | 1 => some .peak
  | _ => none

/-- A runner's status; a code out of range reads as REGISTERED (R45). -/
def Status.ofCode : Nat → Status
  | 1 => .onCourse
  | 2 => .finished
  | 3 => .withdrawn
  | 4 => .held
  | _ => .registered

def Status.code : Status → Nat
  | .registered => 0
  | .onCourse => 1
  | .finished => 2
  | .withdrawn => 3
  | .held => 4

/-- The kind of a work slot (spec 12.4); other codes name none (R27). -/
def WorkKind.ofCode : Nat → Option WorkKind
  | 1 => some .remoteCrossing
  | 2 => some .startWave
  | 3 => some .runnerStatus
  | 4 => some .setWatch
  | 5 => some .setName
  | 6 => some .correctSplit
  | 7 => some .banner
  | 8 => some .flushJournal
  | _ => none

/-- The action of RUNNER_STATUS (spec 12.4); other values name none (R120). -/
def StatusAction.ofCode : Nat → Option StatusAction
  | 0 => some .withdraw
  | 1 => some .reinstate
  | 2 => some .hold
  | 3 => some .release
  | _ => none

def StatusAction.code : StatusAction → Nat
  | .withdraw => 0
  | .reinstate => 1
  | .hold => 2
  | .release => 3

def OutcomeCode.code : OutcomeCode → Nat
  | .ok => 0
  | .badKind => 1
  | .badState => 2
  | .noRunner => 3
  | .badPoint => 4
  | .badTime => 5
  | .conflict => 6
  | .refusedStatus => 7
  | .aborted => 8

/-- The slot states of spec 12.4. -/
abbrev slotPosted : Nat := 1
abbrev slotTaken : Nat := 2
abbrev slotDone : Nat := 3
abbrev slotFailed : Nat := 4

/-- The final state of a slot: DONE for OK, FAILED for every other outcome (R32, R34). -/
def OutcomeCode.finalState : OutcomeCode → Nat
  | .ok => slotDone
  | .badKind | .badState | .noRunner | .badPoint | .badTime | .conflict | .refusedStatus | .aborted => slotFailed

def ExceptionCode.code : ExceptionCode → Nat
  | .strayChip => 1
  | .staleRead => 2
  | .futureRead => 3
  | .withdrawnRunner => 4
  | .repeated => 5
  | .beforeGun => 6
  | .orderConflict => 7
  | .suspectFast => 8

def LineEvent.code : LineEvent → Nat
  | .decoderSilent => 1
  | .decoderBack => 2
  | .antennaFault => 3
  | .antennaClear => 4
  | .panelOffline => 5
  | .panelBack => 6

/-! ## Points of the loaded copy (R36 to R39) -/

/-- The point count of the loaded copy. -/
def Loaded.pointCount (L : Loaded) : Nat := L.points.length

/-- The distance of a point of the loaded copy. -/
def Loaded.distance (L : Loaded) (p : Nat) : Nat := (L.points[p]?.map Point.distance).getD 0

/-- The finish distance: that of the last point (R37). -/
def Loaded.finishDistance (L : Loaded) : Nat := L.distance (L.pointCount - 1)

/-- Whether a point is the FINISH point: the last of the course (R6, R37). -/
def Loaded.isFinish (L : Loaded) (p : Nat) : Bool := p + 1 == L.pointCount

/-- The point whose mat set holds a mat; none: the mat is absent (R38). -/
def Loaded.pointOfMat (L : Loaded) (m : Fin 8) : Option Nat :=
  L.points.findIdx? fun pt => pt.mats.getLsbD m

/-- The merge window of a point (R39). -/
def Loaded.window (L : Loaded) (p : Nat) : Nat := (L.points[p]?.map Point.window).getD 0

/-- The time choice of a point (R39). -/
def Loaded.choice (L : Loaded) (p : Nat) : TimeChoice := (L.points[p]?.map Point.choice).getD .first

/-! ## Runner records and wave entries (R40, R45, R47; spec 12.3) -/

/-- A split slot (R47): its time, present or absent, and its flags. -/
structure Slot where
  time  : Option Nat
  flags : Half
  deriving DecidableEq, Repr

/-- A runner record as the split unit reads it, out-of-range values read as R45 gives. -/
structure Runner where
  chip   : Word
  bib    : Nat
  /-- none: a wave number out of range. -/
  wave   : Option Nat
  status : Status
  watch  : Nat
  last   : Option Nat
  name   : List Byte
  start  : Option Nat
  /-- Slots 0 to point count − 1; those above are not read (R47). -/
  slots  : List Slot
  deriving DecidableEq, Repr

/-- The offset from BASE of a byte of a runner's record. -/
def runnerOffset (L : Loaded) (i o : Nat) : Nat := L.runnerOffset + 320 * i + o

/-- The offset of split slot p within a runner record. -/
def slotOffset (p : Nat) : Nat := 64 + 8 * p

/-- Split slot p of a runner's record. -/
def State.readSlot (s : State) (L : Loaded) (i p : Nat) : Slot :=
  ⟨optTime (s.field (runnerOffset L i (slotOffset p)) 4),
   BitVec.ofNat 16 (s.field (runnerOffset L i (slotOffset p + 4)) 2)⟩

/-- The runner record at an index, as memory holds it (R45). -/
def State.readRunner (s : State) (L : Loaded) (i : Nat) : Runner :=
  let f := fun o n => s.field (runnerOffset L i o) n
  let bib := f 4 4
  let wave := f 8 1
  let watch := f 10 1
  let last := f 12 1
  { chip   := toWord (f 0 4)
    bib    := if 1 ≤ bib ∧ bib ≤ 99999 then bib else 0
    wave   := if wave ≤ 15 then some wave else none
    status := Status.ofCode (f 9 1)
    watch  := if watch ≤ 7 then watch else 7
    last   := if last < L.pointCount then some last else none
    name   := s.fieldBytes (runnerOffset L i 16) 16
    start  := optTime (f 32 4)
    slots  := (List.range L.pointCount).map (s.readSlot L i) }

/-- The slot of a point, absent where the record has none. -/
def Runner.slot (r : Runner) (p : Nat) : Slot := r.slots.getD p ⟨none, 0⟩

/-- The runner's present time at a point: the start time stands as point 0 (R47). -/
def Runner.timeAt (r : Runner) (p : Nat) : Option Nat :=
  if p = 0 then r.start else (r.slot p).time

/-- Whether the runner has a split present: any present time, the start time among them (R47). -/
def Runner.hasSplit (r : Runner) (pointCount : Nat) : Bool :=
  (List.range pointCount).any fun p => (r.timeAt p).isSome

/-- The offset from BASE of a byte of a wave entry. -/
def waveOffset (L : Loaded) (w o : Nat) : Nat := L.waveOffset + 8 * w + o

/-- The gun time of a wave entry (R40). -/
def State.gunTime (s : State) (L : Loaded) (w : Nat) : Option Nat := optTime (s.field (waveOffset L w 0) 4)

/-- The fixed-on flag of a wave entry: set when not zero (R41, R185). -/
def State.fixedOn (s : State) (L : Loaded) (w : Nat) : Bool := s.field (waveOffset L w 4) 1 != 0

/-- The gun time of a runner's wave; a wave out of range has none (R96). -/
def State.runnerGun (s : State) (L : Loaded) (r : Runner) : Option Nat := r.wave.bind (s.gunTime L)

/-! ## Work slot bodies (spec 12.4) -/

/-- The `n`-byte field at an offset within a body. -/
def WorkItem.field (w : WorkItem) (o n : Nat) : Nat := leValue ((w.body.drop o).take n)

/-- The bytes at an offset within a body. -/
def WorkItem.bytes (w : WorkItem) (o n : Nat) : List Byte := (w.body.drop o).take n

/-- The offset from BASE of a byte of a work slot (R19). -/
def workOffset (L : Loaded) (i o : Nat) : Nat := L.workOffset + 64 * i + o

/-! ## Line frames (R186) -/

/-- One step of the check: a bit shifted out, the polynomial x^16 + x^12 + x^5 + 1 applied. -/
def crcBit (c : Half) : Half :=
  if c.msb then (c <<< 1) ^^^ 0x1021#16 else c <<< 1

/-- The check carried over one more byte, most significant bit first. -/
def crcByte (c : Half) (b : Byte) : Half :=
  crcBit (crcBit (crcBit (crcBit (crcBit (crcBit (crcBit (crcBit (c ^^^ (b.zeroExtend 16 <<< 8)))))))))

/-- The check over a list of bytes: from all ones, with no final inversion (R186). -/
def crc (bytes : List Byte) : Half := bytes.foldl crcByte 0xFFFF#16

/-- A frame as the part sends it: address, type, length, payload, check high byte first (R186). -/
def frameBytes (address type : Byte) (payload : List Byte) : List Byte :=
  let body := address :: type :: BitVec.ofNat 8 payload.length :: payload
  let c := crc body
  body ++ [(c >>> 8).truncate 8, c.truncate 8]

/-- The type bytes of spec 12.6. -/
abbrev typeCall : Byte := 0x01
abbrev typeTaken : Byte := 0x02
abbrev typeHold : Byte := 0x03
abbrev typeMark : Byte := 0x04
abbrev typeBatch : Byte := 0x81
abbrev typeEmpty : Byte := 0x82
abbrev typeBusy : Byte := 0x83
abbrev typeRow : Byte := 0x11
abbrev typeClearRow : Byte := 0x12
abbrev typeBrightness : Byte := 0x13
abbrev typeBanner : Byte := 0x14
abbrev typeClock : Byte := 0x15
abbrev typePing : Byte := 0x16
abbrev typeAck : Byte := 0x91
abbrev typeWait : Byte := 0x92

/-- The payload length the table gives a received type: a BATCH says its count, 0 to 16 (R57, R186). -/
def expectedLength (type : Byte) (payload : List Byte) : Option Nat :=
  if type = typeBatch then
    match payload with
    | _ :: count :: _ => if count.toNat ≤ 16 then some (2 + 10 * count.toNat) else none
    | _ => none
  else if type = typeEmpty then some 1
  else if type = typeBusy ∨ type = typeAck ∨ type = typeWait then some 0
  else none

/-- A received frame counts as a reply (R186): whole, its check correct, its address the one called,
its length that of its type. -/
def RxFrame.isReply (f : RxFrame) (type : Byte) (called : Nat) : Bool :=
  decide (f.address.toNat = called)
    && decide (f.payload.length = f.length.toNat)
    && decide (expectedLength type f.payload = some f.length.toNat)
    && decide (crc (f.address :: type :: f.length :: f.payload) = f.check)

/-- The frame began within the reply window of the exchange; its end may lie past the close (R57, R169; log entry 11). -/
def Exchange.holds (e : Exchange) (begun : Nat) : Bool :=
  decide (e.opened ≤ begun) && decide (begun < e.closes)

/-- The reply window has closed and nothing begun in it is being received (R57, R169). -/
def Exchange.unanswered (now : Nat) (e : Exchange) : Bool := decide (e.closes ≤ now) && !e.receiving

/-- Time passes from `now` on: an exchange still open at its close is one in whose window a frame has begun, and that
is received to its end (R57, R169; log entry 11). -/
def Exchange.goesOn (now : Nat) (e : Exchange) : Exchange := { e with receiving := e.receiving || decide (e.closes ≤ now) }

/-- The reception begun in the window can last no longer (R57, R169; log entry 11). -/
def Exchange.overlong (longest now : Nat) (e : Exchange) : Bool := e.receiving && decide (e.closes + longest ≤ now)

/-- The reads a BATCH payload carries: chip, stamp, strength, antenna each (spec 12.6); the antenna is not kept (R62). -/
def batchReads (m : Fin 8) : (count : Nat) → List Byte → List Read
  | 0, _ => []
  | n + 1, bs =>
    { chip     := toWord (leValue (bs.take 4))
      stamp    := leValue ((bs.drop 4).take 4)
      strength := bs.getD 8 0
      mat      := m } :: batchReads m n (bs.drop 10)

/-! ## Display text (R167) -/

/-- The code of a decimal digit. -/
def digit (n : Nat) : Byte := BitVec.ofNat 8 (48 + n % 10)

/-- The decimal digits of a number, without leading zeros; `fuel` bounds their count. -/
def decimal : (fuel : Nat) → Nat → List Byte
  | 0, _ => []
  | f + 1, n => if n < 10 then [digit n] else decimal f (n / 10) ++ [digit n]

/-- Text right-aligned in a width with leading spaces. -/
def rightAlign (width : Nat) (t : List Byte) : List Byte :=
  List.replicate (width - t.length) 0x20 ++ t

/-- A number of two digits. -/
def twoDigits (n : Nat) : List Byte := [digit (n / 10), digit n]

/-- Milliseconds rounded up to the next whole second (R167; spec 00, section 5.4). -/
def upSeconds (ms : Nat) : Nat := (ms + 999) / 1000

/-- A time text: h:mm:ss right-aligned in 8 characters; 8 spaces from 43,200 seconds up (R167). -/
def timeText (ms : Nat) : List Byte :=
  let t := upSeconds ms
  if t < 43200 then
    rightAlign 8 (decimal 2 (t / 3600) ++ [0x3A] ++ twoDigits (t / 60 % 60) ++ [0x3A] ++ twoDigits (t % 60))
  else List.replicate 8 0x20

/-- A pace text: m:ss right-aligned in 5 characters (R167). -/
def paceText (ms : Nat) : List Byte :=
  let t := upSeconds ms
  rightAlign 5 (decimal 5 (t / 60) ++ [0x3A] ++ twoDigits (t % 60))

/-- A bib text: decimal right-aligned in 5 characters, 5 spaces for bib 0 (R167). -/
def bibText (bib : Nat) : List Byte :=
  if bib = 0 then List.replicate 5 0x20 else rightAlign 5 (decimal 5 bib)

/-- A character as a screen shows it: each code outside 32 to 126 is a space (R167). -/
def shownChar (b : Byte) : Byte :=
  if 32 ≤ b.toNat ∧ b.toNat ≤ 126 then b else 0x20

/-- A projected finish as text: 8 spaces when absent (R167). -/
def projectionText : Option Nat → List Byte
  | none => List.replicate 8 0x20
  | some f => timeText f

/-- A banner as text: 32 spaces for an absent one (R167). -/
def bannerText : Option Banner → List Byte
  | none => List.replicate 32 0x20
  | some b => b.text.map shownChar

/-- The payload of a ROW frame (spec 12.6): row, bib, name, net split, pace, projection, watch mark. -/
def rowPayload (row : Nat) (x : Snapshot) : List Byte :=
  BitVec.ofNat 8 row :: (bibText x.bib ++ x.name.map shownChar ++ timeText x.net ++ paceText x.pace
    ++ projectionText x.projection ++ [if x.watch then 1 else 0])

def Power.code : Power → Nat
  | .active => 0
  | .dim => 1
  | .dark => 2

/-- A ROW frame for a row (R144, R167). -/
def rowFrame (row : Nat) (x : Snapshot) : OutFrame := ⟨.row row, typeRow, rowPayload row x, false⟩

/-- A CLEAR_ROW frame for a row (R144). -/
def clearRowFrame (row : Nat) : OutFrame := ⟨.row row, typeClearRow, [BitVec.ofNat 8 row], false⟩

/-- A BRIGHTNESS frame with a level (R161). -/
def brightnessFrame (p : Power) : OutFrame := ⟨.brightness, typeBrightness, [BitVec.ofNat 8 p.code], false⟩

/-- A BANNER frame with a banner's text (R148). -/
def bannerFrame (b : Option Banner) : OutFrame := ⟨.banner, typeBanner, bannerText b, false⟩

/-- A PING frame (R172). -/
def pingFrame : OutFrame := ⟨.ping, typePing, [], false⟩

end Sys2Proof.Machine
end

