-- ==== Sys2Proof/Machine/Journal.lean ====
section
/-! DEFINITION. The journal writer (spec 11): record layouts, pages, sealing, spill, drops and GAP
records, watch seals, and the SEAL_TIMER, DRAIN and FLUSH_JOURNAL commands. -/

namespace Sys2Proof.Machine

/-! ## Record layouts (spec 12.5) -/

abbrev kindStart : Byte := 1
abbrev kindSplit : Byte := 2
abbrev kindCorrection : Byte := 3
abbrev kindStatus : Byte := 4
abbrev kindException : Byte := 5
abbrev kindLine : Byte := 6
abbrev kindGap : Byte := 7

/-- A record's absent runner index and absent point (R185). -/
abbrev noRunnerIndex : Half := 65535
abbrev noPoint : Byte := 255

/-- The 32 bytes of a record (spec 12.5). -/
def JRecord.bytes (r : JRecord) : List Byte :=
  [r.kind, r.point] ++ leBytes 2 r.flags.toNat ++ [r.code, r.second] ++ leBytes 2 r.runner.toNat
    ++ leBytes 4 r.time.toNat ++ leBytes 4 r.value1.toNat ++ leBytes 4 r.value2.toNat
    ++ leBytes 4 r.value3.toNat ++ leBytes 4 r.value4.toNat ++ leBytes 4 r.tail.toNat

/-- An EXCEPTION record that names a chip (R75, R93). -/
def chipException (code : ExceptionCode) (point : Nat) (chip : Word) (time : Nat) : JRecord :=
  ⟨kindException, BitVec.ofNat 8 point, 0, BitVec.ofNat 8 code.code, 0, noRunnerIndex, toWord time, chip, 0, 0, 0, 0⟩

/-- An EXCEPTION record that names a runner (R111). -/
def runnerException (code : ExceptionCode) (point runner time : Nat) : JRecord :=
  ⟨kindException, BitVec.ofNat 8 point, 0, BitVec.ofNat 8 code.code, 0, BitVec.ofNat 16 runner, toWord time, 0, 0, 0, 0, 0⟩

/-- A LINE record (R71, R174): event, line, address, and the mat or the screen index. -/
def lineRecord (event : LineEvent) (line : LineIx) (address object time : Nat) : JRecord :=
  ⟨kindLine, noPoint, 0, BitVec.ofNat 8 event.code, BitVec.ofNat 8 line.val, noRunnerIndex, toWord time,
    toWord address, toWord object, 0, 0, 0⟩

/-- A GAP record (R181). -/
def gapRecord (dropped time : Nat) : JRecord :=
  ⟨kindGap, noPoint, 0, 0, 0, noRunnerIndex, toWord time, toWord dropped, 0, 0, 0, 0⟩

/-! ## Pages -/

/-- The page states of spec 12.5; any other value counts as not FREE (R176). -/
abbrev pageFree : Nat := 0
abbrev pageOpen : Nat := 1
abbrev pageSealedState : Nat := 2

/-- The offset from BASE of a byte of a page: its offset is the loaded copy's (R176). -/
def pageOffset (L : Loaded) (p o : Nat) : Nat := L.pages.getD p 0 + o

/-- The offset of a record place within a page (spec 12.5). -/
def placeOffset (k : Nat) : Nat := 32 + 32 * k

/-- The writer is spilling while it has no current page (R176). -/
def Journal.spilling (j : Journal) : Bool := j.current.isNone

/-- The writer is open with nothing waiting in the spill buffer: records go straight into the page (R177). -/
def Journal.direct (j : Journal) : Bool := j.current.isSome && j.spill.isEmpty

/-- The records of the spill buffer that take one of its 256 places: GAP records do not (R181). -/
def Journal.places (j : Journal) : Nat := (j.spill.filter fun x => !x.gap).length

/-- The writer opens a page: state OPEN, record count 0, fill position 0 (R179). That the state word is written before the
record count is the model's choice (log entry 33). -/
def openPage (p : Nat) (s : State) : State :=
  (s.store .page (s.addr (pageOffset s.config p 0)) (leBytes 4 pageOpen)).andThen fun s =>
  (s.store .page (s.addr (pageOffset s.config p 8)) (leBytes 4 0)).andThen fun s =>
  s.withJournal { s.journal with current := some p, fill := 0 }

/-- The writer reads its next page's state word and opens the page if it reads FREE. Otherwise it is
spilling; JOURNAL_SPILL is set where it has just moved on or entered PREP (R176, R179), and not at a re-read. -/
def tryNextPage (setSpill : Bool) (s : State) : State :=
  let p := s.journal.nextPage
  (s.access .page (s.addr (pageOffset s.config p 0)) 4).andThen fun s =>
  if s.field (pageOffset s.config p 0) 4 = pageFree then openPage p s
  else if setSpill then s.setCause .journalSpill else s

/-- While spilling, the writer re-reads its next page and reopens if it is FREE (R177, R181). -/
def reread (s : State) : State :=
  if s.journal.spilling then tryNextPage false s else s

/-- The journal state after a seal: no current page, the ring's next page next (R178, R179). -/
def Journal.afterSeal (j : Journal) (p pageCount : Nat) : Journal :=
  { j with
    current := none
    fill := 0
    nextPage := if p + 1 < pageCount then p + 1 else 0
    pageSeq := j.pageSeq + 1
    sealTimer := none }

/-- The writer seals its current page if that holds a record: record count, page sequence, state
SEALED, each write complete before the next; then it moves on (R178, R179). -/
def sealPage (s : State) : State :=
  match s.journal.current with
  | none => s
  | some p =>
    if s.journal.fill = 0 then s
    else
      (s.store .page (s.addr (pageOffset s.config p 8)) (leBytes 4 s.journal.fill)).andThen fun s =>
      (s.store .page (s.addr (pageOffset s.config p 4)) (leBytes 4 s.journal.pageSeq.toNat)).andThen fun s =>
      (s.store .page (s.addr (pageOffset s.config p 0)) (leBytes 4 pageSealedState)).andThen fun s =>
      tryNextPage true
        ((s.withJournal (s.journal.afterSeal p s.config.pages.length)).setCause .pageSealed)

/-- A record written into the current page at the fill position: the place, then for the page's first
record the header's first-record serial, then the record count (R177). The first record starts a
stopped seal timer; a 128th record, or a watch-marked one, seals the page (R178, R182). That the timer starts after the
place is written and before the header is the model's choice (log entry 37). -/
def putRecord (r : JRecord) (serial : Word) (mark : Bool) (s : State) : State :=
  match s.journal.current with
  | none => s
  | some p =>
    let k := s.journal.fill
    (s.store .page (s.addr (pageOffset s.config p (placeOffset k))) r.bytes).andThen fun s =>
    (s.withJournal { s.journal with
        fill := k + 1
        sealTimer := if s.journal.sealTimer.isNone then some s.localTime else s.journal.sealTimer }).andThen fun s =>
    (if k = 0 then s.store .page (s.addr (pageOffset s.config p 12)) (leBytes 4 serial.toNat) else s).andThen fun s =>
    (s.store .page (s.addr (pageOffset s.config p 8)) (leBytes 4 (k + 1))).andThen fun s =>
    if k + 1 = Config.pageRecords || mark then sealPage s else s

/-! ## Handing a record over (R177) -/

/-- Where a handed-over record went. -/
inductive Place where
  /-- Into the page that was to be sealed with this page sequence. -/
  | page (seq : Word)
  /-- Into the spill buffer. -/
  | spill
  /-- Dropped (R180). -/
  | dropped
  deriving DecidableEq, Repr

/-- What a producer gets back: the state after, the serial it is told (R110) and where the record went. -/
structure Handed where
  state  : State
  serial : Word
  place  : Place

/-- A record that takes the journal serial is written into the page or joins the spill buffer's tail (R177, step 3). -/
def placeRecord (r : JRecord) (gap : Bool) (s : State) : State :=
  let n := s.journal.serial
  let s := s.withJournal { s.journal with serial := n + 1 }
  if s.journal.direct then putRecord r n false s
  else s.withJournal { s.journal with spill := s.journal.spill ++ [⟨r, n, gap, false⟩] }

/-- The GAP record is formed and placed: it carries the dropped count, the count returns to 0 and JOURNAL_GAP is set
(R181). That this comes before the write of the GAP record is the model's choice (log entry 37). -/
def formGap (s : State) : State :=
  if s.journal.dropped = 0 then s
  else
    let g := gapRecord s.journal.dropped s.raceClock
    placeRecord g true ((s.withJournal { s.journal with dropped := 0 }).setCause .journalGap)

/-- A record finds the spill buffer full: it is to be dropped (R177, R180). -/
def Journal.full (j : Journal) : Bool :=
  !j.direct && decide (Config.spillCapacity ≤ j.places)

/-- A record is dropped: it takes its serial and the count rises, unless the count stands at 65,535 (R180). -/
def dropRecord (s : State) : State :=
  if s.journal.dropped = Config.tallyLimit then s
  else s.withJournal { s.journal with serial := s.journal.serial + 1, dropped := s.journal.dropped + 1 }

/-- Where the next record to be placed goes. -/
def Journal.nextPlace (j : Journal) : Place := if j.direct then .page j.pageSeq else .spill

/-- A record is handed to the writer (R177): re-read while spilling; a GAP record first where drops
wait to be accounted for; then the serial and the place, or the drop. -/
def handRecord (r : JRecord) (s : State) : Handed :=
  let s1 := reread s
  if s1.engine = .halted then ⟨s1, s1.journal.serial, .dropped⟩
  else if s1.journal.full then ⟨dropRecord s1, s1.journal.serial, .dropped⟩
  else
    let s2 := formGap s1
    if s2.engine = .halted then ⟨s2, s2.journal.serial, .dropped⟩
    else ⟨placeRecord r false s2, s2.journal.serial, s2.journal.nextPlace⟩

/-- A record handed over by a producer that does not use its serial. -/
def State.record (r : JRecord) (s : State) : State := (handRecord r s).state

/-! ## Watch seals, flushes, sweep ends, END (R182, R31) -/

/-- A record of the spill buffer gets a watch mark. -/
def Spilled.marked (n : Word) (x : Spilled) : Spilled :=
  if x.serial = n && !x.gap then { x with watch := true } else x

/-- A watch seal for the record with a serial and a place (R182): WATCH is set in every case; the page
that holds the record is sealed, or the record in the spill buffer is marked. -/
def watchSeal (n : Word) (place : Place) (s : State) : State :=
  let s := s.setCause .watch
  match place with
  | .page seq => if s.journal.current.isSome && s.journal.pageSeq = seq then sealPage s else s
  | .spill => s.withJournal { s.journal with spill := s.journal.spill.map (Spilled.marked n) }
  | .dropped => s

/-- The writer learns that a sweep has ended: while spilling it re-reads its next page (R31). -/
def sweepEnded (s : State) : State := reread s

/-- An end is reported to the sweep unit (R92, R30). -/
def State.reportEnd (e : EndReport) (s : State) : State :=
  s.withSweep { s.sweep with ends := s.sweep.ends ++ [e] }

/-- A flush item is carried out (R182): re-read while spilling, seal a page that holds a record, and
report OK with the page sequence given, or the absent value. -/
def runFlush (w : WorkItem) (s : State) : State :=
  (reread s).andThen fun s =>
  let sealing := s.journal.current.isSome && decide (s.journal.fill ≠ 0)
  let detail : Word := if sealing then s.journal.pageSeq else toWord Config.absentWord
  (sealPage s).andThen fun s =>
  (s.withJournal { s.journal with flushes := s.journal.flushes.tail }).reportEnd
    ⟨w.slot, .ok, detail, 0, w.notify⟩

/-- The seal interval has passed since the page's first record was written (R178). -/
def sealDue (s : State) : Bool :=
  s.working && s.journal.current.isSome && decide (s.journal.fill ≠ 0) &&
    match s.journal.sealTimer with
    | none => false
    | some t => s.elapsed t s.config.sealInterval

/-- The writer is draining: open, with records waiting in the spill buffer (R176). -/
def drainReady (s : State) : Bool :=
  s.working && s.journal.current.isSome && !s.journal.spill.isEmpty

/-- The head of the spill buffer leaves it and is written into the current page (R181); where the write is refused the
record is lost (R184; log entry 37). -/
def drainHead (s : State) : State :=
  match s.journal.spill with
  | [] => s
  | x :: rest => putRecord x.record x.serial x.watch (s.withJournal { s.journal with spill := rest })

/-- SEAL_TIMER (R178). -/
def execSealTimer (s : State) : Host.Outcome State Fault Refusal :=
  .next (if sealDue s then sealPage s else s)

/-- DRAIN (R181). -/
def execDrain (s : State) : Host.Outcome State Fault Refusal :=
  .next (if drainReady s then drainHead s else s)

/-- FLUSH_JOURNAL (R182). -/
def execFlushJournal (s : State) : Host.Outcome State Fault Refusal :=
  .next (if s.working then
    match s.journal.flushes with
    | [] => s
    | w :: _ => runFlush w s
  else s)

end Sys2Proof.Machine
end

