-- ==== Sys2Proof/Machine/Assembly.lean ====
section
/-! DEFINITION. The crossing assembler (spec 05): draws, read checks, the cluster table, the CLOSING
list, the closed-crossing memory, and the DRAW, CLUSTER_EXPIRY and CLOSED_CROSSING_OFFER commands. -/

namespace Sys2Proof.Machine

/-! ## Clusters (R76 to R81) -/

/-- The cluster has a key (R76). -/
def Cluster.isFor (point : Nat) (chip : Word) (c : Cluster) : Bool := c.point == point && c.chip == chip

/-- The table's cluster with a key. -/
def Assembler.find (point : Nat) (chip : Word) (a : Assembler) : Option Cluster :=
  a.clusters.find? (Cluster.isFor point chip)

/-- The order of deadlines: ascending deadline, then point, then chip code (R82, R86). -/
def Cluster.before (x y : Cluster) : Bool :=
  decide (x.deadline < y.deadline) ||
    (x.deadline == y.deadline && (decide (x.point < y.point) ||
      (x.point == y.point && decide (x.chip.toNat < y.chip.toNat))))

/-- The first of a list of clusters in that order. -/
def firstCluster : List Cluster → Option Cluster
  | [] => none
  | c :: rest =>
    match firstCluster rest with
    | none => some c
    | some d => if d.before c then some d else some c

/-- The head of the CLOSING list (R82). -/
def Assembler.closingHead (a : Assembler) : Option Cluster :=
  firstCluster (a.clusters.filter fun c => c.closing)

/-- The OPEN cluster with the earliest deadline (R86). -/
def Assembler.earliestOpen (a : Assembler) : Option Cluster :=
  firstCluster (a.clusters.filter fun c => !c.closing)

/-- A time plus a merge window, held to the clock ceiling (R76). -/
def deadlineOf (first window : Nat) : Nat := min (first + window) Config.clockCeiling

/-- A cluster closes: OPEN becomes CLOSING, with the early-close flag given (R81, R86, R88). -/
def Cluster.close (early : Bool) (c : Cluster) : Cluster := { c with closing := true, early := early }

/-- The OPEN cluster becomes CLOSING at once when its deadline is at or before the race clock, or in CLOSED (R78, R79, R88). -/
def Cluster.settle (closed : Bool) (clock : Nat) (c : Cluster) : Cluster :=
  if closed || decide (c.deadline ≤ clock) then c.close false else c

/-- The cluster a read opens (R78). -/
def PlacedRead.opens (window : Nat) (r : PlacedRead) : Cluster :=
  { point    := r.point
    chip     := r.read.chip
    first    := r.read.stamp
    chosen   := r.read.stamp
    best     := r.read.strength
    count    := 1
    deadline := deadlineOf r.read.stamp window
    closing  := false
    early    := false }

/-- The first time and deadline after a merge, and the read count (R79). -/
def Cluster.joined (window : Nat) (r : Read) (c : Cluster) : Cluster :=
  { c with
    first    := min c.first r.stamp
    deadline := if r.stamp < c.first then deadlineOf r.stamp window else c.deadline
    count    := if c.count < 255 then c.count + 1 else c.count }

/-- A read merges into an OPEN cluster (R79, R80). -/
def Cluster.merge (choice : TimeChoice) (window : Nat) (r : Read) (c : Cluster) : Cluster :=
  let d := c.joined window r
  match choice with
  | .first => { d with chosen := d.first, best := if c.best.toNat < r.strength.toNat then r.strength else c.best }
  | .peak =>
    if c.best.toNat < r.strength.toNat then { d with best := r.strength, chosen := r.stamp }
    else if c.best = r.strength ∧ r.stamp < c.chosen then { d with chosen := r.stamp }
    else d

/-- The cluster with a key changed in place. -/
def Assembler.update (point : Nat) (chip : Word) (f : Cluster → Cluster) (a : Assembler) : Assembler :=
  { a with clusters := a.clusters.map fun c => if c.isFor point chip then f c else c }

/-- A cluster enters the table. -/
def Assembler.add (c : Cluster) (a : Assembler) : Assembler := { a with clusters := a.clusters ++ [c] }

/-- A cluster leaves the table, and its entry joins the closed-crossing memory, the oldest of 512 leaving (R82, R84). -/
def Assembler.release (c : Cluster) (a : Assembler) : Assembler :=
  let old := if Config.closedMemoryCapacity ≤ a.memory.length then a.memory.tail else a.memory
  { a with
    clusters := a.clusters.filter fun d => !(d.isFor c.point c.chip)
    memory   := old ++ [⟨c.point, c.chip, c.chosen⟩] }

/-- An entry makes a read an echo: its point and chip, within two merge windows of its chosen time (R85). -/
def ClosedEntry.echoes (window : Nat) (r : PlacedRead) (e : ClosedEntry) : Bool :=
  e.point == r.point && e.chip == r.read.chip
    && decide (e.chosen ≤ r.read.stamp + 2 * window) && decide (r.read.stamp ≤ e.chosen + 2 * window)

/-- A read opens its cluster in a free entry (R78, R88). -/
def Assembler.openCluster (window : Nat) (closed : Bool) (clock : Nat) (r : PlacedRead) (a : Assembler) : Assembler :=
  a.add ((r.opens window).settle closed clock)

/-- A read that finds the table full is held, and the OPEN cluster with the earliest deadline, if any, closes early (R86, R87). -/
def Assembler.holdRead (r : PlacedRead) (a : Assembler) : Assembler :=
  let a := { a with held := some r }
  match a.earliestOpen with
  | none => a
  | some c => a.update c.point c.chip (Cluster.close true)

/-- A checked read is matched against the assembler's collections (R77). -/
def Assembler.place (L : Loaded) (closed : Bool) (clock : Nat) (r : PlacedRead) (a : Assembler) : Assembler :=
  let window := L.window r.point
  match a.find r.point r.read.chip with
  | some c =>
    if c.closing then a
    else a.update r.point r.read.chip fun c =>
      (c.merge (L.choice r.point) window r.read).settle closed clock
  | none =>
    if a.memory.any (ClosedEntry.echoes window r) then a
    else if a.clusters.length < Config.clusterCapacity then a.openCluster window closed clock r
    else a.holdRead r

/-! ## Draws (R73 to R75) -/

/-- A buffer holds a read. -/
def State.hasReads (m : Fin 8) (s : State) : Bool := !(s.decoders[m]).buffer.isEmpty

/-- The mats in the order the arbiter looks at them (R73). -/
def arbiterOrder (position : Fin 8) : List (Fin 8) := (List.range 8).map fun k => position + Fin.ofNat 8 k

/-- The buffer the arbiter serves (R73). -/
def State.served (s : State) : Option (Fin 8) :=
  (arbiterOrder s.assembler.arbiter).find? fun m => s.hasReads m

/-- The clusters whose deadline the race clock has reached are CLOSING before the assembler acts (R77, R81). -/
def Assembler.expire (clock : Nat) (a : Assembler) : Assembler :=
  { a with clusters := a.clusters.map fun c => if !c.closing && decide (c.deadline ≤ clock) then c.close false else c }

/-- The assembler as it stands at the race clock: in RACE no OPEN cluster's deadline is behind it (R77, R81). -/
def settleClusters (s : State) : State :=
  if s.engine = .race then s.withAssembler (s.assembler.expire s.raceClock) else s

/-- A draw can be made: RACE or CLOSED, no read held, a buffer holding a read (R73). -/
def drawReady (s : State) : Bool := s.racing && s.assembler.held.isNone && s.served.isSome

/-- A decoder's record after a draw: the read gone, the hold indicator cleared at 16 reads or fewer (R65, R66). -/
def Decoder.drawn (d : Decoder) : Decoder :=
  let rest := d.buffer.tail
  { d with buffer := rest, hold := d.hold && decide (Config.holdClearsAt < rest.length) }

/-- The exception a read's stamp gives, the stale test first (R75). -/
def stampException (clock stamp : Nat) : Option ExceptionCode :=
  if stamp + Config.staleLimit < clock then some .staleRead
  else if clock + Config.futureLimit < stamp ∨ Config.clockCeiling < stamp then some .futureRead
  else none

/-- A drawn read with its point is tested and carried through the steps of R75 and R77. -/
def handleRead (r : PlacedRead) (s : State) : State :=
  match stampException s.raceClock r.read.stamp with
  | some code => s.record (chipException code r.point r.read.chip r.read.stamp)
  | none =>
    s.withAssembler (s.assembler.place s.config (decide (s.engine = .closed)) s.raceClock r)

/-- A read is drawn from a buffer (R73). A read whose mat belongs to no point, which only a buffer of an
absent decoder could give, has no point and is discarded (R74, R75). -/
def drawFrom (m : Fin 8) (s : State) : State :=
  match (s.decoders[m]).buffer with
  | [] => s
  | r :: _ =>
    let s := (s.withDecoder m (s.decoders[m]).drawn).withAssembler { s.assembler with arbiter := m + 1 }
    match s.config.pointOfMat r.mat with
    | none => s
    | some p => handleRead ⟨r, p⟩ s

/-- DRAW (R73). -/
def execDraw (s : State) : Host.Outcome State Fault Refusal :=
  .next (if drawReady s then
    match s.served with
    | none => s
    | some m => drawFrom m (settleClusters s)
  else s)

/-! ## Expiry, offers, END -/

/-- An OPEN cluster has this key and the race clock has reached its deadline (R81). -/
def expiryReady (point : Nat) (chip : Word) (s : State) : Bool :=
  decide (s.engine = .race) &&
    (s.assembler.find point chip).any fun c => !c.closing && decide (c.deadline ≤ s.raceClock)

/-- CLUSTER_EXPIRY (R81). -/
def execClusterExpiry (point : Nat) (chip : Word) (s : State) : Host.Outcome State Fault Refusal :=
  .next (if expiryReady point chip s then
    s.withAssembler (s.assembler.update point chip (Cluster.close false))
  else s)

/-- An offer can be made: RACE or CLOSED, the CLOSING list not empty, no refused offer waiting (R82). -/
def offerReady (s : State) : Bool :=
  s.racing && (settleClusters s).assembler.closingHead.isSome && !s.assembler.offerWaits

/-- The closed crossing of a cluster (R83). -/
def Cluster.crossing (c : Cluster) : ClosedCrossing := ⟨c.point, c.chip, c.chosen, c.count, c.best, c.early⟩

/-- The held read, if any, opens its cluster in the freed entry (R86). -/
def Assembler.placeHeld (L : Loaded) (closed : Bool) (clock : Nat) (a : Assembler) : Assembler :=
  match a.held with
  | none => a
  | some r => { a with held := none }.openCluster (L.window r.point) closed clock r

/-- The head of the CLOSING list is offered: taken while the queue holds fewer than 256 items, else the
next offer waits until the split unit takes an item (R82). -/
def offerHead (c : Cluster) (s : State) : State :=
  if s.intake.length < Config.intakeCapacity then
    (s.pushIntake (.crossing c.crossing)).withAssembler
      ((s.assembler.release c).placeHeld s.config (decide (s.engine = .closed)) s.raceClock)
  else s.withAssembler { s.assembler with offerWaits := true }

/-- CLOSED_CROSSING_OFFER (R82). -/
def execClosedCrossingOffer (s : State) : Host.Outcome State Fault Refusal :=
  .next (if offerReady s then
    match (settleClusters s).assembler.closingHead with
    | none => s
    | some c => offerHead c (settleClusters s)
  else s)

/-- END at the assembler: every OPEN cluster closes normally (R88). -/
def Assembler.closeAll (a : Assembler) : Assembler :=
  { a with clusters := a.clusters.map fun c => if c.closing then c else c.close false }

end Sys2Proof.Machine
end

