-- ==== Sys2Proof/Machine/MatLine.lean ====
section
/-! DEFINITION. The mat line controllers (spec 04): rounds, calls, second marks, replies, silences. -/

namespace Sys2Proof.Machine

/-! ## Rounds and calls (R56 to R58) -/

/-- A decoder the round with this number calls: present, and ACTIVE or the number is 0 (R56). -/
def Decoder.callable (round : Nat) (d : Decoder) : Bool := d.present && (!d.silent || round == 0)

/-- The address the round calls next, of those it has not visited: the first whose decoder is called (R56). -/
def State.nextCall (l : LineIx) (s : State) : Option Nat :=
  [1, 2, 3, 4].find? fun a =>
    decide (s.matLines[l].nextAddress ≤ a) && (s.decoders[matAt l a]).callable s.matLines[l].round

/-- A round begins: it starts at address 1, at local time now (R56). -/
def MatLine.beginRound (round now : Nat) (x : MatLine) : MatLine :=
  { x with round := round, nextAddress := 1, roundBegan := now }

/-- Polling begins on both lines with round 0 (R56, R58). -/
def beginPolling (s : State) : State :=
  { s with matLines := mapTwo (MatLine.beginRound 0 s.localTime) s.matLines }

/-- The round before has ended and 5 ms have passed since it began (R56). -/
def roundReady (l : LineIx) (s : State) : Bool :=
  s.polls && s.matLines[l].exchange.isNone && (s.nextCall l).isNone
    && s.elapsed s.matLines[l].roundBegan Config.roundInterval

/-- The next round's number: one more, and 0 after 7 (R56). -/
def nextRound (round : Nat) : Nat := if round < 7 then round + 1 else 0

/-- ROUND (R56). -/
def execRound (l : LineIx) (s : State) : Host.Outcome State Fault Refusal :=
  .next (if roundReady l s then
    s.withMatLine l (s.matLines[l].beginRound (nextRound s.matLines[l].round) s.localTime)
  else s)

/-- The line can call: it polls, no exchange is in flight, no MARK waits to go, a decoder is left to call (R56, R57, R60). -/
def callReady (l : LineIx) (s : State) : Bool :=
  s.polls && s.matLines[l].exchange.isNone && s.matLines[l].pendingMark.isNone && (s.nextCall l).isSome

/-- CALL is sent to an address and its reply window opens (R57). -/
def MatLine.call (a now : Nat) (x : MatLine) : MatLine :=
  { x with
    nextAddress := a + 1
    exchange    := some ⟨a, now, now + Config.matWindow, false⟩
    sent        := frameBytes (BitVec.ofNat 8 a) typeCall [] }

/-- CALL (R57). -/
def execCall (l : LineIx) (s : State) : Host.Outcome State Fault Refusal :=
  .next (if callReady l s then
    match s.nextCall l with
    | none => s
    | some a => s.withMatLine l (s.matLines[l].call a s.localTime)
  else s)

/-! ## Second marks (R60) -/

/-- A pending mark is held and the line is between exchanges (R60). -/
def markReady (l : LineIx) (s : State) : Bool :=
  decide (s.engine = .race) && s.matLines[l].exchange.isNone && s.matLines[l].pendingMark.isSome

/-- MARK is sent to address 0 and the pending mark cleared (R60). -/
def MatLine.sendMark (second : Nat) (x : MatLine) : MatLine :=
  { x with pendingMark := none, sent := frameBytes 0 typeMark (leBytes 2 second) }

/-- MARK (R60). -/
def execMark (l : LineIx) (s : State) : Host.Outcome State Fault Refusal :=
  .next (if markReady l s then
    match s.matLines[l].pendingMark with
    | none => s
    | some second => s.withMatLine l (s.matLines[l].sendMark second)
  else s)

/-! ## Silences (R69) -/

/-- The silent count after a silence (R69). -/
def silentAfter (n : Nat) : Nat := if n < 3 then n + 1 else 3

/-- A decoder's record after a silence (R69). -/
def Decoder.silenced (d : Decoder) : Decoder :=
  { d with silentCount := silentAfter d.silentCount, silent := d.silent || silentAfter d.silentCount == 3 }

/-- The silence brings an ACTIVE decoder to SILENT (R69). -/
def Decoder.fallsSilent (d : Decoder) : Bool := !d.silent && silentAfter d.silentCount == 3

/-- The exchange of a mat line ends (R57). -/
def endCall (l : LineIx) (s : State) : State :=
  s.withMatLine l { s.matLines[l] with exchange := none }

/-- The LINE record of an event at a decoder (R71). -/
def decoderRecord (event : LineEvent) (l : LineIx) (a : Nat) (s : State) : JRecord :=
  lineRecord event l a (matAt l a).val s.raceClock

/-- An exchange ends with no reply: the silence counts, and a third one makes the decoder SILENT (R69). That the record
is handed over after the rest is the model's choice (log entry 37). -/
def silence (l : LineIx) (a : Nat) (s : State) : State :=
  let d := s.decoders[matAt l a]
  let s := endCall l (s.withDecoder (matAt l a) d.silenced)
  if d.fallsSilent then (s.setCause .lineFault).record (decoderRecord .decoderSilent l a s) else s

/-- The exchange in flight is at its end with no reply: its reception failed, or its window has closed with no
reception begun in it (R57). -/
def silenceReady (l : LineIx) (failed : Bool) (s : State) : Bool :=
  s.working && s.matLines[l].exchange.any fun e => failed || e.unanswered s.localTime

/-- SILENCE (R69). -/
def execSilence (l : LineIx) (failed : Bool) (s : State) : Host.Outcome State Fault Refusal :=
  .next (if silenceReady l failed s then
    match s.matLines[l].exchange with
    | none => s
    | some e => silence l e.target s
  else s)

/-! ## Replies (R57, R70) -/

/-- Any reply sets the silent count to 0; a SILENT decoder is ACTIVE again, with its record (R70),
handed over after that change (log entry 37). -/
def decoderReplied (l : LineIx) (a : Nat) (s : State) : State :=
  let d := s.decoders[matAt l a]
  let s := s.withDecoder (matAt l a) { d with silent := false, silentCount := 0 }
  if d.silent then s.record (decoderRecord .decoderBack l a s) else s

/-- A frame arrives on a mat line (R57, R59): outside a reply window or outside PREP, RACE and CLOSED it
is disregarded; a reply of its type is handled by its kind, and the exchange ends; anything else is a silence. -/
def matFrame (l : LineIx) (type : Byte) (f : RxFrame) (handle : Nat → State → State) (s : State) : State :=
  match s.matLines[l].exchange with
  | none => s
  | some e =>
    if s.working && e.holds f.begun && decide (f.begun ≤ s.localTime) then
      if RxFrame.isReply f type e.target then
        ((decoderReplied l e.target s).andThen (handle e.target)).andThen (endCall l)
      else silence l e.target s
    else s

/-- The line sends its answer to a BATCH (R61 to R64). -/
def answer (l : LineIx) (a : Nat) (type : Byte) (payload : List Byte) (s : State) : State :=
  s.withMatLine l { s.matLines[l] with sent := frameBytes (BitVec.ofNat 8 a) type payload }

/-- A batch is taken in RACE or CLOSED: the hold indicator is clear and the free places suffice (R62). -/
def Decoder.takes (count : Nat) (d : Decoder) : Bool :=
  !d.hold && decide (d.buffer.length + count ≤ Config.landingCapacity)

/-- The decoder's record after a BATCH, and whether it is answered TAKEN rather than HOLD (R61 to R64). -/
def Decoder.offered (prep : Bool) (number : Byte) (reads : List Read) (d : Decoder) : Decoder × Bool :=
  if d.lastTaken = some number then (d, true)
  else if prep then ({ d with lastTaken := some number }, true)
  else if d.takes reads.length then ({ d with buffer := d.buffer ++ reads, lastTaken := some number }, true)
  else ({ d with hold := true }, false)

/-- A BATCH reply is handled (R61 to R64), by the state in force (R59). -/
def handleBatch (l : LineIx) (f : RxFrame) (a : Nat) (s : State) : State :=
  let m := matAt l a
  let number := f.payload.getD 0 0
  let reads := batchReads m (f.payload.getD 1 0).toNat (f.payload.drop 2)
  let r := (s.decoders[m]).offered (decide (s.engine = .prep)) number reads
  let s := s.withDecoder m r.1
  if r.2 then answer l a typeTaken [number] s else answer l a typeHold [] s

/-- An EMPTY reply is handled: the antenna fault flag against the indicator (R68), the indicator before the record (log
entry 37). -/
def handleEmpty (l : LineIx) (f : RxFrame) (a : Nat) (s : State) : State :=
  let m := matAt l a
  let d := s.decoders[m]
  let flag := (f.payload.getD 0 0).getLsbD 0
  let s := s.withDecoder m { d with antennaFault := flag }
  if d.antennaFault = flag then s
  else s.record (decoderRecord (if flag then .antennaFault else .antennaClear) l a s)

/-- BATCH (R61 to R64). -/
def execBatch (l : LineIx) (f : RxFrame) (s : State) : Host.Outcome State Fault Refusal :=
  .next (matFrame l typeBatch f (handleBatch l f) s)

/-- EMPTY (R68). -/
def execEmpty (l : LineIx) (f : RxFrame) (s : State) : Host.Outcome State Fault Refusal :=
  .next (matFrame l typeEmpty f (handleEmpty l f) s)

/-- BUSY (R67): a reply with nothing more to do. -/
def execBusy (l : LineIx) (f : RxFrame) (s : State) : Host.Outcome State Fault Refusal :=
  .next (matFrame l typeBusy f (fun _ s => s) s)

end Sys2Proof.Machine
end

