-- ==== Sys2Proof/Machine/Outbox.lean ====
section
/-! DEFINITION. The outboxes of the panels (R166) and the full refresh of a panel (R151). -/

namespace Sys2Proof.Machine

/-- Whether the head frame of a screen's panel is in flight: its line's exchange is with that panel (R166, R169). -/
def State.panelInFlight (s : State) (i : Nat) (p : Panel) : Bool :=
  match s.panelLines[p.line].exchange with
  | none => false
  | some e => e.target == i

/-- A frame replaces the one of its key in place; the indicator is set when that one is in flight,
which only the head of the outbox can be (R166). Where it is not in flight the indicator is clear, also where it stood
set after an earlier exchange: the model's choice, log entry 28. -/
def replaceFrame (f : OutFrame) : (headInFlight : Bool) → List OutFrame → List OutFrame
  | _, [] => []
  | fly, g :: rest =>
    if g.key = f.key then { f with replaced := fly } :: rest
    else g :: replaceFrame f false rest

/-- A frame placed in an outbox: in the place of the frame of its key, or at the tail (R166). -/
def placeIn (f : OutFrame) (headInFlight : Bool) (box : List OutFrame) : List OutFrame :=
  if box.any (fun g => g.key = f.key) then replaceFrame f headInFlight box
  else box ++ [{ f with replaced := false }]

/-- A scheduler frame is handed over for the panel of a screen: placed when the panel is ONLINE, discarded when it is OFFLINE (R166). -/
def placeFrame (i : Nat) (f : OutFrame) (s : State) : State :=
  match s.panels[i]? with
  | none => s
  | some p =>
    if p.online then s.withPanel i { p with outbox := placeIn f (s.panelInFlight i p) p.outbox }
    else s

/-- Frames handed over for the panel of a screen, in order. -/
def placeFrames (i : Nat) : List OutFrame → State → State
  | [], s => s
  | f :: rest, s => placeFrames i rest (placeFrame i f s)

/-! ## The board and its frames (R140, R144, R151) -/

/-- Board order: ascending arrival, then runner index, then face (R140). -/
def boardBefore (a b : Entry) : Bool :=
  decide (a.arrival < b.arrival) ||
    (a.arrival == b.arrival && (decide (a.runner < b.runner) ||
      (a.runner == b.runner && decide (a.face < b.face))))

/-- An entry put at its place in board order. -/
def insertBoard (e : Entry) : List Entry → List Entry
  | [] => [e]
  | x :: rest => if boardBefore e x then e :: x :: rest else x :: insertBoard e rest

/-- The board of a schedule: its SHOWN entries in board order; the k-th is in row k (R140). -/
def boardOf : List Entry → List Entry
  | [] => []
  | e :: rest => if e.shownSince.isSome then insertBoard e (boardOf rest) else boardOf rest

/-- The screen's board (R140). -/
def ScreenState.board (x : ScreenState) : List Entry := boardOf x.schedule

/-- What a row shows, for the comparison of R144: runner, face and snapshot. -/
def Entry.content (e : Entry) : Nat × FaceIx × Snapshot := (e.runner, e.face, e.snapshot)

/-- The frame a row's change gives, if any (R144). -/
def rowChange (row : Nat) (before after : Option Entry) : List OutFrame :=
  match before, after with
  | none, none => []
  | some _, none => [clearRowFrame row]
  | none, some e => [rowFrame row e.snapshot]
  | some b, some e => if b.content = e.content then [] else [rowFrame row e.snapshot]

/-- The frames of a board change, from row 1 down to the screen's last row (R144). -/
def rowFrames (rows : Nat) (before after : List Entry) : List OutFrame :=
  (List.range rows).flatMap fun k => rowChange (k + 1) before[k]? after[k]?

/-- The frame a row's present content gives in a full refresh (R151). -/
def rowNow (row : Nat) : Option Entry → OutFrame
  | none => clearRowFrame row
  | some e => rowFrame row e.snapshot

/-- The frames of a full refresh: every row, then BRIGHTNESS, then BANNER (R151). -/
def refreshFrames (rows : Nat) (x : ScreenState) : List OutFrame :=
  (List.range rows).map (fun k => rowNow (k + 1) x.board[k]?) ++ [brightnessFrame x.power, bannerFrame x.banner]

/-- A full refresh of the panel of a screen (R151). -/
def refresh (i : Nat) (s : State) : State :=
  match s.config.screens[i]?, s.screens[i]? with
  | some c, some x => placeFrames i (refreshFrames c.rows x) s
  | _, _ => s

end Sys2Proof.Machine
end

