-- ==== Sys2Proof/Machine/Power.lean ====
section
/-! DEFINITION. Screen power (spec 09): face activity, the power target, power states and the wake
history; the events that act on one screen; and the WAKE_LEAD_REACHED, DIM_AFTER, DARK_AFTER and
WAKE_AGE_OUT commands. -/

namespace Sys2Proof.Machine

/-- Whether a face is configured: face 0 always, face 1 on a screen of two faces (R44). -/
def Screen.hasFace (c : Screen) (f : FaceIx) : Bool := f = 0 || c.face1.isSome

/-- The entry makes its face BUSY: SHOWN, or PENDING with its on time within the wake lead (R155). -/
def Entry.busies (c : Screen) (clock : Nat) (e : Entry) : Bool :=
  e.shownSince.isSome || decide (e.onTime ≤ clock + c.wakeLead * 1000)

/-- The test of R155 for a face. -/
def faceBusy (c : Screen) (clock : Nat) (x : ScreenState) (f : FaceIx) : Bool :=
  x.schedule.any fun e => e.face = f && e.busies c clock

/-- A face after the test of R155: it becomes BUSY, or leaves BUSY for QUIET with idle since now. -/
def FaceState.tested (busy : Bool) (now : Nat) (a : FaceState) : FaceState :=
  if busy then { a with activity := .busy }
  else if a.activity = .busy then ⟨.quiet, now⟩
  else a

/-- The test of R155 made again for a face. -/
def retestFace (c : Screen) (clock now : Nat) (f : FaceIx) (x : ScreenState) : ScreenState :=
  if c.hasFace f then
    { x with faces := x.faces.set f (x.faces[f].tested (faceBusy c clock x f) now) }
  else x

/-- The target is ACTIVE unless both faces are IDLE and the banner force flag is clear (R157). -/
def ScreenState.targetActive (x : ScreenState) : Bool :=
  x.force || x.faces[0].activity != .idle || x.faces[1].activity != .idle

/-- A wake joins the history, which holds at most 15 (R160). -/
def addWake (now : Nat) (wakes : List Nat) : List Nat :=
  if Config.wakeCapacity ≤ wakes.length then wakes.tail ++ [now] else wakes ++ [now]

/-- The power state follows the target at once (R158). -/
def retarget (now : Nat) (x : ScreenState) : ScreenState :=
  match x.power, x.targetActive with
  | .active, false => { x with power := .dim, dimSince := some now, demoted := false }
  | .dim, true => { x with power := .active, dimSince := none, demoted := false }
  | .dark, true => { x with power := .active, wakes := addWake now x.wakes }
  | .active, true | .dim, false | .dark, false => x

/-- After a change of the schedule: both faces tested, then the target (R155, R157, R158). -/
def retest (c : Screen) (clock now : Nat) (x : ScreenState) : ScreenState :=
  retarget now (retestFace c clock now 1 (retestFace c clock now 0 x))

/-- The frames of an event at a screen: BRIGHTNESS before the row frames (R144, R161). -/
def eventFrames (rows : Nat) (x y : ScreenState) : List OutFrame :=
  (if x.power = y.power then [] else [brightnessFrame y.power]) ++ rowFrames rows x.board y.board

/-- An event at one screen: its state changes and its frames go to its panel. The event is given the
screen's settings, the race clock and local time. -/
def screenEvent (i : Nat) (f : Screen → Nat → Nat → ScreenState → ScreenState) (s : State) : State :=
  match s.config.screens[i]?, s.screens[i]? with
  | some c, some x =>
    let y := f c s.raceClock s.localTime x
    placeFrames i (eventFrames c.rows x y) (s.withScreen i y)
  | _, _ => s

/-- A condition on one screen; false where there is none. -/
def screenTest (i : Nat) (f : Screen → Nat → Nat → ScreenState → Bool) (s : State) : Bool :=
  match s.config.screens[i]?, s.screens[i]? with
  | some c, some x => f c s.raceClock s.localTime x
  | _, _ => false

/-! ## The events of the power rules -/

/-- A PENDING entry has come within the wake lead while its face is not BUSY (R155). -/
def wakeLeadTest (f : FaceIx) (c : Screen) (clock _now : Nat) (x : ScreenState) : Bool :=
  c.hasFace f && x.faces[f].activity != .busy && faceBusy c clock x f

/-- WAKE_LEAD_REACHED can be taken (R155). -/
def wakeLeadReady (i : Nat) (f : FaceIx) (s : State) : Bool :=
  decide (s.engine = .race) && screenTest i (wakeLeadTest f) s

/-- The face is tested again (R155). -/
def wakeLeadEvent (f : FaceIx) (c : Screen) (clock now : Nat) (x : ScreenState) : ScreenState :=
  retarget now (retestFace c clock now f x)

/-- dim_after has passed since the idle since of a QUIET face (R156). -/
def dimAfterTest (f : FaceIx) (c : Screen) (_clock now : Nat) (x : ScreenState) : Bool :=
  c.hasFace f && x.faces[f].activity == .quiet && decide (x.faces[f].idleSince + c.dimAfter * 1000 ≤ now)

/-- DIM_AFTER can be taken: the face timers run in PREP and RACE (R156). -/
def dimAfterReady (i : Nat) (f : FaceIx) (s : State) : Bool :=
  (decide (s.engine = .prep) || decide (s.engine = .race)) && screenTest i (dimAfterTest f) s

/-- The QUIET face becomes IDLE and the target is worked out again (R156, R157). -/
def dimAfterEvent (f : FaceIx) (_c : Screen) (_clock now : Nat) (x : ScreenState) : ScreenState :=
  retarget now { x with faces := x.faces.set f { x.faces[f] with activity := .idle } }

/-- A wake has aged out: the flap window has passed since it was added (R160). -/
def agedOut (c : Screen) (now : Nat) (w : Nat) : Bool := decide (w + c.flapWindow * 1000 ≤ now)

/-- dark_after has passed in DIM with the demoted indicator clear (R159). -/
def darkAfterTest (c : Screen) (_clock now : Nat) (x : ScreenState) : Bool :=
  x.power == .dim && !x.demoted &&
    match x.dimSince with
    | none => false
    | some t => decide (t + c.darkAfter * 1000 ≤ now)

/-- DARK_AFTER can be taken (R159). -/
def darkAfterReady (i : Nat) (s : State) : Bool := s.working && screenTest i darkAfterTest s

/-- The screen goes to DARK. -/
def ScreenState.goDark (x : ScreenState) : ScreenState :=
  { x with power := .dark, dimSince := none, demoted := false }

/-- A wake had aged out before this moment (R159). One that ages out at the same moment as the timer falls due is not
yet dropped where the timer is taken first: its own event drops it. -/
def agedBefore (c : Screen) (now : Nat) (w : Nat) : Bool := decide (w + c.flapWindow * 1000 < now)

/-- Wakes that had aged out are dropped, then the count decides: DARK below the flap limit, demoted otherwise (R159). -/
def darkAfterEvent (c : Screen) (_clock now : Nat) (x : ScreenState) : ScreenState :=
  let x := { x with wakes := x.wakes.filter fun w => !agedBefore c now w }
  if x.wakes.length < c.flapLimit then x.goDark else { x with demoted := true }

/-- The oldest wake has aged out (R160). -/
def wakeAgeTest (c : Screen) (_clock now : Nat) (x : ScreenState) : Bool :=
  match x.wakes with
  | [] => false
  | w :: _ => agedOut c now w

/-- WAKE_AGE_OUT can be taken (R160). -/
def wakeAgeReady (i : Nat) (s : State) : Bool := s.working && screenTest i wakeAgeTest s

/-- The oldest wake leaves the history; a demoted screen whose count falls below the flap limit goes to DARK at once (R159, R160). -/
def wakeAgeEvent (c : Screen) (_clock _now : Nat) (x : ScreenState) : ScreenState :=
  let x := { x with wakes := x.wakes.tail }
  if x.demoted && decide (x.wakes.length < c.flapLimit) then x.goDark else x

/-- WAKE_LEAD_REACHED (R155). -/
def execWakeLeadReached (i : Nat) (f : FaceIx) (s : State) : Host.Outcome State Fault Refusal :=
  .next (if wakeLeadReady i f s then screenEvent i (wakeLeadEvent f) s else s)

/-- DIM_AFTER (R156). -/
def execDimAfter (i : Nat) (f : FaceIx) (s : State) : Host.Outcome State Fault Refusal :=
  .next (if dimAfterReady i f s then screenEvent i (dimAfterEvent f) s else s)

/-- DARK_AFTER (R159). -/
def execDarkAfter (i : Nat) (s : State) : Host.Outcome State Fault Refusal :=
  .next (if darkAfterReady i s then screenEvent i darkAfterEvent s else s)

/-- WAKE_AGE_OUT (R160). -/
def execWakeAgeOut (i : Nat) (s : State) : Host.Outcome State Fault Refusal :=
  .next (if wakeAgeReady i s then screenEvent i wakeAgeEvent s else s)

end Sys2Proof.Machine
end

