-- ==== Sys2Proof/Machine/Schedule.lean ====
section
/-! DEFINITION. Screen schedules and boards (spec 08): requests, admission, eviction, the board's
clock events, purges, removals, banners, END, and the status records. -/

namespace Sys2Proof.Machine

/-! ## The schedule (R133, R134) -/

/-- Schedule order: ascending on time, arrival, runner index, face (R134). -/
def scheduleBefore (a b : Entry) : Bool :=
  decide (a.onTime < b.onTime) ||
    (a.onTime == b.onTime && (decide (a.arrival < b.arrival) ||
      (a.arrival == b.arrival && (decide (a.runner < b.runner) ||
        (a.runner == b.runner && decide (a.face < b.face))))))

/-- An entry put at its place in schedule order. -/
def insertEntry (e : Entry) : List Entry → List Entry
  | [] => [e]
  | x :: rest => if scheduleBefore e x then e :: x :: rest else x :: insertEntry e rest

/-- The entry is that of a runner and face. -/
def Entry.isFor (runner : Nat) (face : FaceIx) (e : Entry) : Bool :=
  e.runner == runner && e.face == face

/-- The schedule's entry for a runner and face. -/
def findEntry (runner : Nat) (face : FaceIx) (l : List Entry) : Option Entry :=
  l.find? (Entry.isFor runner face)

/-- The schedule without the entry for a runner and face. -/
def removeEntry (runner : Nat) (face : FaceIx) (l : List Entry) : List Entry :=
  l.filter fun e => !(e.isFor runner face)

/-- How many entries are SHOWN. -/
def shownCount (l : List Entry) : Nat := (l.filter fun e => e.shownSince.isSome).length

/-- A tally raised by one, holding at 65,535 (R139). -/
def bumpTally (n : Nat) : Nat := if n < Config.tallyLimit then n + 1 else n

/-- The floor after an insertion: it rises at or above high water (R138). -/
def floorAfterInsertion (c : Screen) (occupancy floor : Nat) : Nat :=
  if c.high ≤ occupancy ∧ floor < 7 then floor + 1 else floor

/-- The floor after a removal: it falls at or below low water (R138). -/
def floorAfterRemoval (c : Screen) (occupancy floor : Nat) : Nat :=
  if occupancy ≤ c.low then floor - 1 else floor

/-- A removal (R138): the entry leaves the schedule, the floor is tested against low water, the faces are tested again. -/
def leaveEntry (c : Screen) (clock now : Nat) (runner : Nat) (face : FaceIx) (x : ScreenState) : ScreenState :=
  let l := removeEntry runner face x.schedule
  retest c clock now { x with schedule := l, floor := floorAfterRemoval c l.length x.floor }

/-! ## The board (R141 to R143) -/

/-- A PENDING entry is showable: due, and its off time not reached (R141). -/
def Entry.showable (clock : Nat) (e : Entry) : Bool :=
  e.shownSince.isNone && decide (e.onTime ≤ clock) && decide (clock < e.offTime)

/-- An entry becomes SHOWN, with shown-since the race clock (R141). -/
def showEntry (clock : Nat) (e : Entry) (l : List Entry) : List Entry :=
  l.map fun y => if y.isFor e.runner e.face then { y with shownSince := some clock } else y

/-- While a row is free and a showable entry remains, the first in schedule order is shown (R141). -/
def showFree (c : Screen) (clock now : Nat) : (fuel : Nat) → ScreenState → ScreenState
  | 0, x => x
  | n + 1, x =>
    if shownCount x.schedule < c.rows then
      match x.schedule.find? (Entry.showable clock) with
      | none => x
      | some e => showFree c clock now n (retest c clock now { x with schedule := showEntry clock e x.schedule })
    else x

/-- The free rows of a screen are offered to the showable entries (R141). -/
def offerRows (c : Screen) (clock now : Nat) (x : ScreenState) : ScreenState := showFree c clock now c.rows x

/-- A SHOWN entry's leave time (R142). -/
def Entry.leaveTime (c : Screen) (since : Nat) (e : Entry) : Nat :=
  max e.offTime (min (since + c.dwell) Config.clockCeiling)

/-- A PENDING entry is removed as missed (R143). -/
def missEntry (c : Screen) (clock now : Nat) (runner : Nat) (face : FaceIx) (x : ScreenState) : ScreenState :=
  leaveEntry c clock now runner face { x with missed := bumpTally x.missed }

/-! ## Requests (R135 to R137) -/

/-- The entry a request makes, with the shown-since of the entry it replaces, if any. -/
def Request.entry (r : Request) (shownSince : Option Nat) : Entry :=
  ⟨r.runner, r.face, r.onTime, r.arrival, r.offTime, r.priority, shownSince, r.snapshot⟩

/-- The eviction candidate (R137): of the PENDING entries of lower priority, the one of lowest
priority, and of those the last in schedule order. -/
def candidate (priority : Nat) (l : List Entry) : Option Entry :=
  (l.filter fun e => e.shownSince.isNone && decide (e.priority < priority)).foldl
    (fun best e => match best with
      | none => some e
      | some b => if e.priority ≤ b.priority then some e else some b) none

/-- A new request enters as a PENDING entry, and the floor is tested against high water (R135, R138). -/
def enterRequest (c : Screen) (clock now : Nat) (r : Request) (x : ScreenState) : ScreenState :=
  let l := insertEntry (r.entry none) x.schedule
  retest c clock now { x with schedule := l, floor := floorAfterInsertion c l.length x.floor }

/-- A request is dropped (R136, R137). -/
def dropRequest (x : ScreenState) : ScreenState := { x with dropped := bumpTally x.dropped }

/-- An entry is evicted: it leaves and the dropped tally rises; the floor does not move (R137, R138). -/
def evictEntry (c : Screen) (clock now : Nat) (e : Entry) (x : ScreenState) : ScreenState :=
  retest c clock now
    { x with schedule := removeEntry e.runner e.face x.schedule, dropped := bumpTally x.dropped }

/-- The clock rules of the board for the entry a request made or replaced: a PENDING one whose off time is reached is
missed, a SHOWN one whose leave time is reached leaves (R135); then the rows are offered, as after every request (R141). -/
def settleEntry (c : Screen) (clock now : Nat) (runner : Nat) (face : FaceIx) (x : ScreenState) : ScreenState :=
  match findEntry runner face x.schedule with
  | none => x
  | some e =>
    match e.shownSince with
    | none =>
      offerRows c clock now (if e.offTime ≤ clock then missEntry c clock now runner face x else x)
    | some t =>
      offerRows c clock now (if e.leaveTime c t ≤ clock then leaveEntry c clock now runner face x else x)

/-- The scheduler acts on a screen request (R135 to R138). -/
def requestEvent (r : Request) (c : Screen) (clock now : Nat) (x : ScreenState) : ScreenState :=
  match findEntry r.runner r.face x.schedule with
  | some old =>
    settleEntry c clock now r.runner r.face
      (retest c clock now
        { x with schedule := insertEntry (r.entry old.shownSince) (removeEntry r.runner r.face x.schedule) })
  | none =>
    if r.priority < x.floor then dropRequest x
    else if x.schedule.length < Config.scheduleCapacity then
      settleEntry c clock now r.runner r.face (enterRequest c clock now r x)
    else
      match candidate r.priority x.schedule with
      | none => dropRequest x
      | some e =>
        settleEntry c clock now r.runner r.face (enterRequest c clock now r (evictEntry c clock now e x))

/-! ## Purges and removals (R145, R146) -/

/-- A removal request's effect on a screen (R146). -/
def removalEvent (runner : Nat) (face : FaceIx) (c : Screen) (clock now : Nat) (x : ScreenState) : ScreenState :=
  match findEntry runner face x.schedule with
  | none => x
  | some _ => offerRows c clock now (leaveEntry c clock now runner face x)

/-- An entry leaves where there is one (R145). -/
def leaveIfAny (c : Screen) (clock now : Nat) (runner : Nat) (face : FaceIx) (x : ScreenState) : ScreenState :=
  match findEntry runner face x.schedule with
  | none => x
  | some _ => leaveEntry c clock now runner face x

/-- A purge's effect on a screen: the runner's entries of either face leave, each tested, and the rows are offered (R145). -/
def purgeEvent (runner : Nat) (c : Screen) (clock now : Nat) (x : ScreenState) : ScreenState :=
  if x.schedule.any (fun e => e.runner == runner) then
    offerRows c clock now (leaveIfAny c clock now runner 1 (leaveIfAny c clock now runner 0 x))
  else x

/-- An event made at each of the first `n` screens, in ascending index. -/
def eachScreen (f : Nat → State → State) : (n : Nat) → State → State
  | 0, s => s
  | n + 1, s => f n (eachScreen f n s)

/-- The hand-over at the head is done with. -/
def State.popHandover (s : State) : State := { s with handovers := s.handovers.tail }

/-- SCREEN_REQUEST (R135). -/
def execScreenRequest (s : State) : Host.Outcome State Fault Refusal :=
  .next (if s.working then
    match s.handovers with
    | .request r :: _ => (screenEvent r.screen (requestEvent r) s).popHandover
    | _ => s
  else s)

/-- PURGE (R145). -/
def execPurge (s : State) : Host.Outcome State Fault Refusal :=
  .next (if s.working then
    match s.handovers with
    | .purge runner :: _ =>
      (eachScreen (fun i => screenEvent i (purgeEvent runner)) s.screens.length s).popHandover
    | _ => s
  else s)

/-- REMOVAL (R146). -/
def execRemoval (s : State) : Host.Outcome State Fault Refusal :=
  .next (if s.working then
    match s.handovers with
    | .removal screen face runner :: _ => (screenEvent screen (removalEvent runner face) s).popHandover
    | _ => s
  else s)

/-! ## The clock events of the board -/

/-- A showable entry waits and a row is free (R141). -/
def entryDueTest (c : Screen) (clock _now : Nat) (x : ScreenState) : Bool :=
  decide (shownCount x.schedule < c.rows) && x.schedule.any (Entry.showable clock)

/-- ENTRY_DUE can be taken (R141): the clock runs in RACE only. -/
def entryDueReady (i : Nat) (s : State) : Bool := decide (s.engine = .race) && screenTest i entryDueTest s

/-- ENTRY_DUE (R141). -/
def execEntryDue (i : Nat) (s : State) : Host.Outcome State Fault Refusal :=
  .next (if entryDueReady i s then screenEvent i offerRows s else s)

/-- The SHOWN entry's leave time has been reached (R142). -/
def leaveTest (runner : Nat) (face : FaceIx) (c : Screen) (clock _now : Nat) (x : ScreenState) : Bool :=
  match findEntry runner face x.schedule with
  | none => false
  | some e => e.shownSince.any fun t => decide (e.leaveTime c t ≤ clock)

/-- LEAVE_TIME can be taken (R142). -/
def leaveReady (i runner : Nat) (face : FaceIx) (s : State) : Bool :=
  decide (s.engine = .race) && screenTest i (leaveTest runner face) s

/-- The entry leaves and the freed row is offered (R142). -/
def leaveEvent (runner : Nat) (face : FaceIx) (c : Screen) (clock now : Nat) (x : ScreenState) : ScreenState :=
  offerRows c clock now (leaveEntry c clock now runner face x)

/-- LEAVE_TIME (R142). -/
def execLeaveTime (i runner : Nat) (face : FaceIx) (s : State) : Host.Outcome State Fault Refusal :=
  .next (if leaveReady i runner face s then screenEvent i (leaveEvent runner face) s else s)

/-- The PENDING entry's off time has been reached (R143). -/
def missedTest (runner : Nat) (face : FaceIx) (_c : Screen) (clock _now : Nat) (x : ScreenState) : Bool :=
  match findEntry runner face x.schedule with
  | none => false
  | some e => e.shownSince.isNone && decide (e.offTime ≤ clock)

/-- MISSED can be taken (R143). -/
def missedReady (i runner : Nat) (face : FaceIx) (s : State) : Bool :=
  decide (s.engine = .race) && screenTest i (missedTest runner face) s

/-- The entry is removed as missed (R143). -/
def missedEvent (runner : Nat) (face : FaceIx) (c : Screen) (clock now : Nat) (x : ScreenState) : ScreenState :=
  missEntry c clock now runner face x

/-- MISSED (R143). -/
def execMissed (i runner : Nat) (face : FaceIx) (s : State) : Host.Outcome State Fault Refusal :=
  .next (if missedReady i runner face s then screenEvent i (missedEvent runner face) s else s)

/-! ## Banners (R148, R149) -/

/-- A banner set or cleared: the force flag follows, and the power target is worked out again (R148, R157). -/
def bannerEvent (b : Option Banner) (_c : Screen) (_clock now : Nat) (x : ScreenState) : ScreenState :=
  retarget now { x with banner := b, force := b.isSome }

/-- A banner event at a screen: the BRIGHTNESS frame of a change (log entry 17), then the BANNER frame, handed over in any case (R148). -/
def setBanner (b : Option Banner) (i : Nat) (s : State) : State :=
  placeFrame i (bannerFrame b) (screenEvent i (bannerEvent b) s)

/-- The text of a BANNER item is empty: each character is code 0 or 32 (R148). -/
def emptyText (t : List Byte) : Bool := t.all fun b => b = 0 || b = 0x20

/-- The expiry of a BANNER item fails the check (R148). -/
def badExpiry (clock raw : Nat) : Bool :=
  raw != Config.absentWord && (decide (Config.clockCeiling < raw) || decide (raw ≤ clock))

/-- The screen set of an item as applied: only screens of the loaded copy (R148). -/
def appliedSet (set screenCount : Nat) : Nat := set % 2 ^ screenCount

/-- The BANNER item at the head of the scheduler's hands is done with, and its end reported. -/
def bannerEnd (w : WorkItem) (code : OutcomeCode) (detail : Nat) (s : State) : State :=
  ({ s with bannerItems := s.bannerItems.tail }).reportEnd ⟨w.slot, code, toWord detail, 0, w.notify⟩

/-- A BANNER item is carried out (R148). Its expiry is tested against the race clock as it stands at this step, not as it
stood when the sweep handed the item over: the model's choice, log entry 32. -/
def runBanner (w : WorkItem) (s : State) : State :=
  let set := w.field 0 4
  let expiry := w.field 4 4
  let text := w.bytes 8 32
  if !emptyText text && badExpiry s.raceClock expiry then bannerEnd w .badTime 0 s
  else
    let b : Option Banner := if emptyText text then none else some ⟨text, optTime expiry⟩
    bannerEnd w .ok (appliedSet set s.screens.length)
      (eachScreen (fun i s => if set.testBit i then setBanner b i s else s) s.screens.length s)

/-- BANNER (R148). -/
def execBanner (s : State) : Host.Outcome State Fault Refusal :=
  .next (if s.working then
    match s.bannerItems with
    | [] => s
    | w :: _ => runBanner w s
  else s)

/-- The race clock has reached the expiry of the screen's banner (R149). -/
def bannerExpiryTest (_c : Screen) (clock _now : Nat) (x : ScreenState) : Bool :=
  x.banner.any fun b => b.expiry.any fun t => decide (t ≤ clock)

/-- BANNER_EXPIRY can be taken (R149). An expiry that the clock reached in RACE is acted on in CLOSED too, where END came
first: END keeps banners and their expiries (R150), and the frozen clock reaches no later one. -/
def bannerExpiryReady (i : Nat) (s : State) : Bool := s.working && screenTest i bannerExpiryTest s

/-- BANNER_EXPIRY (R149). -/
def execBannerExpiry (i : Nat) (s : State) : Host.Outcome State Fault Refusal :=
  .next (if bannerExpiryReady i s then setBanner none i s else s)

/-! ## END and PREP (R150, R162, R132, R154) -/

/-- The screen's state at END (R150, R162): schedule and board cleared, floor 0, faces IDLE, force flag clear, DIM since now. -/
def endedScreen (now : Nat) (x : ScreenState) : ScreenState :=
  { x with
    schedule := []
    floor    := 0
    faces    := #v[{ x.faces[0] with activity := .idle }, { x.faces[1] with activity := .idle }]
    force    := false
    power    := .dim
    dimSince := some now
    demoted  := false }

/-- END at a screen: the row frames first, then BRIGHTNESS unless it was DIM (R161, R162). -/
def endScreen (i : Nat) (s : State) : State :=
  match s.config.screens[i]?, s.screens[i]? with
  | some c, some x =>
    let y := endedScreen s.localTime x
    placeFrames i (rowFrames c.rows x.board y.board ++
      (if x.power = .dim then [] else [brightnessFrame .dim])) (s.withScreen i y)
  | _, _ => s

/-- END at the scheduler: every screen, and hand-overs not yet acted on discarded (R150). -/
def endScreens (s : State) : State :=
  { eachScreen endScreen s.screens.length s with handovers := [] }

/-- A screen's state when a load enters PREP (R132, R154). -/
def Screen.initial (now : Nat) (c : Screen) : ScreenState :=
  { schedule := []
    floor    := 0
    dropped  := 0
    missed   := 0
    banner   := none
    faces    := #v[⟨.quiet, now⟩, ⟨if c.face1.isSome then .quiet else .idle, now⟩]
    power    := .active
    dimSince := none
    demoted  := false
    force    := false
    wakes    := [] }

/-! ## Status records (R152) -/

/-- The bytes of a screen status record: power state or OFFLINE, floor, occupancy, tallies (R152; spec 12.3). -/
def statusBytes (x : ScreenState) (online : Bool) : List Byte :=
  [BitVec.ofNat 8 (if online then x.power.code else 3), BitVec.ofNat 8 x.floor,
    BitVec.ofNat 8 x.schedule.length, 0] ++ leBytes 2 x.dropped ++ leBytes 2 x.missed

/-- The status records of the screens from index `i` up, each written whole in one access. -/
def writeStatus : (i : Nat) → List ScreenState → State → State
  | _, [], s => s
  | i, x :: rest, s =>
    (s.store .screenStatus (s.addr (s.config.statusOffset + 8 * i))
      (statusBytes x ((s.panels[i]?.map Panel.online).getD true))).andThen (writeStatus (i + 1) rest)

/-- 1,000 ms have passed since the status timer started (R152). -/
def statusDue (s : State) : Bool :=
  s.working && s.statusTimer.any fun t => s.elapsed t Config.statusInterval

/-- STATUS_TIMER (R152). -/
def execStatusTimer (s : State) : Host.Outcome State Fault Refusal :=
  .next (if statusDue s then
    (writeStatus 0 s.screens s).andThen fun s => { s with statusTimer := some s.localTime }
  else s)

end Sys2Proof.Machine
end

