-- ==== Sys2Proof/Machine/Load.lean ====
section
/-! DEFINITION. The load operation (R4 to R10): the reads and checks of each table in order, the work
table scan, the entry into PREP, and the LOAD_PASSED and LOAD_FAILED commands. -/

namespace Sys2Proof.Machine

/-! ## Reads and checks -/

/-- How a load stops short of PREP: a refused access (R16) or a failing check (R10). -/
inductive LoadStop where
  | refused (r : Region)
  | failed (e : LoadError)
  deriving DecidableEq, Repr

/-- Read accesses of a load, in order: the first that the board refuses stops it. Where the board refuses nothing there
is none to look for. -/
def State.loadReads (s : State) (reads : List (Region × Nat × Nat)) : Except LoadStop Unit :=
  if s.refused.isEmpty then .ok ()
  else
    match reads.find? fun x => s.refuses x.2.1 x.2.2 with
    | some x => .error (.refused x.1)
    | none => .ok ()

/-- A check: the load stops with its code where it fails. -/
def loadCheck (e : LoadError) (holds : Bool) : Except LoadStop Unit :=
  if holds then .ok () else .error (.failed e)

/-- Checks in order; the first that fails stops the load. -/
def loadChecks : List (Bool × LoadError) → Except LoadStop Unit
  | [] => .ok ()
  | (holds, e) :: rest => if holds then loadChecks rest else .error (.failed e)

/-- A value within a range, ends included. -/
def within (lo hi x : Nat) : Bool := decide (lo ≤ x) && decide (x ≤ hi)

/-- A stored zero stands for its default (R5). -/
def orDefault (default x : Nat) : Nat := if x = 0 then default else x

/-- A field held as its value plus one; a stored zero stands for its default (R42). -/
def orDefaultPlusOne (default x : Nat) : Nat := if x = 0 then default else x - 1

/-! ## The region directory (R5; spec 12.3) -/

/-- A word of the region directory. -/
def State.directory (s : State) (o : Nat) : Nat := s.field o 4

/-- The read accesses of the region directory: its words but for the unused bytes. -/
def State.directoryReads (s : State) : List (Region × Nat × Nat) :=
  (List.range 23).map fun k => (.directory, s.addr (4 * k), 4)

/-- The sweep interval and the seal interval, P_min and P_max, defaults applied (R5). -/
def State.sweepIntervalIn (s : State) : Nat := orDefault 100 (s.directory 12)
def State.sealIntervalIn (s : State) : Nat := orDefault 1000 (s.directory 16)
def State.pMinIn (s : State) : Nat := orDefault 165000 (s.directory 20)
def State.pMaxIn (s : State) : Nat := orDefault 1200000 (s.directory 24)

/-- The extents compared (R5): offset and length in bytes. -/
def State.extents (s : State) : List (Nat × Nat) :=
  [(0, 128), (s.directory 32, s.directory 36 * 8), (s.directory 40, 16 * 8),
   (s.directory 48, s.directory 52 * 40), (s.directory 56, s.directory 60 * 320),
   (s.directory 64, s.directory 68 * 8), (s.directory 72, s.directory 76 * 64),
   (s.directory 80, s.directory 84 * 8), (s.directory 88, s.directory 52 * 8)]

/-- Two extents overlap; one of zero bytes overlaps nothing (R5). -/
def overlap (x y : Nat × Nat) : Bool :=
  decide (0 < x.2) && decide (0 < y.2) && decide (x.1 < y.1 + y.2) && decide (y.1 < x.1 + x.2)

/-- No two extents of a list overlap. -/
def disjointAll : List (Nat × Nat) → Bool
  | [] => true
  | x :: rest => !(rest.any (overlap x)) && disjointAll rest

/-- The directory checks (R5). -/
def State.directoryChecks (s : State) : List (Bool × LoadError) :=
  [(s.directory 0 == Config.magic && s.directory 4 == Config.formatVersion, .badMagic),
   (s.directory 44 == 16 && within 0 32 (s.directory 52) && within 0 65000 (s.directory 60)
      && within 0 65000 (s.directory 68) && within 16 256 (s.directory 76), .badSize),
   (within 10 1000 s.sweepIntervalIn, .badSize),
   (disjointAll s.extents, .badSize)]

/-! ## The course (R6) -/

/-- The offset of a byte of a course point. -/
def State.pointOffset (s : State) (p o : Nat) : Nat := s.directory 32 + 8 * p + o

/-- The read accesses of the course table. -/
def State.courseReads (s : State) : List (Region × Nat × Nat) :=
  (List.range (s.directory 36)).flatMap fun p =>
    [(0, 2), (2, 1), (3, 1), (4, 1), (5, 1), (6, 2)].map fun (x : Nat × Nat) =>
      (.course, s.addr (s.pointOffset p x.1), x.2)

/-- The checks of the course-wide settings (R6). -/
def State.settingChecks (s : State) : List (Bool × LoadError) :=
  [(within 2 32 (s.directory 36), .badCourse),
   (within 150000 400000 s.pMinIn && within 600000 1800000 s.pMaxIn
      && within 1 Config.clockCeiling (s.directory 28), .badCourse)]

/-- The merge window of a point in the table, default applied (R6). -/
def State.windowIn (s : State) (p : Nat) : Nat := orDefault 4000 (s.field (s.pointOffset p 6) 2)

/-- A point of the table, where its codes are defined. -/
def State.pointIn (s : State) (p : Nat) : Option Point :=
  match PointKind.ofCode (s.field (s.pointOffset p 2) 1), Source.ofCode (s.field (s.pointOffset p 3) 1),
      TimeChoice.ofCode (s.field (s.pointOffset p 5) 1) with
  | some kind, some source, some choice =>
    some ⟨s.field (s.pointOffset p 0) 2, kind, source, BitVec.ofNat 8 (s.field (s.pointOffset p 4) 1),
      s.windowIn p, choice⟩
  | _, _, _ => none

/-- START stands at point 0 with distance 0 and nowhere else, FINISH at the last point and nowhere else (R6). -/
def placedRight (count p : Nat) (x : Point) : Bool :=
  (decide (p = 0) == decide (x.kind = .start)) && (decide (p + 1 = count) == decide (x.kind = .finish))
    && (decide (p ≠ 0) || decide (x.distance = 0))

/-- A point's mat set suits its source and shares no mat with an earlier point (R6). Of two points that share a mat the
later one fails: the model's choice, log entry 30. -/
def matsRight (before : List Point) (x : Point) : Bool :=
  (decide (x.source = .fromMats) == decide (x.mats ≠ 0)) && before.all fun y => decide (x.mats &&& y.mats = 0)

/-- The checks of a point with the points before it (R6). -/
def pointChecks (count p : Nat) (before : List Point) (x : Point) : List (Bool × LoadError) :=
  [(within 1000 30000 x.window && placedRight count p x, .badCourse),
   ((before.getLast?.map fun y => decide (y.distance < x.distance)).getD true, .badPointOrder),
   (matsRight before x, .badMatset)]

/-- The points of the table from index `p` on, checked one by one (R6). -/
def State.loadPoints (s : State) (count : Nat) : (left p : Nat) → (before : List Point) → Except LoadStop (List Point)
  | 0, _, before => .ok before
  | n + 1, p, before =>
    match s.pointIn p with
    | none => .error (.failed .badCourse)
    | some x =>
      match loadChecks (pointChecks count p before x) with
      | .error e => .error e
      | .ok () => s.loadPoints count n (p + 1) (before ++ [x])

/-! ## Waves and screens (R7) -/

/-- The read accesses of the wave table: the gun times. That the load does not read the fixed-on flags, which R7 says it
does not examine, is the model's choice (log entry 31). -/
def State.waveTableReads (s : State) : List (Region × Nat × Nat) :=
  (List.range 16).map fun w => (.wave, s.addr (s.directory 40 + 8 * w), 4)

/-- A gun time is absent or at most the clock ceiling (R7). -/
def gunRight (raw : Nat) : Bool := raw == Config.absentWord || decide (raw ≤ Config.clockCeiling)

/-- The wave checks (R7). -/
def State.waveChecks (s : State) : List (Bool × LoadError) :=
  (List.range 16).map fun w => (gunRight (s.field (s.directory 40 + 8 * w) 4), .badWave)

/-- The offset of a byte of a screen entry. -/
def State.screenOffset (s : State) (i o : Nat) : Nat := s.directory 48 + 40 * i + o

/-- The fields of a face, from its place in a screen entry. -/
def faceFields (o : Nat) : List (Nat × Nat) := [(o, 1), (o + 2, 2), (o + 4, 4), (o + 8, 4)]

/-- The fields of a screen entry. Face 1 is not read where the face count is 1 (spec 12.3); that it is read only where the
count is 2 is the model's choice (log entry 31). -/
def screenFields (faces : Nat) : List (Nat × Nat) :=
  [(0, 1), (1, 1), (2, 1), (3, 1), (4, 2), (6, 1), (7, 1), (8, 2), (10, 2), (12, 1), (13, 1), (14, 2)]
    ++ faceFields 16 ++ (if faces = 2 then faceFields 28 else [])

/-- The read accesses of the screen table. -/
def State.screenReads (s : State) : List (Region × Nat × Nat) :=
  (List.range (s.directory 52)).flatMap fun i =>
    (screenFields (s.field (s.screenOffset i 3) 1)).map fun x => (.screen, s.addr (s.screenOffset i x.1), x.2)

/-- A face of a screen entry. -/
def State.faceIn (s : State) (i o : Nat) : Face :=
  ⟨s.field (s.screenOffset i o) 1, s.field (s.screenOffset i (o + 2)) 2, s.field (s.screenOffset i (o + 4)) 4,
    s.field (s.screenOffset i (o + 8)) 4⟩

/-- A screen entry with its defaults applied (R42, R43). -/
def State.screenIn (s : State) (i : Nat) : Screen :=
  let f := fun o n => s.field (s.screenOffset i o) n
  { line       := Fin.ofNat 2 (f 0 1)
    address    := f 1 1
    rows       := f 2 1
    face0      := s.faceIn i 16
    face1      := if f 3 1 = 2 then some (s.faceIn i 28) else none
    dwell      := orDefault 2000 (f 4 2)
    high       := orDefault 40 (f 6 1)
    low        := orDefaultPlusOne 16 (f 7 1)
    dimAfter   := orDefault 60 (f 8 2)
    darkAfter  := orDefault 900 (f 10 2)
    wakeLead   := orDefaultPlusOne 30 (f 12 1)
    flapLimit  := orDefault 3 (f 13 1)
    flapWindow := orDefault 600 (f 14 2) }

/-- The ranges of a screen's settings (R7, R42, R43). -/
def Screen.inRange (c : Screen) : Bool :=
  within 1 16 c.address && within 1 8 c.rows && within 500 10000 c.dwell && within 8 48 c.high
    && decide (c.low < c.high) && within 5 600 c.dimAfter && within 60 3600 c.darkAfter
    && within 0 120 c.wakeLead && within 1 15 c.flapLimit && within 60 3600 c.flapWindow

/-- A screen's panel line and address are those of no earlier screen (R7). Of two screens that name the same the later
one fails: the model's choice, log entry 30. -/
def Screen.unique (before : List Screen) (c : Screen) : Bool :=
  before.all fun b => !(decide (b.line = c.line) && b.address == c.address)

/-- A face's feed point, position, lead and linger are in range (R7). -/
def faceRight (points : List Point) (f : Face) : Bool :=
  match points[f.feed]? with
  | none => false
  | some p => decide (f.feed + 1 < points.length) && within (p.distance + 1) (p.distance + 5000) f.x
      && within 0 60000 f.lead && within 0 60000 f.linger

/-- The faces of a screen are right, and its two faces have different feed points (R7). -/
def Screen.facesRight (points : List Point) (c : Screen) : Bool :=
  faceRight points c.face0 && c.face1.all fun f => faceRight points f && decide (f.feed ≠ c.face0.feed)

/-- The checks of a screen entry, its own fields before its faces (R7). -/
def State.screenChecks (s : State) (points : List Point) (i : Nat) (before : List Screen) (c : Screen) :
    List (Bool × LoadError) :=
  [(within 0 1 (s.field (s.screenOffset i 0) 1) && within 1 2 (s.field (s.screenOffset i 3) 1)
      && c.inRange && c.unique before, .badScreen),
   (c.facesRight points, .badFace)]

/-- The screens of the table from index `i` on, checked one by one (R7). -/
def State.loadScreens (s : State) (points : List Point) : (left i : Nat) → (before : List Screen) →
    Except LoadStop (List Screen)
  | 0, _, before => .ok before
  | n + 1, i, before =>
    match loadChecks (s.screenChecks points i before (s.screenIn i)) with
    | .error e => .error e
    | .ok () => s.loadScreens points n (i + 1) (before ++ [s.screenIn i])

/-! ## Chip directory and journal (R8, R9) -/

/-- The read accesses of the chip directory. -/
def State.chipReads (s : State) : List (Region × Nat × Nat) :=
  (List.range (s.directory 68)).map fun k => (.chip, s.addr (s.directory 64 + 8 * k), 8)

/-- The checks of a chip entry against the code of the entry before it (R8). -/
def State.chipChecks (s : State) (k : Nat) (before : Option Nat) : List (Bool × LoadError) :=
  let code := s.field (s.directory 64 + 8 * k) 4
  [(before.all (fun b => decide (b ≤ code)), .unsortedChips),
   (before.all (fun b => decide (b ≠ code)), .dupChip),
   (decide (s.field (s.directory 64 + 8 * k + 4) 4 < s.directory 60), .badRunnerRef)]

/-- The chip directory from entry `k` on, checked entry by entry (R8). -/
def State.loadChips (s : State) : (left k : Nat) → (before : Option Nat) → Except LoadStop Unit
  | 0, _, _ => .ok ()
  | n + 1, k, before =>
    match loadChecks (s.chipChecks k before) with
    | .error e => .error e
    | .ok () => s.loadChips n (k + 1) (some (s.field (s.directory 64 + 8 * k) 4))

/-- The journal checks (R9, step 1). -/
def State.journalChecks (s : State) : List (Bool × LoadError) :=
  [(within 4 64 (s.directory 84) && within 250 10000 s.sealIntervalIn, .badJournal)]

/-- The read accesses of the journal page directory: the page offsets. -/
def State.pageReads (s : State) : List (Region × Nat × Nat) :=
  (List.range (s.directory 84)).map fun k => (.pageDirectory, s.addr (s.directory 80 + 8 * k), 4)

/-- The loaded copy of the directory, with the points and screens of the tables (R36). -/
def State.loadedCopy (s : State) (points : List Point) (screens : List Screen) : Loaded :=
  { points        := points
    screens       := screens
    sweepInterval := s.sweepIntervalIn
    sealInterval  := s.sealIntervalIn
    pMin          := s.pMinIn
    pMax          := s.pMaxIn
    cutoff        := s.directory 28
    waveOffset    := s.directory 40
    runnerOffset  := s.directory 56
    runnerCount   := s.directory 60
    chipOffset    := s.directory 64
    chipCount     := s.directory 68
    courseOffset  := s.directory 32
    screenOffset  := s.directory 48
    pageDirOffset := s.directory 80
    workOffset    := s.directory 72
    slotCount     := s.directory 76
    statusOffset  := s.directory 88
    pages         := (List.range (s.directory 84)).map fun k => s.field (s.directory 80 + 8 * k) 4 }

/-- The reads and checks of a load: each table is read, then its checks are made (R4 to R9; log entry 16). -/
def State.loadOutcome (s : State) : Except LoadStop Loaded := do
  s.loadReads s.directoryReads
  loadChecks s.directoryChecks
  s.loadReads s.courseReads
  loadChecks s.settingChecks
  let points ← s.loadPoints (s.directory 36) (s.directory 36) 0 []
  s.loadReads s.waveTableReads
  loadChecks s.waveChecks
  s.loadReads s.screenReads
  let screens ← s.loadScreens points (s.directory 52) 0 []
  s.loadReads s.chipReads
  s.loadChips (s.directory 68) 0 none
  s.loadReads s.pageReads
  loadChecks s.journalChecks
  return s.loadedCopy points screens

/-! ## The work table scan (R9, step 2) -/

/-- The offset of a byte of a work slot, from the directory. -/
def scanOffset (L : Loaded) (i o : Nat) : Nat := workOffset L i o

/-- The writes of the scan for a slot: for one that reads TAKEN, outcome ABORTED with a zero detail, then FAILED (R9,
R34). That the code is written before the detail is the model's choice (log entry 36). -/
def State.scanWrites (s : State) (L : Loaded) (i : Nat) : List (Region × Nat × List Byte) :=
  if s.field (scanOffset L i 0) 4 = slotTaken then
    [(.work, s.addr (scanOffset L i 48), leBytes 4 OutcomeCode.aborted.code),
     (.work, s.addr (scanOffset L i 52), leBytes 8 0),
     (.work, s.addr (scanOffset L i 0), leBytes 4 slotFailed)]
  else []

/-- The scan of a slot. That it reads the state word and no other field of the slot is the model's choice (log entry 31). -/
def scanSlot (L : Loaded) (s : State) (i : Nat) : State :=
  s.andThen fun s => (s.access .work (s.addr (scanOffset L i 0)) 4).andThen fun s => s.storeAll (s.scanWrites L i)

/-- The scan of the work table, slot by slot in ascending index. -/
def scanTable (L : Loaded) (s : State) : State := (List.range L.slotCount).foldl (scanSlot L) s

/-- All the writes of the scan, in order. -/
def State.allScanWrites (s : State) (L : Loaded) : List (Region × Nat × List Byte) :=
  (List.range L.slotCount).flatMap (s.scanWrites L)

/-! ## The entry into PREP (R9, step 3) -/

/-- A panel record when a load enters PREP (R164). -/
def Screen.panel (c : Screen) : Panel := ⟨c.line, c.address, true, [], 0, 0, none, none⟩

/-- The decoders' presence from the loaded copy (R38, R55). -/
def presentDecoders (L : Loaded) (v : Vector Decoder 8) : Vector Decoder 8 :=
  Vector.ofFn fun m => { v[m] with present := (L.pointOfMat m).isSome }

/-- The blocks as they begin in PREP (R9, R22, R23, R132, R152, R154, R164, R176). -/
def beginBlocks (L : Loaded) (resume : Bool) (s : State) : State :=
  { s with
    engine      := .prep
    loadError   := .noError
    cause       := withCause s.cause .loadDone
    resume      := some resume
    loaded      := some L
    decoders    := presentDecoders L s.decoders
    sweep       := { Sweep.reset with timer := some s.localTime }
    screens     := L.screens.map (Screen.initial s.localTime)
    statusTimer := some s.localTime
    panels      := L.screens.map Screen.panel
    panelLines  := mapTwo (fun x => { x with position := 1 }) s.panelLines
    journal     := Journal.reset }

/-- A full refresh is queued for every panel (R9, R164). -/
def refreshAll (s : State) : State := eachScreen refresh s.screens.length s

/-- The engine enters PREP (R9): the clock start value is read at this moment, the blocks begin, polling
begins unless the value is non-zero (R58), and the writer looks at page 0 (R176). That the read of the value comes before
LOAD_DONE and the entry, and the read of page 0 after all the rest, is the model's choice (log entry 34). -/
def enterPrep (L : Loaded) (s : State) : State :=
  (s.access .directory (s.addr 8) 4).andThen fun s =>
  let resume := decide (s.directory 8 ≠ 0)
  let s := refreshAll (beginBlocks L resume s)
  tryNextPage true (if resume then s else beginPolling s)

/-- LOAD_PASSED (R9): the load in progress passes its checks, scans the work table and enters PREP; an
access the board refuses on the way is a memory fault (R16). -/
def execLoadPassed (s : State) : Host.Outcome State Fault Refusal :=
  .next (if s.engine = .loading then
    match s.loadOutcome with
    | .ok L => (scanTable L s).andThen (enterPrep L)
    | .error (.refused r) => s.halt r
    | .error (.failed _) => s
  else s)

/-- A load fails a check (R10): IDLE, the load error, LOAD_DONE. -/
def failLoad (e : LoadError) (s : State) : State :=
  { s with engine := .idle, loadError := e, cause := withCause s.cause .loadDone }

/-- LOAD_FAILED (R10): the load in progress stops at its first failing check; a refused access before it is a memory fault (R16). -/
def execLoadFailed (s : State) : Host.Outcome State Fault Refusal :=
  .next (if s.engine = .loading then
    match s.loadOutcome with
    | .ok _ => s
    | .error (.refused r) => s.halt r
    | .error (.failed e) => failLoad e s
  else s)

end Sys2Proof.Machine
end

