-- ==== Sys2Proof/Machine/Panel.lean ====
section
/-! DEFINITION. The panel line controllers (spec 10): service, replies, back-off, misses, probes, CLOCK. -/

namespace Sys2Proof.Machine

/-! ## Serving the panels (R168, R169) -/

/-- A panel's back-off end is none or has passed (R168). An end equal to local time now has passed: the model's choice,
log entry 27. -/
def Panel.free (now : Nat) (p : Panel) : Bool := p.backOff.all fun t => decide (t ≤ now)

/-- A panel can be served: frames wait and no back-off stands (R168). -/
def Panel.servable (now : Nat) (p : Panel) : Bool := !p.outbox.isEmpty && p.free now

/-- The addresses in the order the line looks at them: from the service position, wrapping from 16 to 1 (R168). -/
def serviceOrder (position : Nat) : List Nat := (List.range 16).map fun k => (position + 15 + k) % 16 + 1

/-- The screen whose panel has an address on a line (R164). -/
def State.panelAt (l : LineIx) (a : Nat) (s : State) : Option Nat :=
  s.panels.findIdx? fun p => decide (p.line = l) && p.address == a

/-- The panel of the screen, if it can be served now. -/
def State.servableAt (l : LineIx) (a : Nat) (s : State) : Option Nat :=
  match s.panelAt l a with
  | none => none
  | some i => if (s.panels[i]?.map (Panel.servable s.localTime)).getD false then some i else none

/-- The panel the line chooses: that of the first address from the service position on that can be served (R168). -/
def State.nextPanel (l : LineIx) (s : State) : Option Nat :=
  (serviceOrder s.panelLines[l].position).findSome? fun a => s.servableAt l a

/-- The line can begin an exchange: none in flight, no CLOCK waiting, a panel to serve (R165, R168). -/
def panelReady (l : LineIx) (s : State) : Bool :=
  s.working && s.panelLines[l].exchange.isNone && s.panelLines[l].pendingClock.isNone && (s.nextPanel l).isSome

/-- The service position after an address was served (R168). -/
def positionAfter (a : Nat) : Nat := if a < 16 then a + 1 else 1

/-- The head frame of the outbox as it is sent: its indicator clear (R169). -/
def sentHead : List OutFrame → List OutFrame
  | [] => []
  | f :: rest => { f with replaced := false } :: rest

/-- The head frame of the panel of a screen is sent and the reply window opens (R169). -/
def sendHead (l : LineIx) (i : Nat) (p : Panel) (f : OutFrame) (s : State) : State :=
  (s.withPanel i { p with outbox := sentHead p.outbox }).withPanelLine l
    { s.panelLines[l] with
      position := positionAfter p.address
      exchange := some ⟨i, s.localTime, s.localTime + Config.panelWindow, false⟩
      sent     := frameBytes (BitVec.ofNat 8 p.address) f.type f.payload }

/-- The line chooses the next panel and serves it, if it can (R168). -/
def serve (l : LineIx) (s : State) : State :=
  if panelReady l s then
    match s.nextPanel l with
    | none => s
    | some i =>
      match s.panels[i]? with
      | none => s
      | some p =>
        match p.outbox with
        | [] => s
        | f :: _ => sendHead l i p f s
  else s

/-- PANEL_EXCHANGE (R168, R169). -/
def execPanelExchange (l : LineIx) (s : State) : Host.Outcome State Fault Refusal :=
  .next (serve l s)

/-! ## The end of an exchange (R169 to R172) -/

/-- The exchange of a panel line ends. -/
def endExchange (l : LineIx) (s : State) : State :=
  s.withPanelLine l { s.panelLines[l] with exchange := none }

/-- The frame in flight is the panel's PING (R172). -/
def Panel.pinging (p : Panel) : Bool := (p.outbox.head?.map fun f => decide (f.key = .ping)).getD false

/-- The LINE record of an event at the panel of a screen (R174). -/
def panelRecord (event : LineEvent) (i : Nat) (p : Panel) (s : State) : JRecord :=
  lineRecord event p.line p.address i s.raceClock

/-- A PING that brought no ACK is removed, and the next probe is due 5,000 ms on (R172). -/
def Panel.probeFailed (now : Nat) (p : Panel) : Panel :=
  { p with outbox := p.outbox.tail, probeDue := some (now + Config.probeInterval) }

/-- A panel record as the panel goes OFFLINE (R171). -/
def Panel.wentOffline (now : Nat) (p : Panel) : Panel :=
  { p with online := false, outbox := [], misses := 0, waits := 0, backOff := none,
           probeDue := some (now + Config.probeInterval) }

/-- No reply from the panel of a screen (R171, R172). That the PANEL_OFFLINE record is handed over after the rest is the
model's choice (log entry 37). -/
def panelMissed (i : Nat) (p : Panel) (s : State) : State :=
  if p.pinging then s.withPanel i (p.probeFailed s.localTime)
  else if p.misses + 1 < 3 then s.withPanel i { p with waits := 0, misses := p.misses + 1 }
  else
    ((s.withPanel i (p.wentOffline s.localTime)).setCause .lineFault).record (panelRecord .panelOffline i p s)

/-- WAIT from the panel of a screen (R170, R172): a twentieth WAIT, and a WAIT to a PING, are handled as no reply. -/
def panelWaits (i : Nat) (p : Panel) (s : State) : State :=
  if p.pinging || decide (20 ≤ p.waits + 1) then panelMissed i p s
  else s.withPanel i { p with waits := p.waits + 1, backOff := some (s.localTime + Config.backOff) }

/-- The outbox after an ACK: the head frame leaves unless it was replaced since it was sent (R169). -/
def ackedOutbox : List OutFrame → List OutFrame
  | [] => []
  | f :: rest => if f.replaced then f :: rest else rest

/-- A panel record as its panel comes back (R172). -/
def Panel.cameBack (p : Panel) : Panel :=
  { p with online := true, outbox := p.outbox.tail, misses := 0, waits := 0, probeDue := none }

/-- ACK from the panel of a screen (R169); to a PING it brings the panel back, with its record and a full refresh (R172). -/
def panelAcked (i : Nat) (p : Panel) (s : State) : State :=
  if p.pinging then
    ((s.withPanel i p.cameBack).record (panelRecord .panelBack i p s)).andThen (refresh i)
  else s.withPanel i { p with misses := 0, waits := 0, outbox := ackedOutbox p.outbox }

/-- The exchange ends and its panel's record is acted on. -/
def concludeExchange (l : LineIx) (i : Nat) (act : Nat → Panel → State → State) (s : State) : State :=
  match s.panels[i]? with
  | none => endExchange l s
  | some p => act i p (endExchange l s)

/-- A frame arrives on a panel line (R169, R175): outside a reply window or outside PREP, RACE and CLOSED it is
disregarded; a reply of its type is handled by its kind; anything else is no reply. -/
def panelFrame (l : LineIx) (type : Byte) (f : RxFrame) (act : Nat → Panel → State → State) (s : State) : State :=
  match s.panelLines[l].exchange with
  | none => s
  | some e =>
    if s.working && e.holds f.begun && decide (f.begun ≤ s.localTime) then
      if RxFrame.isReply f type ((s.panels[e.target]?.map Panel.address).getD 0) then concludeExchange l e.target act s
      else concludeExchange l e.target panelMissed s
    else s

/-- ACK (R169, R172). -/
def execAck (l : LineIx) (f : RxFrame) (s : State) : Host.Outcome State Fault Refusal :=
  .next (panelFrame l typeAck f panelAcked s)

/-- WAIT (R170). -/
def execWait (l : LineIx) (f : RxFrame) (s : State) : Host.Outcome State Fault Refusal :=
  .next (panelFrame l typeWait f panelWaits s)

/-- The exchange in flight is at its end with no reply: its reception failed, or its window has closed with no
reception begun in it (R169). -/
def noReplyReady (l : LineIx) (failed : Bool) (s : State) : Bool :=
  s.working && s.panelLines[l].exchange.any fun e => failed || e.unanswered s.localTime

/-- NO_REPLY (R171). -/
def execNoReply (l : LineIx) (failed : Bool) (s : State) : Host.Outcome State Fault Refusal :=
  .next (if noReplyReady l failed s then
    match s.panelLines[l].exchange with
    | none => s
    | some e => concludeExchange l e.target panelMissed s
  else s)

/-! ## Back-off and probes (R168, R172) -/

/-- The panel's back-off end has passed (R168; an end equal to local time now has, log entry 27). -/
def backOffReady (i : Nat) (s : State) : Bool :=
  s.working && (s.panels[i]?.map fun p => p.backOff.any fun t => decide (t ≤ s.localTime)).getD false

/-- The back-off is over and the panel's line makes a new choice (R168; log entry 22). -/
def endBackOff (i : Nat) (s : State) : State :=
  match s.panels[i]? with
  | none => s
  | some p => serve p.line (s.withPanel i { p with backOff := none })

/-- BACK_OFF_END (R168). -/
def execBackOffEnd (i : Nat) (s : State) : Host.Outcome State Fault Refusal :=
  .next (if backOffReady i s then endBackOff i s else s)

/-- The probe of an OFFLINE panel is due and no PING waits yet (R172). -/
def Panel.probeReady (now : Nat) (p : Panel) : Bool :=
  !p.online && p.probeDue.any (fun t => decide (t ≤ now)) && !(p.outbox.any fun f => f.key = .ping)

/-- PROBE_DUE can be taken (R172, R175). -/
def probeReady (i : Nat) (s : State) : Bool :=
  s.working && (s.panels[i]?.map (Panel.probeReady s.localTime)).getD false

/-- A PING is placed in the outbox of an OFFLINE panel (R172). -/
def placePing (i : Nat) (s : State) : State :=
  match s.panels[i]? with
  | none => s
  | some p => s.withPanel i { p with outbox := p.outbox ++ [pingFrame] }

/-- PROBE_DUE (R172). -/
def execProbeDue (i : Nat) (s : State) : Host.Outcome State Fault Refusal :=
  .next (if probeReady i s then placePing i s else s)

/-! ## Race time on the line (R173) -/

/-- A CLOCK waits and no exchange is in flight (R173). -/
def clockReady (l : LineIx) (s : State) : Bool :=
  decide (s.engine = .race) && s.panelLines[l].exchange.isNone && s.panelLines[l].pendingClock.isSome

/-- CLOCK is sent to address 0 with the time text of the second, and the pending clock cleared (R173). -/
def PanelLine.sendClock (second : Nat) (x : PanelLine) : PanelLine :=
  { x with pendingClock := none, sent := frameBytes 0 typeClock (timeText (second * 1000)) }

/-- CLOCK (R173). -/
def execClock (l : LineIx) (s : State) : Host.Outcome State Fault Refusal :=
  .next (if clockReady l s then
    match s.panelLines[l].pendingClock with
    | none => s
    | some second => s.withPanelLine l (s.panelLines[l].sendClock second)
  else s)

end Sys2Proof.Machine
end

