-- ==== Sys2Proof/Machine/Sweep.lean ====
section
/-! DEFINITION. The work sweep (spec 02): SWEEP_WRITE, SWEEP_TIMER, SLOT_VISIT and ITEM_END. -/

namespace Sys2Proof.Machine

/-! ## Beginning and ending a sweep (R23, R24, R31) -/

/-- A sweep begins at slot 0; the timer does not run while it does (R23). -/
def beginSweep (s : State) : State := s.withSweep { s.sweep with at? := some 0, waits := false, timer := none }

/-- The sweep unit at the end of a sweep: a remembered request begins a new one, else the timer restarts (R31). -/
def Sweep.ended (now : Nat) (w : Sweep) : Sweep :=
  if w.requested then { w with at? := some 0, waits := false, requested := false, timer := none }
  else { w with at? := none, waits := false, timer := some now }

/-- A sweep ends: the journal writer is told, and the sweep unit goes on (R31). That the writer's re-read comes first is the
model's choice (log entry 37). -/
def endSweep (s : State) : State :=
  (sweepEnded s).andThen fun s => s.withSweep (s.sweep.ended s.localTime)

/-- The sweep goes on to the slot after `i`, or ends after the last slot (R26). -/
def advanceSweep (i : Nat) (s : State) : State :=
  if i + 1 < s.config.slotCount then s.withSweep { s.sweep with at? := some (i + 1), waits := false } else endSweep s

/-- SWEEP_WRITE (R24). -/
def execSweepWrite (_value : Word) (s : State) : Host.Outcome State Fault Refusal :=
  .next (if s.working then
    match s.sweep.at? with
    | none => beginSweep s
    | some _ => s.withSweep { s.sweep with requested := true }
  else s)

/-- The sweep interval has elapsed since the timer started and no sweep runs (R23). -/
def sweepTimerReady (s : State) : Bool :=
  s.working && s.sweep.at?.isNone && s.sweep.timer.any fun t => s.elapsed t s.config.sweepInterval

/-- SWEEP_TIMER (R23). -/
def execSweepTimer (s : State) : Host.Outcome State Fault Refusal :=
  .next (if sweepTimerReady s then beginSweep s else s)

/-! ## Visiting a slot (R26 to R30) -/

/-- The kind is accepted in the engine state; `now` is START_WAVE's mark (R28). -/
def WorkKind.accepted (k : WorkKind) (e : Engine) (now : Bool) : Bool :=
  match k with
  | .remoteCrossing | .correctSplit => decide (e = .race) || decide (e = .closed)
  | .startWave => decide (e = .race) || (decide (e = .prep) && !now)
  | .runnerStatus | .setWatch | .setName | .banner | .flushJournal =>
    decide (e = .prep) || decide (e = .race) || decide (e = .closed)

/-- The state word of a slot. -/
def State.slotState (s : State) (i : Nat) : Nat := s.field (workOffset s.config i 0) 4

/-- The item of a slot of a known kind, as the sweep reads it (R26). -/
def State.slotItem (s : State) (i : Nat) (k : WorkKind) : WorkItem :=
  ⟨i, k, s.field (workOffset s.config i 6) 1 != 0, s.fieldBytes (workOffset s.config i 8) 40⟩

/-- The fields of a work item's body that are read, by its kind, at offsets within the body (spec 12.4): `marked` says
that its "now" or VOID mark is set, and the time beside a mark that is set is not read (R185). Nothing is read of the body
of FLUSH_JOURNAL. -/
def WorkKind.bodyFields (marked : Bool) : WorkKind → List (Nat × Nat)
  | .remoteCrossing => [(0, 4), (4, 1), (8, 4)]
  | .startWave => [(0, 1), (1, 1)] ++ if marked then [] else [(4, 4)]
  | .runnerStatus | .setWatch => [(0, 4), (4, 1)]
  | .setName => [(0, 4), (4, 16)]
  | .correctSplit => [(0, 4), (4, 1), (5, 1)] ++ if marked then [] else [(8, 4)]
  | .banner => [(0, 4), (4, 4), (8, 32)]
  | .flushJournal => []

/-- The item's "now" mark or VOID mark is set (R185). -/
def WorkItem.marked (w : WorkItem) : Bool :=
  match w.kind with
  | .startWave => w.field 1 1 != 0
  | .correctSplit => w.field 5 1 != 0
  | .remoteCrossing | .runnerStatus | .setWatch | .setName | .banner | .flushJournal => false

/-- What is read of the body of a slot (R26): the fields its kind gives it; of a kind that names none of the eight, whose
body has no fields and no unused bytes, all of its 40 bytes (log entry 26). -/
def State.slotBodyFields (s : State) (i : Nat) : List (Nat × Nat) :=
  match WorkKind.ofCode (s.field (workOffset s.config i 4) 2) with
  | none => [(0, 40)]
  | some k => k.bodyFields (s.slotItem i k).marked

/-- The read accesses of kind, notify flag and body (R26, R185; log entry 26). -/
def State.slotReads (s : State) (i : Nat) : List (Region × Nat × Nat) :=
  [(.work, s.addr (workOffset s.config i 4), 2), (.work, s.addr (workOffset s.config i 6), 1)]
    ++ (s.slotBodyFields i).map fun x => (.work, s.addr (workOffset s.config i (8 + x.1)), x.2)

/-- The sweep writes TAKEN and the index enters the in-flight list (R22, R29, R30). -/
def takeSlot (i : Nat) (s : State) : State :=
  (s.store .work (s.addr (workOffset s.config i 0)) (leBytes 4 slotTaken)).andThen fun s =>
  s.withSweep { s.sweep with inFlight := s.sweep.inFlight ++ [i] }

/-- A POSTED slot is taken and failed by the sweep itself: TAKEN is written and the end reported, and the sweep goes on
once that end is written to the slot (R26, R27, R28). -/
def failSlot (i : Nat) (code : OutcomeCode) (notify : Bool) (s : State) : State :=
  (takeSlot i s).andThen fun s =>
  (s.withSweep { s.sweep with waits := true }).reportEnd ⟨i, code, 0, 0, notify⟩

/-- An item of an intake kind is offered to the intake queue before anything is written to its slot (R29). -/
def offerItem (w : WorkItem) (s : State) : State :=
  if s.intake.length < Config.intakeCapacity then
    (takeSlot w.slot (s.pushIntake (.work w))).andThen (advanceSweep w.slot)
  else endSweep s

/-- An accepted item goes to its block (R29, R30). -/
def dispatch (w : WorkItem) (s : State) : State :=
  match w.kind with
  | .banner =>
    (takeSlot w.slot s).andThen fun s =>
    ({ s with bannerItems := s.bannerItems ++ [w] }).andThen (advanceSweep w.slot)
  | .flushJournal =>
    (takeSlot w.slot s).andThen fun s =>
    (s.withJournal { s.journal with flushes := s.journal.flushes ++ [w] }).andThen (advanceSweep w.slot)
  | .remoteCrossing | .startWave | .runnerStatus | .setWatch | .setName | .correctSplit => offerItem w s

/-- A POSTED slot not in flight: its fields are read and it is taken as R27 to R30 give. That this holds too of a slot that
has stayed POSTED through a reset, with a kind not accepted in PREP, is the model's choice (log entry 38). -/
def takePosted (i : Nat) (s : State) : State :=
  (s.accessAll (s.slotReads i)).andThen fun s =>
  match WorkKind.ofCode (s.field (workOffset s.config i 4) 2) with
  | none => failSlot i .badKind (s.field (workOffset s.config i 6) 1 != 0) s
  | some k =>
    let w := s.slotItem i k
    if k.accepted s.engine (w.field 1 1 != 0) then dispatch w s else failSlot i .badState w.notify s

/-- The sweep visits a slot (R26). -/
def visitSlot (i : Nat) (s : State) : State :=
  (s.access .work (s.addr (workOffset s.config i 0)) 4).andThen fun s =>
  if s.slotState i ≠ slotPosted ∨ s.sweep.inFlight.contains i then advanceSweep i s
  else takePosted i s

/-- A sweep runs and does not wait for the end of a slot it failed (R26). -/
def slotVisitReady (s : State) : Bool := s.working && s.sweep.at?.isSome && !s.sweep.waits

/-- SLOT_VISIT (R26). -/
def execSlotVisit (s : State) : Host.Outcome State Fault Refusal :=
  .next (if slotVisitReady s then
    match s.sweep.at? with
    | none => s
    | some i => visitSlot i s
  else s)

/-! ## Ending an item (R32, R33) -/

/-- The writes of an end: outcome code and outcome detail, then the final state (R32). That the code is written before the
detail is the model's choice (log entry 36). -/
def State.endWrites (s : State) (e : EndReport) : List (Region × Nat × List Byte) :=
  [(.work, s.addr (workOffset s.config e.slot 48), leBytes 4 e.outcome.code),
   (.work, s.addr (workOffset s.config e.slot 52), leBytes 4 e.word0.toNat ++ leBytes 4 e.word1.toNat),
   (.work, s.addr (workOffset s.config e.slot 0), leBytes 4 e.outcome.finalState)]

/-- The end leaves the reports and its index the in-flight list (R32). -/
def Sweep.closed (e : EndReport) (w : Sweep) : Sweep :=
  { w with ends := w.ends.tail, inFlight := w.inFlight.filter fun i => i != e.slot }

/-- The sweep waits at the slot of this end, which it took and failed (R26). -/
def Sweep.waitsFor (i : Nat) (w : Sweep) : Bool := w.waits && decide (w.at? = some i)

/-- An end is written to its slot; then its index leaves the list, and WORK_DONE is set with the notify flag (R32, R33);
a sweep that waits for this end goes on (R26). -/
def writeEnd (e : EndReport) (s : State) : State :=
  (s.storeAll (s.endWrites e)).andThen fun s =>
  let s := s.withSweep (s.sweep.closed e)
  let s := if e.notify then s.setCause .workDone else s
  if s.sweep.waitsFor e.slot then advanceSweep e.slot s else s

/-- The end at the head can be written: the TAKEN write of its slot has been made, which puts the index on the in-flight
list; until then the end waits, and so do those behind it (R32). -/
def itemEndReady (s : State) : Bool :=
  s.working && s.sweep.ends.head?.any fun e => s.sweep.inFlight.contains e.slot

/-- ITEM_END (R32). -/
def execItemEnd (s : State) : Host.Outcome State Fault Refusal :=
  .next (if itemEndReady s then
    match s.sweep.ends with
    | [] => s
    | e :: _ => writeEnd e s
  else s)

end Sys2Proof.Machine
end

