-- ==== Sys2Proof/Machine/Split.lean ====
section
/-! DEFINITION. The split unit (spec 06): what an item does as a plan of reads, writes, records,
hand-overs and end report; the chip lookup; placement, arithmetic and storing of crossings; and the
LOCAL_CROSSING and REMOTE_CROSSING commands. -/

namespace Sys2Proof.Machine

/-! ## Plans of items (R109, R115) -/

/-- What the handling of an item does, in the order of its fields (R109, R115). -/
structure ItemPlan where
  /-- Read accesses: region, address, width. -/
  reads     : List (Region × Nat × Nat)
  /-- Write accesses: region, address, bytes. -/
  writes    : List (Region × Nat × List Byte)
  records   : List JRecord
  handovers : List HandOver
  /-- A watch seal for the first record is asked for (R113). -/
  watch     : Bool
  outcome   : OutcomeCode
  /-- The detail words; none stands for the journal serial of the first record. -/
  word0     : Option Word
  word1     : Option Word
  deriving DecidableEq, Repr

/-- An item that ends at a check: reads made, an outcome, and detail words (R115). -/
def ItemPlan.refusal (reads : List (Region × Nat × Nat)) (code : OutcomeCode) (w0 w1 : Nat) : ItemPlan :=
  ⟨reads, [], [], [], false, code, some (toWord w0), some (toWord w1)⟩

/-- The records of an item handed over in order; the serial and place are the first one's. -/
def handAll (rs : List JRecord) (s : State) : Handed :=
  match rs with
  | [] => ⟨s, 0, .dropped⟩
  | r :: rest =>
    let h := handRecord r s
    ⟨rest.foldl (fun s r => s.andThen (State.record r)) h.state, h.serial, h.place⟩

/-- The end report of a work item (R92). -/
def ItemPlan.report (p : ItemPlan) (w : WorkItem) (serial : Word) : EndReport :=
  ⟨w.slot, p.outcome, p.word0.getD serial, p.word1.getD serial, w.notify⟩

/-- The item's accesses: reads, then writes, each complete before the next begins. -/
def ItemPlan.access (p : ItemPlan) (s : State) : State :=
  (s.accessAll p.reads).andThen (State.storeAll p.writes)

/-- What follows the records: hand-overs, the watch seal, the end report, and the item leaves (R109, R92). -/
def ItemPlan.finish (p : ItemPlan) (w : Option WorkItem) (serial : Word) (place : Place) (s : State) : State :=
  let s := { s with handovers := s.handovers ++ p.handovers }
  let s := if p.watch then watchSeal serial place s else s
  s.andThen fun s =>
    match w with
    | none => s.popIntake
    | some w => (s.reportEnd (p.report w serial)).popIntake

/-- The handling of the item in flight (R109, R115). -/
def ItemPlan.run (p : ItemPlan) (w : Option WorkItem) (s : State) : State :=
  (p.access s).andThen fun s =>
    let h := handAll p.records s
    h.state.andThen (p.finish w h.serial h.place)

/-! ## Accesses to the tables -/

/-- The read accesses of a runner record: its fields, and the slots below the point count, each in one access to its time
and flags (R45, R47); unused bytes are not read, those of a slot neither (R185). -/
def State.runnerReads (s : State) (L : Loaded) (i : Nat) : List (Region × Nat × Nat) :=
  ([(0, 4), (4, 4), (8, 1), (9, 1), (10, 1), (12, 1), (16, 16), (32, 4), (36, 4)] ++
    (List.range L.pointCount).map fun p => (slotOffset p, 6)).map
    fun (x : Nat × Nat) => (.runner, s.addr (runnerOffset L i x.1), x.2)

/-- The read accesses of a wave entry: gun time and fixed-on flag (R40). -/
def State.waveReads (s : State) (L : Loaded) (w : Nat) : List (Region × Nat × Nat) :=
  [(.wave, s.addr (waveOffset L w 0), 4), (.wave, s.addr (waveOffset L w 4), 1)]

/-- The read accesses of a runner's wave entry: none for a wave out of range (R96). -/
def State.gunReads (s : State) (L : Loaded) (r : Runner) : List (Region × Nat × Nat) :=
  (r.wave.map (s.waveReads L)).getD []

/-- A write access to a field of a runner record. -/
def State.runnerWrite (s : State) (L : Loaded) (i o : Nat) (bs : List Byte) : Region × Nat × List Byte :=
  (.runner, s.addr (runnerOffset L i o), bs)

/-- The eight bytes of a split slot: time, flags, two unused bytes as zero (R185). -/
def slotBytes (time : Option Nat) (flags : Half) : List Byte :=
  leBytes 4 (absentOr time) ++ leBytes 2 flags.toNat ++ [0, 0]

/-- The write of the wave's fixed-on flag at the gun step: with a gun time present and the flag clear (R96). -/
def State.fixWrites (s : State) (L : Loaded) (r : Runner) : List (Region × Nat × List Byte) :=
  match r.wave, s.runnerGun L r with
  | some w, some _ => if s.fixedOn L w then [] else [(.wave, s.addr (waveOffset L w 4), [1])]
  | _, _ => []

/-! ## Bounds and segments (R97, R99, R101) -/

/-- The present time at the nearest point below `p`, with `zero` as the time at point 0 (R99, R125). -/
def Runner.lowerBound (r : Runner) (zero : Option Nat) : (p : Nat) → Option Nat
  | 0 => none
  | 1 => zero
  | n + 2 =>
    match (r.slot (n + 1)).time with
    | some t => some t
    | none => r.lowerBound zero (n + 1)

/-- The times of the slots above `p`, those present, in course order. -/
def Runner.timesAbove (r : Runner) (pointCount p : Nat) : List Nat :=
  (List.range' (p + 1) (pointCount - (p + 1))).filterMap fun q => (r.slot q).time

/-- The present time at the nearest point above `p` (R99, R125). -/
def Runner.upperBound (r : Runner) (pointCount p : Nat) : Option Nat := (r.timesAbove pointCount p).head?

/-- A time lies strictly between two bounds, each absent or not (R99, R125). -/
def fitsBetween (lower upper : Option Nat) (t : Nat) : Bool :=
  lower.all (fun l => decide (l < t)) && upper.all (fun u => decide (t < u))

/-- The earlier end of the segment of a split at `p`: its point and time; the start with time `S` when no
slot below holds a time that is not SUSPECT (R101). -/
def Runner.segmentFrom (r : Runner) (S : Nat) : (p : Nat) → Nat × Nat
  | 0 => (0, S)
  | 1 => (0, S)
  | n + 2 =>
    match (r.slot (n + 1)).time with
    | some t => if slotSuspect (r.slot (n + 1)).flags then r.segmentFrom S (n + 1) else (n + 1, t)
    | none => r.segmentFrom S (n + 1)

/-- The missed count: the points strictly between `q` and `p` whose slots hold no present time (R101). -/
def Runner.missedBetween (r : Runner) (q p : Nat) : Nat :=
  ((List.range' (q + 1) (p - (q + 1))).filter fun m => (r.slot m).time.isNone).length

/-! ## The arithmetic (R101 to R106) -/

/-- The quotient of a by b taken half up (spec 06, section 6.5). -/
def halfUp (a b : Nat) : Nat := (2 * a + b) / (2 * b)

/-- The elapsed time from `u` to `t`; a free value where `u` is later, which the rules do not state (log entry 15). -/
def elapsedFrom (u t : Nat) : Nat := if u ≤ t then t - u else Config.unstatedElapsed t u

/-- A pace brought into the range P_min to P_max (R104). -/
def Loaded.clampPace (L : Loaded) (p : Nat) : Nat :=
  if p < L.pMin then L.pMin else if L.pMax < p then L.pMax else p

/-- The values derived for a split with a gun time present (R101 to R105). -/
structure Derived where
  /-- The earlier end of the segment, and the missed count. -/
  from_      : Nat
  missed     : Nat
  net        : Nat
  pace       : Nat
  clamped    : Nat
  average    : Nat
  blended    : Nat
  /-- Absent for a SUSPECT split and beyond the cutoff. -/
  projection : Option Nat
  estimated  : Bool
  suspect    : Bool
  slow       : Bool
  beyond     : Bool
  deriving DecidableEq, Repr

/-- The derivation of a split at point `p`, time `t`, gun time `G` (R101 to R105). -/
def derive (L : Loaded) (r : Runner) (G p t : Nat) : Derived :=
  let S := r.start.getD G
  let seg := r.segmentFrom S p
  let net := elapsedFrom S t
  let pace := halfUp (elapsedFrom seg.2 t * 1000) (L.distance p - L.distance seg.1)
  let suspect := decide (pace < L.pMin)
  let clamped := L.clampPace pace
  let average := L.clampPace (halfUp (net * 1000) (L.distance p))
  let blended := halfUp (3 * clamped + average) 4
  let finish := if L.isFinish p then net
    else net + halfUp (blended * (L.finishDistance - L.distance p)) 1000
  let beyond := !suspect && decide (L.cutoff < finish)
  { from_      := seg.1
    missed     := r.missedBetween seg.1 p
    net        := net
    pace       := pace
    clamped    := clamped
    average    := average
    blended    := blended
    projection := if suspect || beyond then none else some finish
    estimated  := r.start.isNone
    suspect    := suspect
    slow       := decide (L.pMax < pace)
    beyond     := beyond }

/-- A face's arrival, on time and off time for a split at `p`, time `t`, with the blended pace and the
clock reading; none when the off time is at or before the reading (R106). -/
def faceTimes (L : Loaded) (f : Face) (p t blended now : Nat) : Option (Nat × Nat × Nat) :=
  let arrival := min (t + halfUp (blended * (f.x - L.distance p)) 1000) Config.clockCeiling
  let on := max (if f.lead < arrival then arrival - f.lead else 0) now
  let off := min (arrival + f.linger) Config.clockCeiling
  if off ≤ now then none else some (on, arrival, off)

/-! ## Screen requests (R112) -/

/-- The face of a screen fed by a point: face 0 or face 1, whose feed points differ (R112). -/
def Screen.fedBy (c : Screen) (p : Nat) : Option (FaceIx × Face) :=
  if c.face0.feed = p then some (0, c.face0)
  else match c.face1 with
    | some f => if f.feed = p then some (1, f) else none
    | none => none

/-- The faces fed by a point, in ascending screen index. -/
def Loaded.facesFedBy (L : Loaded) (p : Nat) : List (Nat × FaceIx × Face) :=
  (L.screens.zipIdx).filterMap fun x => (x.1.fedBy p).map fun y => (x.2, y.1, y.2)

/-- The snapshot of a request (R112). -/
def Derived.snapshot (d : Derived) (r : Runner) : Snapshot :=
  ⟨r.bib, r.name, d.net, d.clamped, d.projection, decide (1 ≤ r.watch)⟩

/-- The request a split makes for a face, if R106 lets it go (R112). -/
def Derived.request (d : Derived) (L : Loaded) (r : Runner) (i p t now : Nat) (x : Nat × FaceIx × Face) : Option Request :=
  (faceTimes L x.2.2 p t d.blended now).map fun y =>
    { screen := x.1, face := x.2.1, runner := i, onTime := y.1, arrival := y.2.1, offTime := y.2.2
      priority := r.watch, snapshot := d.snapshot r }

/-! ## Storing (R107 to R110) -/

/-- The status a stored crossing or correction writes (R107, R127). -/
def Status.stored (s : Status) (finish : Bool) : Status :=
  match s with
  | .registered | .onCourse => if finish then .finished else .onCourse
  | .finished => .finished
  | .held => .held
  | .withdrawn => .withdrawn

/-- The last point reached a stored crossing or correction writes (R107). -/
def lastAfter (held : Option Nat) (p : Nat) : Nat :=
  match held with
  | none => p
  | some q => max q p

/-- The writes of last point reached and status, the last two of a stored crossing or correction (R109, R127). -/
def State.closingWrites (s : State) (L : Loaded) (i p : Nat) (r : Runner) : List (Region × Nat × List Byte) :=
  [s.runnerWrite L i 12 [BitVec.ofNat 8 (lastAfter r.last p)],
   s.runnerWrite L i 9 [BitVec.ofNat 8 (r.status.stored (L.isFinish p)).code]]

/-- The pace as a record holds it (R110). -/
def paceField (p : Nat) : Nat := min p 4294967294

/-- Read count and best strength in the last four bytes of a START or SPLIT record (spec 12.5). -/
def tailOf (count : Nat) (best : Byte) : Word := toWord (count + 256 * best.toNat)

/-- A crossing at a runner's record (R93, R94). -/
structure Crossing where
  runner : Nat
  point  : Nat
  time   : Nat
  remote : Bool
  early  : Bool
  count  : Nat
  best   : Byte
  deriving DecidableEq, Repr

/-- The flags every stored crossing may carry, whatever its derivation (R93 to R96, R99). -/
def Crossing.flags (x : Crossing) (r : Runner) (gun : Option Nat) : SplitFlags :=
  { remote := x.remote, earlyClose := x.early, held := decide (r.status = .held), gunUnknown := gun.isNone }

/-- The watch test (R113). -/
def State.watches (s : State) (r : Runner) : Bool :=
  decide (s.watchLevel.toNat ≠ 0) && decide (s.watchLevel.toNat ≤ r.watch) && decide (r.status ≠ .held)

/-- A crossing that is refused or dropped: its EXCEPTION record, and no write but the fixed-on flag (R109, R111). -/
def Crossing.drop (x : Crossing) (reads : List (Region × Nat × Nat)) (writes : List (Region × Nat × List Byte))
    (code : ExceptionCode) (outcome : OutcomeCode) : ItemPlan :=
  ⟨reads, writes, [runnerException code x.point x.runner x.time], [], false, outcome, none, some 0⟩

/-- The start value S and whether the crossing is clamped (R97). -/
def startValue (gun : Option Nat) (t : Nat) : Nat × Bool :=
  match gun with
  | none => (t, false)
  | some g => (max t g, decide (t < g))

/-- The START record (R110). -/
def Crossing.startRecord (x : Crossing) (f : SplitFlags) (S : Nat) (gun : Option Nat) : JRecord :=
  ⟨kindStart, 0, f.journalWord, 0, 0, BitVec.ofNat 16 x.runner, toWord x.time,
    toWord (absentOr (gun.map fun g => S - g)), toWord S, toWord Config.absentWord, toWord Config.absentWord,
    tailOf x.count x.best⟩

/-- A start crossing after the gun step (R97, R108 to R110). -/
def startPlan (s : State) (L : Loaded) (x : Crossing) (reads : List (Region × Nat × Nat)) (r : Runner) : ItemPlan :=
  let gun := s.runnerGun L r
  let fix := s.fixWrites L r
  let v := startValue gun x.time
  let later := r.timesAbove L.pointCount 0
  if r.start.isSome then x.drop reads fix .repeated .conflict
  else if later.any (fun u => decide (u ≤ v.1)) then x.drop reads fix .orderConflict .conflict
  else
    let f := { x.flags r gun with startClamped := v.2, lateStart := !later.isEmpty }
    { reads     := reads
      writes    := fix ++ [s.runnerWrite L x.runner (slotOffset 0) (slotBytes (some x.time) f.slotWord),
                           s.runnerWrite L x.runner 32 (leBytes 4 v.1)]
                       ++ s.closingWrites L x.runner 0 r
      records   := [x.startRecord f v.1 gun]
      handovers := []
      watch     := s.watches r
      outcome   := .ok
      word0     := none
      word1     := some 0 }

/-- The flags of a split from its derivation (R101 to R105). -/
def SplitFlags.withDerived (f : SplitFlags) (d : Derived) : SplitFlags :=
  { f with
    netEstimated := d.estimated
    suspect      := d.suspect
    slow         := d.slow
    missed       := decide (0 < d.missed)
    beyondCutoff := d.beyond }

/-- The SPLIT record (R110): with no derivation the derived fields are absent. That its missed count is then 0 is the
model's choice (log entry 39). -/
def Crossing.splitRecord (x : Crossing) (f : SplitFlags) (gun : Option Nat) (d : Option Derived) : JRecord :=
  ⟨kindSplit, BitVec.ofNat 8 x.point, f.journalWord, BitVec.ofNat 8 ((d.map Derived.missed).getD 0), 0,
    BitVec.ofNat 16 x.runner, toWord x.time,
    toWord (absentOr (gun.map fun g => x.time - g)),
    toWord (absentOr (d.map Derived.net)),
    toWord (absentOr (d.map fun d => paceField d.pace)),
    toWord (absentOr (d.bind Derived.projection)),
    tailOf x.count x.best⟩

/-- The screen requests of a stored split (R112): none unless the engine is in RACE and the split usable. -/
def State.splitRequests (s : State) (L : Loaded) (r : Runner) (i p t : Nat) (d : Option Derived) : List HandOver :=
  match d with
  | none => []
  | some d =>
    if s.engine = .race ∧ d.suspect = false ∧ r.status ≠ .held then
      (L.facesFedBy p).filterMap fun x => (d.request L r i p t s.itemNow x).map HandOver.request
    else []

/-- A non-start crossing after the gun step (R98 to R110). -/
def splitPlan (s : State) (L : Loaded) (x : Crossing) (reads : List (Region × Nat × Nat)) (r : Runner) : ItemPlan :=
  let gun := s.runnerGun L r
  let fix := s.fixWrites L r
  let lower := r.lowerBound (r.start <|> gun) x.point
  let upper := r.upperBound L.pointCount x.point
  if (r.slot x.point).time.isSome then x.drop reads fix .repeated .conflict
  else if gun.any (fun g => decide (x.time < g)) then x.drop reads fix .beforeGun .conflict
  else if !fitsBetween lower upper x.time then x.drop reads fix .orderConflict .conflict
  else
    let d := gun.map fun g => derive L r g x.point x.time
    let f0 := { x.flags r gun with lateFill := upper.isSome }
    let f := (d.map f0.withDerived).getD f0
    { reads     := reads
      writes    := fix ++ [s.runnerWrite L x.runner (slotOffset x.point) (slotBytes (some x.time) f.slotWord),
                           s.runnerWrite L x.runner 36 (leBytes 4 (absentOr (d.bind Derived.projection)))]
                       ++ s.closingWrites L x.runner x.point r
      records   := x.splitRecord f gun d ::
                     (if f.suspect then [runnerException .suspectFast x.point x.runner x.time] else [])
      handovers := s.splitRequests L r x.runner x.point x.time d
      watch     := s.watches r
      outcome   := .ok
      word0     := none
      word1     := some 0 }

/-- A crossing of a runner whose record has been read (R95 to R113): status, gun, then start or split. -/
def crossingPlan (s : State) (L : Loaded) (x : Crossing) (reads : List (Region × Nat × Nat)) : ItemPlan :=
  let r := s.readRunner L x.runner
  if r.status = .withdrawn then x.drop reads [] .withdrawnRunner .refusedStatus
  else if x.point = 0 then startPlan s L x (reads ++ s.gunReads L r) r
  else splitPlan s L x (reads ++ s.gunReads L r) r

/-! ## Local crossings (R50, R93) -/

/-- The binary search of the chip directory over entries `lo` to `hi` − 1: the entries probed, and the
runner index of the entry found (R50). `fuel` bounds the probes; 16 are enough for 65,000 entries. -/
def chipSearch (s : State) (L : Loaded) (chip : Word) : (fuel lo hi : Nat) → List Nat × Option Nat
  | 0, _, _ => ([], none)
  | n + 1, lo, hi =>
    if hi ≤ lo then ([], none)
    else
      let mid := (lo + hi - 1) / 2
      let code := s.field (L.chipOffset + 8 * mid) 4
      if code = chip.toNat then ([mid], some (s.field (L.chipOffset + 8 * mid + 4) 4))
      else
        let rest := if chip.toNat < code then chipSearch s L chip n lo mid else chipSearch s L chip n (mid + 1) hi
        (mid :: rest.1, rest.2)

/-- The read access of a chip directory entry. -/
def State.chipRead (s : State) (L : Loaded) (k : Nat) : Region × Nat × Nat :=
  (.chip, s.addr (L.chipOffset + 8 * k), 8)

/-- A crossing whose lookup failed: its STRAY_CHIP record (R93). -/
def ClosedCrossing.stray (c : ClosedCrossing) (reads : List (Region × Nat × Nat)) : ItemPlan :=
  ⟨reads, [], [chipException .strayChip c.point c.chip c.time], [], false, .ok, none, some 0⟩

/-- A local crossing: the lookup, then the crossing of the runner found (R93). -/
def localPlan (s : State) (c : ClosedCrossing) : ItemPlan :=
  let L := s.config
  let found := chipSearch s L c.chip 32 0 L.chipCount
  let reads := found.1.map (s.chipRead L)
  match found.2 with
  | none => c.stray reads
  | some i =>
    if L.runnerCount ≤ i then c.stray reads
    else if (s.readRunner L i).chip ≠ c.chip then c.stray (reads ++ s.runnerReads L i)
    else crossingPlan s L ⟨i, c.point, c.time, false, c.early, c.count, c.best⟩ (reads ++ s.runnerReads L i)

/-- LOCAL_CROSSING (R93): the closed crossing at the head of the intake queue. -/
def execLocalCrossing (s : State) : Host.Outcome State Fault Refusal :=
  .next (if s.working then
    match s.intake with
    | .crossing c :: _ => (localPlan s c).run none s
    | _ => s
  else s)

/-! ## Work items of the split unit -/

/-- The work item of a kind at the head of the intake queue, in a state in which the split unit works (R91, R92). -/
def State.headItem (k : WorkKind) (s : State) : Option WorkItem :=
  match s.intake with
  | .work w :: _ => if s.working && decide (w.kind = k) then some w else none
  | _ => none

/-- The item of a kind at the head of the intake queue is handled by its plan. -/
def runItem (k : WorkKind) (plan : State → WorkItem → ItemPlan) (s : State) : State :=
  match s.headItem k with
  | none => s
  | some w => (plan s w).run (some w) s

/-- A REMOTE_CROSSING: the checks of R117, then the crossing (R94). -/
def remotePlan (s : State) (w : WorkItem) : ItemPlan :=
  let L := s.config
  let i := w.field 0 4
  let p := w.field 4 1
  let t := w.field 8 4
  if L.runnerCount ≤ i then .refusal [] .noRunner 0 0
  else if L.pointCount ≤ p then .refusal [] .badPoint 0 0
  else if s.itemNow < t then .refusal [] .badTime 0 0
  else crossingPlan s L ⟨i, p, t, true, false, 0, 0⟩ (s.runnerReads L i)

/-- REMOTE_CROSSING (R117, R94). -/
def execRemoteCrossing (s : State) : Host.Outcome State Fault Refusal :=
  .next (runItem .remoteCrossing remotePlan s)

end Sys2Proof.Machine
end

