-- ==== Sys2Proof/Machine/WorkItems.lean ====
section
/-! DEFINITION. The runner and wave work items (spec 07): START_WAVE, RUNNER_STATUS, SET_WATCH, SET_NAME
and CORRECT_SPLIT. -/

namespace Sys2Proof.Machine

/-! ## START_WAVE (R118) -/

/-- The gun time of a START_WAVE: the clock reading for "now", else the explicit time (R118). -/
def waveTime (s : State) (w : WorkItem) : Nat :=
  if w.field 1 1 ≠ 0 then s.itemNow else w.field 4 4

/-- The explicit time of a START_WAVE is out of range (R118). -/
def badWaveTime (w : WorkItem) : Bool :=
  decide (w.field 1 1 = 0) && decide (Config.clockCeiling < w.field 4 4)

/-- A START_WAVE (R118). -/
def startWavePlan (s : State) (w : WorkItem) : ItemPlan :=
  let L := s.config
  let k := w.field 0 1
  if 15 < k then .refusal [] .badPoint 0 0
  else if badWaveTime w then .refusal [] .badTime 0 0
  else if s.fixedOn L k then .refusal (s.waveReads L k) .conflict (absentOr (s.gunTime L k)) 0
  else
    { reads     := s.waveReads L k
      writes    := [(.wave, s.addr (waveOffset L k 0), leBytes 4 (waveTime s w))]
      records   := []
      handovers := []
      watch     := false
      outcome   := .ok
      word0     := some (toWord (waveTime s w))
      word1     := some 0 }

/-- START_WAVE (R118). -/
def execStartWave (s : State) : Host.Outcome State Fault Refusal :=
  .next (runItem .startWave startWavePlan s)

/-! ## RUNNER_STATUS (R120 to R122) -/

/-- The new status an action gives, or none where it is refused (R120). -/
def statusAfter (L : Loaded) (r : Runner) (a : StatusAction) : Option Status :=
  match a, r.status with
  | .withdraw, .withdrawn => none
  | .withdraw, _ => some .withdrawn
  | .reinstate, .withdrawn =>
    some (if (r.slot (L.pointCount - 1)).time.isSome then .finished
      else if r.hasSplit L.pointCount then .onCourse else .registered)
  | .reinstate, _ => none
  | .hold, .registered | .hold, .onCourse => some .held
  | .hold, _ => none
  | .release, .held => some (if r.hasSplit L.pointCount then .onCourse else .registered)
  | .release, _ => none

/-- WITHDRAW and HOLD are followed by a purge (R121, R122). -/
def StatusAction.purges (a : StatusAction) : Bool := decide (a = .withdraw) || decide (a = .hold)

/-- The STATUS record (R121). -/
def statusRecord (i : Nat) (a : StatusAction) (before after : Status) (now : Nat) : JRecord :=
  ⟨kindStatus, noPoint, 0, BitVec.ofNat 8 a.code, BitVec.ofNat 8 before.code, BitVec.ofNat 16 i, toWord now,
    toWord after.code, 0, 0, 0, 0⟩

/-- An accepted action (R121). -/
def statusPlan (s : State) (L : Loaded) (i : Nat) (a : StatusAction) (before after : Status) : ItemPlan :=
  { reads     := s.runnerReads L i
    writes    := [s.runnerWrite L i 9 [BitVec.ofNat 8 after.code]]
    records   := [statusRecord i a before after s.itemNow]
    handovers := if a.purges then [.purge i] else []
    watch     := false
    outcome   := .ok
    word0     := some (toWord after.code)
    word1     := none }

/-- A RUNNER_STATUS (R120). -/
def runnerStatusPlan (s : State) (w : WorkItem) : ItemPlan :=
  let L := s.config
  let i := w.field 0 4
  if L.runnerCount ≤ i then .refusal [] .noRunner 0 0
  else
    let r := s.readRunner L i
    match StatusAction.ofCode (w.field 4 1) with
    | none => .refusal (s.runnerReads L i) .refusedStatus r.status.code 0
    | some a =>
      match statusAfter L r a with
      | none => .refusal (s.runnerReads L i) .refusedStatus r.status.code 0
      | some after => statusPlan s L i a r.status after

/-- RUNNER_STATUS (R120). -/
def execRunnerStatus (s : State) : Host.Outcome State Fault Refusal :=
  .next (runItem .runnerStatus runnerStatusPlan s)

/-! ## SET_WATCH and SET_NAME (R123, R124) -/

/-- An item that writes one field of a runner's record and no journal record. -/
def fieldPlan (s : State) (L : Loaded) (i o : Nat) (bs : List Byte) (detail : Nat) : ItemPlan :=
  ⟨s.runnerReads L i, [s.runnerWrite L i o bs], [], [], false, .ok, some (toWord detail), some 0⟩

/-- A SET_WATCH (R123). -/
def setWatchPlan (s : State) (w : WorkItem) : ItemPlan :=
  let L := s.config
  let i := w.field 0 4
  if L.runnerCount ≤ i then .refusal [] .noRunner 0 0
  else
    let priority := min (w.field 4 1) 7
    fieldPlan s L i 10 [BitVec.ofNat 8 priority] priority

/-- SET_WATCH (R123). -/
def execSetWatch (s : State) : Host.Outcome State Fault Refusal :=
  .next (runItem .setWatch setWatchPlan s)

/-- A SET_NAME (R124). -/
def setNamePlan (s : State) (w : WorkItem) : ItemPlan :=
  let L := s.config
  let i := w.field 0 4
  if L.runnerCount ≤ i then .refusal [] .noRunner 0 0
  else fieldPlan s L i 16 (w.bytes 4 16) 0

/-- SET_NAME (R124). -/
def execSetName (s : State) : Host.Outcome State Fault Refusal :=
  .next (runItem .setName setNamePlan s)

/-! ## CORRECT_SPLIT (R125 to R130) -/

/-- A removal request for each face fed by a point, in RACE (R130). -/
def State.removals (s : State) (L : Loaded) (i p : Nat) : List HandOver :=
  if s.engine = .race ∧ p ≠ 0 then
    (L.facesFedBy p).map fun x => .removal x.1 x.2.1 i
  else []

/-- What a correction with a new time hands the scheduler for a face: the request it would send, else a removal (R130). -/
def correctionHandOver (L : Loaded) (r : Runner) (i p t now : Nat) (d : Derived) (x : Nat × FaceIx × Face) : HandOver :=
  match d.request L r i p t now x with
  | some q => .request q
  | none => .removal x.1 x.2.1 i

/-- The screen step of a correction with a new time (R130). -/
def State.correctionHandOvers (s : State) (L : Loaded) (r : Runner) (i p t : Nat) (d : Option Derived) : List HandOver :=
  match d with
  | none => s.removals L i p
  | some d =>
    if d.suspect = false ∧ r.status ≠ .held then
      if s.engine = .race ∧ p ≠ 0 then (L.facesFedBy p).map (correctionHandOver L r i p t s.itemNow d) else []
    else s.removals L i p

/-- The CORRECTION record (R129). `time` is absent for VOID; `before` is the time the slot held. -/
def correctionRecord (i p : Nat) (flags : SplitFlags) (time before : Option Nat) (v1 v2 v3 v4 : Option Nat) : JRecord :=
  ⟨kindCorrection, BitVec.ofNat 8 p, flags.journalWord, 0, 0, BitVec.ofNat 16 i, toWord (absentOr time),
    toWord (absentOr v1), toWord (absentOr v2), toWord (absentOr v3), toWord (absentOr v4), toWord (absentOr before)⟩

/-- The status write of a VOID: at the FINISH point of a FINISHED runner (R128). -/
def State.voidStatus (s : State) (L : Loaded) (i p : Nat) (r : Runner) : List (Region × Nat × List Byte) :=
  if L.isFinish p ∧ r.status = .finished then [s.runnerWrite L i 9 [BitVec.ofNat 8 Status.onCourse.code]] else []

/-- A correction with VOID (R128 to R130). It reads the runner record and then the runner's wave entry, as every correction
does (R40). That its record carries HELD when the status read is HELD, and never GUN_UNKNOWN, is log entry 21. -/
def voidPlan (s : State) (L : Loaded) (i p : Nat) (r : Runner) : ItemPlan :=
  { reads     := s.runnerReads L i ++ s.gunReads L r
    writes    := [s.runnerWrite L i (slotOffset p) (slotBytes none 0)]
                   ++ (if p = 0 then [s.runnerWrite L i 32 (leBytes 4 Config.absentWord)] else [])
                   ++ s.voidStatus L i p r
    records   := [correctionRecord i p { corrected := true, held := decide (r.status = .held) } none (r.slot p).time
                    none none none none]
    handovers := s.removals L i p
    watch     := false
    outcome   := .ok
    word0     := none
    word1     := some 0 }

/-- The gun split of a correction: formed when the time is not earlier than the gun (R126). -/
def gunSplitFrom (gun : Option Nat) (t : Nat) : Option Nat :=
  gun.bind fun g => if g ≤ t then some (t - g) else none

/-- The flags of a correction with a new time (R126). -/
def correctionFlags (r : Runner) (gun : Option Nat) (d : Option Derived) : SplitFlags :=
  { netEstimated := (d.map Derived.estimated).getD false
    suspect      := (d.map Derived.suspect).getD false
    slow         := (d.map Derived.slow).getD false
    held         := decide (r.status = .held)
    gunUnknown   := gun.isNone
    beyondCutoff := (d.map Derived.beyond).getD false
    corrected    := true }

/-- A correction of the start with a new time (R126, R127, R129). -/
def correctStartPlan (s : State) (L : Loaded) (i t : Nat) (r : Runner) (gun : Option Nat)
    (reads : List (Region × Nat × Nat)) : ItemPlan :=
  let f := correctionFlags r gun none
  { reads     := reads
    writes    := [s.runnerWrite L i (slotOffset 0) (slotBytes (some t) f.slotWord), s.runnerWrite L i 32 (leBytes 4 t)]
                   ++ s.closingWrites L i 0 r
    records   := [correctionRecord i 0 f (some t) (r.slot 0).time (gunSplitFrom gun t) (some t) none none]
    handovers := []
    watch     := false
    outcome   := .ok
    word0     := none
    word1     := some 0 }

/-- A correction above the start with a new time (R126, R127, R129, R130). -/
def correctTimePlan (s : State) (L : Loaded) (i p t : Nat) (r : Runner) (gun : Option Nat)
    (reads : List (Region × Nat × Nat)) : ItemPlan :=
  let d := gun.map fun g => derive L r g p t
  let f := correctionFlags r gun d
  let projection := d.bind Derived.projection
  { reads     := reads
    writes    := [s.runnerWrite L i (slotOffset p) (slotBytes (some t) f.slotWord),
                  s.runnerWrite L i 36 (leBytes 4 (absentOr projection))]
                   ++ s.closingWrites L i p r
    records   := [correctionRecord i p f (some t) (r.slot p).time (gunSplitFrom gun t) (d.map Derived.net)
                    (d.map fun d => paceField d.pace) projection]
    handovers := s.correctionHandOvers L r i p t d
    watch     := false
    outcome   := .ok
    word0     := none
    word1     := some 0 }

/-- The lower bound of a correction: none at point 0; an absent start time stands as G (R125). -/
def correctionLower (r : Runner) (gun : Option Nat) (p : Nat) : Option Nat := r.lowerBound (r.start <|> gun) p

/-- The accesses of the neighbour check: the wave entry is read where the start time is absent and p is above 0 (R125). -/
def State.neighbourReads (s : State) (L : Loaded) (i p : Nat) (r : Runner) : List (Region × Nat × Nat) :=
  s.runnerReads L i ++ (if r.start.isNone ∧ p ≠ 0 then s.gunReads L r else [])

/-- A CORRECT_SPLIT (R125). -/
def correctSplitPlan (s : State) (w : WorkItem) : ItemPlan :=
  let L := s.config
  let i := w.field 0 4
  let p := w.field 4 1
  let t := w.field 8 4
  let void := decide (w.field 5 1 ≠ 0)
  if L.runnerCount ≤ i then .refusal [] .noRunner 0 0
  else if L.pointCount ≤ p then .refusal [] .badPoint 0 0
  else if void then voidPlan s L i p (s.readRunner L i)
  else if Config.clockCeiling < t ∨ s.itemNow < t then .refusal [] .badTime 0 0
  else
    let r := s.readRunner L i
    let gun := s.runnerGun L r
    let lower := correctionLower r gun p
    let upper := r.upperBound L.pointCount p
    if !fitsBetween lower upper t then
      .refusal (s.neighbourReads L i p r) .conflict (absentOr lower) (absentOr upper)
    else
      let reads := s.runnerReads L i ++ s.gunReads L r
      if p = 0 then correctStartPlan s L i t r gun reads else correctTimePlan s L i p t r gun reads

/-- CORRECT_SPLIT (R125). -/
def execCorrectSplit (s : State) : Host.Outcome State Fault Refusal :=
  .next (runItem .correctSplit correctSplitPlan s)

/-! ## The item in flight, whatever its kind (R92) -/

/-- The plan of an item of the intake queue, by its kind; none for the kinds that never stand in it (R29, R30). -/
def State.planOf (s : State) : IntakeItem → Option ItemPlan
  | .crossing c => some (localPlan s c)
  | .work w =>
    match w.kind with
    | .remoteCrossing => some (remotePlan s w)
    | .startWave => some (startWavePlan s w)
    | .runnerStatus => some (runnerStatusPlan s w)
    | .setWatch => some (setWatchPlan s w)
    | .setName => some (setNamePlan s w)
    | .correctSplit => some (correctSplitPlan s w)
    | .banner | .flushJournal => none

/-- The work item of an entry of the intake queue. -/
def IntakeItem.work? : IntakeItem → Option WorkItem
  | .crossing _ => none
  | .work w => some w

/-- The item in flight is handled by the plan of its kind (R92). -/
def handleHead (s : State) : State :=
  if s.working then
    match s.intake with
    | [] => s
    | x :: _ =>
      match s.planOf x with
      | none => s
      | some p => p.run x.work? s
  else s

end Sys2Proof.Machine
end

