-- ==== Sys2Proof/Machine/Control.lean ====
section
/-! DEFINITION. The clock unit and the register window (spec 01; R183): second marks and the clock ceiling, steps cut
short, resets, the CONTROL commands, the other register writes, and memory faults. -/

namespace Sys2Proof.Machine

/-! ## Second marks and the ceiling (R13, R14) -/

/-- A second mark goes to both mat lines and both panel lines (R14, R60, R173). -/
def giveMark (second : Nat) (s : State) : State :=
  { s with
    matLines   := mapTwo (fun x => { x with pendingMark := some second }) s.matLines
    panelLines := mapTwo (fun x => { x with pendingClock := some second }) s.panelLines
    lastMark   := some second }

/-- The race clock stands at a whole second whose mark has not been given (R14). -/
def secondMarkReady (s : State) : Bool :=
  decide (s.engine = .race) && s.raceClock % 1000 == 0 && decide (s.lastMark ≠ some (s.raceClock / 1000))

/-- The mark of the second that the race clock stands at. -/
def markNow (s : State) : State := giveMark (s.raceClock / 1000) s

/-- SECOND_MARK (R14). -/
def execSecondMark (s : State) : Host.Outcome State Fault Refusal :=
  .next (if secondMarkReady s then markNow s else s)

/-- CLOCK_CEILING is set, once (R13). -/
def giveCeiling (s : State) : State := { s.setCause .clockCeiling with ceilingGiven := true }

/-- The race clock has reached the ceiling and the cause has not been set since START (R13). Where the clock reaches it by
running, the passing of time sets the cause itself (passTime). -/
def ceilingReady (s : State) : Bool :=
  decide (s.engine = .race) && s.raceClock == Config.clockCeiling && !s.ceilingGiven

/-- CLOCK_CEILING (R13). -/
def execClockCeiling (s : State) : Host.Outcome State Fault Refusal :=
  .next (if ceilingReady s then giveCeiling s else s)

/-! ## END, and steps cut short by a reset or a fault report -/

/-- END is taken (R12): the clock freezes, the assembler closes its clusters (R88), marks and clocks not
yet sent go (R60, R173), schedules are cleared (R150), and the writer seals its page (R182). That the seal comes last, so
that the other blocks have acted on END where it meets a refused access, is the model's choice (log entry 35). -/
def endRaceNow (s : State) : State :=
  sealPage (endScreens
    { s with
      engine         := .closed
      commandRefused := false
      assembler      := s.assembler.closeAll
      matLines       := mapTwo MatLine.dropMark s.matLines
      panelLines     := mapTwo PanelLine.dropClock s.panelLines })

/-- The state an outcome leaves; where the machine stops, the state given. -/
def stateAfter (o : Host.Outcome State Fault Refusal) (s : State) : State :=
  match o with
  | .next t => t
  | .fault _ | .refused _ => s

/-- A step that may be under way, as its command carries it out; nothing where its moment has not come. -/
def runUnderway (u : Underway) (s : State) : State :=
  match u with
  | .load => stateAfter (execLoadPassed s) s
  | .endRace => if s.engine = .race then endRaceNow s else s
  | .item => handleHead s
  | .slotVisit => stateAfter (execSlotVisit s) s
  | .itemEnd => stateAfter (execItemEnd s) s
  | .statusTimer => stateAfter (execStatusTimer s) s
  | .sealTimer => stateAfter (execSealTimer s) s
  | .drain => stateAfter (execDrain s) s
  | .flushJournal => stateAfter (execFlushJournal s) s
  | .draw => stateAfter (execDraw s) s
  | .batch l f => stateAfter (execBatch l f s) s
  | .empty l f => stateAfter (execEmpty l f s) s
  | .busy l f => stateAfter (execBusy l f s) s
  | .silence l failed => stateAfter (execSilence l failed s) s
  | .ack l f => stateAfter (execAck l f s) s
  | .wait l f => stateAfter (execWait l f s) s
  | .noReply l failed => stateAfter (execNoReply l failed s) s

/-- A step cut short after the writes it has made: what follows the last of them (or, onward, the write after it) is not
done; a refused access before that ends it sooner (R10, R16, R17, R114, R131; log entry 8). -/
def cutStep (s : State) (c : Cut) : State := cutAt c.made c.onward (runUnderway c.step) s

/-- The steps under way, one after another (log entry 8). -/
def cutAll (cuts : List Cut) (s : State) : State := cuts.foldl cutStep s

/-- Shared memory as the steps under way leave it when a reset takes them (R10, R17, R114). -/
def State.leftBy (cuts : List Cut) (s : State) : State := { s with mem := (cutAll cuts s).mem }

/-! ## Resets (R17, R18) -/

/-- A free choice has been made. -/
def State.countPick (s : State) : State := { s with picks := s.picks + 1 }

/-- Power-on reset (R18): all at reset but shared memory; the queue of commands, the board's refused
addresses and the count of free choices are the model's own. -/
def powerOn (s : State) : State :=
  { State.reset with mem := s.mem, refused := s.refused, picks := s.picks, pending := s.pending }

/-- The soft reset (R17): as at power-on, with BASE, the enables, WATCH_LEVEL and local time kept. -/
def softReset (s : State) : State :=
  { powerOn s with
    base        := s.base
    causeEnable := s.causeEnable
    watchLevel  := s.watchLevel
    localTime   := s.localTime }

/-- RESET is taken while steps are under way: their writes stand as far as they were made (R17). -/
def resetAt (cuts : List Cut) (s : State) : State := softReset (s.leftBy cuts)

/-- POWER_ON_RESET (R18). How far the steps under way had come is a free value of the choice count (R114; log entry 8). -/
def execPowerOnReset (s : State) : Host.Outcome State Fault Refusal :=
  .next (powerOn (s.leftBy (Config.underwayAtPowerOn s.picks)).countPick)

/-! ## The CONTROL commands (R2) -/

/-- A command is refused: the flag is set and nothing else changes (R2). -/
def refuseCommand (s : State) : State := { s with commandRefused := true }

/-- LOAD is taken (R4). -/
def beginLoad (s : State) : State :=
  { s with engine := .loading, loadError := .noError, commandRefused := false }

/-- START is taken with a clock start value (R11): the clock is set and runs, RACE is entered; a mark for a
whole second (R14), CLOCK_CEILING at the ceiling (R13), polling after a resume load (R58). -/
def beginRace (value : Nat) (s : State) : State :=
  let s := { s with engine := .race, raceClock := value, commandRefused := false, lastMark := none, ceilingGiven := false }
  let s := if s.resume = some true then beginPolling s else s
  let s := if value % 1000 = 0 then markNow s else s
  if value = Config.clockCeiling then giveCeiling s else s

/-- START in PREP: the clock start value is read as it stands at this moment (R11). Where the read is refused the engine is
HALTED, START is not taken, and the command-refused flag stays as it was: the model's choice, log entry 25. -/
def startRace (s : State) : State :=
  (s.access .directory (s.addr 8) 4).andThen fun s =>
  if Config.clockCeiling < s.directory 8 then refuseCommand s else beginRace (s.directory 8) s

/-- A write of a code to CONTROL (R2; codes of spec 12.2). -/
def controlWrite (code : Nat) (cuts : List Cut) (s : State) : State :=
  match code with
  | 1 => if s.engine = .idle then beginLoad s else refuseCommand s
  | 2 => if s.engine = .prep then startRace s else refuseCommand s
  | 3 => if s.engine = .race then endRaceNow s else refuseCommand s
  | 4 => resetAt cuts s
  | _ => refuseCommand s

/-- LOAD (R4). -/
def execLoad (s : State) : Host.Outcome State Fault Refusal := .next (controlWrite 1 [] s)

/-- START (R11). -/
def execStart (s : State) : Host.Outcome State Fault Refusal := .next (controlWrite 2 [] s)

/-- END (R12). -/
def execEndRace (s : State) : Host.Outcome State Fault Refusal := .next (controlWrite 3 [] s)

/-- RESET (R17). -/
def execReset (cuts : List Cut) (s : State) : Host.Outcome State Fault Refusal := .next (controlWrite 4 cuts s)

/-- UNKNOWN_COMMAND (R2). -/
def execUnknownCommand (code : Word) (s : State) : Host.Outcome State Fault Refusal :=
  .next (controlWrite code.toNat [] s)

/-! ## The other registers (R3, R183) -/

/-- BASE with its low half written: bits 5 to 0 are not stored (R3). -/
def withBaseLo (value : Word) (base : BitVec 64) : BitVec 64 :=
  ((base >>> 32).truncate 32 ++ (value &&& 0xFFFFFFC0#32) : BitVec 64)

/-- BASE with its high half written (R3). -/
def withBaseHi (value : Word) (base : BitVec 64) : BitVec 64 :=
  (value ++ base.truncate 32 : BitVec 64)

/-- BASE_LO_WRITE (R3). -/
def execBaseLoWrite (value : Word) (s : State) : Host.Outcome State Fault Refusal :=
  .next (if s.engine = .idle then { s with base := withBaseLo value s.base } else refuseCommand s)

/-- BASE_HI_WRITE (R3). -/
def execBaseHiWrite (value : Word) (s : State) : Host.Outcome State Fault Refusal :=
  .next (if s.engine = .idle then { s with base := withBaseHi value s.base } else refuseCommand s)

/-- CAUSE_WRITE (R183): each cause whose bit is written 1 is cleared. -/
def execCauseWrite (value : Word) (s : State) : Host.Outcome State Fault Refusal :=
  .next { s with cause := s.cause &&& ~~~(value.truncate 9) }

/-- CAUSE_ENABLE_WRITE (R3, R183): the enables in bits 8 to 0, WATCH_LEVEL in bits 26 to 24. -/
def execCauseEnableWrite (value : Word) (s : State) : Host.Outcome State Fault Refusal :=
  .next { s with causeEnable := value.truncate 9, watchLevel := (value >>> 24).truncate 3 }

/-- REGISTER_WRITE_IGNORED (R3). -/
def execRegisterWriteIgnored (_register : ReadOnlyRegister) (_value : Word) (s : State) :
    Host.Outcome State Fault Refusal := .next s

/-! ## Memory faults (R16) -/

/-- MEMORY_FAULT (R16): the steps under way stop where they stand, their writes as far as they were made (R114, R131), and
the engine halts. In IDLE no access is in flight but one a RESET left, whose refusal is disregarded (R17; log entry 7). -/
def execMemoryFault (report : FaultReport) (s : State) : Host.Outcome State Fault Refusal :=
  .next (if s.engine = .idle then s else (cutAll report.cuts s).halt report.region)

end Sys2Proof.Machine
end

