-- ==== Sys2Proof/Machine/Dispatch.lean ====
section
/-! DEFINITION. The meaning of each command: one arm per constructor of `Instr`. -/

namespace Sys2Proof.Machine

def exec (i : Instr) (s : State) : Host.Outcome State Fault Refusal :=
  match i with
  -- Register window and clock unit
  | .load => Sys2Proof.Machine.execLoad s
  | .start => Sys2Proof.Machine.execStart s
  | .endRace => Sys2Proof.Machine.execEndRace s
  | .reset cuts => Sys2Proof.Machine.execReset cuts s
  | .unknownCommand code => Sys2Proof.Machine.execUnknownCommand code s
  | .baseLoWrite value => Sys2Proof.Machine.execBaseLoWrite value s
  | .baseHiWrite value => Sys2Proof.Machine.execBaseHiWrite value s
  | .sweepWrite value => Sys2Proof.Machine.execSweepWrite value s
  | .causeWrite value => Sys2Proof.Machine.execCauseWrite value s
  | .causeEnableWrite value => Sys2Proof.Machine.execCauseEnableWrite value s
  | .registerWriteIgnored register value => Sys2Proof.Machine.execRegisterWriteIgnored register value s
  | .loadPassed => Sys2Proof.Machine.execLoadPassed s
  | .loadFailed => Sys2Proof.Machine.execLoadFailed s
  | .memoryFault report => Sys2Proof.Machine.execMemoryFault report s
  | .powerOnReset => Sys2Proof.Machine.execPowerOnReset s
  | .secondMark => Sys2Proof.Machine.execSecondMark s
  | .clockCeiling => Sys2Proof.Machine.execClockCeiling s
  -- Mat lines
  | .round line => Sys2Proof.Machine.execRound line s
  | .call line => Sys2Proof.Machine.execCall line s
  | .batch line frame => Sys2Proof.Machine.execBatch line frame s
  | .empty line frame => Sys2Proof.Machine.execEmpty line frame s
  | .busy line frame => Sys2Proof.Machine.execBusy line frame s
  | .silence line failed => Sys2Proof.Machine.execSilence line failed s
  | .mark line => Sys2Proof.Machine.execMark line s
  -- Crossing assembler
  | .draw => Sys2Proof.Machine.execDraw s
  | .clusterExpiry point chip => Sys2Proof.Machine.execClusterExpiry point chip s
  | .closedCrossingOffer => Sys2Proof.Machine.execClosedCrossingOffer s
  -- Work sweep
  | .slotVisit => Sys2Proof.Machine.execSlotVisit s
  | .sweepTimer => Sys2Proof.Machine.execSweepTimer s
  | .itemEnd => Sys2Proof.Machine.execItemEnd s
  -- Split unit
  | .localCrossing => Sys2Proof.Machine.execLocalCrossing s
  | .remoteCrossing => Sys2Proof.Machine.execRemoteCrossing s
  | .startWave => Sys2Proof.Machine.execStartWave s
  | .runnerStatus => Sys2Proof.Machine.execRunnerStatus s
  | .setWatch => Sys2Proof.Machine.execSetWatch s
  | .setName => Sys2Proof.Machine.execSetName s
  | .correctSplit => Sys2Proof.Machine.execCorrectSplit s
  -- Screen scheduler
  | .screenRequest => Sys2Proof.Machine.execScreenRequest s
  | .purge => Sys2Proof.Machine.execPurge s
  | .removal => Sys2Proof.Machine.execRemoval s
  | .entryDue screen => Sys2Proof.Machine.execEntryDue screen s
  | .leaveTime screen runner face => Sys2Proof.Machine.execLeaveTime screen runner face s
  | .missed screen runner face => Sys2Proof.Machine.execMissed screen runner face s
  | .banner => Sys2Proof.Machine.execBanner s
  | .bannerExpiry screen => Sys2Proof.Machine.execBannerExpiry screen s
  | .statusTimer => Sys2Proof.Machine.execStatusTimer s
  | .wakeLeadReached screen face => Sys2Proof.Machine.execWakeLeadReached screen face s
  | .dimAfter screen face => Sys2Proof.Machine.execDimAfter screen face s
  | .darkAfter screen => Sys2Proof.Machine.execDarkAfter screen s
  | .wakeAgeOut screen => Sys2Proof.Machine.execWakeAgeOut screen s
  -- Panel lines
  | .panelExchange line => Sys2Proof.Machine.execPanelExchange line s
  | .ack line frame => Sys2Proof.Machine.execAck line frame s
  | .wait line frame => Sys2Proof.Machine.execWait line frame s
  | .noReply line failed => Sys2Proof.Machine.execNoReply line failed s
  | .backOffEnd screen => Sys2Proof.Machine.execBackOffEnd screen s
  | .probeDue screen => Sys2Proof.Machine.execProbeDue screen s
  | .clock line => Sys2Proof.Machine.execClock line s
  -- Journal writer
  | .sealTimer => Sys2Proof.Machine.execSealTimer s
  | .drain => Sys2Proof.Machine.execDrain s
  | .flushJournal => Sys2Proof.Machine.execFlushJournal s

end Sys2Proof.Machine
end

