-- ==== Sys2Proof/Machine/Tick.lean ====
section
/-! DEFINITION. What the part does by itself when no command waits (log entry 3): it takes one of its own
events that stands ready, or one millisecond passes. -/

namespace Sys2Proof.Machine

/-- A command where a condition holds. -/
def eventIf (ready : Bool) (c : Instr) : List Instr := if ready then [c] else []

/-- The reception begun in a mat line's reply window can last no longer: it has failed (R57). -/
def matOverlong (l : LineIx) (s : State) : Bool :=
  s.working && s.matLines[l].exchange.any (Exchange.overlong Config.matReception s.localTime)

/-- The reception begun in a panel line's reply window can last no longer: it has failed (R169). -/
def panelOverlong (l : LineIx) (s : State) : Bool :=
  s.working && s.panelLines[l].exchange.any (Exchange.overlong Config.panelReception s.localTime)

/-- The events of the mat lines and panel lines that a time reached or a mark makes due. -/
def lineTimedEvents (s : State) (l : LineIx) : List Instr :=
  eventIf (roundReady l s) (.round l) ++ eventIf (matOverlong l s) (.silence l true)
    ++ eventIf (markReady l s) (.mark l) ++ eventIf (panelOverlong l s) (.noReply l true)
    ++ eventIf (clockReady l s) (.clock l)

/-- The ends of the exchanges whose reply windows close with nothing begun in them (R57, R169). Time may pass instead: a
frame has then begun in the window, and its reception goes on (log entry 11). -/
def windowEvents (s : State) (l : LineIx) : List Instr :=
  eventIf (silenceReady l false s) (.silence l false) ++ eventIf (noReplyReady l false s) (.noReply l false)

/-- The clock events of a screen's entries. -/
def entryEvents (s : State) (i : Nat) (e : Entry) : List Instr :=
  eventIf (leaveReady i e.runner e.face s) (.leaveTime i e.runner e.face)
    ++ eventIf (missedReady i e.runner e.face s) (.missed i e.runner e.face)

/-- The events of a face. -/
def faceEvents (s : State) (i : Nat) (f : FaceIx) : List Instr :=
  eventIf (wakeLeadReady i f s) (.wakeLeadReached i f) ++ eventIf (dimAfterReady i f s) (.dimAfter i f)

/-- The timed events of a screen and its panel. -/
def screenTimedEvents (s : State) (i : Nat) : List Instr :=
  ((s.screens[i]?.map ScreenState.schedule).getD []).flatMap (entryEvents s i)
    ++ eventIf (entryDueReady i s) (.entryDue i) ++ eventIf (bannerExpiryReady i s) (.bannerExpiry i)
    ++ faceEvents s i 0 ++ faceEvents s i 1 ++ eventIf (darkAfterReady i s) (.darkAfter i)
    ++ eventIf (wakeAgeReady i s) (.wakeAgeOut i) ++ eventIf (backOffReady i s) (.backOffEnd i)
    ++ eventIf (probeReady i s) (.probeDue i)

/-- The clusters whose deadline is reached. -/
def expiryEvents (s : State) : List Instr :=
  s.assembler.clusters.flatMap fun c => eventIf (expiryReady c.point c.chip s) (.clusterExpiry c.point c.chip)

/-- The events that are due at a time that has been reached: time does not pass while one stands. -/
def timedEvents (s : State) : List Instr :=
  eventIf (secondMarkReady s) .secondMark ++ eventIf (ceilingReady s) .clockCeiling ++ expiryEvents s
    ++ eventIf (sweepTimerReady s) .sweepTimer ++ eventIf (statusDue s) .statusTimer
    ++ eventIf (sealDue s) .sealTimer ++ lineTimedEvents s 0 ++ lineTimedEvents s 1
    ++ (List.range s.screens.length).flatMap (screenTimedEvents s)

/-- The end of the load in progress. -/
def loadEvent (s : State) : List Instr :=
  if s.engine = .loading then
    match s.loadOutcome with
    | .ok _ => [.loadPassed]
    | .error (.failed _) => [.loadFailed]
    | .error (.refused r) => [.memoryFault ⟨r, []⟩]
  else []

/-- The command that handles an item of the intake queue (R92). -/
def IntakeItem.command : IntakeItem → List Instr
  | .crossing _ => [.localCrossing]
  | .work w =>
    match w.kind with
    | .remoteCrossing => [.remoteCrossing]
    | .startWave => [.startWave]
    | .runnerStatus => [.runnerStatus]
    | .setWatch => [.setWatch]
    | .setName => [.setName]
    | .correctSplit => [.correctSplit]
    | .banner | .flushJournal => []

/-- The command that acts on a hand-over of the split unit. -/
def HandOver.command : HandOver → Instr
  | .request _ => .screenRequest
  | .purge _ => .purge
  | .removal _ _ _ => .removal

/-- The work the blocks have in hand in PREP, RACE and CLOSED, which takes them some time. -/
def blockEvents (s : State) : List Instr :=
  (s.intake.take 1).flatMap IntakeItem.command ++ (s.handovers.take 1).map HandOver.command
    ++ eventIf (!s.bannerItems.isEmpty) .banner ++ eventIf (!s.journal.flushes.isEmpty) .flushJournal
    ++ eventIf (itemEndReady s) .itemEnd ++ eventIf (slotVisitReady s) .slotVisit
    ++ eventIf (drainReady s) .drain ++ eventIf (drawReady s) .draw ++ eventIf (offerReady s) .closedCrossingOffer
    ++ eventIf (panelReady 0 s) (.panelExchange 0) ++ eventIf (panelReady 1 s) (.panelExchange 1)
    ++ eventIf (callReady 0 s) (.call 0) ++ eventIf (callReady 1 s) (.call 1) ++ windowEvents s 0 ++ windowEvents s 1

/-- The work that stands ready. -/
def workEvents (s : State) : List Instr := loadEvent s ++ (if s.working then blockEvents s else [])

/-- The events among which the next idle step chooses. -/
def readyEvents (s : State) : List Instr := timedEvents s ++ workEvents s

/-- The event the next idle step takes, or none for the passing of time: a free choice where there is
one, time passing being among the choices only where no timed event stands. -/
def chosenEvent (s : State) : Option Instr :=
  let events := readyEvents s
  if events.isEmpty then none
  else events[Config.pick s.picks % (events.length + (timedEvents s).isEmpty.toNat)]?

/-- Time passes on a mat line: an exchange past its close goes on with the reception begun in its window (R57). -/
def MatLine.goesOn (now : Nat) (x : MatLine) : MatLine := { x with exchange := x.exchange.map (Exchange.goesOn now) }

/-- Time passes on a panel line (R169). -/
def PanelLine.goesOn (now : Nat) (x : PanelLine) : PanelLine := { x with exchange := x.exchange.map (Exchange.goesOn now) }

/-- The lines as a millisecond passes; outside PREP, RACE and CLOSED they stand (R16, R59). -/
def linesGoOn (s : State) : State :=
  if s.working then
    { s with
      matLines   := mapTwo (MatLine.goesOn s.localTime) s.matLines
      panelLines := mapTwo (PanelLine.goesOn s.localTime) s.panelLines }
  else s

/-- The clocks count one millisecond: local time, and the race clock in RACE up to its ceiling (R13, R15). -/
def countTime (s : State) : State :=
  { s with
    localTime := s.localTime + 1
    raceClock := if s.engine = .race ∧ s.raceClock < Config.clockCeiling then s.raceClock + 1 else s.raceClock }

/-- One millisecond passes. The millisecond in which the race clock reaches its ceiling sets CLOCK_CEILING (R13): that
event is not left to a later step, before which END or a fault could freeze the clock. -/
def passTime (s : State) : State :=
  let t := countTime (linesGoOn s)
  if ceilingReady t then giveCeiling t else t

/-- What the part does when no command waits. -/
def idle (s : State) : Host.Outcome State Fault Refusal :=
  match chosenEvent s with
  | some c => exec c s.countPick
  | none => .next (passTime s.countPick)

end Sys2Proof.Machine
end

