-- ==== Sys2Proof/Safety.lean ====
section
/-! DEFINITION. What a sound state is: the bounds and laws the manual gives the collections, and the
words in which the statements about single commands are made. -/

namespace Sys2Proof.Machine

/-! ## Premises of the statements -/

/-- The board's memory refuses no access (R16), and no step is being cut short (log entry 8). -/
def Accepting (s : State) : Prop := s.refused = [] ∧ s.port = .free

/-- A frame that arrives is a reply of a type to an exchange: the blocks work, it began in the reply
window, and it passes the tests of R186 (R57, R169). -/
def ReplyTo (e : Exchange) (type : Byte) (called : Nat) (f : RxFrame) (s : State) : Prop :=
  s.working = true ∧ e.opened ≤ f.begun ∧ f.begun < e.closes ∧ f.begun ≤ s.localTime ∧ RxFrame.isReply f type called = true

/-- A line calls the decoder at an address in the round under way (R56). -/
def Calls (l : LineIx) (a : Nat) (s : State) : Prop :=
  (s.decoders[matAt l a]).present = true ∧ ((s.decoders[matAt l a]).silent = false ∨ s.matLines[l].round = 0)

/-- A screen of the loaded copy and its state stand at an index. -/
def ScreenAt (s : State) (i : Nat) (c : Screen) (x : ScreenState) : Prop :=
  s.config.screens[i]? = some c ∧ s.screens[i]? = some x

/-! ## Ends of the steps the statements name -/

/-- The item in flight leaves the intake queue: hand-overs made, its end reported if it is a work item; the clock is
read for the item that is then the head, if any (R91, R92, R109). -/
def itemDone (report : Option EndReport) (handovers : List HandOver) (s : State) : State :=
  { s with
    handovers := s.handovers ++ handovers
    sweep     := { s.sweep with ends := s.sweep.ends ++ report.toList }
    intake    := s.intake.tail
    itemClock := if s.intake.tail = [] then none else some s.raceClock
    assembler := { s.assembler with offerWaits := false } }

/-- A screen's state after an event and its frames in the panel's outbox (R144, R161). -/
def screenAfter (i : Nat) (c : Screen) (x y : ScreenState) (s : State) : State :=
  placeFrames i (eventFrames c.rows x y) { s with screens := s.screens.set i y }

/-- The state after any reply of a decoder: silent count 0 and ACTIVE, with a DECODER_BACK record if it was SILENT (R70). -/
def afterReply (l : LineIx) (a : Nat) (s : State) : State :=
  let d := s.decoders[matAt l a]
  let u : State := { s with decoders := s.decoders.set (matAt l a) { d with silent := false, silentCount := 0 } }
  if d.silent then u.record (lineRecord .decoderBack l a (matAt l a).val s.raceClock) else u

/-- The state after the writer re-read its next page: while it is spilling, a next page that reads FREE is opened, with
state OPEN and record count 0; else nothing (R177, R179, R181). -/
def afterReread (s : State) : State :=
  let page := s.config.pages.getD s.journal.nextPage 0
  if s.journal.current = none ∧ s.field page 4 = 0 then
    { s with
      mem     := Memory.writeBytes (Memory.writeBytes s.mem (s.addr page) [1, 0, 0, 0]) (s.addr (page + 8)) [0, 0, 0, 0]
      journal := { s.journal with current := some s.journal.nextPage, fill := 0 } }
  else s

/-- The assembler as it stands at the race clock: in RACE every cluster whose deadline is reached is CLOSING, closed
normally (R77, R81). -/
def atClock (s : State) : Assembler :=
  { s.assembler with
    clusters := s.assembler.clusters.map fun c =>
      if s.engine = .race ∧ c.closing = false ∧ c.deadline ≤ s.raceClock then { c with closing := true, early := false }
      else c }

/-- The clock reading an item of the intake queue has when one joins the tail: the head keeps its own (R90, R91). -/
def joinedClock (s : State) : Option Nat := if s.intake = [] then some s.raceClock else s.itemClock

/-- The cluster a read opens: its deadline one merge window after the stamp, held to the ceiling; CLOSING at once
when that is reached, or in CLOSED (R78, R81, R88). -/
def openedCluster (L : Loaded) (closed : Bool) (clock : Nat) (r : PlacedRead) : Cluster :=
  let deadline := min (r.read.stamp + L.window r.point) 43199999
  ⟨r.point, r.read.chip, r.read.stamp, r.read.stamp, r.read.strength, 1, deadline, closed || decide (deadline ≤ clock), false⟩

/-- Memory after a list of writes. -/
def Memory.writeAll (m : List Host.Cell) (ws : List (Region × Nat × List Byte)) : List Host.Cell :=
  ws.foldl (fun m w => Memory.writeBytes m w.2.1 w.2.2) m

/-- What an item's plan does to the part where no access is refused: its writes in order, its records,
its hand-overs, its watch seal, its end report (R109, R115). -/
def planEffect (p : ItemPlan) (w : Option WorkItem) (s : State) : State :=
  let h := handAll p.records { s with mem := Memory.writeAll s.mem p.writes }
  let u := { h.state with handovers := h.state.handovers ++ p.handovers }
  itemDone (w.map fun w => p.report w h.serial) [] (if p.watch then watchSeal h.serial h.place u else u)

/-- The work item of a kind is in flight in a state in which the split unit works (R91, R92). -/
def ItemHead (k : WorkKind) (w : WorkItem) (s : State) : Prop :=
  s.working = true ∧ w.kind = k ∧ ∃ rest, s.intake = .work w :: rest

/-- A crossing `x` of a runner is in flight: for `none`, a closed crossing whose lookup succeeds (R93); for a
work item, a REMOTE_CROSSING that passes its checks (R94, R117). -/
def CrossingHead (k : Option WorkItem) (x : Crossing) (s : State) : Prop :=
  match k with
  | none => s.working = true ∧ ∃ c rest i, s.intake = .crossing c :: rest
      ∧ (chipSearch s s.config c.chip 32 0 s.config.chipCount).2 = some i ∧ i < s.config.runnerCount
      ∧ (s.readRunner s.config i).chip = c.chip ∧ x = ⟨i, c.point, c.time, false, c.early, c.count, c.best⟩
  | some w => ItemHead .remoteCrossing w s ∧ w.field 0 4 < s.config.runnerCount ∧ w.field 4 1 < s.config.pointCount
      ∧ w.field 8 4 ≤ s.itemNow ∧ x = ⟨w.field 0 4, w.field 4 1, w.field 8 4, true, false, 0, 0⟩

/-- The command that handles it. -/
def crossingCommand : Option WorkItem → Instr
  | none => .localCrossing
  | some _ => .remoteCrossing

/-- A refused or dropped crossing's plan: its record, and no write but the fixed-on flag (R109, R111). -/
def droppedPlan (x : Crossing) (writes : List (Region × Nat × List Byte)) (code : ExceptionCode) (outcome : OutcomeCode) :
    ItemPlan :=
  ⟨[], writes, [runnerException code x.point x.runner x.time], [], false, outcome, none, some 0⟩

/-! ## What a load checks and keeps (R5 to R9, R36), field by field of the tables (spec 12.3) -/

/-- A stored zero stands for the default (R5, R6, R42). -/
def defaulted (default stored : Nat) : Nat := if stored = 0 then default else stored

/-- A value lies in a range, ends included. -/
def Between (lo hi x : Nat) : Prop := lo ≤ x ∧ x ≤ hi

/-- The board's memory refuses none of these reads (R16). -/
def Readable (s : State) (reads : List (Region × Nat × Nat)) : Prop := ∀ x ∈ reads, s.refuses x.2.1 x.2.2 = false

/-- The magic word and the format version (R5). -/
def MagicRight (s : State) : Prop := s.field 0 4 = 0x5A543630 ∧ s.field 4 4 = 1

/-- The extents compared: offset and length of the directory and of the tables in shared memory (R5). -/
def tableExtents (s : State) : List (Nat × Nat) :=
  [(0, 128), (s.field 32 4, s.field 36 4 * 8), (s.field 40 4, 128), (s.field 48 4, s.field 52 4 * 40),
    (s.field 56 4, s.field 60 4 * 320), (s.field 64 4, s.field 68 4 * 8), (s.field 72 4, s.field 76 4 * 64),
    (s.field 80 4, s.field 84 4 * 8), (s.field 88 4, s.field 52 4 * 8)]

/-- The counts, the sweep interval, and extents that do not overlap (R5). -/
def SizesRight (s : State) : Prop :=
  s.field 44 4 = 16 ∧ s.field 52 4 ≤ 32 ∧ s.field 60 4 ≤ 65000 ∧ s.field 68 4 ≤ 65000 ∧ Between 16 256 (s.field 76 4)
    ∧ Between 10 1000 (defaulted 100 (s.field 12 4))
    ∧ (tableExtents s).Pairwise fun x y => ¬ (0 < x.2 ∧ 0 < y.2 ∧ x.1 < y.1 + y.2 ∧ y.1 < x.1 + x.2)

/-- The point count and the course-wide settings (R6). -/
def SettingsRight (s : State) : Prop :=
  Between 2 32 (s.field 36 4) ∧ Between 150000 400000 (defaulted 165000 (s.field 20 4))
    ∧ Between 600000 1800000 (defaulted 1200000 (s.field 24 4)) ∧ Between 1 43199999 (s.field 28 4)

/-- The `n`-byte field at offset `o` of a course point. -/
def pointField (s : State) (p o n : Nat) : Nat := s.field (s.field 32 4 + 8 * p + o) n

/-- A point's codes, merge window and place: START at point 0, at distance 0, and FINISH at the last alone (R6). -/
def PointCodesRight (s : State) (p : Nat) : Prop :=
  pointField s p 2 1 ≤ 2 ∧ pointField s p 3 1 ≤ 1 ∧ pointField s p 5 1 ≤ 1
    ∧ Between 1000 30000 (defaulted 4000 (pointField s p 6 2))
    ∧ (pointField s p 2 1 = 0 ↔ p = 0) ∧ (pointField s p 2 1 = 2 ↔ p + 1 = s.field 36 4)
    ∧ (p = 0 → pointField s p 0 2 = 0)

/-- A point lies beyond the point before it (R6). -/
def PointOrderRight (s : State) (p : Nat) : Prop := 0 < p → pointField s (p - 1) 0 2 < pointField s p 0 2

/-- A point's mat set is empty exactly when it is REMOTE, and no mat of it belongs to an earlier point (R6). That
a mat shared by two points counts against the later one is log entry 30. -/
def PointMatsRight (s : State) (p : Nat) : Prop :=
  (pointField s p 3 1 = 0 ↔ pointField s p 4 1 ≠ 0) ∧ ∀ q, q < p → pointField s p 4 1 &&& pointField s q 4 1 = 0

/-- A point passes the checks of R6. -/
def PointRight (s : State) (p : Nat) : Prop := PointCodesRight s p ∧ PointOrderRight s p ∧ PointMatsRight s p

/-- A wave's gun time is absent or at most the clock ceiling (R7). -/
def WaveRight (s : State) (w : Nat) : Prop :=
  s.field (s.field 40 4 + 8 * w) 4 = 4294967295 ∨ s.field (s.field 40 4 + 8 * w) 4 ≤ 43199999

/-- The `n`-byte field at offset `o` of a screen entry. -/
def screenField (s : State) (i o n : Nat) : Nat := s.field (s.field 48 4 + 40 * i + o) n

/-- A point as the loaded copy keeps it (R36 to R39). -/
def tablePoint (s : State) (p : Nat) : Point :=
  { distance := pointField s p 0 2
    kind     := if pointField s p 2 1 = 0 then .start else if pointField s p 2 1 = 1 then .split else .finish
    source   := if pointField s p 3 1 = 0 then .fromMats else .fromHost
    mats     := BitVec.ofNat 8 (pointField s p 4 1)
    window   := defaulted 4000 (pointField s p 6 2)
    choice   := if pointField s p 5 1 = 0 then .first else .peak }

/-- A face as the loaded copy keeps it (R44): face 0 stands at byte 16 of its screen entry, face 1 at byte 28. -/
def tableFace (s : State) (i o : Nat) : Face :=
  ⟨screenField s i o 1, screenField s i (o + 2) 2, screenField s i (o + 4) 4, screenField s i (o + 8) 4⟩

/-- A screen as the loaded copy keeps it, defaults applied and the plus-one fields decoded (R42 to R44). -/
def tableScreen (s : State) (i : Nat) : Screen :=
  { line       := Fin.ofNat 2 (screenField s i 0 1)
    address    := screenField s i 1 1
    rows       := screenField s i 2 1
    face0      := tableFace s i 16
    face1      := if screenField s i 3 1 = 2 then some (tableFace s i 28) else none
    dwell      := defaulted 2000 (screenField s i 4 2)
    high       := defaulted 40 (screenField s i 6 1)
    low        := defaulted 17 (screenField s i 7 1) - 1
    dimAfter   := defaulted 60 (screenField s i 8 2)
    darkAfter  := defaulted 900 (screenField s i 10 2)
    wakeLead   := defaulted 31 (screenField s i 12 1) - 1
    flapLimit  := defaulted 3 (screenField s i 13 1)
    flapWindow := defaulted 600 (screenField s i 14 2) }

/-- A screen's own fields (R7, R42, R43). That a panel line and address named twice counts against the later screen is log
entry 30. -/
def ScreenRight (s : State) (i : Nat) : Prop :=
  let c := tableScreen s i
  screenField s i 0 1 ≤ 1 ∧ Between 1 16 c.address
    ∧ (∀ j, j < i → ¬ (screenField s j 0 1 = screenField s i 0 1 ∧ screenField s j 1 1 = screenField s i 1 1))
    ∧ Between 1 8 c.rows ∧ Between 1 2 (screenField s i 3 1)
    ∧ Between 500 10000 c.dwell ∧ Between 8 48 c.high ∧ c.low < c.high ∧ Between 5 600 c.dimAfter
    ∧ Between 60 3600 c.darkAfter ∧ c.wakeLead ≤ 120 ∧ Between 1 15 c.flapLimit ∧ Between 60 3600 c.flapWindow

/-- A face's feed point is one before the FINISH point, and its position, lead and linger are in range (R7). -/
def FaceRight (s : State) (f : Face) : Prop :=
  f.feed + 1 < s.field 36 4 ∧ Between (pointField s f.feed 0 2 + 1) (pointField s f.feed 0 2 + 5000) f.x
    ∧ f.lead ≤ 60000 ∧ f.linger ≤ 60000

/-- A screen's faces are right, and two have different feed points (R7). -/
def FacesRight (s : State) (i : Nat) : Prop :=
  FaceRight s (tableFace s i 16)
    ∧ (screenField s i 3 1 = 2 → FaceRight s (tableFace s i 28) ∧ (tableFace s i 28).feed ≠ (tableFace s i 16).feed)

/-- The chip code and the runner index of a chip directory entry (spec 12.3). -/
def chipCode (s : State) (k : Nat) : Nat := s.field (s.field 64 4 + 8 * k) 4
def chipRunner (s : State) (k : Nat) : Nat := s.field (s.field 64 4 + 8 * k + 4) 4

/-- A chip directory entry stands above the one before it, and its runner index below the runner count (R8). -/
def ChipRight (s : State) (k : Nat) : Prop :=
  (0 < k → chipCode s (k - 1) < chipCode s k) ∧ chipRunner s k < s.field 60 4

/-- The page count and the seal interval (R9). -/
def JournalRight (s : State) : Prop :=
  Between 4 64 (s.field 84 4) ∧ Between 250 10000 (defaulted 1000 (s.field 16 4))

/-- What the loaded copy holds of the tables in shared memory (R36). -/
def tableLoaded (s : State) : Loaded :=
  { points        := (List.range (s.field 36 4)).map (tablePoint s)
    screens       := (List.range (s.field 52 4)).map (tableScreen s)
    sweepInterval := defaulted 100 (s.field 12 4)
    sealInterval  := defaulted 1000 (s.field 16 4)
    pMin          := defaulted 165000 (s.field 20 4)
    pMax          := defaulted 1200000 (s.field 24 4)
    cutoff        := s.field 28 4
    waveOffset    := s.field 40 4
    runnerOffset  := s.field 56 4
    runnerCount   := s.field 60 4
    chipOffset    := s.field 64 4
    chipCount     := s.field 68 4
    courseOffset  := s.field 32 4
    screenOffset  := s.field 48 4
    pageDirOffset := s.field 80 4
    workOffset    := s.field 72 4
    slotCount     := s.field 76 4
    statusOffset  := s.field 88 4
    pages         := (List.range (s.field 84 4)).map fun k => s.field (s.field 80 4 + 8 * k) 4 }

/-- What a load has found right by the time it reads a table: its reads accepted and its checks passed, table by table
in the order of R4. -/
def DirectoryPasses (s : State) : Prop := Readable s s.directoryReads ∧ MagicRight s ∧ SizesRight s
def CoursePasses (s : State) : Prop :=
  DirectoryPasses s ∧ Readable s s.courseReads ∧ SettingsRight s ∧ ∀ p, p < s.field 36 4 → PointRight s p
def WavesPass (s : State) : Prop := CoursePasses s ∧ Readable s s.waveTableReads ∧ ∀ w, w < 16 → WaveRight s w
def ScreensPass (s : State) : Prop :=
  WavesPass s ∧ Readable s s.screenReads ∧ ∀ i, i < s.field 52 4 → ScreenRight s i ∧ FacesRight s i
def ChipsPass (s : State) : Prop :=
  ScreensPass s ∧ Readable s s.chipReads ∧ ∀ k, k < s.field 68 4 → ChipRight s k
def LoadPasses (s : State) : Prop := ChipsPass s ∧ Readable s s.pageReads ∧ JournalRight s

/-! ## What a command stores -/

/-- The writes of the status pass (R152). -/
def statusWrites (s : State) : List (Region × Nat × List Byte) :=
  s.screens.zipIdx.map fun y =>
    (.screenStatus, s.addr (s.config.statusOffset + 8 * y.2),
      statusBytes y.1 ((s.panels[y.2]?.map Panel.online).getD true))

/-- The writes by which a page opens (R179). -/
def openingWrites (s : State) (L : Loaded) (p : Nat) : List (Region × Nat × List Byte) :=
  [(.page, s.addr (pageOffset L p 0), leBytes 4 1), (.page, s.addr (pageOffset L p 8), leBytes 4 0)]

/-- The writes a step may make to shared memory, in order, the pages of the loaded copy's journal apart. -/
def stepStores (u : Underway) (s : State) : List (Region × Nat × List Byte) :=
  match u with
  | .load =>
    match s.loadOutcome with
    | .ok L => s.allScanWrites L ++ openingWrites s L 0
    | .error _ => []
  | .item => ((s.intake.head?.bind s.planOf).map ItemPlan.writes).getD []
  | .slotVisit => (s.sweep.at?.map fun i => (.work, s.addr (workOffset s.config i 0), leBytes 4 slotTaken)).toList
  | .itemEnd => (s.sweep.ends.head?.map s.endWrites).getD []
  | .statusTimer => statusWrites s
  | .endRace | .sealTimer | .drain | .flushJournal | .draw | .batch _ _ | .empty _ _ | .busy _ _ | .silence _ _
  | .ack _ _ | .wait _ _ | .noReply _ _ => []

/-- The writes steps cut short have made, one step after another. -/
def cutStores : List Cut → State → List (Region × Nat × List Byte)
  | [], _ => []
  | c :: rest, s => (stepStores c.step s).take c.made ++ cutStores rest (cutStep s c)

/-- The states at which steps cut short begin, and the one the last of them leaves. -/
def cutStates : List Cut → State → List State
  | [], s => [s]
  | c :: rest, s => s :: cutStates rest (cutStep s c)

/-- The steps that are under way when a command cuts them short (log entry 8). -/
def cutsOf (c : Instr) (s : State) : List Cut :=
  match c with
  | .reset cuts => cuts
  | .memoryFault report => report.cuts
  | .powerOnReset => Config.underwayAtPowerOn s.picks
  | _ => []

/-- The writes a command may make to shared memory, the journal pages apart. -/
def storedBy (c : Instr) (s : State) : List (Region × Nat × List Byte) :=
  match c with
  | .loadPassed => stepStores .load s
  | .slotVisit => stepStores .slotVisit s
  | .itemEnd => stepStores .itemEnd s
  | .localCrossing | .remoteCrossing | .startWave | .runnerStatus | .setWatch | .setName | .correctSplit =>
    stepStores .item s
  | .statusTimer => stepStores .statusTimer s
  | .reset _ | .memoryFault _ | .powerOnReset => cutStores (cutsOf c s) s
  | _ => []

/-- The commands that work in HALTED: the register window's, a report of a memory fault, and the resets (R16). -/
def takenInHalted : Instr → Bool
  | .load | .start | .endRace | .reset _ | .unknownCommand _ | .baseLoWrite _ | .baseHiWrite _ | .causeWrite _
  | .causeEnableWrite _ | .memoryFault _ | .powerOnReset => true
  | _ => false

/-- The commands that reset the part; a code that names RESET acts as it (log entry 2). -/
def isReset : Instr → Bool
  | .reset _ | .powerOnReset => true
  | .unknownCommand code => decide (code.toNat = 4)
  | _ => false

/-- A byte lies in no journal page of the loaded copy: a header of 32 bytes and 128 places of 32 bytes each (spec 12.5). -/
def OutsidePages (s : State) (a : Nat) : Prop :=
  ∀ p, p < s.config.pages.length → inBytes (s.addr (pageOffset s.config p 0)) 4128 a = false

/-! ## Laws of the state -/

/-- The bounds of a screen's state (R134, R138, R139, R160). -/
structure ScreenBounded (x : ScreenState) : Prop where
  schedule : x.schedule.length ≤ 48
  floor    : x.floor ≤ 7
  dropped  : x.dropped ≤ 65535
  missed   : x.missed ≤ 65535
  wakes    : x.wakes.length ≤ 15

/-- The bounds of a panel record: at most 16 frames in its outbox, one for each key, of rows 1 to 8; its counts (R164,
R166). -/
structure PanelBounded (p : Panel) : Prop where
  outbox : p.outbox.length ≤ 16
  keys   : p.outbox.Pairwise fun f g => f.key ≠ g.key
  rows   : ∀ f ∈ p.outbox, ∀ r, f.key = .row r → 1 ≤ r ∧ r ≤ 8
  misses : p.misses ≤ 3
  waits  : p.waits ≤ 20

/-- The bounds of the part's collections and counts (R3, R7, R13, R55, R56, R76, R79, R84, R90, R164, R176, R180). -/
structure Bounded (s : State) : Prop where
  base     : s.base.toNat % 64 = 0
  clock    : s.raceClock ≤ 43199999
  landing  : ∀ m : Fin 8, (s.decoders[m]).buffer.length ≤ 64
  silence  : ∀ m : Fin 8, (s.decoders[m]).silentCount ≤ 3
  rounds   : ∀ l : LineIx, s.matLines[l].round ≤ 7
  clusters : s.assembler.clusters.length ≤ 1024
  reads    : ∀ c ∈ s.assembler.clusters, c.count ≤ 255
  memory   : s.assembler.memory.length ≤ 512
  intake   : s.intake.length ≤ 256
  spill    : s.journal.places ≤ 256
  dropped  : s.journal.dropped ≤ 65535
  screens  : ∀ x ∈ s.screens, ScreenBounded x
  rows     : ∀ c ∈ s.config.screens, c.rows ≤ 8
  panels   : ∀ p ∈ s.panels, PanelBounded p
  position : ∀ l : LineIx, 1 ≤ s.panelLines[l].position ∧ s.panelLines[l].position ≤ 16

/-- The writer's page indices name pages of a journal of `n` pages (R176). -/
def Journal.inRange (n : Nat) (j : Journal) : Prop := (∀ p, j.current = some p → p < n) ∧ j.nextPage < n

/-- The current page has a place left, unless the engine has stopped (R176, R178). -/
def State.fillOk (s : State) : Prop := s.engine = .halted ∨ s.journal.fill < 128

/-- The journal writer names pages of the loaded copy, which stands whenever the blocks work (R36, R176). -/
def JournalSound (s : State) : Prop :=
  s.fillOk ∧ (s.working = true → s.loaded.isSome = true) ∧
    match s.loaded with
    | none => s.journal.current = none
    | some L => s.journal.inRange L.pages.length

/-- A schedule stands in schedule order, no two of its entries share runner and face, and no more of
them are shown than the screen has rows (R134). -/
def ScheduleLaw (rows : Nat) (l : List Entry) : Prop :=
  l.Pairwise (fun a b => scheduleBefore a b = true) ∧ l.Pairwise (fun a b => ¬ (a.runner = b.runner ∧ a.face = b.face))
    ∧ shownCount l ≤ rows

/-- Every screen's schedule keeps the schedule law (R134). -/
def SchedulesSound (s : State) : Prop :=
  s.screens.length = s.config.screens.length ∧ ∀ i c x, ScreenAt s i c x → ScheduleLaw c.rows x.schedule

/-- The engine moves along the path of R1: `reset` says whether a reset was taken. -/
def EnginePath (reset : Bool) (a b : Engine) : Prop :=
  a = b ∨ (reset = true ∧ b = .idle) ∨ b = .halted ∧ a ≠ .idle ∨ a = .idle ∧ b = .loading ∨ a = .loading ∧ b = .prep
    ∨ a = .loading ∧ b = .idle ∨ a = .prep ∧ b = .race ∨ a = .race ∧ b = .closed

end Sys2Proof.Machine
end

