-- ==== Sys2Proof/Certificates/Slice0/Obligations.lean ====
section
/-! DEFINITION. The statements for the provers, in the order of the spec's files. -/

open Sys2Proof Sys2Proof.Machine

/-! ## The queue, idling and the engine (spec 01, 95) -/

/-- The command at the front of the queue runs on the state with the queue's rest (the model's order: log entry 1). -/
def Obligations.StepRunsFrontCommand : Prop :=
  ∀ (c : Instr) (rest : List Instr) (s : State), s.pending = c :: rest → step s = exec c { s with pending := rest }

/-- With no command waiting, the part takes one of its own ready events, or one millisecond passes; time does not
pass over an event that is due. The choice is free: it holds for every value of `Config.pick` (log entry 3).
In the millisecond that brings the race clock to its ceiling CLOCK_CEILING is set, once (R13); an exchange that time
finds past its close goes on as one whose reply is being received (R57, R169; log entry 11). -/
def Obligations.IdleStepTakesReadyEventOrTime : Prop :=
  ∀ s : State, s.pending = [] →
    (∀ c, chosenEvent s = some c → c ∈ readyEvents s ∧ step s = exec c { s with picks := s.picks + 1 }) ∧
    (chosenEvent s = none → timedEvents s = [] ∧
      (let clock := if s.engine = .race ∧ s.raceClock < 43199999 then s.raceClock + 1 else s.raceClock
       let ceiling := decide (s.engine = .race) && decide (clock = 43199999) && !s.ceilingGiven
       let goesOn : Option Exchange → Option Exchange := fun x =>
         if s.working then x.map fun e => { e with receiving := e.receiving || decide (e.closes ≤ s.localTime) } else x
       step s = .next { s with
         picks        := s.picks + 1
         localTime    := s.localTime + 1
         raceClock    := clock
         cause        := if ceiling then s.cause ||| 0x040#9 else s.cause
         ceilingGiven := s.ceilingGiven || ceiling
         matLines     := #v[{ s.matLines[0] with exchange := goesOn s.matLines[0].exchange },
                            { s.matLines[1] with exchange := goesOn s.matLines[1].exchange }]
         panelLines   := #v[{ s.panelLines[0] with exchange := goesOn s.panelLines[0].exchange },
                            { s.panelLines[1] with exchange := goesOn s.panelLines[1].exchange }] }))

/-- The state after power-on holds the values the rules give for reset: the engine and the register window; each decoder
and mat line; the assembler; the split unit; the sweep unit; the scheduler; the panel lines and panels; the journal writer
(R18, R35, R72, R89, R114, R153, R175, R176). What no rule gives a value for at reset is named in log entry 14 and stated
here of nothing. The state satisfies every law of the state. -/
def Obligations.ResetStateIsSound : Prop :=
  State.reset.engine = .idle ∧ State.reset.raceClock = 0 ∧ State.reset.localTime = 0 ∧ State.reset.base = 0
    ∧ State.reset.loadError = .noError ∧ State.reset.commandRefused = false ∧ State.reset.faultRegion = none
    ∧ State.reset.cause = 0 ∧ State.reset.causeEnable = 0 ∧ State.reset.watchLevel = 0
    ∧ State.reset.interruptLine = false ∧ State.reset.loaded = none ∧ State.reset.resume = none
    ∧ (∀ m : Fin 8, let d := State.reset.decoders[m]
        d.silent = false ∧ d.silentCount = 0 ∧ d.lastTaken = none ∧ d.hold = false ∧ d.antennaFault = false ∧ d.buffer = [])
    ∧ (∀ l : LineIx, let x := State.reset.matLines[l]
        x.round = 0 ∧ x.pendingMark = none ∧ x.exchange = none)
    ∧ State.reset.assembler.clusters = [] ∧ State.reset.assembler.closingHead = none ∧ State.reset.assembler.memory = []
    ∧ State.reset.assembler.held = none ∧ State.reset.assembler.offerWaits = false ∧ State.reset.assembler.arbiter = 0
    ∧ State.reset.intake = [] ∧ State.reset.itemClock = none
    ∧ State.reset.sweep.at? = none ∧ State.reset.sweep.requested = false ∧ State.reset.sweep.timer = none
    ∧ State.reset.sweep.inFlight = [] ∧ State.reset.sweep.ends = []
    ∧ State.reset.screens = [] ∧ State.reset.handovers = [] ∧ State.reset.bannerItems = [] ∧ State.reset.statusTimer = none
    ∧ State.reset.panels = []
    ∧ (∀ l : LineIx, let x := State.reset.panelLines[l]
        x.exchange = none ∧ x.pendingClock = none)
    ∧ State.reset.journal.current = none ∧ State.reset.journal.fill = 0 ∧ State.reset.journal.serial = 0
    ∧ State.reset.journal.pageSeq = 0 ∧ State.reset.journal.spill = [] ∧ State.reset.journal.dropped = 0
    ∧ State.reset.journal.sealTimer = none ∧ State.reset.journal.flushes = []
    ∧ Memory.wf State.reset.mem = true ∧ Bounded State.reset ∧ JournalSound State.reset ∧ SchedulesSound State.reset

/-- In HALTED only the register window, a further fault report and the resets act; every block stands (R16). -/
def Obligations.HaltedBlocksStand : Prop :=
  ∀ (c : Instr) (s : State), s.engine = .halted → takenInHalted c = false → exec c s = .next s

/-- The commands of CONTROL are taken or refused by the engine state; a refused one sets the command-refused
flag and has no other effect, a taken one clears it, and so do the resets (R2). -/
def Obligations.ControlCommandsTakenOrRefused : Prop :=
  ∀ s : State,
    (s.engine ≠ .idle → exec .load s = .next { s with commandRefused := true }) ∧
    (s.engine = .idle →
      exec .load s = .next { s with engine := .loading, loadError := .noError, commandRefused := false }) ∧
    (s.engine ≠ .prep → exec .start s = .next { s with commandRefused := true }) ∧
    (s.engine = .prep → Accepting s → 43199999 < s.field 8 4 →
      exec .start s = .next { s with commandRefused := true }) ∧
    (s.engine = .prep → Accepting s → s.field 8 4 ≤ 43199999 →
      ∃ t, exec .start s = .next t ∧ t.engine = .race ∧ t.commandRefused = false) ∧
    (s.engine ≠ .race → exec .endRace s = .next { s with commandRefused := true }) ∧
    (s.engine = .race → Accepting s → ∃ t, exec .endRace s = .next t ∧ t.engine = .closed ∧ t.commandRefused = false) ∧
    (∀ cuts, ∃ t, exec (.reset cuts) s = .next t ∧ t.engine = .idle ∧ t.commandRefused = false) ∧
    (∃ t, exec .powerOnReset s = .next t ∧ t.engine = .idle ∧ t.commandRefused = false) ∧
    (∀ code : Word, code.toNat ∉ [1, 2, 3, 4] →
      exec (.unknownCommand code) s = .next { s with commandRefused := true })

/-- START in PREP with a clock start value in range: the clock is set to the value, RACE is entered, the mark of a
whole second is given, CLOCK_CEILING is set at the ceiling, and a resume load's polling begins with round 0; a
refused read of the value is a memory fault (R11, R13, R14, R58), which leaves the command-refused flag as it was: the
model's choice (log entry 25). -/
def Obligations.StartSetsTheClock : Prop :=
  ∀ s : State, s.engine = .prep →
    (s.refuses (s.addr 8) 4 = true → exec .start s = .next (s.halt .directory)) ∧
    (Accepting s → 43199999 < s.field 8 4 → exec .start s = .next { s with commandRefused := true }) ∧
    (Accepting s → s.field 8 4 ≤ 43199999 →
      let v := s.field 8 4
      let polling : MatLine → MatLine := fun x =>
        if s.resume = some true then { x with round := 0, nextAddress := 1, roundBegan := s.localTime } else x
      let marked : MatLine → MatLine := fun x => if v % 1000 = 0 then { x with pendingMark := some (v / 1000) } else x
      let clocked : PanelLine → PanelLine := fun x => if v % 1000 = 0 then { x with pendingClock := some (v / 1000) } else x
      exec .start s = .next { s with
        engine         := .race
        raceClock      := v
        commandRefused := false
        lastMark       := if v % 1000 = 0 then some (v / 1000) else none
        ceilingGiven   := decide (v = 43199999)
        cause          := if v = 43199999 then s.cause ||| 0x040#9 else s.cause
        matLines       := #v[marked (polling s.matLines[0]), marked (polling s.matLines[1])]
        panelLines     := #v[clocked s.panelLines[0], clocked s.panelLines[1]] })

/-- END in RACE: the clock is frozen, CLOSED is entered, every open cluster closes normally, marks and clocks not
yet sent go, every schedule is cleared and every screen goes to DIM with its banner kept, hand-overs not acted on
are discarded, and the writer seals its page (R12, R60, R88, R150, R162, R173, R182). -/
def Obligations.EndClosesTheRace : Prop :=
  ∀ s : State, s.engine = .race → Accepting s → ∃ t, exec .endRace s = .next t ∧
    (let v := sealPage { s with engine := .closed }
     t = { s with
      engine         := .closed
      commandRefused := false
      assembler      := { s.assembler with
                          clusters := s.assembler.clusters.map fun c =>
                            if c.closing then c else { c with closing := true, early := false } }
      matLines       := #v[{ s.matLines[0] with pendingMark := none }, { s.matLines[1] with pendingMark := none }]
      panelLines     := #v[{ s.panelLines[0] with pendingClock := none }, { s.panelLines[1] with pendingClock := none }]
      handovers      := []
      screens        := t.screens
      panels         := t.panels
      mem            := v.mem
      cause          := v.cause
      journal        := v.journal }) ∧
    t.screens.length = s.screens.length ∧ t.panels.length = s.panels.length ∧
    ∀ i c x, ScreenAt s i c x →
      let y : ScreenState := { x with
        schedule := []
        floor    := 0
        faces    := #v[{ x.faces[0] with activity := .idle }, { x.faces[1] with activity := .idle }]
        force    := false
        power    := .dim
        dimSince := some s.localTime
        demoted  := false }
      t.screens[i]? = some y ∧
        t.panels[i]? = (placeFrames i (rowFrames c.rows x.board [] ++
          (if x.power = .dim then [] else [brightnessFrame .dim])) { s with
            panelLines := #v[{ s.panelLines[0] with pendingClock := none },
              { s.panelLines[1] with pendingClock := none }] }).panels[i]?

/-- A power-on reset: everything at its reset value, no cause enabled, the interrupt line released, IDENT readable; the
queue, the board's refused addresses and the choice count are the model's own (R18). A soft reset keeps BASE, the
enables, WATCH_LEVEL and local time (R17). Shared memory holds what it held, with the writes that the steps under way
had made: none where no step was under way; the first writes of the item in flight, of a slot's end, of a status pass, of a
seal, or of the work table scan (R10, R17, R35, R114). Which steps these are and how many writes each had made is RESET's
operand, and for the power-on reset a free value, the same statement holding for each (log entry 8); the reset values no
rule gives are those of log entry 14. -/
def Obligations.ResetsClearThePart : Prop :=
  (∀ s : State,
     let t : State := { State.reset with
       mem := (cutAll (Config.underwayAtPowerOn s.picks) s).mem, refused := s.refused, picks := s.picks + 1
       pending := s.pending }
     exec .powerOnReset s = .next t ∧ t.base = 0 ∧ t.causeEnable = 0 ∧ t.watchLevel = 0 ∧ t.localTime = 0
       ∧ t.interruptLine = false ∧ readRegister .ident t = 0x2E3C0001#32) ∧
  (∀ (cuts : List Cut) (s : State),
     exec (.reset cuts) s = .next { State.reset with
       mem := (cutAll cuts s).mem, refused := s.refused, picks := s.picks, pending := s.pending, base := s.base,
       causeEnable := s.causeEnable, watchLevel := s.watchLevel, localTime := s.localTime }) ∧
  (∀ (s : State),
     cutAll [] s = s ∧
     (∀ c rest, cutAll (c :: rest) s = cutAll rest (cutAll [c] s)) ∧
     (∀ cuts, s.engine = .idle ∨ s.engine = .halted → (cutAll cuts s).mem = s.mem) ∧
     (∀ u, cutAll [⟨u, 0, false⟩] s = s ∧ (cutAll [⟨u, 0, true⟩] s).mem = s.mem) ∧
     (Accepting s → ∀ onward,
       (∀ x rest p made, s.working = true → s.intake = x :: rest → s.planOf x = some p → made ≤ p.writes.length →
         (cutAll [⟨.item, made, onward⟩] s).mem = Memory.writeAll s.mem (p.writes.take made)) ∧
       (∀ e rest made, s.working = true → s.sweep.ends = e :: rest → e.slot ∈ s.sweep.inFlight → made ≤ 3 →
         (cutAll [⟨.itemEnd, made, onward⟩] s).mem = Memory.writeAll s.mem ((s.endWrites e).take made)) ∧
       (∀ made, statusDue s = true → made ≤ s.screens.length →
         (cutAll [⟨.statusTimer, made, onward⟩] s).mem = Memory.writeAll s.mem ((statusWrites s).take made)) ∧
       (∀ p made, sealDue s = true → s.journal.current = some p → made ≤ 3 →
         let o : Nat → Nat := fun k => s.addr (s.config.pages.getD p 0 + k)
         (cutAll [⟨.sealTimer, made, onward⟩] s).mem = Memory.writeAll s.mem
           (List.take made [(.page, o 8, leBytes 4 s.journal.fill), (.page, o 4, leBytes 4 s.journal.pageSeq.toNat),
             (.page, o 0, [2, 0, 0, 0])])) ∧
       (∀ L made, s.engine = .loading → s.loadOutcome = .ok L → made ≤ (s.allScanWrites L).length →
         (cutAll [⟨.load, made, onward⟩] s).mem = Memory.writeAll s.mem ((s.allScanWrites L).take made))))

/-- The register window: IDENT and STATUS ignore writes; BASE is written in IDLE alone, as a multiple of 64;
CAUSE_ENABLE takes its enables and WATCH_LEVEL in every state; what each register reads as (R3). That the bits of STATUS
which no field names read 0 is the model's choice (log entry 29). -/
def Obligations.RegisterWindowReadsAndWrites : Prop :=
  ∀ (s : State) (v : Word),
    (∀ r, exec (.registerWriteIgnored r v) s = .next s) ∧
    (s.engine = .idle →
      exec (.baseLoWrite v) s =
        .next { s with base := (s.base.extractLsb' 32 32 ++ (v &&& 0xFFFFFFC0#32) : BitVec (32 + 32)) } ∧
      exec (.baseHiWrite v) s = .next { s with base := (v ++ s.base.extractLsb' 0 32 : BitVec (32 + 32)) }) ∧
    (s.engine ≠ .idle →
      exec (.baseLoWrite v) s = .next { s with commandRefused := true } ∧
      exec (.baseHiWrite v) s = .next { s with commandRefused := true }) ∧
    exec (.causeEnableWrite v) s = .next { s with causeEnable := v.extractLsb' 0 9, watchLevel := v.extractLsb' 24 3 } ∧
    readRegister .control s = 0 ∧ readRegister .sweep s = 0 ∧ readRegister .ident s = 0x2E3C0001#32 ∧
    readRegister .baseLo s = s.base.extractLsb' 0 32 ∧ readRegister .baseHi s = s.base.extractLsb' 32 32 ∧
    (readRegister .cause s).toNat = s.cause.toNat ∧
    (readRegister .causeEnable s).toNat = s.causeEnable.toNat + 2 ^ 24 * s.watchLevel.toNat ∧
    (readRegister .status s).toNat = s.engine.code + 2 ^ 8 * s.loadError.code + 2 ^ 12 * s.commandRefused.toNat
      + 2 ^ 16 * regionField s.faultRegion

/-- A write to CAUSE clears exactly the causes written 1; setting a cause sets that bit alone, and nothing when it
is set; the interrupt line is asserted exactly while some cause is set and enabled (R183). -/
def Obligations.CausesAndInterruptLine : Prop :=
  (∀ (v : Word) (s : State), exec (.causeWrite v) s = .next { s with cause := s.cause &&& ~~~(v.extractLsb' 0 9) }) ∧
  (∀ (c d : Cause) (s : State), (s.setCause c).hasCause d = (decide (d = c) || s.hasCause d)) ∧
  (∀ (c : Cause) (s : State), s.hasCause c = true → s.setCause c = s) ∧
  (∀ s : State, s.interruptLine = true ↔ ∃ c : Cause, s.hasCause c = true ∧ s.causeEnable.getLsbD c.bit = true)

/-- A memory fault is reported: HALTED, MEMORY_FAULT, the first fault's region; timers that stop, marks and clocks
that go, and every collection kept (R16). In IDLE a report is disregarded (R17; log entry 7). Where steps are under way,
each stops where it stands with the writes it has made, which the report says (log entry 8). Of an item stopped right after
one of its writes, the last among them, the writes made stand, and it stays in flight with no record, hand-over or end
report (R114, R131); a load stopped right after a write of its scan, the last among them, is still LOADING: neither
LOAD_DONE nor a load error is set (R10). That the scan writes a slot's outcome code before its detail is log entry 36. -/
def Obligations.MemoryFaultHaltsTheEngine : Prop :=
  ∀ (r : Region) (s : State),
    (s.engine ≠ .idle → exec (.memoryFault ⟨r, []⟩) s = .next { s with
      engine      := .halted
      faultRegion := if s.engine = .halted then s.faultRegion else some r
      cause       := s.cause ||| 0x100#9
      matLines    := #v[{ s.matLines[0] with pendingMark := none }, { s.matLines[1] with pendingMark := none }]
      panelLines  := #v[{ s.panelLines[0] with pendingClock := none }, { s.panelLines[1] with pendingClock := none }]
      sweep       := { s.sweep with timer := none }
      statusTimer := none }) ∧
    (∀ cuts, s.engine ≠ .idle → exec (.memoryFault ⟨r, cuts⟩) s = .next ((cutAll cuts s).halt r)) ∧
    (∀ x rest p made, Accepting s → s.working = true → s.intake = x :: rest → s.planOf x = some p →
      made ≤ p.writes.length →
      exec (.memoryFault ⟨r, [⟨.item, made, false⟩]⟩) s =
        .next (State.halt r { s with mem := Memory.writeAll s.mem (p.writes.take made) })) ∧
    (∀ L made, Accepting s → s.engine = .loading → s.loadOutcome = .ok L → made ≤ (s.allScanWrites L).length →
      exec (.memoryFault ⟨r, [⟨.load, made, false⟩]⟩) s =
        .next (State.halt r { s with mem := Memory.writeAll s.mem ((s.allScanWrites L).take made) })) ∧
    (∀ cuts, s.engine = .idle → exec (.memoryFault ⟨r, cuts⟩) s = .next s)

/-- An access to bytes the board refuses halts the engine for its region and leaves memory as it was; an accepted
write stores its bytes and leaves every other byte (R16, R54). That an access is refused exactly when one of its bytes is
among the board's refused addresses is log entry 6, and that the step does nothing more after it is log entry 19: both are
the model's choices. In a step cut short each write takes one of the writes left to it, and the step stops before the
write that has none left, or right after the last one it makes (log entry 8).
Steps of the blocks whose first access is refused take the memory fault and nothing else (R16, R35, R54, R184). That the
first write of an item's end is the outcome code is log entry 36. -/
def Obligations.RefusedAccessesHaltTheEngine : Prop :=
  (∀ (r : Region) (a : Nat) (bs : List Byte) (s : State),
     (∀ n, s.refuses a n = true ↔ ∃ x ∈ s.refused, inBytes a n x = true) ∧
     (∀ n, s.refuses a n = true → s.access r a n = s.halt r ∧ ∀ f, (s.access r a n).andThen f = s.halt r) ∧
     (∀ n, s.refuses a n = false → s.access r a n = s) ∧
     (s.refuses a bs.length = true → s.store r a bs = s.halt r ∧ (s.halt r).mem = s.mem) ∧
     (s.refuses a bs.length = false → s.engine ≠ .halted → Memory.wf s.mem = true →
       a < 18446744073709551616 → bs.length ≤ 4096 →
       ∃ m, (s.port = .free → s.store r a bs = { s with mem := m }) ∧
         (∀ k, s.port = .left (k + 1) → s.store r a bs = { s with mem := m, port := .left k }) ∧
         (s.port = .left 0 → s.store r a bs = { s with engine := .halted, port := .stopped s.engine }) ∧
         (∀ k, s.port = .last (k + 1) → s.store r a bs = { s with mem := m, port := .last k }) ∧
         (s.port = .last 0 → s.store r a bs = { s with mem := m, engine := .halted, port := .stopped s.engine }) ∧
         Memory.wf m = true ∧ Memory.readBytes m a bs.length = bs ∧
         ∀ x, inBytes a bs.length x = false → Memory.read m x = Memory.read s.mem x)) ∧
  (∀ s : State, s.working = true →
     (∀ i, s.sweep.at? = some i → s.sweep.waits = false → s.refuses (s.addr (workOffset s.config i 0)) 4 = true →
       exec .slotVisit s = .next (s.halt .work)) ∧
     (∀ e rest, s.sweep.ends = e :: rest → e.slot ∈ s.sweep.inFlight →
       s.refuses (s.addr (workOffset s.config e.slot 48)) 4 = true →
       exec .itemEnd s = .next (s.halt .work)) ∧
     (∀ w, ItemHead .startWave w s → w.field 0 1 ≤ 15 → w.field 1 1 ≠ 0 →
       s.refuses (s.addr (waveOffset s.config (w.field 0 1) 0)) 4 = true → exec .startWave s = .next (s.halt .wave)) ∧
     (∀ w, ItemHead .setWatch w s → w.field 0 4 < s.config.runnerCount →
       s.refuses (s.addr (runnerOffset s.config (w.field 0 4) 0)) 4 = true → exec .setWatch s = .next (s.halt .runner)) ∧
     (∀ c rest, s.intake = .crossing c :: rest → 0 < s.config.chipCount →
       s.refuses (s.addr (s.config.chipOffset + 8 * ((s.config.chipCount - 1) / 2))) 8 = true →
       exec .localCrossing s = .next (s.halt .chip)) ∧
     (∀ x rest, s.screens = x :: rest → statusDue s = true →
       s.refuses (s.addr (s.config.statusOffset)) 8 = true → exec .statusTimer s = .next (s.halt .screenStatus)) ∧
     (∀ p, sealDue s = true → s.journal.current = some p → s.refuses (s.addr (pageOffset s.config p 8)) 4 = true →
       exec .sealTimer s = .next (s.halt .page)))

/-- A second mark goes to both mat lines and both panel lines with the race second; the ceiling sets its cause, once (R13, R14).
Between exchanges a pending mark goes out as MARK to address 0 and is cleared, and a pending clock as CLOCK
with the time text of its second; nothing else changes (R60, R173). -/
def Obligations.SecondMarksAreGivenAndSent : Prop :=
  (∀ s : State, s.engine = .race →
     (s.raceClock % 1000 = 0 → s.lastMark ≠ some (s.raceClock / 1000) →
       exec .secondMark s = .next { s with
         matLines   := #v[{ s.matLines[0] with pendingMark := some (s.raceClock / 1000) },
                          { s.matLines[1] with pendingMark := some (s.raceClock / 1000) }]
         panelLines := #v[{ s.panelLines[0] with pendingClock := some (s.raceClock / 1000) },
                          { s.panelLines[1] with pendingClock := some (s.raceClock / 1000) }]
         lastMark   := some (s.raceClock / 1000) }) ∧
     (s.lastMark = some (s.raceClock / 1000) → exec .secondMark s = .next s) ∧
     (s.raceClock = 43199999 → s.ceilingGiven = false →
       exec .clockCeiling s = .next { s with cause := s.cause ||| 0x040#9, ceilingGiven := true }) ∧
     (s.ceilingGiven = true → exec .clockCeiling s = .next s)) ∧
  (∀ (l : LineIx) (second : Nat) (s : State), s.engine = .race →
     (s.matLines[l].exchange = none → s.matLines[l].pendingMark = some second →
       exec (.mark l) s = .next { s with
         matLines := s.matLines.set l { s.matLines[l] with
           pendingMark := none, sent := frameBytes 0 0x04 (leBytes 2 second) } }) ∧
     (s.panelLines[l].exchange = none → s.panelLines[l].pendingClock = some second →
       exec (.clock l) s = .next { s with
         panelLines := s.panelLines.set l { s.panelLines[l] with
           pendingClock := none, sent := frameBytes 0 0x15 (timeText (second * 1000)) } }))

/-! ## The load (spec 01, 03) -/

/-- A load reads table by table in the order of R4, and after each read makes that table's checks; the first refused read
or failing check ends it. A load that fails a check returns to IDLE with its code and LOAD_DONE, and nothing else changes
(R10). The directory: magic and version, then counts, the sweep interval and the extents (R5). The course: the settings,
then the points in ascending index, each its codes, its distance and its mats (R6). The waves, the screens, each its own
fields before its faces (R7). The chip directory entry by entry (R8). The journal (R9). A load that finds all right keeps
what it read (R36). The model's choices, which R6 and R7 leave open: a mat that two points share is found at the later
point, and a panel line and address that two screens name at the later screen (log entry 30); the flags of the wave table
and the face 1 bytes of a face count other than 2 are not read (log entry 31); a count out of range has as many entries
read as it says (log entry 16). -/
def Obligations.LoadChecksEndTheLoad : Prop :=
  (∀ s : State, s.engine = .loading →
     (∀ e, s.loadOutcome = .error (.failed e) → exec .loadFailed s = .next { s with
       engine := .idle, loadError := e, cause := s.cause ||| 0x080#9 }) ∧
     (∀ r, s.loadOutcome = .error (.refused r) →
       exec .loadFailed s = .next (s.halt r) ∧ exec .loadPassed s = .next (s.halt r))) ∧
  (∀ s : State,
     let fails : LoadError → Prop := fun e => s.loadOutcome = .error (.failed e)
     let halts : Region → Prop := fun r => s.loadOutcome = .error (.refused r)
     (¬ Readable s s.directoryReads → halts .directory) ∧
     (Readable s s.directoryReads → ¬ MagicRight s → fails .badMagic) ∧
     (Readable s s.directoryReads → MagicRight s → ¬ SizesRight s → fails .badSize) ∧
     (DirectoryPasses s →
       (¬ Readable s s.courseReads → halts .course) ∧
       (Readable s s.courseReads →
         (¬ SettingsRight s → fails .badCourse) ∧
         (SettingsRight s → ∀ p, p < s.field 36 4 → (∀ q, q < p → PointRight s q) →
           (¬ PointCodesRight s p → fails .badCourse) ∧
           (PointCodesRight s p → ¬ PointOrderRight s p → fails .badPointOrder) ∧
           (PointCodesRight s p → PointOrderRight s p → ¬ PointMatsRight s p → fails .badMatset)))) ∧
     (CoursePasses s →
       (¬ Readable s s.waveTableReads → halts .wave) ∧
       (Readable s s.waveTableReads → ∀ w, w < 16 → ¬ WaveRight s w → fails .badWave)) ∧
     (WavesPass s →
       (¬ Readable s s.screenReads → halts .screen) ∧
       (Readable s s.screenReads → ∀ i, i < s.field 52 4 → (∀ j, j < i → ScreenRight s j ∧ FacesRight s j) →
         (¬ ScreenRight s i → fails .badScreen) ∧ (ScreenRight s i → ¬ FacesRight s i → fails .badFace))) ∧
     (ScreensPass s →
       (¬ Readable s s.chipReads → halts .chip) ∧
       (Readable s s.chipReads → ∀ k, k < s.field 68 4 → (∀ j, j < k → ChipRight s j) →
         (0 < k ∧ chipCode s k < chipCode s (k - 1) → fails .unsortedChips) ∧
         (0 < k ∧ chipCode s k = chipCode s (k - 1) → fails .dupChip) ∧
         ((0 < k → chipCode s (k - 1) < chipCode s k) → s.field 60 4 ≤ chipRunner s k → fails .badRunnerRef))) ∧
     (ChipsPass s →
       (¬ Readable s s.pageReads → halts .pageDirectory) ∧
       (Readable s s.pageReads → ¬ JournalRight s → fails .badJournal)) ∧
     (LoadPasses s → s.loadOutcome = .ok (tableLoaded s)))

/-- A load that passes its checks scans the work table and enters PREP: each slot that reads TAKEN is given ABORTED
and then FAILED, the others are left; LOAD_DONE, the resume-load record, the loaded copy, every screen ACTIVE with
an empty schedule, every panel ONLINE with a full refresh queued, the timers started, polling unless a resume load,
the writer at page 0, opened if it reads FREE (R9, R58, R132, R151, R154, R164, R176). Every screen begins with an empty
schedule, floor and tallies at 0, no banner, its configured faces QUIET and the other IDLE since now, its power ACTIVE. -/
def Obligations.LoadPassedEntersPrep : Prop :=
  ∀ (s : State) (L : Loaded), s.engine = .loading → Accepting s → s.loadOutcome = .ok L →
    (∀ (u : State) (i : Nat), u.engine = .loading → Accepting u →
      scanSlot L u i = { u with
        mem := if u.field (L.workOffset + 64 * i) 4 = 2 then Memory.writeAll u.mem
            [(.work, u.addr (L.workOffset + 64 * i + 48), leBytes 4 8),
             (.work, u.addr (L.workOffset + 64 * i + 52), leBytes 8 0),
             (.work, u.addr (L.workOffset + 64 * i), leBytes 4 4)]
          else u.mem }) ∧
    ∃ t, exec .loadPassed s = .next t ∧
      (let u := (List.range L.slotCount).foldl (scanSlot L) s
       let resume := decide (u.field 8 4 ≠ 0)
       let free := decide (u.field (L.pages.getD 0 0) 4 = 0)
       let polling : MatLine → MatLine := fun x =>
         if resume then x else { x with round := 0, nextAddress := 1, roundBegan := s.localTime }
       t = { s with
        engine      := .prep
        loadError   := .noError
        cause       := s.cause ||| 0x080#9 ||| (if free then 0 else 0x008#9)
        resume      := some resume
        loaded      := some L
        mem         := if free then Memory.writeAll u.mem [(.page, s.addr (L.pages.getD 0 0), leBytes 4 1),
                         (.page, s.addr (L.pages.getD 0 0 + 8), leBytes 4 0)] else u.mem
        matLines    := #v[polling s.matLines[0], polling s.matLines[1]]
        decoders    := Vector.ofFn fun m => { s.decoders[m] with present := (L.pointOfMat m).isSome }
        sweep       := ⟨none, false, false, some s.localTime, [], []⟩
        screens     := L.screens.map (Screen.initial s.localTime)
        statusTimer := some s.localTime
        panels      := t.panels
        panelLines  := #v[{ s.panelLines[0] with position := 1 }, { s.panelLines[1] with position := 1 }]
        journal     := { Journal.reset with current := if free then some 0 else none } }) ∧
      (∀ c : Screen, Screen.initial s.localTime c =
        { schedule := [], floor := 0, dropped := 0, missed := 0, banner := none
          faces    := #v[⟨.quiet, s.localTime⟩, ⟨if c.face1 = none then .idle else .quiet, s.localTime⟩]
          power    := .active, dimSince := none, demoted := false, force := false, wakes := [] }) ∧
      t.panels.length = L.screens.length ∧
      (∀ (i : Nat) (c : Screen), L.screens[i]? = some c → t.panels[i]? = some
        (⟨c.line, c.address, true,
          (List.range c.rows).map (fun k => clearRowFrame (k + 1)) ++ [brightnessFrame .active, bannerFrame none],
          0, 0, none, none⟩ : Panel))

/-! ## Mat lines (spec 04) -/

/-- A round begins 5 ms after the one before, once that has ended; its calls go to the present decoders in ascending
address, SILENT ones in round 0 alone; CALL opens a reply window of 2 ms (R56, R57). That the window opens at the local
time of CALL, sending taking no time, is the model's choice (log entry 11). -/
def Obligations.RoundsAndCalls : Prop :=
  ∀ (l : LineIx) (s : State), s.polls = true → s.matLines[l].exchange = none →
    ((∀ a, 1 ≤ a → a ≤ 4 → s.matLines[l].nextAddress ≤ a → ¬ Calls l a s) →
      s.matLines[l].roundBegan + 5 ≤ s.localTime →
      exec (.round l) s = .next { s with
        matLines := s.matLines.set l { s.matLines[l] with
          round       := if s.matLines[l].round < 7 then s.matLines[l].round + 1 else 0
          nextAddress := 1
          roundBegan  := s.localTime } }) ∧
    (∀ a, 1 ≤ a → a ≤ 4 → s.matLines[l].nextAddress ≤ a → Calls l a s → s.matLines[l].pendingMark = none →
      (∀ b, 1 ≤ b → b < a → s.matLines[l].nextAddress ≤ b → ¬ Calls l b s) →
      exec (.call l) s = .next { s with
        matLines := s.matLines.set l { s.matLines[l] with
          nextAddress := a + 1
          exchange    := some ⟨a, s.localTime, s.localTime + 2, false⟩
          sent        := frameBytes (BitVec.ofNat 8 a) 0x01 [] } })

/-- What a BATCH reply does: a repeat is answered TAKEN and discarded; in PREP any other is answered TAKEN and its
reads discarded; else it is taken whole when the hold indicator is clear and the buffer has room, and otherwise
answered HOLD with the indicator set; the exchange ends. A landed read holds the chip code, the stamp, the signal
strength and the mat (R61, R62, R63, R64). -/
def Obligations.BatchIsTakenOrHeld : Prop :=
  ∀ (l : LineIx) (e : Exchange) (f : RxFrame) (s : State), s.matLines[l].exchange = some e →
    ReplyTo e 0x81 e.target f s → Accepting s →
    let m := matAt l e.target
    let d : Decoder := { s.decoders[m] with silent := false, silentCount := 0 }
    let number := f.payload.getD 0 0
    let reads := batchReads m (f.payload.getD 1 0).toNat (f.payload.drop 2)
    let ends : Decoder → List Byte → State := fun d' sent => { afterReply l e.target s with
      decoders := s.decoders.set m d'
      matLines := s.matLines.set l { s.matLines[l] with exchange := none, sent := sent } }
    let taken := frameBytes (BitVec.ofNat 8 e.target) 0x02 [number]
    let hold := frameBytes (BitVec.ofNat 8 e.target) 0x03 []
    (reads.length = (f.payload.getD 1 0).toNat ∧ ∀ k, k < reads.length → reads[k]? = some
      { chip     := toWord (leValue ((f.payload.drop (2 + 10 * k)).take 4))
        stamp    := leValue ((f.payload.drop (6 + 10 * k)).take 4)
        strength := f.payload.getD (10 + 10 * k) 0
        mat      := m }) ∧
    (d.lastTaken = some number → exec (.batch l f) s = .next (ends d taken)) ∧
    (d.lastTaken ≠ some number → s.engine = .prep →
      exec (.batch l f) s = .next (ends { d with lastTaken := some number } taken)) ∧
    (d.lastTaken ≠ some number → s.engine ≠ .prep → d.hold = false → d.buffer.length + reads.length ≤ 64 →
      exec (.batch l f) s = .next (ends { d with buffer := d.buffer ++ reads, lastTaken := some number } taken)) ∧
    (d.lastTaken ≠ some number → s.engine ≠ .prep → (d.hold = true ∨ 64 < d.buffer.length + reads.length) →
      exec (.batch l f) s = .next (ends { d with hold := true } hold))

/-- What EMPTY and BUSY replies do: both end the exchange with no answer sent; EMPTY compares the antenna fault flag
with the indicator and writes a LINE record where they differ; BUSY does nothing more (R67, R68). -/
def Obligations.EmptyAndBusyAreReplies : Prop :=
  ∀ (l : LineIx) (e : Exchange) (f : RxFrame) (s : State), s.matLines[l].exchange = some e → Accepting s →
    let m := matAt l e.target
    let d : Decoder := { s.decoders[m] with silent := false, silentCount := 0 }
    let quiet := s.matLines.set l { s.matLines[l] with exchange := none }
    let flag := (f.payload.getD 0 0).getLsbD 0
    (ReplyTo e 0x83 e.target f s →
      exec (.busy l f) s = .next { afterReply l e.target s with matLines := quiet }) ∧
    (ReplyTo e 0x82 e.target f s → d.antennaFault = flag →
      exec (.empty l f) s = .next { afterReply l e.target s with matLines := quiet }) ∧
    (ReplyTo e 0x82 e.target f s → d.antennaFault ≠ flag →
      exec (.empty l f) s = .next
        { State.record
            (lineRecord (if flag then .antennaFault else .antennaClear) l e.target m.val s.raceClock)
            { afterReply l e.target s with decoders := s.decoders.set m { d with antennaFault := flag } } with
          matLines := quiet })

/-- A silence raises the count up to 3 and ends the exchange; a third one makes an ACTIVE decoder SILENT, sets
LINE_FAULT and writes a DECODER_SILENT record; one of a SILENT decoder at 3 does nothing more (R57, R69). While a frame
begun in the window is still being received, its close is no silence (R57). That the record is handed over after the
rest, which shows where its write is refused, is log entry 37. -/
def Obligations.SilencesAreCounted : Prop :=
  ∀ (l : LineIx) (failed : Bool) (e : Exchange) (s : State), s.working = true → s.matLines[l].exchange = some e →
    (failed = false → e.receiving = true → exec (.silence l failed) s = .next s) ∧
    ((failed = true ∨ (e.closes ≤ s.localTime ∧ e.receiving = false)) →
    let m := matAt l e.target
    let d := s.decoders[m]
    let quiet := s.matLines.set l { s.matLines[l] with exchange := none }
    (d.silentCount < 2 → exec (.silence l failed) s = .next { s with
      decoders := s.decoders.set m { d with silentCount := d.silentCount + 1 }, matLines := quiet }) ∧
    (2 ≤ d.silentCount → d.silent = false → exec (.silence l failed) s = .next
      (State.record (lineRecord .decoderSilent l e.target m.val s.raceClock) { s with
        decoders := s.decoders.set m { d with silentCount := 3, silent := true }
        matLines := quiet
        cause    := s.cause ||| 0x020#9 })) ∧
    (d.silentCount = 3 → d.silent = true → exec (.silence l failed) s = .next { s with matLines := quiet }))

/-- A frame that begins outside a reply window, or while the blocks do not work, changes nothing; one that begins
within it and is no reply of its type ends the exchange as no reply does (R57, R69, R169, R171). That a frame beginning
at the close lies outside the window is log entry 11, and that a frame is the command's operand log entry 12: the model's
choices.
What makes a frame a reply: whole, addressed to the one called, of the length its type has (a BATCH of the
count it carries, at most 16), with a correct check over its bytes (R57, R186). -/
def Obligations.OnlyWholeFramesAreReplies : Prop :=
  (∀ (l : LineIx) (f : RxFrame) (s : State),
     ((s.matLines[l].exchange = none ∨ s.working = false ∨
         ∃ e, s.matLines[l].exchange = some e ∧ (f.begun < e.opened ∨ e.closes ≤ f.begun)) →
       exec (.batch l f) s = .next s ∧ exec (.empty l f) s = .next s ∧ exec (.busy l f) s = .next s) ∧
     ((s.panelLines[l].exchange = none ∨ s.working = false ∨
         ∃ e, s.panelLines[l].exchange = some e ∧ (f.begun < e.opened ∨ e.closes ≤ f.begun)) →
       exec (.ack l f) s = .next s ∧ exec (.wait l f) s = .next s) ∧
     (∀ e, s.matLines[l].exchange = some e → s.working = true → e.opened ≤ f.begun → f.begun < e.closes →
       f.begun ≤ s.localTime →
       (RxFrame.isReply f 0x81 e.target = false → exec (.batch l f) s = exec (.silence l true) s) ∧
       (RxFrame.isReply f 0x82 e.target = false → exec (.empty l f) s = exec (.silence l true) s) ∧
       (RxFrame.isReply f 0x83 e.target = false → exec (.busy l f) s = exec (.silence l true) s)) ∧
     (∀ e p, s.panelLines[l].exchange = some e → s.panels[e.target]? = some p → s.working = true →
       e.opened ≤ f.begun → f.begun < e.closes → f.begun ≤ s.localTime →
       (RxFrame.isReply f 0x91 p.address = false → exec (.ack l f) s = exec (.noReply l true) s) ∧
       (RxFrame.isReply f 0x92 p.address = false → exec (.wait l f) s = exec (.noReply l true) s))) ∧
  (∀ (f : RxFrame) (type : Byte) (called : Nat),
     RxFrame.isReply f type called = true ↔
       f.address.toNat = called ∧ f.payload.length = f.length.toNat ∧
       crc (f.address :: type :: f.length :: f.payload) = f.check ∧
       ((type = 0x81 ∧ ∃ number count rest, f.payload = number :: count :: rest ∧ count.toNat ≤ 16
           ∧ rest.length = 10 * count.toNat) ∨
         (type = 0x82 ∧ f.payload.length = 1) ∨ ((type = 0x83 ∨ type = 0x91 ∨ type = 0x92) ∧ f.payload = [])))

/-! ## The crossing assembler (spec 05) -/

/-- A draw serves the first buffer that holds a read from the arbiter's position on; the position moves past it, the
hold indicator clears at 16 reads or fewer; a stale read, then a future one, is discarded with its EXCEPTION record,
and any other goes to the cluster table, where every cluster whose deadline is reached is CLOSING (R66, R73, R75, R77,
R81). A read of a mat without a point is discarded (log entry 14). -/
def Obligations.DrawServesTheNextBuffer : Prop :=
  ∀ (j : Nat) (r : Read) (rest : List Read) (s : State), s.racing = true → s.assembler.held = none → j < 8 →
    let m : Fin 8 := s.assembler.arbiter + Fin.ofNat 8 j
    let d := s.decoders[m]
    d.buffer = r :: rest → (∀ k, k < j → (s.decoders[s.assembler.arbiter + Fin.ofNat 8 k]).buffer = []) →
    let u : State := { s with
      decoders  := s.decoders.set m { d with buffer := rest, hold := d.hold && decide (16 < rest.length) }
      assembler := { atClock s with arbiter := m + 1 } }
    (∀ p, s.config.pointOfMat r.mat = some p →
      (r.stamp + 60000 < s.raceClock →
        exec .draw s = .next (u.record (chipException .staleRead p r.chip r.stamp))) ∧
      (s.raceClock ≤ r.stamp + 60000 → (s.raceClock + 2000 < r.stamp ∨ 43199999 < r.stamp) →
        exec .draw s = .next (u.record (chipException .futureRead p r.chip r.stamp))) ∧
      (s.raceClock ≤ r.stamp + 60000 → r.stamp ≤ s.raceClock + 2000 → r.stamp ≤ 43199999 →
        exec .draw s = .next { u with
          assembler := u.assembler.place s.config (decide (s.engine = .closed)) s.raceClock ⟨r, p⟩ })) ∧
    (s.config.pointOfMat r.mat = none → exec .draw s = .next u)

/-- A merge: the deadline moves with an earlier first time only, the count rises to 255, and the chosen time and best
strength follow the time choice (R79, R80). -/
def Obligations.MergesFollowTheTimeChoice : Prop :=
  ∀ (choice : TimeChoice) (w : Nat) (r : Read) (c : Cluster),
    let d := c.merge choice w r
    d.point = c.point ∧ d.chip = c.chip ∧ d.closing = c.closing ∧ d.early = c.early ∧
    d.count = (if c.count < 255 then c.count + 1 else c.count) ∧
    (r.stamp < c.first → d.first = r.stamp ∧ d.deadline = min (r.stamp + w) 43199999) ∧
    (c.first ≤ r.stamp → d.first = c.first ∧ d.deadline = c.deadline) ∧
    (choice = .first → d.chosen = d.first ∧ d.best.toNat = max c.best.toNat r.strength.toNat) ∧
    (choice = .peak →
      (c.best.toNat < r.strength.toNat → d.best = r.strength ∧ d.chosen = r.stamp) ∧
      (c.best = r.strength → r.stamp < c.chosen → d.best = c.best ∧ d.chosen = r.stamp) ∧
      (r.strength.toNat < c.best.toNat ∨ (c.best = r.strength ∧ c.chosen ≤ r.stamp) →
        d.best = c.best ∧ d.chosen = c.chosen))

/-- What becomes of a checked read: merged into the OPEN cluster of its point and chip, discarded for a CLOSING one or
an echo, else it opens a cluster; with 1,024 clusters it is held, and the OPEN one of earliest deadline closes early
(R77, R78, R79, R81, R85, R86, R87, R88). -/
def Obligations.ReadMeetsTheClusterTable : Prop :=
  ∀ (L : Loaded) (closed : Bool) (clock : Nat) (r : PlacedRead) (a : Assembler),
    let w := L.window r.point
    let found := a.find r.point r.read.chip
    let echo := ∃ e ∈ a.memory, e.point = r.point ∧ e.chip = r.read.chip ∧ e.chosen ≤ r.read.stamp + 2 * w
      ∧ r.read.stamp ≤ e.chosen + 2 * w
    (∀ c, found = some c → c.closing = true → a.place L closed clock r = a) ∧
    (∀ c, found = some c → c.closing = false → a.place L closed clock r = { a with
      clusters := a.clusters.map fun x =>
        if x.point = r.point ∧ x.chip = r.read.chip then
          let d := x.merge (L.choice r.point) w r.read
          if closed = true ∨ d.deadline ≤ clock then { d with closing := true, early := false } else d
        else x }) ∧
    (found = none → echo → a.place L closed clock r = a) ∧
    (found = none → ¬ echo → a.clusters.length < 1024 →
      a.place L closed clock r = { a with clusters := a.clusters ++ [openedCluster L closed clock r] }) ∧
    (found = none → ¬ echo → 1024 ≤ a.clusters.length →
      ((∀ x ∈ a.clusters, x.closing = true) → a.place L closed clock r = { a with held := some r }) ∧
      (∀ c ∈ a.clusters, c.closing = false → (∀ x ∈ a.clusters, x.closing = false → c = x ∨ c.before x = true) →
        a.place L closed clock r = { a with
          held     := some r
          clusters := a.clusters.map fun x =>
            if x.point = c.point ∧ x.chip = c.chip then { x with closing := true, early := true } else x }))

/-- The CLOSING list stands in ascending deadline, then point, then chip code, and its head is the first (R82).
An OPEN cluster whose deadline is reached closes normally (R81). The head of the CLOSING list goes to the tail of
the intake queue while that holds fewer than 256 items: it leaves the table, its entry joins the closed-crossing
memory, whose oldest of 512 leaves, and a held read opens its cluster; else the next offer waits (R82, R84, R86). At an
empty intake queue the crossing becomes the item in flight and its clock reading is taken (R90, R91). -/
def Obligations.ClustersExpireAndAreOfferedInOrder : Prop :=
  ((∀ x y : Cluster, x.before y = true ↔ x.deadline < y.deadline ∨ (x.deadline = y.deadline ∧
     (x.point < y.point ∨ (x.point = y.point ∧ x.chip.toNat < y.chip.toNat)))) ∧
   (∀ (a : Assembler) (c : Cluster), a.closingHead = some c →
     c ∈ a.clusters ∧ c.closing = true ∧ ∀ d ∈ a.clusters, d.closing = true → d.before c = false) ∧
   (∀ a : Assembler, a.closingHead = none → ∀ d ∈ a.clusters, d.closing = false)) ∧
  ((∀ (p : Nat) (chip : Word) (c : Cluster) (s : State), s.engine = .race → s.assembler.find p chip = some c →
     c.closing = false → c.deadline ≤ s.raceClock →
     exec (.clusterExpiry p chip) s = .next { s with
       assembler := { s.assembler with
         clusters := s.assembler.clusters.map fun x =>
           if x.point = p ∧ x.chip = chip then { x with closing := true, early := false } else x } }) ∧
   (∀ (c : Cluster) (s : State), s.racing = true → (atClock s).closingHead = some c → s.assembler.offerWaits = false →
     (256 ≤ s.intake.length →
       exec .closedCrossingOffer s = .next { s with assembler := { atClock s with offerWaits := true } }) ∧
     (s.intake.length < 256 →
       let left := (atClock s).clusters.filter fun x => !(decide (x.point = c.point) && decide (x.chip = c.chip))
       let opened := (s.assembler.held.map
         (openedCluster s.config (decide (s.engine = .closed)) s.raceClock)).toList
       exec .closedCrossingOffer s = .next { s with
         intake    := s.intake ++ [.crossing ⟨c.point, c.chip, c.chosen, c.count, c.best, c.early⟩]
         itemClock := joinedClock s
         assembler := { s.assembler with
           clusters := left ++ opened
           memory   := (if 512 ≤ s.assembler.memory.length then s.assembler.memory.tail else s.assembler.memory)
                         ++ [⟨c.point, c.chip, c.chosen⟩]
           held     := none } })))

/-! ## The work sweep (spec 02) -/

/-- A write of any value to SWEEP: a sweep begins at once where none runs, the remembered request is set where one
runs, and outside PREP, RACE and CLOSED the write is ignored, the command-refused flag untouched; the request is clear
after either reset and when PREP is entered (R24). -/
def Obligations.SweepWriteRequestsASweep : Prop :=
  ∀ (v : Word) (s : State),
    (s.engine = .prep ∨ s.engine = .race ∨ s.engine = .closed →
      (s.sweep.at? = none →
        exec (.sweepWrite v) s = .next { s with sweep := { s.sweep with at? := some 0, waits := false, timer := none } }) ∧
      (∀ i, s.sweep.at? = some i →
        exec (.sweepWrite v) s = .next { s with sweep := { s.sweep with requested := true } })) ∧
    (s.engine = .idle ∨ s.engine = .loading ∨ s.engine = .halted → exec (.sweepWrite v) s = .next s) ∧
    (∀ cuts, ∃ t, exec (.reset cuts) s = .next t ∧ t.sweep.requested = false) ∧
    (∃ t, exec .powerOnReset s = .next t ∧ t.sweep.requested = false) ∧
    (∀ L, s.engine = .loading → Accepting s → s.loadOutcome = .ok L →
      ∃ t, exec .loadPassed s = .next t ∧ t.engine = .prep ∧ t.sweep.requested = false)

/-- A sweep begins when the interval has passed; at its end the journal writer is told (it re-reads its next page
while spilling, and opens it if it reads FREE), and a remembered request begins a new one, else the timer restarts
(R23, R31, R181). -/
def Obligations.SweepsBeginAndEnd : Prop :=
  ∀ s : State, s.working = true →
    (∀ t0, s.sweep.at? = none → s.sweep.timer = some t0 → t0 + s.config.sweepInterval ≤ s.localTime →
      exec .sweepTimer s = .next { s with sweep := { s.sweep with at? := some 0, waits := false, timer := none } }) ∧
    (Accepting s →
      let u := afterReread s
      (s.sweep.requested = true →
        endSweep s = { u with
          sweep := { s.sweep with at? := some 0, waits := false, requested := false, timer := none } }) ∧
      (s.sweep.requested = false →
        endSweep s = { u with sweep := { s.sweep with at? := none, waits := false, timer := some s.localTime } }))

/-- A visit to a slot: one not POSTED or in flight is passed over; a POSTED one of no known kind is taken and failed
with BAD_KIND, one not accepted in the engine state with BAD_STATE, and the sweep waits there until that end is written; one
the intake queue has no room for ends the sweep with nothing written; any other is written TAKEN and its item goes to its
block (R22, R26, R27, R28, R29, R30).
What a visit reads of a slot it finds POSTED: kind, notify flag, and the body's fields of the kind, no unused byte, not the
time beside a "now" or VOID mark that is set, nothing of the body of FLUSH_JOURNAL, and the whole body of a slot of no known
kind; where one of these reads is refused the engine halts, with no slot written (R26, R35, R185; log entry 26).
Which kinds each engine state accepts (R28); that a slot POSTED through a reset is no exception is log entry 38. -/
def Obligations.SlotVisitsTakeAcceptedItems : Prop :=
  (∀ (i : Nat) (s : State), s.working = true → Accepting s → s.sweep.at? = some i →
     (s.sweep.waits = true → exec .slotVisit s = .next s) ∧
     (s.sweep.waits = false →
     let o := s.config.workOffset + 64 * i
     let goesOn : State → State := fun u =>
       if i + 1 < s.config.slotCount then { u with sweep := { u.sweep with at? := some (i + 1), waits := false } }
       else endSweep u
     let taken : State := { s with
       mem   := Memory.writeBytes s.mem (s.addr o) [2, 0, 0, 0]
       sweep := { s.sweep with inFlight := s.sweep.inFlight ++ [i] } }
     let notify := s.field (o + 6) 1 != 0
     let body := s.fieldBytes (o + 8) 40
     let failed : OutcomeCode → State := fun code => { taken with
       sweep := { taken.sweep with waits := true, ends := s.sweep.ends ++ [⟨i, code, 0, 0, notify⟩] } }
     (s.field o 4 ≠ 1 ∨ i ∈ s.sweep.inFlight → exec .slotVisit s = .next (goesOn s)) ∧
     (s.field o 4 = 1 → i ∉ s.sweep.inFlight →
       (WorkKind.ofCode (s.field (o + 4) 2) = none → exec .slotVisit s = .next (failed .badKind)) ∧
       (∀ k, WorkKind.ofCode (s.field (o + 4) 2) = some k →
         let w : WorkItem := ⟨i, k, notify, body⟩
         let now := s.field (o + 9) 1 != 0
         (k.accepted s.engine now = false → exec .slotVisit s = .next (failed .badState)) ∧
         (k.accepted s.engine now = true →
           (k = .banner → exec .slotVisit s = .next (goesOn { taken with bannerItems := s.bannerItems ++ [w] })) ∧
           (k = .flushJournal → exec .slotVisit s = .next (goesOn { taken with
             journal := { s.journal with flushes := s.journal.flushes ++ [w] } })) ∧
           (k ≠ .banner → k ≠ .flushJournal →
             (s.intake.length < 256 →
               exec .slotVisit s = .next (goesOn { taken with
                 intake := s.intake ++ [.work w], itemClock := joinedClock s })) ∧
             (256 ≤ s.intake.length → exec .slotVisit s = .next (endSweep s)))))))) ∧
  (∀ (i : Nat) (s : State),
     let o := s.config.workOffset + 64 * i
     let reads : List (Nat × Nat) → Prop := fun fields =>
       s.slotReads i = ((4, 2) :: (6, 1) :: fields.map fun x => (8 + x.1, x.2)).map fun x => (.work, s.addr (o + x.1), x.2)
     (s.field (o + 4) 2 = 1 → reads [(0, 4), (4, 1), (8, 4)]) ∧
     (s.field (o + 4) 2 = 2 → reads (if s.field (o + 9) 1 = 0 then [(0, 1), (1, 1), (4, 4)] else [(0, 1), (1, 1)])) ∧
     (s.field (o + 4) 2 = 3 ∨ s.field (o + 4) 2 = 4 → reads [(0, 4), (4, 1)]) ∧
     (s.field (o + 4) 2 = 5 → reads [(0, 4), (4, 16)]) ∧
     (s.field (o + 4) 2 = 6 →
       reads (if s.field (o + 13) 1 = 0 then [(0, 4), (4, 1), (5, 1), (8, 4)] else [(0, 4), (4, 1), (5, 1)])) ∧
     (s.field (o + 4) 2 = 7 → reads [(0, 4), (4, 4), (8, 32)]) ∧
     (s.field (o + 4) 2 = 8 → reads []) ∧
     (s.field (o + 4) 2 = 0 ∨ 8 < s.field (o + 4) 2 → reads [(0, 40)]) ∧
     (s.working = true → s.sweep.at? = some i → s.sweep.waits = false → s.refuses (s.addr o) 4 = false → s.field o 4 = 1 →
       i ∉ s.sweep.inFlight → ¬ Readable s (s.slotReads i) → exec .slotVisit s = .next (s.halt .work))) ∧
  (∀ now : Bool,
     (∀ k : WorkKind, k = .remoteCrossing ∨ k = .correctSplit →
       k.accepted .prep now = false ∧ k.accepted .race now = true ∧ k.accepted .closed now = true) ∧
     (WorkKind.startWave.accepted .prep now = !now ∧ WorkKind.startWave.accepted .race now = true
       ∧ WorkKind.startWave.accepted .closed now = false) ∧
     (∀ k : WorkKind, k = .runnerStatus ∨ k = .setWatch ∨ k = .setName ∨ k = .banner ∨ k = .flushJournal →
       k.accepted .prep now = true ∧ k.accepted .race now = true ∧ k.accepted .closed now = true))

/-- The end of an item: outcome code and detail, then DONE for OK and FAILED else, then the index leaves the in-flight
list, then WORK_DONE if the notify flag was set; a sweep that waits for this end then goes on; outside PREP, RACE and
CLOSED nothing is written, nor before TAKEN is written to the slot, which puts its index on the list (R26, R32, R33). -/
def Obligations.ItemEndIsWritten : Prop :=
  (∀ s : State, s.working = false → exec .itemEnd s = .next s) ∧
  (∀ (e : EndReport) (rest : List EndReport) (s : State), s.sweep.ends = e :: rest → e.slot ∉ s.sweep.inFlight →
    exec .itemEnd s = .next s) ∧
  ∀ (e : EndReport) (rest : List EndReport) (s : State), s.working = true → Accepting s → s.sweep.ends = e :: rest →
    e.slot ∈ s.sweep.inFlight →
    let o := s.config.workOffset + 64 * e.slot
    let goesOn : State → State := fun u =>
      if e.slot + 1 < s.config.slotCount then
        { u with sweep := { u.sweep with at? := some (e.slot + 1), waits := false } }
      else endSweep u
    let ended : State := { s with
      mem   := Memory.writeAll s.mem
        [(.work, s.addr (o + 48), leBytes 4 e.outcome.code),
         (.work, s.addr (o + 52), leBytes 4 e.word0.toNat ++ leBytes 4 e.word1.toNat),
         (.work, s.addr o, if e.outcome = .ok then [3, 0, 0, 0] else [4, 0, 0, 0])]
      sweep := { s.sweep with ends := rest, inFlight := s.sweep.inFlight.filter fun i => i != e.slot }
      cause := if e.notify then s.cause ||| 0x001#9 else s.cause }
    exec .itemEnd s = .next (if s.sweep.waits = true ∧ s.sweep.at? = some e.slot then goesOn ended else ended)

/-! ## Crossings (spec 06) -/

/-- The binary search of a directory in ascending order: it finds the runner of a code that stands in it, finds none
for one that does not, begins at the lower middle entry, and makes at most 16 probes of up to 65,000 entries (R50).
A closed crossing whose lookup finds no entry, an entry whose runner index is not below the count, or a record of
another chip, is refused with a STRAY_CHIP record and writes nothing (R93).
How a runner's record and the gun time of its wave are read, values out of range among them, and when it has a split
present (R40, R45, R47, R96). -/
def Obligations.ChipLookupFindsOrRefuses : Prop :=
  (∀ (s : State) (L : Loaded) (chip : Word), L.chipCount ≤ 65000 →
     let code : Nat → Nat := fun k => s.field (L.chipOffset + 8 * k) 4
     let found := chipSearch s L chip 32 0 L.chipCount
     found.1.length ≤ 16 ∧
     (0 < L.chipCount → found.1.head? = some ((L.chipCount - 1) / 2)) ∧
     ((∀ k, k + 1 < L.chipCount → code k < code (k + 1)) →
       (∀ k, k < L.chipCount → code k = chip.toNat → found.2 = some (s.field (L.chipOffset + 8 * k + 4) 4)) ∧
       ((∀ k, k < L.chipCount → code k ≠ chip.toNat) → found.2 = none))) ∧
  (∀ (c : ClosedCrossing) (rest : List IntakeItem) (s : State), s.working = true → Accepting s →
     s.intake = .crossing c :: rest →
     (∀ i, (chipSearch s s.config c.chip 32 0 s.config.chipCount).2 = some i →
       s.config.runnerCount ≤ i ∨ (s.readRunner s.config i).chip ≠ c.chip) →
     exec .localCrossing s = .next
       (itemDone none [] (s.record (chipException .strayChip c.point c.chip c.time)))) ∧
  (∀ (s : State) (L : Loaded) (i : Nat),
     let o := L.runnerOffset + 320 * i
     let time : Nat → Option Nat := fun raw => if raw ≤ 43199999 then some raw else none
     let r := s.readRunner L i
     r.chip = toWord (s.field o 4) ∧
     r.bib = (if 1 ≤ s.field (o + 4) 4 ∧ s.field (o + 4) 4 ≤ 99999 then s.field (o + 4) 4 else 0) ∧
     r.wave = (if s.field (o + 8) 1 ≤ 15 then some (s.field (o + 8) 1) else none) ∧
     (∀ w, r.wave = some w → s.runnerGun L r = time (s.field (L.waveOffset + 8 * w) 4)) ∧
     (r.wave = none → s.runnerGun L r = none) ∧
     (s.field (o + 9) 1 ≤ 4 → r.status.code = s.field (o + 9) 1) ∧
     (4 < s.field (o + 9) 1 → r.status = .registered) ∧
     r.watch = min (s.field (o + 10) 1) 7 ∧
     r.last = (if s.field (o + 12) 1 < L.pointCount then some (s.field (o + 12) 1) else none) ∧
     r.name = s.fieldBytes (o + 16) 16 ∧
     r.start = time (s.field (o + 32) 4) ∧
     (∀ p, p < L.pointCount →
       r.slot p = ⟨time (s.field (o + 64 + 8 * p) 4), BitVec.ofNat 16 (s.field (o + 64 + 8 * p + 4) 2)⟩) ∧
     (∀ p, L.pointCount ≤ p → r.slot p = ⟨none, 0⟩) ∧
     (0 < L.pointCount → (r.hasSplit L.pointCount = true ↔
       r.start.isSome = true ∨ ∃ p, 1 ≤ p ∧ p < L.pointCount ∧ (r.slot p).time.isSome = true)))

/-- A crossing that is refused or dropped writes its EXCEPTION record, and of shared memory at most the fixed-on flag:
WITHDRAWN; at the start a repeat or an order conflict; elsewhere a repeat, a crossing before the gun, or one that
does not fit strictly between its neighbours (R95, R96, R97, R98, R99, R109, R111). -/
def Obligations.CrossingsAreRefusedOrDropped : Prop :=
  ∀ (k : Option WorkItem) (x : Crossing) (s : State), Accepting s → CrossingHead k x s →
    let L := s.config
    let r := s.readRunner L x.runner
    let gun := s.runnerGun L r
    let fix := s.fixWrites L r
    let dropped : ExceptionCode → Prop := fun code =>
      exec (crossingCommand k) s = .next (planEffect (droppedPlan x fix code .conflict) k s)
    (gun = none → fix = []) ∧
    (∀ w g, r.wave = some w → gun = some g →
      fix = if s.field (L.waveOffset + 8 * w + 4) 1 = 0 then [(.wave, s.addr (L.waveOffset + 8 * w + 4), [1])] else []) ∧
    (r.status = .withdrawn →
      exec (crossingCommand k) s = .next (planEffect (droppedPlan x [] .withdrawnRunner .refusedStatus) k s)) ∧
    (r.status ≠ .withdrawn → x.point = 0 →
      (r.start.isSome = true → dropped .repeated) ∧
      (∀ q u, r.start = none → 1 ≤ q → q < L.pointCount → (r.slot q).time = some u →
        u ≤ max x.time (gun.getD 0) → dropped .orderConflict)) ∧
    (r.status ≠ .withdrawn → x.point ≠ 0 →
      ((r.slot x.point).time.isSome = true → dropped .repeated) ∧
      ((r.slot x.point).time = none →
        (∀ g, gun = some g → x.time < g → dropped .beforeGun) ∧
        ((∀ g, gun = some g → g ≤ x.time) →
          ((∃ l, r.lowerBound (r.start <|> gun) x.point = some l ∧ x.time ≤ l) ∨
            (∃ u, r.upperBound L.pointCount x.point = some u ∧ u ≤ x.time)) →
          dropped .orderConflict)))

/-- The bounds of a time at a point are the present times at the nearest points below and above, the start standing
as point 0; the segment begins at the nearest point below with a time that is not SUSPECT, else at the start (R99, R101).
The arithmetic of a split with a gun time, where the times stand in course order: segment, net split, segment pace
half up, SUSPECT and SLOW, the clamped, average and blended paces, the projected finish and the cutoff (R101 to R105). -/
def Obligations.SplitNeighboursAndArithmetic : Prop :=
  (∀ (r : Runner) (zero : Option Nat) (S p : Nat), 0 < p →
     ((∀ q, 1 ≤ q → q < p → (r.slot q).time = none) → r.lowerBound zero p = zero) ∧
     (∀ q u, 1 ≤ q → q < p → (r.slot q).time = some u → (∀ j, q < j → j < p → (r.slot j).time = none) →
       r.lowerBound zero p = some u) ∧
     (∀ n, (∀ q, p < q → q < n → (r.slot q).time = none) → r.upperBound n p = none) ∧
     (∀ n q u, p < q → q < n → (r.slot q).time = some u → (∀ j, p < j → j < q → (r.slot j).time = none) →
       r.upperBound n p = some u) ∧
     ((∀ q, 1 ≤ q → q < p → (r.slot q).time = none ∨ slotSuspect (r.slot q).flags = true) →
       r.segmentFrom S p = (0, S)) ∧
     (∀ q u, 1 ≤ q → q < p → (r.slot q).time = some u → slotSuspect (r.slot q).flags = false →
       (∀ j, q < j → j < p → (r.slot j).time = none ∨ slotSuspect (r.slot j).flags = true) →
       r.segmentFrom S p = (q, u))) ∧
  (∀ (L : Loaded) (r : Runner) (G p t : Nat),
     let S := r.start.getD G
     let q := (r.segmentFrom S p).1
     let u := (r.segmentFrom S p).2
     let d := derive L r G p t
     let clamp : Nat → Nat := fun x => if x < L.pMin then L.pMin else if L.pMax < x then L.pMax else x
     let half : Nat → Nat → Nat := fun a b => (2 * a + b) / (2 * b)
     S ≤ t → u ≤ t →
     d.from_ = q ∧
     d.missed = ((List.range p).filter fun m => decide (q < m) && (r.slot m).time.isNone).length ∧
     d.net = t - S ∧
     d.pace = half ((t - u) * 1000) (L.distance p - L.distance q) ∧
     (d.suspect = true ↔ d.pace < L.pMin) ∧ (d.slow = true ↔ L.pMax < d.pace) ∧
     (d.estimated = true ↔ r.start = none) ∧
     d.clamped = clamp d.pace ∧ d.average = clamp (half (d.net * 1000) (L.distance p)) ∧
     d.blended = half (3 * d.clamped + d.average) 4 ∧
     let F := if p + 1 = L.pointCount then d.net else d.net + half (d.blended * (L.finishDistance - L.distance p)) 1000
     (d.beyond = true ↔ d.suspect = false ∧ L.cutoff < F) ∧
     (d.projection = if d.suspect = true ∨ d.beyond = true then none else some F) ∧
     (∀ n, d.projection = some n → d.net ≤ n))

/-- A stored start: the fixed-on flag, slot 0, the start time (not before the gun), last point reached and status, in
this order; then the START record, and the watch seal where the test is met (R96, R97, R107, R108, R109, R110, R113). -/
def Obligations.StartCrossingIsStored : Prop :=
  ∀ (k : Option WorkItem) (x : Crossing) (s : State), Accepting s → CrossingHead k x s → x.point = 0 →
    let L := s.config
    let r := s.readRunner L x.runner
    let gun := s.runnerGun L r
    let S := max x.time (gun.getD 0)
    let later := ∃ q, 1 ≤ q ∧ q < L.pointCount ∧ (r.slot q).time.isSome = true
    r.status ≠ .withdrawn → r.start = none →
    (∀ q u, 1 ≤ q → q < L.pointCount → (r.slot q).time = some u → S < u) →
    ∀ f : SplitFlags, f = { startClamped := decide (x.time < gun.getD 0), remote := x.remote, earlyClose := x.early,
                            held := decide (r.status = .held), gunUnknown := gun.isNone, lateStart := f.lateStart } →
      (f.lateStart = true ↔ later) →
      exec (crossingCommand k) s = .next (planEffect
        { reads     := []
          writes    := s.fixWrites L r ++
            [(.runner, s.addr (runnerOffset L x.runner 64), leBytes 4 x.time ++ leBytes 2 f.slotWord.toNat ++ [0, 0]),
             (.runner, s.addr (runnerOffset L x.runner 32), leBytes 4 S),
             (.runner, s.addr (runnerOffset L x.runner 12), [BitVec.ofNat 8 (max (r.last.getD 0) 0)]),
             (.runner, s.addr (runnerOffset L x.runner 9), [BitVec.ofNat 8 (r.status.stored (L.isFinish 0)).code])]
          records   := [⟨1, 0, f.journalWord, 0, 0, BitVec.ofNat 16 x.runner, toWord x.time,
            toWord (absentOr (gun.map fun g => S - g)), toWord S, toWord 4294967295, toWord 4294967295,
            toWord (x.count + 256 * x.best.toNat)⟩]
          handovers := []
          watch     := decide (s.watchLevel ≠ 0 ∧ s.watchLevel.toNat ≤ r.watch ∧ r.status ≠ .held)
          outcome   := .ok
          word0     := none
          word1     := some 0 } k s)

/-- A stored crossing above the start: the fixed-on flag, its slot, the projected finish, last point reached and status,
in this order; then the SPLIT record, for a SUSPECT split its EXCEPTION record too, the screen requests, and the watch
seal where the test is met (R96, R100, R107, R108, R109, R110, R112, R113). That the missed count of a GUN_UNKNOWN split is
0, with no MISSED flag, is log entry 39. -/
def Obligations.SplitCrossingIsStored : Prop :=
  ∀ (k : Option WorkItem) (x : Crossing) (s : State), Accepting s → CrossingHead k x s → x.point ≠ 0 →
    let L := s.config
    let r := s.readRunner L x.runner
    let gun := s.runnerGun L r
    let upper := r.upperBound L.pointCount x.point
    r.status ≠ .withdrawn → (r.slot x.point).time = none → (∀ g, gun = some g → g ≤ x.time) →
    (∀ l, r.lowerBound (r.start <|> gun) x.point = some l → l < x.time) → (∀ u, upper = some u → x.time < u) →
    let d := gun.map fun g => derive L r g x.point x.time
    let f : SplitFlags :=
      { remote := x.remote, earlyClose := x.early, held := decide (r.status = .held), gunUnknown := gun.isNone
        lateFill := upper.isSome, netEstimated := d.isSome && r.start.isNone, suspect := d.any Derived.suspect
        slow := d.any Derived.slow, missed := d.any fun d => decide (0 < d.missed), beyondCutoff := d.any Derived.beyond }
    exec (crossingCommand k) s = .next (planEffect
      { reads     := []
        writes    := s.fixWrites L r ++
          [(.runner, s.addr (runnerOffset L x.runner (64 + 8 * x.point)),
              leBytes 4 x.time ++ leBytes 2 f.slotWord.toNat ++ [0, 0]),
           (.runner, s.addr (runnerOffset L x.runner 36), leBytes 4 (absentOr (d.bind Derived.projection))),
           (.runner, s.addr (runnerOffset L x.runner 12), [BitVec.ofNat 8 (max (r.last.getD 0) x.point)]),
           (.runner, s.addr (runnerOffset L x.runner 9),
              [BitVec.ofNat 8 (r.status.stored (L.isFinish x.point)).code])]
        records   := ⟨2, BitVec.ofNat 8 x.point, f.journalWord, BitVec.ofNat 8 ((d.map Derived.missed).getD 0), 0,
            BitVec.ofNat 16 x.runner, toWord x.time, toWord (absentOr (gun.map fun g => x.time - g)),
            toWord (absentOr (d.map Derived.net)), toWord (absentOr (d.map fun d => min d.pace 4294967294)),
            toWord (absentOr (d.bind Derived.projection)), toWord (x.count + 256 * x.best.toNat)⟩
          :: (if f.suspect then [runnerException .suspectFast x.point x.runner x.time] else [])
        handovers := s.splitRequests L r x.runner x.point x.time d
        watch     := decide (s.watchLevel ≠ 0 ∧ s.watchLevel.toNat ≤ r.watch ∧ r.status ≠ .held)
        outcome   := .ok
        word0     := none
        word1     := some 0 } k s)

/-- A face's arrival, on time and off time, each held to its range; no request where the off time is at or before the
clock reading (R106). -/
def Obligations.FaceTimesOfASplit : Prop :=
  ∀ (L : Loaded) (f : Face) (p t B now : Nat),
    let A := min (t + (2 * (B * (f.x - L.distance p)) + 1000) / 2000) 43199999
    let on := max (if f.lead < A then A - f.lead else 0) now
    let off := min (A + f.linger) 43199999
    (off ≤ now → faceTimes L f p t B now = none) ∧ (now < off → faceTimes L f p t B now = some (on, A, off))

/-- The screen requests of a stored split: none unless the engine is in RACE, a gun time was present, and the split is
neither SUSPECT nor HELD; else one for each face fed by the point, in ascending screen index, that its times let go (R112).
The status a stored crossing or a correction writes (R107, R127), and what a correction hands the screens in RACE:
for each face fed by its point the request it would send, else a removal; outside RACE, and at the start, nothing (R130).
That a stored crossing at FINISH leaves a FINISHED runner FINISHED is log entry 18: the table of R107 gives no value
there. -/
def Obligations.StatusWrittenAndScreensTold : Prop :=
  (∀ (s : State) (L : Loaded) (r : Runner) (i p t : Nat) (d : Derived),
     let feeds : Screen → Option (FaceIx × Face) := fun c =>
       if c.face0.feed = p then some (0, c.face0)
       else (c.face1.filter fun f => decide (f.feed = p)).map fun f => (1, f)
     s.splitRequests L r i p t none = [] ∧
     (s.engine ≠ .race ∨ d.suspect = true ∨ r.status = .held → s.splitRequests L r i p t (some d) = []) ∧
     (s.engine = .race → d.suspect = false → r.status ≠ .held →
       s.splitRequests L r i p t (some d) = (List.range L.screens.length).filterMap fun j =>
         (L.screens[j]?.bind feeds).bind fun f =>
           (faceTimes L f.2 p t d.blended s.itemNow).map fun y => .request
             { screen := j, face := f.1, runner := i, onTime := y.1, arrival := y.2.1, offTime := y.2.2
               priority := r.watch
               snapshot := ⟨r.bib, r.name, d.net, d.clamped, d.projection, decide (1 ≤ r.watch)⟩ })) ∧
  ((∀ finish, Status.registered.stored finish = (if finish then .finished else .onCourse) ∧
     Status.onCourse.stored finish = (if finish then .finished else .onCourse) ∧
     Status.finished.stored finish = .finished ∧ Status.held.stored finish = .held ∧
     Status.withdrawn.stored finish = .withdrawn) ∧
   (∀ (s : State) (L : Loaded) (i : Nat), s.removals L i 0 = []) ∧
   ∀ (s : State) (L : Loaded) (r : Runner) (i p t : Nat), p ≠ 0 →
     (s.engine ≠ .race → s.removals L i p = [] ∧ ∀ d, s.correctionHandOvers L r i p t d = []) ∧
     (s.engine = .race →
       s.removals L i p = (L.facesFedBy p).map (fun x => .removal x.1 x.2.1 i) ∧
       s.correctionHandOvers L r i p t none = s.removals L i p ∧
       ∀ d : Derived,
         (d.suspect = true ∨ r.status = .held → s.correctionHandOvers L r i p t (some d) = s.removals L i p) ∧
         (d.suspect = false → r.status ≠ .held →
           s.correctionHandOvers L r i p t (some d) = (L.facesFedBy p).map fun x =>
             match d.request L r i p t s.itemNow x with
             | some q => .request q
             | none => .removal x.1 x.2.1 i)))

/-! ## Work items for runners and waves (spec 07) -/

/-- The checks that end a runner item with nothing written: the item leaves, its end reported with the outcome and detail
words the rules give (R116, R117, R125); the times are held against the item's clock reading (R91). -/
def Obligations.ItemChecksRefuse : Prop :=
  ∀ (w : WorkItem) (s : State), Accepting s →
    let L := s.config
    let refused : OutcomeCode → Nat → Nat → State := fun code d0 d1 =>
      itemDone (some ⟨w.slot, code, toWord d0, toWord d1, w.notify⟩) [] s
    (L.runnerCount ≤ w.field 0 4 →
      (ItemHead .remoteCrossing w s → exec .remoteCrossing s = .next (refused .noRunner 0 0)) ∧
      (ItemHead .runnerStatus w s → exec .runnerStatus s = .next (refused .noRunner 0 0)) ∧
      (ItemHead .setWatch w s → exec .setWatch s = .next (refused .noRunner 0 0)) ∧
      (ItemHead .setName w s → exec .setName s = .next (refused .noRunner 0 0)) ∧
      (ItemHead .correctSplit w s → exec .correctSplit s = .next (refused .noRunner 0 0))) ∧
    (w.field 0 4 < L.runnerCount → L.pointCount ≤ w.field 4 1 →
      (ItemHead .remoteCrossing w s → exec .remoteCrossing s = .next (refused .badPoint 0 0)) ∧
      (ItemHead .correctSplit w s → exec .correctSplit s = .next (refused .badPoint 0 0))) ∧
    (w.field 0 4 < L.runnerCount → w.field 4 1 < L.pointCount →
      (ItemHead .remoteCrossing w s → s.itemNow < w.field 8 4 →
        exec .remoteCrossing s = .next (refused .badTime 0 0)) ∧
      (ItemHead .correctSplit w s → w.field 5 1 = 0 → (43199999 < w.field 8 4 ∨ s.itemNow < w.field 8 4) →
        exec .correctSplit s = .next (refused .badTime 0 0)) ∧
      (ItemHead .correctSplit w s → w.field 5 1 = 0 → w.field 8 4 ≤ 43199999 → w.field 8 4 ≤ s.itemNow →
        let r := s.readRunner L (w.field 0 4)
        let lower := r.lowerBound (r.start <|> s.runnerGun L r) (w.field 4 1)
        let upper := r.upperBound L.pointCount (w.field 4 1)
        ((∃ l, lower = some l ∧ w.field 8 4 ≤ l) ∨ ∃ u, upper = some u ∧ u ≤ w.field 8 4) →
        exec .correctSplit s = .next (refused .conflict (absentOr lower) (absentOr upper))))

/-- START_WAVE: a wave above 15 is BAD_POINT, an explicit time above the ceiling BAD_TIME, a fixed-on wave CONFLICT with
the gun time held; else the gun time, the clock reading for "now", is written and stands in the detail (R118).
SET_WATCH writes the priority, 7 for a higher one, and SET_NAME the 16 characters as given; both end with OK and
write no journal record (R123, R124). -/
def Obligations.WaveWatchAndNameAreWritten : Prop :=
  (∀ (w : WorkItem) (s : State), Accepting s → ItemHead .startWave w s →
     let wave := w.field 0 1
     let now := w.field 1 1
     let time := if now = 0 then w.field 4 4 else s.itemNow
     let o := s.config.waveOffset + 8 * wave
     let ended : OutcomeCode → Nat → State → State := fun code detail u =>
       itemDone (some ⟨w.slot, code, toWord detail, 0, w.notify⟩) [] u
     (15 < wave → exec .startWave s = .next (ended .badPoint 0 s)) ∧
     (wave ≤ 15 → now = 0 → 43199999 < w.field 4 4 → exec .startWave s = .next (ended .badTime 0 s)) ∧
     (wave ≤ 15 → (now = 0 → w.field 4 4 ≤ 43199999) → s.field (o + 4) 1 ≠ 0 →
       exec .startWave s = .next (ended .conflict
         (if s.field o 4 ≤ 43199999 then s.field o 4 else 4294967295) s)) ∧
     (wave ≤ 15 → (now = 0 → w.field 4 4 ≤ 43199999) → s.field (o + 4) 1 = 0 →
       exec .startWave s = .next (ended .ok time
         { s with mem := Memory.writeBytes s.mem (s.addr o) (leBytes 4 time) }))) ∧
  (∀ (w : WorkItem) (s : State), Accepting s → w.field 0 4 < s.config.runnerCount →
     let o := s.config.runnerOffset + 320 * w.field 0 4
     let priority := min (w.field 4 1) 7
     (ItemHead .setWatch w s → exec .setWatch s = .next
       (itemDone (some ⟨w.slot, .ok, toWord priority, 0, w.notify⟩) []
         { s with mem := Memory.writeBytes s.mem (s.addr (o + 10)) [BitVec.ofNat 8 priority] })) ∧
     (ItemHead .setName w s → exec .setName s = .next
       (itemDone (some ⟨w.slot, .ok, 0, 0, w.notify⟩) []
         { s with mem := Memory.writeBytes s.mem (s.addr (o + 16)) ((w.body.drop 4).take 16) })))

/-- RUNNER_STATUS: the table of actions; an accepted one writes the status, hands over its STATUS record and, for
WITHDRAW and HOLD, a purge; its detail holds the status written and the record's serial; any other ends with
REFUSED_STATUS and the status read (R120, R121, R122). -/
def Obligations.RunnerStatusFollowsItsTable : Prop :=
  ∀ (w : WorkItem) (s : State), Accepting s → ItemHead .runnerStatus w s → w.field 0 4 < s.config.runnerCount →
    let L := s.config
    let i := w.field 0 4
    let r := s.readRunner L i
    let action := StatusAction.ofCode (w.field 4 1)
    let any := ∃ p, p < L.pointCount ∧ (if p = 0 then r.start.isSome = true else (r.slot p).time.isSome = true)
    let finished := (r.slot (L.pointCount - 1)).time.isSome = true
    let carried : StatusAction → Status → Prop := fun a after => exec .runnerStatus s = .next (planEffect
      { reads     := []
        writes    := [(.runner, s.addr (runnerOffset L i 9), [BitVec.ofNat 8 after.code])]
        records   := [⟨4, 255, 0, BitVec.ofNat 8 a.code, BitVec.ofNat 8 r.status.code, BitVec.ofNat 16 i,
                        toWord s.itemNow, toWord after.code, 0, 0, 0, 0⟩]
        handovers := if a = .withdraw ∨ a = .hold then [.purge i] else []
        watch     := false
        outcome   := .ok
        word0     := some (toWord after.code)
        word1     := none } (some w) s)
    let refused := exec .runnerStatus s = .next
      (itemDone (some ⟨w.slot, .refusedStatus, toWord r.status.code, 0, w.notify⟩) [] s)
    (action = none → refused) ∧
    (action = some .withdraw →
      (r.status ≠ .withdrawn → carried .withdraw .withdrawn) ∧ (r.status = .withdrawn → refused)) ∧
    (action = some .reinstate →
      (r.status = .withdrawn →
        (finished → carried .reinstate .finished) ∧ (¬ finished → any → carried .reinstate .onCourse) ∧
        (¬ finished → ¬ any → carried .reinstate .registered)) ∧ (r.status ≠ .withdrawn → refused)) ∧
    (action = some .hold →
      (r.status = .registered ∨ r.status = .onCourse → carried .hold .held) ∧
      (r.status = .finished ∨ r.status = .withdrawn ∨ r.status = .held → refused)) ∧
    (action = some .release →
      (r.status = .held → (any → carried .release .onCourse) ∧ (¬ any → carried .release .registered)) ∧
      (r.status ≠ .held → refused))

/-- CORRECT_SPLIT with VOID: the slot is written absent, at the start the start time too, at the finish of a FINISHED
runner the status ON_COURSE; then its CORRECTION record and the removals (R128, R129, R130). It reads the runner record
and then the runner's wave entry, and a refused one halts the engine with nothing written (R16, R40). That the record
carries HELD for a HELD runner, and never GUN_UNKNOWN, is log entry 21. -/
def Obligations.VoidEmptiesTheSlot : Prop :=
  ∀ (w : WorkItem) (s : State), ItemHead .correctSplit w s → w.field 0 4 < s.config.runnerCount →
    w.field 4 1 < s.config.pointCount → w.field 5 1 ≠ 0 →
    let L := s.config
    let i := w.field 0 4
    let p := w.field 4 1
    let r := s.readRunner L i
    (¬ Readable s (s.runnerReads L i) → exec .correctSplit s = .next (s.halt .runner)) ∧
    (∀ v, Readable s (s.runnerReads L i) → r.wave = some v →
      s.refuses (s.addr (waveOffset L v 0)) 4 = true ∨ s.refuses (s.addr (waveOffset L v 4)) 1 = true →
      exec .correctSplit s = .next (s.halt .wave)) ∧
    (Accepting s → exec .correctSplit s = .next (planEffect
      { reads     := []
        writes    := [(.runner, s.addr (runnerOffset L i (64 + 8 * p)), [255, 255, 255, 255, 0, 0, 0, 0])]
          ++ (if p = 0 then [(.runner, s.addr (runnerOffset L i 32), [255, 255, 255, 255])] else [])
          ++ (if p + 1 = L.pointCount ∧ r.status = .finished then
                [(.runner, s.addr (runnerOffset L i 9), [1])] else [])
        records   := [⟨3, BitVec.ofNat 8 p,
          SplitFlags.journalWord { corrected := true, held := decide (r.status = .held) }, 0, 0, BitVec.ofNat 16 i,
          toWord 4294967295, toWord 4294967295, toWord 4294967295, toWord 4294967295, toWord 4294967295,
          toWord (absentOr (r.slot p).time)⟩]
        handovers := s.removals L i p
        watch     := false
        outcome   := .ok
        word0     := none
        word1     := some 0 } (some w) s))

/-- CORRECT_SPLIT with a new time that fits between its neighbours: the slot, at the start the start time and elsewhere
the projected finish, last point reached and status, in this order; then its CORRECTION record and what it hands the
screens; no watch seal (R125, R126, R127, R129, R130). -/
def Obligations.CorrectionWritesTheTime : Prop :=
  ∀ (w : WorkItem) (s : State), Accepting s → ItemHead .correctSplit w s → w.field 0 4 < s.config.runnerCount →
    w.field 4 1 < s.config.pointCount → w.field 5 1 = 0 → w.field 8 4 ≤ 43199999 → w.field 8 4 ≤ s.itemNow →
    let L := s.config
    let i := w.field 0 4
    let p := w.field 4 1
    let t := w.field 8 4
    let r := s.readRunner L i
    let gun := s.runnerGun L r
    (∀ l, r.lowerBound (r.start <|> gun) p = some l → l < t) → (∀ u, r.upperBound L.pointCount p = some u → t < u) →
    let d := if p = 0 then none else gun.map fun g => derive L r g p t
    let f : SplitFlags :=
      { netEstimated := d.isSome && r.start.isNone, suspect := d.any Derived.suspect, slow := d.any Derived.slow
        held := decide (r.status = .held), gunUnknown := gun.isNone, beyondCutoff := d.any Derived.beyond
        corrected := true }
    exec .correctSplit s = .next (planEffect
      { reads     := []
        writes    :=
          [(.runner, s.addr (runnerOffset L i (64 + 8 * p)), leBytes 4 t ++ leBytes 2 f.slotWord.toNat ++ [0, 0]),
           (if p = 0 then (.runner, s.addr (runnerOffset L i 32), leBytes 4 t)
            else (.runner, s.addr (runnerOffset L i 36), leBytes 4 (absentOr (d.bind Derived.projection)))),
           (.runner, s.addr (runnerOffset L i 12), [BitVec.ofNat 8 (max (r.last.getD 0) p)]),
           (.runner, s.addr (runnerOffset L i 9), [BitVec.ofNat 8 (r.status.stored (L.isFinish p)).code])]
        records   := [⟨3, BitVec.ofNat 8 p, f.journalWord, 0, 0, BitVec.ofNat 16 i, toWord t,
          toWord (absentOr (gun.bind fun g => if g ≤ t then some (t - g) else none)),
          toWord (if p = 0 then t else absentOr (d.map Derived.net)),
          toWord (absentOr (d.map fun d => min d.pace 4294967294)), toWord (absentOr (d.bind Derived.projection)),
          toWord (absentOr (r.slot p).time)⟩]
        handovers := if p = 0 then [] else s.correctionHandOvers L r i p t d
        watch     := false
        outcome   := .ok
        word0     := none
        word1     := some 0 } (some w) s)

/-! ## Schedules, boards and power (spec 08, 09) -/

/-- A new request: below the floor it is dropped; else it enters while the schedule holds fewer than 48 entries, and
with 48 it takes the place of the candidate, or is dropped where there is none. The floor rises at high water; the
entry is then subject to the clock rules, and free rows are offered, also where it was missed at once; the screen's frames
go to its panel (R135, R136, R137, R138, R141, R143). -/
def Obligations.NewRequestsAreAdmittedOrDropped : Prop :=
  ∀ (q : Request) (rest : List HandOver) (c : Screen) (x : ScreenState) (s : State), s.working = true →
    s.handovers = .request q :: rest → ScreenAt s q.screen c x → findEntry q.runner q.face x.schedule = none →
    let clock := s.raceClock
    let now := s.localTime
    let acts : ScreenState → Prop := fun y =>
      exec .screenRequest s = .next { screenAfter q.screen c x y s with handovers := rest }
    let dropped : ScreenState := { x with dropped := if x.dropped < 65535 then x.dropped + 1 else x.dropped }
    let entry : Entry :=
      ⟨q.runner, q.face, q.onTime, q.arrival, q.offTime, q.priority, none, q.snapshot⟩
    let entered : ScreenState → ScreenState := fun u =>
      let z := retest c clock now { u with
        schedule := insertEntry entry u.schedule
        floor    := if c.high ≤ u.schedule.length + 1 ∧ u.floor < 7 then u.floor + 1 else u.floor }
      offerRows c clock now (if q.offTime ≤ clock then missEntry c clock now q.runner q.face z else z)
    let isCandidate : Entry → Prop := fun e => e.shownSince = none ∧ e.priority < q.priority
    (q.priority < x.floor → acts dropped) ∧
    (x.floor ≤ q.priority → x.schedule.length < 48 → acts (entered x)) ∧
    (x.floor ≤ q.priority → 48 ≤ x.schedule.length → (∀ e ∈ x.schedule, ¬ isCandidate e) → acts dropped) ∧
    (∀ a e b, x.floor ≤ q.priority → 48 ≤ x.schedule.length → x.schedule = a ++ e :: b → isCandidate e →
      (∀ g ∈ a, isCandidate g → e.priority ≤ g.priority) → (∀ g ∈ b, isCandidate g → e.priority < g.priority) →
      acts (entered (retest c clock now { x with
        schedule := removeEntry e.runner e.face x.schedule
        dropped  := if x.dropped < 65535 then x.dropped + 1 else x.dropped })))

/-- A request for a runner and face that has an entry replaces it: no admission test, the floor and tallies as they
were, a PENDING entry stays PENDING, a SHOWN one keeps its shown-since; the clock rules then apply, and free rows are
offered (R135, R141, R142, R143). -/
def Obligations.RequestsReplaceTheirEntry : Prop :=
  ∀ (q : Request) (rest : List HandOver) (c : Screen) (x : ScreenState) (old : Entry) (s : State), s.working = true →
    s.handovers = .request q :: rest → ScreenAt s q.screen c x → findEntry q.runner q.face x.schedule = some old →
    let clock := s.raceClock
    let now := s.localTime
    let entry : Entry :=
      ⟨q.runner, q.face, q.onTime, q.arrival, q.offTime, q.priority, old.shownSince, q.snapshot⟩
    let z := retest c clock now { x with
      schedule := insertEntry entry (removeEntry q.runner q.face x.schedule) }
    let acts : ScreenState → Prop := fun y =>
      exec .screenRequest s = .next { screenAfter q.screen c x y s with handovers := rest }
    (old.shownSince = none → q.offTime ≤ clock →
      acts (offerRows c clock now (missEntry c clock now q.runner q.face z))) ∧
    (old.shownSince = none → clock < q.offTime → acts (offerRows c clock now z)) ∧
    (∀ t, old.shownSince = some t →
      (max q.offTime (min (t + c.dwell) 43199999) ≤ clock →
        acts (offerRows c clock now (leaveEntry c clock now q.runner q.face z))) ∧
      (clock < max q.offTime (min (t + c.dwell) 43199999) → acts (offerRows c clock now z)))

/-- A removal takes the runner's entry of its face off its screen, a purge every entry of the runner off every screen, in
ascending index, those of other runners staying; each is tested against low water and counts in neither tally, and then the
freed rows are offered; with no such entry nothing changes (R138, R141, R145, R146). -/
def Obligations.PurgesAndRemovals : Prop :=
  (∀ (i runner : Nat) (face : FaceIx) (rest : List HandOver) (s : State), s.working = true →
    s.handovers = .removal i face runner :: rest →
    (∀ c x, ScreenAt s i c x → ∀ e, findEntry runner face x.schedule = some e →
      exec .removal s = .next { screenAfter i c x
        (offerRows c s.raceClock s.localTime (leaveEntry c s.raceClock s.localTime runner face x)) s with
        handovers := rest }) ∧
    (∀ c x, ScreenAt s i c x → findEntry runner face x.schedule = none →
      exec .removal s = .next { s with handovers := rest })) ∧
  (∀ (runner : Nat) (rest : List HandOver) (s : State), s.working = true → s.handovers = .purge runner :: rest →
    ∃ t, exec .purge s = .next t ∧
      t = { s with screens := t.screens, panels := t.panels, handovers := rest } ∧
      t.screens.length = s.screens.length ∧
      t.panels.length = s.panels.length ∧
      ∀ i c x, ScreenAt s i c x → ∃ y, t.screens[i]? = some y ∧
        (let leaves : FaceIx → ScreenState → ScreenState := fun f z =>
           if findEntry runner f z.schedule = none then z else leaveEntry c s.raceClock s.localTime runner f z
         (∃ e ∈ x.schedule, e.runner = runner) →
           y = offerRows c s.raceClock s.localTime (leaves 1 (leaves 0 x))) ∧
        ((∀ e ∈ x.schedule, e.runner ≠ runner) → y = x) ∧
        (∀ e ∈ y.schedule, e.runner ≠ runner) ∧
        y.schedule.map (fun e => { e with shownSince := none }) =
          (x.schedule.filter fun e => !decide (e.runner = runner)).map (fun e => { e with shownSince := none }) ∧
        y.dropped = x.dropped ∧ y.missed = x.missed ∧ y.floor ≤ x.floor ∧
        t.panels[i]? = (placeFrames i (eventFrames c.rows x y) s).panels[i]?) ∧
  (∀ (c : Screen) (clock now runner : Nat) (face : FaceIx) (x : ScreenState),
    let kept := x.schedule.filter fun e => !(decide (e.runner = runner) && decide (e.face = face))
    leaveEntry c clock now runner face x = retest c clock now { x with
      schedule := kept
      floor    := if kept.length ≤ c.low then x.floor - 1 else x.floor })

/-- Free rows are offered: while a row is free and an entry showable, the showable entry first in schedule order is shown,
its shown-since the race clock, the screen tested again, and the rest offered; afterwards no row is free or no entry
showable, and entries have changed in their shown-since alone (R141).
The board holds the SHOWN entries in ascending arrival, then runner, then face; a change of it hands over, row by row from
row 1, ROW where the row's runner, face or snapshot differs from before and CLEAR_ROW where it became empty, after
BRIGHTNESS where the power state changed (R140, R144, R161).
The clock events of a board in RACE: a due entry is shown, a SHOWN entry whose leave time is reached leaves and its
row is offered, a PENDING one whose off time is reached is missed and counted (R141, R142, R143). -/
def Obligations.BoardsOfferRowsByTheClock : Prop :=
  (∀ (c : Screen) (clock now : Nat) (x : ScreenState),
     let y := offerRows c clock now x
     (c.rows ≤ shownCount y.schedule ∨ ∀ e ∈ y.schedule, e.showable clock = false) ∧
     y.schedule.map (fun e => { e with shownSince := none }) = x.schedule.map (fun e => { e with shownSince := none }) ∧
     y.floor = x.floor ∧ y.dropped = x.dropped ∧ y.missed = x.missed ∧
     (c.rows ≤ shownCount x.schedule → y = x) ∧
     ((∀ e ∈ x.schedule, e.showable clock = false) → y = x) ∧
     (∀ e, shownCount x.schedule < c.rows → x.schedule.find? (Entry.showable clock) = some e →
       let shown := retest c clock now { x with schedule := x.schedule.map fun z =>
         if z.runner = e.runner ∧ z.face = e.face then { z with shownSince := some clock } else z }
       y = offerRows c clock now shown ∧ (shownCount x.schedule + 1 = c.rows → y = shown)) ∧
     (∀ e : Entry, e.showable clock = true ↔ e.shownSince = none ∧ e.onTime ≤ clock ∧ clock < e.offTime)) ∧
  ((∀ x : ScreenState,
     x.board.Perm (x.schedule.filter fun e => e.shownSince.isSome) ∧
     x.board.Pairwise (fun a b => boardBefore b a = false)) ∧
   (∀ a b : Entry, boardBefore a b = true ↔ a.arrival < b.arrival ∨ (a.arrival = b.arrival ∧
     (a.runner < b.runner ∨ (a.runner = b.runner ∧ a.face.val < b.face.val)))) ∧
   (∀ (rows : Nat) (before after : List Entry),
     rowFrames rows before after = (List.range rows).flatMap fun k =>
       match before[k]?, after[k]? with
       | none, none => []
       | some _, none => [clearRowFrame (k + 1)]
       | none, some e => [rowFrame (k + 1) e.snapshot]
       | some b, some e =>
         if b.runner = e.runner ∧ b.face = e.face ∧ b.snapshot = e.snapshot then [] else [rowFrame (k + 1) e.snapshot]) ∧
   (∀ (rows : Nat) (x y : ScreenState),
     eventFrames rows x y =
       (if x.power = y.power then [] else [brightnessFrame y.power]) ++ rowFrames rows x.board y.board)) ∧
  (∀ (i : Nat) (c : Screen) (x : ScreenState) (s : State), s.engine = .race → ScreenAt s i c x →
     let clock := s.raceClock
     let now := s.localTime
     (∀ e ∈ x.schedule, e.showable clock = true → shownCount x.schedule < c.rows →
       exec (.entryDue i) s = .next (screenAfter i c x (offerRows c clock now x) s)) ∧
     (∀ e t, findEntry e.runner e.face x.schedule = some e → e.shownSince = some t →
       max e.offTime (min (t + c.dwell) 43199999) ≤ clock →
       exec (.leaveTime i e.runner e.face) s = .next
         (screenAfter i c x (offerRows c clock now (leaveEntry c clock now e.runner e.face x)) s)) ∧
     (∀ e, findEntry e.runner e.face x.schedule = some e → e.shownSince = none → e.offTime ≤ clock →
       exec (.missed i e.runner e.face) s = .next
         (screenAfter i c x (leaveEntry c clock now e.runner e.face
           { x with missed := if x.missed < 65535 then x.missed + 1 else x.missed }) s)))

/-- A BANNER item: a text whose expiry is past, present or above the ceiling ends with BAD_TIME; else every screen of
the set takes the banner, or loses its banner for an empty text, a BANNER frame is handed over, and the detail is the
set as applied. An expiry that the race clock has reached makes the banner absent, in CLOSED too where END came first
(R148, R149, R150, R157). The model's choices: the BRIGHTNESS frame of a change is handed over before the BANNER frame (log
entry 17), and an item's expiry is tested when BANNER acts on it, not when the sweep handed it over (log entry 32). -/
def Obligations.BannersAreSetAndExpire : Prop :=
  (∀ (w : WorkItem) (rest : List WorkItem) (s : State), s.working = true → s.bannerItems = w :: rest →
    let set := w.field 0 4
    let expiry := w.field 4 4
    let text := w.bytes 8 32
    let empty := ∀ b ∈ text, b = 0 ∨ b = 0x20
    let b : Option Banner → Prop := fun b => (empty → b = none) ∧
      (¬ empty → b = some ⟨text, if expiry ≤ 43199999 then some expiry else none⟩)
    (¬ empty → expiry ≠ 4294967295 → (43199999 < expiry ∨ expiry ≤ s.raceClock) →
      exec .banner s = .next { s with
        bannerItems := rest, sweep := { s.sweep with ends := s.sweep.ends ++ [⟨w.slot, .badTime, 0, 0, w.notify⟩] } }) ∧
    ((empty ∨ expiry = 4294967295 ∨ (expiry ≤ 43199999 ∧ s.raceClock < expiry)) → ∀ v, b v →
      ∃ t, exec .banner s = .next t ∧
        t = { s with
          screens := t.screens
          panels  := t.panels
          bannerItems := rest
          sweep   := { s.sweep with
            ends := s.sweep.ends ++ [⟨w.slot, .ok, toWord (set % 2 ^ s.screens.length), 0, w.notify⟩] } } ∧
        t.screens.length = s.screens.length ∧
        ∀ i c x, ScreenAt s i c x →
          let y := retarget s.localTime { x with banner := v, force := v.isSome }
          (set.testBit i = true → t.screens[i]? = some y ∧
            t.panels[i]? = (placeFrame i (bannerFrame v) (screenAfter i c x y s)).panels[i]?) ∧
          (set.testBit i = false → t.screens[i]? = some x ∧ t.panels[i]? = s.panels[i]?))) ∧
  (∀ (i : Nat) (c : Screen) (x : ScreenState) (b : Banner) (t0 : Nat) (s : State), s.working = true →
    ScreenAt s i c x → x.banner = some b → b.expiry = some t0 → t0 ≤ s.raceClock →
    exec (.bannerExpiry i) s = .next (placeFrame i (bannerFrame none)
      (screenAfter i c x (retarget s.localTime { x with banner := none, force := false }) s)))

/-- A pass of the status timer writes every screen's record, whole, in ascending index, and the timer starts again (R152). -/
def Obligations.StatusRecordsAreWritten : Prop :=
  ∀ (t0 : Nat) (s : State), s.working = true → Accepting s → s.statusTimer = some t0 → t0 + 1000 ≤ s.localTime →
    exec .statusTimer s = .next { s with
      statusTimer := some s.localTime
      mem := Memory.writeAll s.mem ((List.range s.screens.length).filterMap fun i => s.screens[i]?.map fun x =>
        (.screenStatus, s.addr (s.config.statusOffset + 8 * i),
          [(if (s.panels[i]?.map Panel.online).getD true then BitVec.ofNat 8 x.power.code else 3),
            BitVec.ofNat 8 x.floor, BitVec.ofNat 8 x.schedule.length, 0]
          ++ leBytes 2 x.dropped ++ leBytes 2 x.missed)) }

/-- After each change of a schedule: a configured face is BUSY exactly while one of its entries is SHOWN or within the
wake lead of its on time, and leaving BUSY starts its idle time; the target is ACTIVE unless both faces are IDLE and no
banner forces it; the power state follows, a wake from DARK joining the history (R155, R157, R158, R160). `retest`, which
each change of a schedule ends with, makes the test of both faces and then sets the target.
The events of the power rules: an entry comes within the wake lead, dim_after passes on a QUIET face, dark_after
passes in DIM, and a wake ages out; a screen is demoted while its recent wakes number the flap limit (R155, R156, R159, R160).
A wake that ages out in the moment in which dark_after passes still counts there: the screen is demoted, and the age-out
sends it to DARK (R159). That one WAKE_AGE_OUT drops one wake is the model's choice (log entry 22). -/
def Obligations.ScreenPowerFollowsItsRules : Prop :=
  ((∀ (c : Screen) (clock : Nat) (x : ScreenState) (f : FaceIx), faceBusy c clock x f = true ↔
     ∃ e ∈ x.schedule, e.face = f ∧ (e.shownSince ≠ none ∨ e.onTime ≤ clock + 1000 * c.wakeLead)) ∧
   (∀ (c : Screen) (clock now : Nat) (x : ScreenState) (f : FaceIx),
     let a := x.faces[f]
     let tested : FaceState := if faceBusy c clock x f then { a with activity := .busy }
       else if a.activity = .busy then ⟨.quiet, now⟩ else a
     retestFace c clock now f x = if f = 0 ∨ c.face1 ≠ none then { x with faces := x.faces.set f tested } else x) ∧
   (∀ (c : Screen) (clock now : Nat) (x : ScreenState),
     retest c clock now x = retarget now (retestFace c clock now 1 (retestFace c clock now 0 x))) ∧
   (∀ x : ScreenState, x.targetActive = false ↔
     x.force = false ∧ x.faces[0].activity = .idle ∧ x.faces[1].activity = .idle) ∧
   (∀ (now : Nat) (x : ScreenState),
     (x.power = .active → x.targetActive = false →
       retarget now x = { x with power := .dim, dimSince := some now, demoted := false }) ∧
     (x.power = .dim → x.targetActive = true →
       retarget now x = { x with power := .active, dimSince := none, demoted := false }) ∧
     (x.power = .dark → x.targetActive = true → retarget now x = { x with
       power := .active, wakes := (if 15 ≤ x.wakes.length then x.wakes.tail else x.wakes) ++ [now] }) ∧
     ((x.power = .active ↔ x.targetActive = true) ∨ (x.power = .dark ∧ x.targetActive = false) →
       retarget now x = x))) ∧
  (∀ (i : Nat) (f : FaceIx) (c : Screen) (x : ScreenState) (s : State), ScreenAt s i c x →
     let now := s.localTime
     let acts : Instr → ScreenState → Prop := fun k y => exec k s = .next (screenAfter i c x y s)
     let dark : ScreenState → ScreenState := fun z => { z with power := .dark, dimSince := none, demoted := false }
     let fresh : ScreenState := { x with wakes := x.wakes.filter fun w => !decide (w + 1000 * c.flapWindow < now) }
     let aged : ScreenState := { x with wakes := x.wakes.tail }
     (s.engine = .race → (f = 0 ∨ c.face1 ≠ none) → x.faces[f].activity ≠ .busy → faceBusy c s.raceClock x f = true →
       acts (.wakeLeadReached i f) (retarget now { x with faces := x.faces.set f { x.faces[f] with activity := .busy } })) ∧
     (s.engine = .prep ∨ s.engine = .race → (f = 0 ∨ c.face1 ≠ none) → x.faces[f].activity = .quiet →
       x.faces[f].idleSince + 1000 * c.dimAfter ≤ now →
       acts (.dimAfter i f) (retarget now { x with faces := x.faces.set f { x.faces[f] with activity := .idle } })) ∧
     (s.working = true → x.power = .dim → x.demoted = false →
       (∀ t0, x.dimSince = some t0 → t0 + 1000 * c.darkAfter ≤ now →
         (fresh.wakes.length < c.flapLimit → acts (.darkAfter i) (dark fresh)) ∧
         (c.flapLimit ≤ fresh.wakes.length → acts (.darkAfter i) { fresh with demoted := true }))) ∧
     (s.working = true → ∀ w rest, x.wakes = w :: rest → w + 1000 * c.flapWindow ≤ now →
       (x.demoted = true → aged.wakes.length < c.flapLimit → acts (.wakeAgeOut i) (dark aged)) ∧
       (x.demoted = false ∨ c.flapLimit ≤ aged.wakes.length → acts (.wakeAgeOut i) aged)))

/-! ## Panel lines (spec 10) -/

/-- The line serves the first address from the service position on whose panel has frames and no back-off that stands:
its head frame is sent, its indicator cleared, the service position moves past it, and a reply window of 20 ms opens;
the end of a back-off makes a new choice (R168, R169; log entry 22). That the window opens at the local time of sending
is log entry 11, and that a back-off end equal to local time has passed log entry 27: the model's choices.
The panel at an address of a line, and the end of a back-off: it is cleared and the line chooses again; a probe
that is due places a PING in the outbox of its OFFLINE panel (R164, R168, R172). -/
def Obligations.PanelsAreServedAndProbed : Prop :=
  (∀ (l : LineIx) (j i : Nat) (p : Panel) (f : OutFrame) (rest : List OutFrame) (s : State), s.working = true →
     s.panelLines[l].exchange = none → s.panelLines[l].pendingClock = none → j < 16 →
     let address : Nat → Nat := fun k => (s.panelLines[l].position + 15 + k) % 16 + 1
     let free : Panel → Prop := fun q => q.outbox ≠ [] ∧ ∀ t, q.backOff = some t → t ≤ s.localTime
     s.panelAt l (address j) = some i → s.panels[i]? = some p → p.outbox = f :: rest → free p →
     (∀ k i' q, k < j → s.panelAt l (address k) = some i' → s.panels[i']? = some q → ¬ free q) →
     exec (.panelExchange l) s = .next { s with
       panels     := s.panels.set i { p with outbox := { f with replaced := false } :: rest }
       panelLines := s.panelLines.set l { s.panelLines[l] with
         position := if p.address < 16 then p.address + 1 else 1
         exchange := some ⟨i, s.localTime, s.localTime + 20, false⟩
         sent     := frameBytes (BitVec.ofNat 8 p.address) f.type f.payload } }) ∧
  (∀ (i : Nat) (p : Panel) (s : State), s.panels[i]? = some p →
     (∀ (l : LineIx) (a : Nat), s.panelAt l a = some i →
       p.line = l ∧ p.address = a ∧ ∀ j q, j < i → s.panels[j]? = some q → ¬ (q.line = l ∧ q.address = a)) ∧
     (∀ t, s.working = true → p.backOff = some t → t ≤ s.localTime →
       ∃ u, exec (.backOffEnd i) s = .next u ∧
         exec (.panelExchange p.line) { s with panels := s.panels.set i { p with backOff := none } } = .next u) ∧
     (∀ t, s.working = true → p.online = false → p.probeDue = some t → t ≤ s.localTime →
       (∀ f ∈ p.outbox, f.key ≠ .ping) →
       exec (.probeDue i) s = .next { s with
         panels := s.panels.set i { p with outbox := p.outbox ++ [⟨.ping, 0x16, [], false⟩] } }))

/-- What an ACK does: to a frame, the counts go to 0 and the frame leaves unless it was replaced since it was sent; to a
PING, the panel is ONLINE again, with its PANEL_BACK record and a full refresh of its outbox (R151, R169, R172).
What a WAIT and a missing reply do: a WAIT backs the panel off for 50 ms, its twentieth counts as no reply; no reply
counts a miss, and the third takes the panel OFFLINE with its outbox lost, LINE_FAULT, its record and a probe due in
5,000 ms; to a PING either one removes it and sets the next probe (R170, R171, R172). While a frame begun in the window
is still being received, its close is no missing reply (R169). That the PANEL_OFFLINE record is handed over after the panel
and LINE_FAULT have changed, which shows where the writer's access is refused, is log entry 37. -/
def Obligations.PanelRepliesAreActedOn : Prop :=
  (∀ (l : LineIx) (e : Exchange) (p : Panel) (f : OutFrame) (rest : List OutFrame) (g : RxFrame) (s : State),
     s.panelLines[l].exchange = some e → s.panels[e.target]? = some p → p.outbox = f :: rest → Accepting s →
     ReplyTo e 0x91 p.address g s →
     let u : Panel → State := fun q => { s with
       panels     := s.panels.set e.target q
       panelLines := s.panelLines.set l { s.panelLines[l] with exchange := none } }
     (f.key ≠ .ping → exec (.ack l g) s = .next (u { p with
       misses := 0, waits := 0, outbox := if f.replaced then f :: rest else rest })) ∧
     (f.key = .ping → exec (.ack l g) s = .next (refresh e.target
       ((u { p with online := true, outbox := rest, misses := 0, waits := 0, probeDue := none }).record
         (lineRecord .panelBack p.line p.address e.target s.raceClock))))) ∧
  (∀ (l : LineIx) (e : Exchange) (p : Panel) (f : OutFrame) (rest : List OutFrame) (s : State),
     s.panelLines[l].exchange = some e → s.panels[e.target]? = some p → p.outbox = f :: rest →
     let u : Panel → State := fun q => { s with
       panels     := s.panels.set e.target q
       panelLines := s.panelLines.set l { s.panelLines[l] with exchange := none } }
     let missed : State :=
       if f.key = .ping then u { p with outbox := rest, probeDue := some (s.localTime + 5000) }
       else if p.misses < 2 then u { p with waits := 0, misses := p.misses + 1 }
       else State.record (lineRecord .panelOffline p.line p.address e.target s.raceClock)
         { u ⟨p.line, p.address, false, [], 0, 0, none, some (s.localTime + 5000)⟩ with cause := s.cause ||| 0x020#9 }
     (e.receiving = true → exec (.noReply l false) s = .next s) ∧
     (∀ failed, s.working = true → (failed = true ∨ (e.closes ≤ s.localTime ∧ e.receiving = false)) →
       exec (.noReply l failed) s = .next missed) ∧
     (∀ g, ReplyTo e 0x92 p.address g s →
       (f.key ≠ .ping → p.waits < 19 → exec (.wait l g) s = .next (u { p with
         waits := p.waits + 1, backOff := some (s.localTime + 50) })) ∧
       (f.key = .ping ∨ 19 ≤ p.waits → exec (.wait l g) s = .next missed)))

/-- A frame handed over is placed in its panel's outbox in place of the one of its key, marked when that one is in
flight, or at the tail; frames for an OFFLINE panel are discarded (R166). That the mark is clear on a frame that replaces
one not in flight, whatever that one's mark, is log entry 28. A full refresh hands over every row, then the brightness, then
the banner (R151). The frames and their texts: time, pace, bib, name and banner as the screens show them (R167). -/
def Obligations.FramesCoalesceByKey : Prop :=
  (∀ (i : Nat) (p : Panel) (f : OutFrame) (s : State), s.panels[i]? = some p →
    (p.online = false → placeFrame i f s = s) ∧
    (p.online = true → (∀ g ∈ p.outbox, g.key ≠ f.key) → placeFrame i f s = { s with
      panels := s.panels.set i { p with outbox := p.outbox ++ [{ f with replaced := false }] } }) ∧
    (∀ a g b, p.online = true → p.outbox = a ++ g :: b → g.key = f.key → (∀ h ∈ a, h.key ≠ f.key) →
      let flying := decide (a = []) && s.panelInFlight i p
      placeFrame i f s = { s with
        panels := s.panels.set i { p with outbox := a ++ { f with replaced := flying } :: b } })) ∧
  (∀ (i : Nat) (c : Screen) (x : ScreenState) (s : State), ScreenAt s i c x →
    refresh i s = placeFrames i ((List.range c.rows).map (fun k => match x.board[k]? with
      | none => clearRowFrame (k + 1)
      | some e => rowFrame (k + 1) e.snapshot) ++ [brightnessFrame x.power, bannerFrame x.banner]) s) ∧
  (let d : Nat → Byte := fun n => BitVec.ofNat 8 (48 + n)
   let spaces : Nat → List Byte := fun n => List.replicate n 0x20
   let shown : Byte → Byte := fun b => if 32 ≤ b.toNat ∧ b.toNat ≤ 126 then b else 0x20
   (∀ (row : Nat) (x : Snapshot),
     rowFrame row x = ⟨.row row, 0x11, BitVec.ofNat 8 row :: (bibText x.bib ++ x.name.map shown ++ timeText x.net
       ++ paceText x.pace ++ (match x.projection with | none => spaces 8 | some f => timeText f)
       ++ [if x.watch then 1 else 0]), false⟩ ∧
     clearRowFrame row = ⟨.row row, 0x12, [BitVec.ofNat 8 row], false⟩) ∧
   (brightnessFrame .active = ⟨.brightness, 0x13, [0], false⟩ ∧ brightnessFrame .dim = ⟨.brightness, 0x13, [1], false⟩ ∧
     brightnessFrame .dark = ⟨.brightness, 0x13, [2], false⟩) ∧
   (bannerFrame none = ⟨.banner, 0x14, spaces 32, false⟩ ∧
     ∀ b, bannerFrame (some b) = ⟨.banner, 0x14, b.text.map shown, false⟩) ∧
   (∀ ms : Nat,
     let t := (ms + 999) / 1000
     (43200 ≤ t → timeText ms = spaces 8) ∧
     (t < 43200 → timeText ms = [if t < 36000 then 0x20 else d (t / 36000), d (t / 3600 % 10), 0x3A, d (t % 3600 / 600),
       d (t / 60 % 10), 0x3A, d (t % 60 / 10), d (t % 10)]) ∧
     (t < 6000 → paceText ms = [if t < 600 then 0x20 else d (t / 600), d (t / 60 % 10), 0x3A, d (t % 60 / 10), d (t % 10)])) ∧
   (∀ bib : Nat, (bib = 0 → bibText bib = spaces 5) ∧
     (1 ≤ bib → bib ≤ 99999 → bibText bib = [(10000 : Nat), 1000, 100, 10, 1].map fun k =>
       if bib < k then 0x20 else d (bib / k % 10))))

/-! ## The journal (spec 11) -/

/-- A spilling writer first re-reads its next page, and opens it if it reads FREE. A record handed to an open writer with
nothing waiting then goes into the page at the fill position, first-record serial and record count after it, and the 128th
seals the page; while spilling or draining it joins the buffer; a GAP record goes before it where drops wait, into the page
or the buffer alike; a full buffer drops it, counted up to 65,535; the producer is told its serial (R177, R178, R180, R181).
A record handed over changes shared memory, CAUSE and the writer alone; it sets causes and clears none; of memory it
changes bytes of the journal pages only (R177, R178, R179). -/
def Obligations.RecordsArePlacedInTheJournal : Prop :=
  (∀ (r : JRecord) (s : State), Accepting s → s.engine ≠ .halted →
     let h := handRecord r s
     let u := afterReread s
     let j := u.journal
     let o : Nat → Nat → Nat := fun p k => s.addr (s.config.pages.getD p 0 + k)
     (∀ p, j.current = some p → j.spill = [] → j.dropped = 0 →
       let v : State := { u with
         mem := Memory.writeAll u.mem ([(.page, o p (32 + 32 * j.fill), r.bytes)]
           ++ (if j.fill = 0 then [(.page, o p 12, leBytes 4 j.serial.toNat)] else [])
           ++ [(.page, o p 8, leBytes 4 (j.fill + 1))])
         journal := { j with
           serial    := j.serial + 1
           fill      := j.fill + 1
           sealTimer := if j.sealTimer = none then some s.localTime else j.sealTimer } }
       h.serial = j.serial ∧ h.place = .page j.pageSeq ∧ h.state = if j.fill + 1 = 128 then sealPage v else v) ∧
     (∀ p, j.current = some p → j.spill = [] → j.dropped ≠ 0 →
       let g := putRecord (gapRecord j.dropped s.raceClock) j.serial false { u with
         cause   := s.cause ||| 0x010#9
         journal := { j with serial := j.serial + 1, dropped := 0 } }
       h.serial = j.serial + 1 ∧
       (g.journal.current ≠ none → h.place = .page g.journal.pageSeq ∧ h.state = putRecord r (j.serial + 1) false
         { g with journal := { g.journal with serial := j.serial + 2 } }) ∧
       (g.journal.current = none → h.place = .spill ∧ h.state = { g with
         journal := { g.journal with serial := j.serial + 2, spill := [⟨r, j.serial + 1, false, false⟩] } })) ∧
     (j.current = none ∨ j.spill ≠ [] →
       (j.places < 256 → j.dropped = 0 →
         h.serial = j.serial ∧ h.place = .spill ∧ h.state = { u with
           journal := { j with serial := j.serial + 1, spill := j.spill ++ [⟨r, j.serial, false, false⟩] } }) ∧
       (j.places < 256 → j.dropped ≠ 0 →
         h.serial = j.serial + 1 ∧ h.place = .spill ∧ h.state = { u with
           cause   := s.cause ||| 0x010#9
           journal := { j with
             serial  := j.serial + 2
             dropped := 0
             spill   := j.spill ++ [⟨gapRecord j.dropped s.raceClock, j.serial, true, false⟩,
                          ⟨r, j.serial + 1, false, false⟩] } }) ∧
       (256 ≤ j.places → h.serial = j.serial ∧ h.place = .dropped ∧
         (j.dropped ≠ 65535 → h.state = { u with
           journal := { j with serial := j.serial + 1, dropped := j.dropped + 1 } }) ∧
         (j.dropped = 65535 → h.state = u)))) ∧
  (∀ (r : JRecord) (s : State), Accepting s → s.engine ≠ .halted →
     let t := s.record r
     t = { s with mem := t.mem, cause := t.cause, journal := t.journal } ∧ s.cause &&& t.cause = s.cause ∧
     (Memory.wf s.mem = true → Memory.wf t.mem = true) ∧
     (s.journal.inRange s.config.pages.length → s.journal.fill < 128 →
       t.journal.inRange s.config.pages.length ∧ t.journal.fill < 128 ∧
       ∀ a, OutsidePages s a → Memory.read t.mem a = Memory.read s.mem a))

/-- A seal writes record count, page sequence and SEALED in this order, sets PAGE_SEALED and moves on to the ring's next
page, which is opened if it reads FREE; else the writer is spilling and sets JOURNAL_SPILL (R178, R179). That OPEN is written
before the record count, which the memory after both does not show, is log entry 33. -/
def Obligations.SealsMoveToTheNextPage : Prop :=
  ∀ (p : Nat) (s : State), Accepting s → s.engine ≠ .halted → s.journal.current = some p → s.journal.fill ≠ 0 →
    let L := s.config
    let o : Nat → Nat → Nat := fun q k => s.addr (L.pages.getD q 0 + k)
    let next := if p + 1 < L.pages.length then p + 1 else 0
    let u : State := { s with
      mem := Memory.writeAll s.mem [(.page, o p 8, leBytes 4 s.journal.fill),
        (.page, o p 4, leBytes 4 s.journal.pageSeq.toNat), (.page, o p 0, [2, 0, 0, 0])]
      cause := s.cause ||| 0x002#9
      journal := { s.journal with
        current := none, fill := 0, nextPage := next, pageSeq := s.journal.pageSeq + 1, sealTimer := none } }
    (u.field (L.pages.getD next 0) 4 = 0 → sealPage s = { u with
      mem     := Memory.writeAll u.mem [(.page, o next 0, [1, 0, 0, 0]), (.page, o next 8, [0, 0, 0, 0])]
      journal := { u.journal with current := some next } }) ∧
    (u.field (L.pages.getD next 0) 4 ≠ 0 → sealPage s = { u with cause := u.cause ||| 0x008#9 })

/-- The requests that seal: the seal timer; a flush, which re-reads the next page while spilling and opens it if it reads
FREE, seals a page that holds a record and reports its sequence, else the absent value; a watch seal, which sets WATCH and seals the record's page or
marks it in the buffer. DRAIN writes the head of the buffer into the page, sealing after a marked record (R178, R181, R182). -/
def Obligations.SealRequestsAndDraining : Prop :=
  ∀ s : State, Accepting s →
    (∀ p t0, s.working = true → s.journal.current = some p → s.journal.fill ≠ 0 → s.journal.sealTimer = some t0 →
      t0 + s.config.sealInterval ≤ s.localTime → exec .sealTimer s = .next (sealPage s)) ∧
    (∀ w rest, s.working = true → s.journal.flushes = w :: rest →
      let u := afterReread s
      let holds := u.journal.current ≠ none ∧ u.journal.fill ≠ 0
      let ends : Word → State → State := fun detail v => { v with
        journal := { v.journal with flushes := rest }
        sweep   := { s.sweep with ends := s.sweep.ends ++ [⟨w.slot, .ok, detail, 0, w.notify⟩] } }
      (holds → exec .flushJournal s = .next (ends u.journal.pageSeq (sealPage u))) ∧
      (¬ holds → exec .flushJournal s = .next (ends (toWord 4294967295) u))) ∧
    (∀ x rest, s.working = true → s.journal.current ≠ none → s.journal.spill = x :: rest →
      exec .drain s = .next (putRecord x.record x.serial x.watch { s with
        journal := { s.journal with spill := rest } })) ∧
    (∀ n seq, s.engine ≠ .halted →
      let v : State := { s with cause := s.cause ||| 0x004#9 }
      (s.journal.current ≠ none → s.journal.pageSeq = seq → watchSeal n (.page seq) s = sealPage v) ∧
      (s.journal.current = none ∨ s.journal.pageSeq ≠ seq → watchSeal n (.page seq) s = v) ∧
      watchSeal n .dropped s = v ∧
      watchSeal n .spill s = { v with journal := { s.journal with
        spill := s.journal.spill.map fun x =>
          if x.serial = n ∧ x.gap = false then { x with watch := true } else x } }) ∧
    (∀ p r n, s.engine ≠ .halted → s.journal.current = some p →
      let o : Nat → Nat := fun k => s.addr (s.config.pages.getD p 0 + k)
      let v : State := { s with
        mem := Memory.writeAll s.mem ([(.page, o (32 + 32 * s.journal.fill), r.bytes)]
          ++ (if s.journal.fill = 0 then [(.page, o 12, leBytes 4 (BitVec.toNat n))] else [])
          ++ [(.page, o 8, leBytes 4 (s.journal.fill + 1))])
        journal := { s.journal with
          fill      := s.journal.fill + 1
          sealTimer := if s.journal.sealTimer = none then some s.localTime else s.journal.sealTimer } }
      putRecord r n true s = sealPage v ∧
      putRecord r n false s = if s.journal.fill + 1 = 128 then sealPage v else v)

/-! ## What every step keeps, and what every command leaves -/

/-- What an event that is not due does: nothing. The rules give no such case, since they name the moment of each event;
that the command then leaves the state as it is is the model's choice (log entry 2). -/
def Obligations.EventsNotDueChangeNothing : Prop :=
  ∀ s : State,
    (secondMarkReady s = false → exec .secondMark s = .next s) ∧
    (ceilingReady s = false → exec .clockCeiling s = .next s) ∧
    (s.engine ≠ .loading → exec .loadPassed s = .next s ∧ exec .loadFailed s = .next s) ∧
    (∀ l, (roundReady l s = false → exec (.round l) s = .next s) ∧ (callReady l s = false → exec (.call l) s = .next s) ∧
      (markReady l s = false → exec (.mark l) s = .next s) ∧
      (∀ b, silenceReady l b s = false → exec (.silence l b) s = .next s) ∧
      (panelReady l s = false → exec (.panelExchange l) s = .next s) ∧
      (∀ b, noReplyReady l b s = false → exec (.noReply l b) s = .next s) ∧
      (clockReady l s = false → exec (.clock l) s = .next s)) ∧
    (drawReady s = false → exec .draw s = .next s) ∧
    (∀ p chip, expiryReady p chip s = false → exec (.clusterExpiry p chip) s = .next s) ∧
    (offerReady s = false → exec .closedCrossingOffer s = .next s) ∧
    (slotVisitReady s = false → exec .slotVisit s = .next s) ∧ (sweepTimerReady s = false → exec .sweepTimer s = .next s) ∧
    (s.sweep.ends = [] ∨ itemEndReady s = false → exec .itemEnd s = .next s) ∧
    (s.intake = [] → exec .localCrossing s = .next s ∧ exec .remoteCrossing s = .next s ∧ exec .startWave s = .next s ∧
      exec .runnerStatus s = .next s ∧ exec .setWatch s = .next s ∧ exec .setName s = .next s ∧
      exec .correctSplit s = .next s) ∧
    (s.handovers = [] → exec .screenRequest s = .next s ∧ exec .purge s = .next s ∧ exec .removal s = .next s) ∧
    (s.bannerItems = [] → exec .banner s = .next s) ∧ (statusDue s = false → exec .statusTimer s = .next s) ∧
    (∀ i, (entryDueReady i s = false → exec (.entryDue i) s = .next s) ∧
      (∀ n f, leaveReady i n f s = false → exec (.leaveTime i n f) s = .next s) ∧
      (∀ n f, missedReady i n f s = false → exec (.missed i n f) s = .next s) ∧
      (bannerExpiryReady i s = false → exec (.bannerExpiry i) s = .next s) ∧
      (∀ f, wakeLeadReady i f s = false → exec (.wakeLeadReached i f) s = .next s) ∧
      (∀ f, dimAfterReady i f s = false → exec (.dimAfter i f) s = .next s) ∧
      (darkAfterReady i s = false → exec (.darkAfter i) s = .next s) ∧
      (wakeAgeReady i s = false → exec (.wakeAgeOut i) s = .next s) ∧
      (backOffReady i s = false → exec (.backOffEnd i) s = .next s) ∧
      (probeReady i s = false → exec (.probeDue i) s = .next s)) ∧
    (sealDue s = false → exec .sealTimer s = .next s) ∧ (drainReady s = false → exec .drain s = .next s) ∧
    (s.journal.flushes = [] → exec .flushJournal s = .next s)

/-- Every byte of shared memory outside what a command stores, and outside the journal pages, reads as before (R53). Of a
command that cuts steps short this is said of the steps that were under way, each in the state it began in (log entry 8). -/
def Obligations.CommandsLeaveOtherBytes : Prop :=
  ∀ (c : Instr) (s t : State) (a : Nat), exec c s = .next t →
    (∀ u ∈ cutStates (cutsOf c s) s, JournalSound u ∧ OutsidePages u a) →
    (∀ w ∈ storedBy c s, inBytes w.2.1 w.2.2.length a = false) → OutsidePages t a →
    Memory.read t.mem a = Memory.read s.mem a

/-- Every step keeps the canonical form of shared memory: equal memories are equal data. The form (addresses strictly
rising, no cell that holds the unwritten byte of log entry 4) is the model's own representation of the memory of R53. -/
def Obligations.MemoryStaysCanonical : Prop :=
  ∀ s t : State, Memory.wf s.mem = true → step s = .next t → Memory.wf t.mem = true

/-- Every step keeps the bounds the rules give: BASE a multiple of 64, the race clock, landing buffers, silent counts and
round numbers, clusters and their read counts, closed-crossing memory, intake queue, spill buffer and dropped count, each
screen's schedule, floor, tallies and wake history, each panel's outbox, one frame for each key in it, miss and wait counts,
each panel line's service position, and the rows of the loaded screens (R3, R7, R13, R55, R56, R76, R79, R84, R90, R134,
R138, R139, R160, R164, R166, R176, R180). -/
def Obligations.BoundsAreKept : Prop :=
  ∀ s t : State, Bounded s → step s = .next t → Bounded t

/-- Every step keeps the writer's page indices inside the loaded journal and a place free in its page (R176, R178). -/
def Obligations.JournalStaysSound : Prop :=
  ∀ s t : State, JournalSound s → step s = .next t → JournalSound t

/-- Every step keeps every schedule in schedule order, with one entry for each runner and face and no more rows shown
than the screen has (R134). -/
def Obligations.SchedulesStaySound : Prop :=
  ∀ s t : State, SchedulesSound s → step s = .next t → SchedulesSound t

/-- The engine goes along the path of R1 and never back but by a reset; the race clock counts in RACE alone, never goes
back there, and moves otherwise only at START and to 0 at a reset; local time goes back only at power-on (R1, R13, R15).
A command word that carries RESET's own code counts as a reset: the model's choice (log entry 2). -/
def Obligations.EngineAndClocksFollowTheirPath : Prop :=
  ∀ s t : State, step s = .next t →
    EnginePath (s.pending.head?.any isReset) s.engine t.engine ∧
    (t.raceClock = s.raceClock ∨ (s.engine = .race ∧ t.engine = .race ∧ t.raceClock = s.raceClock + 1) ∨
      (s.engine = .prep ∧ t.engine = .race) ∨ (t.engine = .idle ∧ t.raceClock = 0)) ∧
    (s.pending.head? ≠ some .powerOnReset → s.localTime ≤ t.localTime) ∧
    (s.engine = .halted → (s.pending.head?.any isReset) = false → t.engine = .halted ∧ t.raceClock = s.raceClock)
end

