-- ==== Sys2Proof/Laws/Memory.lean ====
section
/-! SUPPORT. Shared memory: what a read gives after a write, the canonical form, and that memories that
read alike are equal data. -/

namespace Sys2Proof.Machine

open Config

/-! ## The canonical form -/

theorem Memory.wf_cons_cons (k k' : Nat) (b b' : Byte) (m : List Host.Cell) :
    Memory.wf ((k, b) :: (k', b') :: m) = true ↔
      k < k' ∧ b ≠ unwrittenByte ∧ Memory.wf ((k', b') :: m) = true := by
  simp [Memory.wf, Bool.and_eq_true, and_assoc]

theorem Memory.wf_single (k : Nat) (b : Byte) : Memory.wf [(k, b)] = true ↔ b ≠ unwrittenByte := by
  simp [Memory.wf]

theorem Memory.wf_nil : Memory.wf [] = true := rfl

theorem Memory.wf_tail {x : Host.Cell} {m : List Host.Cell} (h : Memory.wf (x :: m) = true) : Memory.wf m = true := by
  cases m with
  | nil => rfl
  | cons y m => exact ((Memory.wf_cons_cons _ _ _ _ _).1 h).2.2

theorem Memory.wf_head {k : Nat} {b : Byte} {m : List Host.Cell} (h : Memory.wf ((k, b) :: m) = true) :
    b ≠ unwrittenByte := by
  cases m with
  | nil => exact (Memory.wf_single _ _).1 h
  | cons y m => exact ((Memory.wf_cons_cons _ _ _ _ _).1 h).2.1

/-- A canonical list reads as unwritten below its first address. -/
theorem Memory.read_below {k : Nat} {b : Byte} {m : List Host.Cell} (h : Memory.wf ((k, b) :: m) = true)
    {a : Nat} (ha : a < k) : Memory.read ((k, b) :: m) a = unwrittenByte := by
  induction m generalizing k b with
  | nil => simp [Memory.read, Nat.ne_of_gt ha]
  | cons y m ih =>
    obtain ⟨k', b'⟩ := y
    have h' := (Memory.wf_cons_cons _ _ _ _ _).1 h
    have := ih h'.2.2 (Nat.lt_trans ha h'.1)
    simp only [Memory.read, Nat.ne_of_gt ha, if_false] at this ⊢
    exact this

/-- Above the first cell of a canonical list, that cell's address reads as unwritten in the rest. -/
theorem Memory.read_tail_head {k : Nat} {b : Byte} {m : List Host.Cell} (h : Memory.wf ((k, b) :: m) = true) :
    Memory.read m k = unwrittenByte := by
  cases m with
  | nil => rfl
  | cons y m =>
    obtain ⟨k', b'⟩ := y
    have h' := (Memory.wf_cons_cons _ _ _ _ _).1 h
    exact Memory.read_below h'.2.2 h'.1

theorem Memory.wf_cons {k : Nat} {b : Byte} {m : List Host.Cell} (hb : b ≠ unwrittenByte)
    (hm : Memory.wf m = true) (hk : ∀ k' b' r, m = (k', b') :: r → k < k') : Memory.wf ((k, b) :: m) = true := by
  cases m with
  | nil => exact (Memory.wf_single _ _).2 hb
  | cons y m => exact (Memory.wf_cons_cons _ _ _ _ _).2 ⟨hk _ _ _ rfl, hb, hm⟩

/-- The first address of a list after a write is the written address or the first of the list. -/
theorem Memory.write_head {m : List Host.Cell} {a : Nat} {v : Byte} {k' : Nat} {b' : Byte} {r : List Host.Cell}
    (h : Memory.write m a v = (k', b') :: r) (hm : Memory.wf m = true) (lo : Nat) (hlo : lo < a)
    (hhead : ∀ k b r, m = (k, b) :: r → lo < k) : lo < k' := by
  cases m with
  | nil =>
    simp only [Memory.write] at h
    split at h
    · simp at h
    · simp only [List.cons.injEq, Prod.mk.injEq] at h
      omega
  | cons y m =>
    obtain ⟨k, b⟩ := y
    have hk : lo < k := hhead k b m rfl
    simp only [Memory.write] at h
    split at h
    · split at h <;> simp only [List.cons.injEq, Prod.mk.injEq] at h <;> omega
    · split at h
      · split at h
        · subst h
          exact Nat.lt_trans hk ((Memory.wf_cons_cons _ _ _ _ _).1 hm).1
        · simp only [List.cons.injEq, Prod.mk.injEq] at h
          omega
      · simp only [List.cons.injEq, Prod.mk.injEq] at h
        omega

/-- A write keeps the canonical form. -/
theorem Memory.write_wf {m : List Host.Cell} (hm : Memory.wf m = true) (a : Nat) (v : Byte) :
    Memory.wf (Memory.write m a v) = true := by
  induction m with
  | nil =>
    simp only [Memory.write]
    split
    · rfl
    · exact (Memory.wf_single _ _).2 ‹_›
  | cons y m ih =>
    obtain ⟨k, b⟩ := y
    simp only [Memory.write]
    split
    · split
      · exact hm
      · exact (Memory.wf_cons_cons _ _ _ _ _).2 ⟨‹_›, ‹_›, hm⟩
    · split
      · rename_i hlt hak
        split
        · exact Memory.wf_tail hm
        · subst hak
          refine Memory.wf_cons ‹_› (Memory.wf_tail hm) fun k' b' r hr => ?_
          subst hr
          exact ((Memory.wf_cons_cons _ _ _ _ _).1 hm).1
      · rename_i hlt hne
        refine Memory.wf_cons (Memory.wf_head hm) (ih (Memory.wf_tail hm)) fun k' b' r hr => ?_
        refine Memory.write_head hr (Memory.wf_tail hm) k (by omega) fun k2 b2 r2 h2 => ?_
        subst h2
        exact ((Memory.wf_cons_cons _ _ _ _ _).1 hm).1

/-! ## Reads after writes -/

/-- A write leaves every other byte. -/
theorem Memory.read_write_other (m : List Host.Cell) {a x : Nat} (v : Byte) (h : x ≠ a) :
    Memory.read (Memory.write m a v) x = Memory.read m x := by
  induction m with
  | nil =>
    simp only [Memory.write]
    split
    · rfl
    · simp [Memory.read, Ne.symm h]
  | cons y m ih =>
    obtain ⟨k, b⟩ := y
    simp only [Memory.write]
    split
    · split
      · rfl
      · simp [Memory.read, Ne.symm h]
    · split
      · rename_i hak
        subst hak
        split <;> simp [Memory.read, Ne.symm h]
      · simp only [Memory.read, ih]

/-- The written byte reads back. -/
theorem Memory.read_write_same {m : List Host.Cell} (hm : Memory.wf m = true) (a : Nat) (v : Byte) :
    Memory.read (Memory.write m a v) a = v := by
  induction m with
  | nil =>
    simp only [Memory.write]
    split
    · simp [Memory.read, *]
    · simp [Memory.read]
  | cons y m ih =>
    obtain ⟨k, b⟩ := y
    simp only [Memory.write]
    split
    · split
      · rename_i hlt hv
        rw [Memory.read_below hm hlt, hv]
      · simp [Memory.read]
    · split
      · rename_i hak
        subst hak
        split
        · rename_i hv
          rw [Memory.read_tail_head hm, hv]
        · simp [Memory.read]
      · rename_i hne
        simp only [Memory.read, ih (Memory.wf_tail hm)]
        rw [if_neg (by omega)]

/-- Canonical memories that read alike are equal. -/
theorem Memory.ext_of_read {m m' : List Host.Cell} (hm : Memory.wf m = true) (hm' : Memory.wf m' = true)
    (h : ∀ a, Memory.read m a = Memory.read m' a) : m = m' := by
  induction m generalizing m' with
  | nil =>
    cases m' with
    | nil => rfl
    | cons y r =>
      obtain ⟨k, b⟩ := y
      have := h k
      simp only [Memory.read, if_true] at this
      exact absurd this.symm (Memory.wf_head hm')
  | cons y m ih =>
    obtain ⟨k, b⟩ := y
    cases m' with
    | nil =>
      have := h k
      simp only [Memory.read, if_true] at this
      exact absurd this (Memory.wf_head hm)
    | cons y' m' =>
      obtain ⟨k', b'⟩ := y'
      have hkk : k = k' := by
        rcases Nat.lt_trichotomy k k' with hlt | heq | hgt
        · have h1 := h k
          rw [Memory.read_below hm' hlt] at h1
          simp only [Memory.read, if_true] at h1
          exact absurd h1 (Memory.wf_head hm)
        · exact heq
        · have h1 := h k'
          rw [Memory.read_below hm hgt] at h1
          simp only [Memory.read, if_true] at h1
          exact absurd h1.symm (Memory.wf_head hm')
      subst hkk
      have hbb : b = b' := by simpa [Memory.read] using h k
      subst hbb
      have : m = m' := by
        refine ih (Memory.wf_tail hm) (Memory.wf_tail hm') fun a => ?_
        by_cases hak : k = a
        · subst hak
          rw [Memory.read_tail_head hm, Memory.read_tail_head hm']
        · simpa [Memory.read, hak] using h a
      rw [this]

/-! ## Fields of several bytes -/

/-- Writing the bytes of a field keeps the canonical form. -/
theorem Memory.writeBytes_wf {m : List Host.Cell} (hm : Memory.wf m = true) (a : Nat) (bs : List Byte) :
    Memory.wf (Memory.writeBytes m a bs) = true := by
  induction bs generalizing m a with
  | nil => exact hm
  | cons b bs ih => exact ih (Memory.write_wf hm a b) _

theorem inBytes_zero (a x : Nat) : inBytes a 0 x = false := by simp [inBytes]

theorem inBytes_self {a n : Nat} (hn : 0 < n) : inBytes a n a = true := by
  simp [inBytes, addressSpace, hn]

/-- The bytes after the first lie among the field's bytes. -/
theorem inBytes_next {a n x : Nat} (ha : a < addressSpace) (h : inBytes (nextAddr a) n x = true) (hn : n < addressSpace) :
    inBytes a (n + 1) x = true := by
  unfold inBytes nextAddr at *
  unfold addressSpace at *
  rw [decide_eq_true_eq] at *
  rcases Nat.lt_or_ge (a + 1) 18446744073709551616 with h1 | h1
  · rw [Nat.mod_eq_of_lt h1] at h
    omega
  · have h2 : a + 1 = 18446744073709551616 := by omega
    rw [h2, Nat.mod_self] at h
    omega

/-- Writing the bytes of a field leaves every byte outside it. -/
theorem Memory.read_writeBytes_other (m : List Host.Cell) {a x : Nat} (bs : List Byte) (ha : a < addressSpace)
    (hl : bs.length ≤ addressSpace) (h : inBytes a bs.length x = false) :
    Memory.read (Memory.writeBytes m a bs) x = Memory.read m x := by
  induction bs generalizing m a with
  | nil => rfl
  | cons b bs ih =>
    simp only [List.length_cons] at h hl
    have hxa : x ≠ a := by
      rintro rfl
      rw [inBytes_self (by omega)] at h
      simp at h
    have hnext : inBytes (nextAddr a) bs.length x = false := by
      by_contra hc
      rw [inBytes_next ha (by simpa using hc) (by omega)] at h
      simp at h
    have hna : nextAddr a < addressSpace := by simp only [nextAddr, addressSpace]; omega
    rw [Memory.writeBytes, ih (Memory.write m a b) hna (by omega) hnext, Memory.read_write_other m b hxa]

theorem inBytes_first_not_next {a n : Nat} (ha : a < addressSpace) (hn : n < addressSpace) :
    inBytes (nextAddr a) n a = false := by
  unfold inBytes nextAddr
  unfold addressSpace at *
  rw [decide_eq_false_iff_not]
  rcases Nat.lt_or_ge (a + 1) 18446744073709551616 with h1 | h1
  · rw [Nat.mod_eq_of_lt h1]
    omega
  · have h2 : a + 1 = 18446744073709551616 := by omega
    rw [h2, Nat.mod_self]
    omega

/-- A field just written reads back whole. -/
theorem Memory.readBytes_writeBytes {m : List Host.Cell} (hm : Memory.wf m = true) {a : Nat} (bs : List Byte)
    (ha : a < addressSpace) (hl : bs.length ≤ addressSpace) :
    Memory.readBytes (Memory.writeBytes m a bs) a bs.length = bs := by
  induction bs generalizing m a with
  | nil => rfl
  | cons b bs ih =>
    simp only [List.length_cons] at hl
    have hna : nextAddr a < addressSpace := by simp only [nextAddr, addressSpace]; omega
    simp only [List.length_cons, Memory.readBytes, Memory.writeBytes]
    rw [ih (Memory.write_wf hm a b) hna (by omega),
      Memory.read_writeBytes_other _ bs hna (by omega) (inBytes_first_not_next ha (by omega)),
      Memory.read_write_same hm]

theorem leBytes_length (n v : Nat) : (leBytes n v).length = n := by
  induction n generalizing v with
  | zero => rfl
  | succ n ih => simp [leBytes, ih]

/-- A field's value read back from its bytes (R185). -/
theorem leValue_leBytes (n v : Nat) (h : v < 256 ^ n) : leValue (leBytes n v) = v := by
  induction n generalizing v with
  | zero => simp only [pow_zero, Nat.lt_one_iff] at h; simp [leBytes, leValue, h]
  | succ n ih =>
    have : v / 256 < 256 ^ n := by
      rw [Nat.div_lt_iff_lt_mul (by norm_num)]
      simpa [pow_succ] using h
    simp only [leBytes, leValue, ih _ this, BitVec.toNat_ofNat]
    omega

theorem State.addr_lt (s : State) (o : Nat) : s.addr o < addressSpace := Nat.mod_lt _ (by norm_num)

/-- Shared memory at reset lists nothing and is canonical. -/
theorem reset_mem_wf : Memory.wf State.reset.mem = true := rfl

end Sys2Proof.Machine
end

