-- ==== Sys2Proof/Laws/State.lean ====
section
/-! SUPPORT. What each named update of the state leaves in each field, true by definition. -/

namespace Sys2Proof.Machine

variable (s : State)

/-! ## `State.withMem` -/

@[simp] theorem State.withMem_engine (m : List Host.Cell) : (s.withMem m).engine = s.engine := rfl
@[simp] theorem State.withMem_loadError (m : List Host.Cell) : (s.withMem m).loadError = s.loadError := rfl
@[simp] theorem State.withMem_commandRefused (m : List Host.Cell) : (s.withMem m).commandRefused = s.commandRefused := rfl
@[simp] theorem State.withMem_faultRegion (m : List Host.Cell) : (s.withMem m).faultRegion = s.faultRegion := rfl
@[simp] theorem State.withMem_base (m : List Host.Cell) : (s.withMem m).base = s.base := rfl
@[simp] theorem State.withMem_cause (m : List Host.Cell) : (s.withMem m).cause = s.cause := rfl
@[simp] theorem State.withMem_causeEnable (m : List Host.Cell) : (s.withMem m).causeEnable = s.causeEnable := rfl
@[simp] theorem State.withMem_watchLevel (m : List Host.Cell) : (s.withMem m).watchLevel = s.watchLevel := rfl
@[simp] theorem State.withMem_raceClock (m : List Host.Cell) : (s.withMem m).raceClock = s.raceClock := rfl
@[simp] theorem State.withMem_localTime (m : List Host.Cell) : (s.withMem m).localTime = s.localTime := rfl
@[simp] theorem State.withMem_lastMark (m : List Host.Cell) : (s.withMem m).lastMark = s.lastMark := rfl
@[simp] theorem State.withMem_ceilingGiven (m : List Host.Cell) : (s.withMem m).ceilingGiven = s.ceilingGiven := rfl
@[simp] theorem State.withMem_resume (m : List Host.Cell) : (s.withMem m).resume = s.resume := rfl
@[simp] theorem State.withMem_loaded (m : List Host.Cell) : (s.withMem m).loaded = s.loaded := rfl
@[simp] theorem State.withMem_mem (m : List Host.Cell) : (s.withMem m).mem = m := rfl
@[simp] theorem State.withMem_refused (m : List Host.Cell) : (s.withMem m).refused = s.refused := rfl
@[simp] theorem State.withMem_port (m : List Host.Cell) : (s.withMem m).port = s.port := rfl
@[simp] theorem State.withMem_matLines (m : List Host.Cell) : (s.withMem m).matLines = s.matLines := rfl
@[simp] theorem State.withMem_decoders (m : List Host.Cell) : (s.withMem m).decoders = s.decoders := rfl
@[simp] theorem State.withMem_assembler (m : List Host.Cell) : (s.withMem m).assembler = s.assembler := rfl
@[simp] theorem State.withMem_intake (m : List Host.Cell) : (s.withMem m).intake = s.intake := rfl
@[simp] theorem State.withMem_itemClock (m : List Host.Cell) : (s.withMem m).itemClock = s.itemClock := rfl
@[simp] theorem State.withMem_sweep (m : List Host.Cell) : (s.withMem m).sweep = s.sweep := rfl
@[simp] theorem State.withMem_screens (m : List Host.Cell) : (s.withMem m).screens = s.screens := rfl
@[simp] theorem State.withMem_handovers (m : List Host.Cell) : (s.withMem m).handovers = s.handovers := rfl
@[simp] theorem State.withMem_bannerItems (m : List Host.Cell) : (s.withMem m).bannerItems = s.bannerItems := rfl
@[simp] theorem State.withMem_statusTimer (m : List Host.Cell) : (s.withMem m).statusTimer = s.statusTimer := rfl
@[simp] theorem State.withMem_panels (m : List Host.Cell) : (s.withMem m).panels = s.panels := rfl
@[simp] theorem State.withMem_panelLines (m : List Host.Cell) : (s.withMem m).panelLines = s.panelLines := rfl
@[simp] theorem State.withMem_journal (m : List Host.Cell) : (s.withMem m).journal = s.journal := rfl
@[simp] theorem State.withMem_picks (m : List Host.Cell) : (s.withMem m).picks = s.picks := rfl
@[simp] theorem State.withMem_pending (m : List Host.Cell) : (s.withMem m).pending = s.pending := rfl

/-! ## `State.withMatLine` -/

@[simp] theorem State.withMatLine_engine (l : LineIx) (x : MatLine) : (s.withMatLine l x).engine = s.engine := rfl
@[simp] theorem State.withMatLine_loadError (l : LineIx) (x : MatLine) : (s.withMatLine l x).loadError = s.loadError := rfl
@[simp] theorem State.withMatLine_commandRefused (l : LineIx) (x : MatLine) : (s.withMatLine l x).commandRefused = s.commandRefused := rfl
@[simp] theorem State.withMatLine_faultRegion (l : LineIx) (x : MatLine) : (s.withMatLine l x).faultRegion = s.faultRegion := rfl
@[simp] theorem State.withMatLine_base (l : LineIx) (x : MatLine) : (s.withMatLine l x).base = s.base := rfl
@[simp] theorem State.withMatLine_cause (l : LineIx) (x : MatLine) : (s.withMatLine l x).cause = s.cause := rfl
@[simp] theorem State.withMatLine_causeEnable (l : LineIx) (x : MatLine) : (s.withMatLine l x).causeEnable = s.causeEnable := rfl
@[simp] theorem State.withMatLine_watchLevel (l : LineIx) (x : MatLine) : (s.withMatLine l x).watchLevel = s.watchLevel := rfl
@[simp] theorem State.withMatLine_raceClock (l : LineIx) (x : MatLine) : (s.withMatLine l x).raceClock = s.raceClock := rfl
@[simp] theorem State.withMatLine_localTime (l : LineIx) (x : MatLine) : (s.withMatLine l x).localTime = s.localTime := rfl
@[simp] theorem State.withMatLine_lastMark (l : LineIx) (x : MatLine) : (s.withMatLine l x).lastMark = s.lastMark := rfl
@[simp] theorem State.withMatLine_ceilingGiven (l : LineIx) (x : MatLine) : (s.withMatLine l x).ceilingGiven = s.ceilingGiven := rfl
@[simp] theorem State.withMatLine_resume (l : LineIx) (x : MatLine) : (s.withMatLine l x).resume = s.resume := rfl
@[simp] theorem State.withMatLine_loaded (l : LineIx) (x : MatLine) : (s.withMatLine l x).loaded = s.loaded := rfl
@[simp] theorem State.withMatLine_mem (l : LineIx) (x : MatLine) : (s.withMatLine l x).mem = s.mem := rfl
@[simp] theorem State.withMatLine_refused (l : LineIx) (x : MatLine) : (s.withMatLine l x).refused = s.refused := rfl
@[simp] theorem State.withMatLine_port (l : LineIx) (x : MatLine) : (s.withMatLine l x).port = s.port := rfl
@[simp] theorem State.withMatLine_matLines (l : LineIx) (x : MatLine) : (s.withMatLine l x).matLines = s.matLines.set l x := rfl
@[simp] theorem State.withMatLine_decoders (l : LineIx) (x : MatLine) : (s.withMatLine l x).decoders = s.decoders := rfl
@[simp] theorem State.withMatLine_assembler (l : LineIx) (x : MatLine) : (s.withMatLine l x).assembler = s.assembler := rfl
@[simp] theorem State.withMatLine_intake (l : LineIx) (x : MatLine) : (s.withMatLine l x).intake = s.intake := rfl
@[simp] theorem State.withMatLine_itemClock (l : LineIx) (x : MatLine) : (s.withMatLine l x).itemClock = s.itemClock := rfl
@[simp] theorem State.withMatLine_sweep (l : LineIx) (x : MatLine) : (s.withMatLine l x).sweep = s.sweep := rfl
@[simp] theorem State.withMatLine_screens (l : LineIx) (x : MatLine) : (s.withMatLine l x).screens = s.screens := rfl
@[simp] theorem State.withMatLine_handovers (l : LineIx) (x : MatLine) : (s.withMatLine l x).handovers = s.handovers := rfl
@[simp] theorem State.withMatLine_bannerItems (l : LineIx) (x : MatLine) : (s.withMatLine l x).bannerItems = s.bannerItems := rfl
@[simp] theorem State.withMatLine_statusTimer (l : LineIx) (x : MatLine) : (s.withMatLine l x).statusTimer = s.statusTimer := rfl
@[simp] theorem State.withMatLine_panels (l : LineIx) (x : MatLine) : (s.withMatLine l x).panels = s.panels := rfl
@[simp] theorem State.withMatLine_panelLines (l : LineIx) (x : MatLine) : (s.withMatLine l x).panelLines = s.panelLines := rfl
@[simp] theorem State.withMatLine_journal (l : LineIx) (x : MatLine) : (s.withMatLine l x).journal = s.journal := rfl
@[simp] theorem State.withMatLine_picks (l : LineIx) (x : MatLine) : (s.withMatLine l x).picks = s.picks := rfl
@[simp] theorem State.withMatLine_pending (l : LineIx) (x : MatLine) : (s.withMatLine l x).pending = s.pending := rfl

/-! ## `State.withDecoder` -/

@[simp] theorem State.withDecoder_engine (m : Fin 8) (d : Decoder) : (s.withDecoder m d).engine = s.engine := rfl
@[simp] theorem State.withDecoder_loadError (m : Fin 8) (d : Decoder) : (s.withDecoder m d).loadError = s.loadError := rfl
@[simp] theorem State.withDecoder_commandRefused (m : Fin 8) (d : Decoder) : (s.withDecoder m d).commandRefused = s.commandRefused := rfl
@[simp] theorem State.withDecoder_faultRegion (m : Fin 8) (d : Decoder) : (s.withDecoder m d).faultRegion = s.faultRegion := rfl
@[simp] theorem State.withDecoder_base (m : Fin 8) (d : Decoder) : (s.withDecoder m d).base = s.base := rfl
@[simp] theorem State.withDecoder_cause (m : Fin 8) (d : Decoder) : (s.withDecoder m d).cause = s.cause := rfl
@[simp] theorem State.withDecoder_causeEnable (m : Fin 8) (d : Decoder) : (s.withDecoder m d).causeEnable = s.causeEnable := rfl
@[simp] theorem State.withDecoder_watchLevel (m : Fin 8) (d : Decoder) : (s.withDecoder m d).watchLevel = s.watchLevel := rfl
@[simp] theorem State.withDecoder_raceClock (m : Fin 8) (d : Decoder) : (s.withDecoder m d).raceClock = s.raceClock := rfl
@[simp] theorem State.withDecoder_localTime (m : Fin 8) (d : Decoder) : (s.withDecoder m d).localTime = s.localTime := rfl
@[simp] theorem State.withDecoder_lastMark (m : Fin 8) (d : Decoder) : (s.withDecoder m d).lastMark = s.lastMark := rfl
@[simp] theorem State.withDecoder_ceilingGiven (m : Fin 8) (d : Decoder) : (s.withDecoder m d).ceilingGiven = s.ceilingGiven := rfl
@[simp] theorem State.withDecoder_resume (m : Fin 8) (d : Decoder) : (s.withDecoder m d).resume = s.resume := rfl
@[simp] theorem State.withDecoder_loaded (m : Fin 8) (d : Decoder) : (s.withDecoder m d).loaded = s.loaded := rfl
@[simp] theorem State.withDecoder_mem (m : Fin 8) (d : Decoder) : (s.withDecoder m d).mem = s.mem := rfl
@[simp] theorem State.withDecoder_refused (m : Fin 8) (d : Decoder) : (s.withDecoder m d).refused = s.refused := rfl
@[simp] theorem State.withDecoder_port (m : Fin 8) (d : Decoder) : (s.withDecoder m d).port = s.port := rfl
@[simp] theorem State.withDecoder_matLines (m : Fin 8) (d : Decoder) : (s.withDecoder m d).matLines = s.matLines := rfl
@[simp] theorem State.withDecoder_decoders (m : Fin 8) (d : Decoder) : (s.withDecoder m d).decoders = s.decoders.set m d := rfl
@[simp] theorem State.withDecoder_assembler (m : Fin 8) (d : Decoder) : (s.withDecoder m d).assembler = s.assembler := rfl
@[simp] theorem State.withDecoder_intake (m : Fin 8) (d : Decoder) : (s.withDecoder m d).intake = s.intake := rfl
@[simp] theorem State.withDecoder_itemClock (m : Fin 8) (d : Decoder) : (s.withDecoder m d).itemClock = s.itemClock := rfl
@[simp] theorem State.withDecoder_sweep (m : Fin 8) (d : Decoder) : (s.withDecoder m d).sweep = s.sweep := rfl
@[simp] theorem State.withDecoder_screens (m : Fin 8) (d : Decoder) : (s.withDecoder m d).screens = s.screens := rfl
@[simp] theorem State.withDecoder_handovers (m : Fin 8) (d : Decoder) : (s.withDecoder m d).handovers = s.handovers := rfl
@[simp] theorem State.withDecoder_bannerItems (m : Fin 8) (d : Decoder) : (s.withDecoder m d).bannerItems = s.bannerItems := rfl
@[simp] theorem State.withDecoder_statusTimer (m : Fin 8) (d : Decoder) : (s.withDecoder m d).statusTimer = s.statusTimer := rfl
@[simp] theorem State.withDecoder_panels (m : Fin 8) (d : Decoder) : (s.withDecoder m d).panels = s.panels := rfl
@[simp] theorem State.withDecoder_panelLines (m : Fin 8) (d : Decoder) : (s.withDecoder m d).panelLines = s.panelLines := rfl
@[simp] theorem State.withDecoder_journal (m : Fin 8) (d : Decoder) : (s.withDecoder m d).journal = s.journal := rfl
@[simp] theorem State.withDecoder_picks (m : Fin 8) (d : Decoder) : (s.withDecoder m d).picks = s.picks := rfl
@[simp] theorem State.withDecoder_pending (m : Fin 8) (d : Decoder) : (s.withDecoder m d).pending = s.pending := rfl

/-! ## `State.withPanelLine` -/

@[simp] theorem State.withPanelLine_engine (l : LineIx) (x : PanelLine) : (s.withPanelLine l x).engine = s.engine := rfl
@[simp] theorem State.withPanelLine_loadError (l : LineIx) (x : PanelLine) : (s.withPanelLine l x).loadError = s.loadError := rfl
@[simp] theorem State.withPanelLine_commandRefused (l : LineIx) (x : PanelLine) : (s.withPanelLine l x).commandRefused = s.commandRefused := rfl
@[simp] theorem State.withPanelLine_faultRegion (l : LineIx) (x : PanelLine) : (s.withPanelLine l x).faultRegion = s.faultRegion := rfl
@[simp] theorem State.withPanelLine_base (l : LineIx) (x : PanelLine) : (s.withPanelLine l x).base = s.base := rfl
@[simp] theorem State.withPanelLine_cause (l : LineIx) (x : PanelLine) : (s.withPanelLine l x).cause = s.cause := rfl
@[simp] theorem State.withPanelLine_causeEnable (l : LineIx) (x : PanelLine) : (s.withPanelLine l x).causeEnable = s.causeEnable := rfl
@[simp] theorem State.withPanelLine_watchLevel (l : LineIx) (x : PanelLine) : (s.withPanelLine l x).watchLevel = s.watchLevel := rfl
@[simp] theorem State.withPanelLine_raceClock (l : LineIx) (x : PanelLine) : (s.withPanelLine l x).raceClock = s.raceClock := rfl
@[simp] theorem State.withPanelLine_localTime (l : LineIx) (x : PanelLine) : (s.withPanelLine l x).localTime = s.localTime := rfl
@[simp] theorem State.withPanelLine_lastMark (l : LineIx) (x : PanelLine) : (s.withPanelLine l x).lastMark = s.lastMark := rfl
@[simp] theorem State.withPanelLine_ceilingGiven (l : LineIx) (x : PanelLine) : (s.withPanelLine l x).ceilingGiven = s.ceilingGiven := rfl
@[simp] theorem State.withPanelLine_resume (l : LineIx) (x : PanelLine) : (s.withPanelLine l x).resume = s.resume := rfl
@[simp] theorem State.withPanelLine_loaded (l : LineIx) (x : PanelLine) : (s.withPanelLine l x).loaded = s.loaded := rfl
@[simp] theorem State.withPanelLine_mem (l : LineIx) (x : PanelLine) : (s.withPanelLine l x).mem = s.mem := rfl
@[simp] theorem State.withPanelLine_refused (l : LineIx) (x : PanelLine) : (s.withPanelLine l x).refused = s.refused := rfl
@[simp] theorem State.withPanelLine_port (l : LineIx) (x : PanelLine) : (s.withPanelLine l x).port = s.port := rfl
@[simp] theorem State.withPanelLine_matLines (l : LineIx) (x : PanelLine) : (s.withPanelLine l x).matLines = s.matLines := rfl
@[simp] theorem State.withPanelLine_decoders (l : LineIx) (x : PanelLine) : (s.withPanelLine l x).decoders = s.decoders := rfl
@[simp] theorem State.withPanelLine_assembler (l : LineIx) (x : PanelLine) : (s.withPanelLine l x).assembler = s.assembler := rfl
@[simp] theorem State.withPanelLine_intake (l : LineIx) (x : PanelLine) : (s.withPanelLine l x).intake = s.intake := rfl
@[simp] theorem State.withPanelLine_itemClock (l : LineIx) (x : PanelLine) : (s.withPanelLine l x).itemClock = s.itemClock := rfl
@[simp] theorem State.withPanelLine_sweep (l : LineIx) (x : PanelLine) : (s.withPanelLine l x).sweep = s.sweep := rfl
@[simp] theorem State.withPanelLine_screens (l : LineIx) (x : PanelLine) : (s.withPanelLine l x).screens = s.screens := rfl
@[simp] theorem State.withPanelLine_handovers (l : LineIx) (x : PanelLine) : (s.withPanelLine l x).handovers = s.handovers := rfl
@[simp] theorem State.withPanelLine_bannerItems (l : LineIx) (x : PanelLine) : (s.withPanelLine l x).bannerItems = s.bannerItems := rfl
@[simp] theorem State.withPanelLine_statusTimer (l : LineIx) (x : PanelLine) : (s.withPanelLine l x).statusTimer = s.statusTimer := rfl
@[simp] theorem State.withPanelLine_panels (l : LineIx) (x : PanelLine) : (s.withPanelLine l x).panels = s.panels := rfl
@[simp] theorem State.withPanelLine_panelLines (l : LineIx) (x : PanelLine) : (s.withPanelLine l x).panelLines = s.panelLines.set l x := rfl
@[simp] theorem State.withPanelLine_journal (l : LineIx) (x : PanelLine) : (s.withPanelLine l x).journal = s.journal := rfl
@[simp] theorem State.withPanelLine_picks (l : LineIx) (x : PanelLine) : (s.withPanelLine l x).picks = s.picks := rfl
@[simp] theorem State.withPanelLine_pending (l : LineIx) (x : PanelLine) : (s.withPanelLine l x).pending = s.pending := rfl

/-! ## `State.withAssembler` -/

@[simp] theorem State.withAssembler_engine (a : Assembler) : (s.withAssembler a).engine = s.engine := rfl
@[simp] theorem State.withAssembler_loadError (a : Assembler) : (s.withAssembler a).loadError = s.loadError := rfl
@[simp] theorem State.withAssembler_commandRefused (a : Assembler) : (s.withAssembler a).commandRefused = s.commandRefused := rfl
@[simp] theorem State.withAssembler_faultRegion (a : Assembler) : (s.withAssembler a).faultRegion = s.faultRegion := rfl
@[simp] theorem State.withAssembler_base (a : Assembler) : (s.withAssembler a).base = s.base := rfl
@[simp] theorem State.withAssembler_cause (a : Assembler) : (s.withAssembler a).cause = s.cause := rfl
@[simp] theorem State.withAssembler_causeEnable (a : Assembler) : (s.withAssembler a).causeEnable = s.causeEnable := rfl
@[simp] theorem State.withAssembler_watchLevel (a : Assembler) : (s.withAssembler a).watchLevel = s.watchLevel := rfl
@[simp] theorem State.withAssembler_raceClock (a : Assembler) : (s.withAssembler a).raceClock = s.raceClock := rfl
@[simp] theorem State.withAssembler_localTime (a : Assembler) : (s.withAssembler a).localTime = s.localTime := rfl
@[simp] theorem State.withAssembler_lastMark (a : Assembler) : (s.withAssembler a).lastMark = s.lastMark := rfl
@[simp] theorem State.withAssembler_ceilingGiven (a : Assembler) : (s.withAssembler a).ceilingGiven = s.ceilingGiven := rfl
@[simp] theorem State.withAssembler_resume (a : Assembler) : (s.withAssembler a).resume = s.resume := rfl
@[simp] theorem State.withAssembler_loaded (a : Assembler) : (s.withAssembler a).loaded = s.loaded := rfl
@[simp] theorem State.withAssembler_mem (a : Assembler) : (s.withAssembler a).mem = s.mem := rfl
@[simp] theorem State.withAssembler_refused (a : Assembler) : (s.withAssembler a).refused = s.refused := rfl
@[simp] theorem State.withAssembler_port (a : Assembler) : (s.withAssembler a).port = s.port := rfl
@[simp] theorem State.withAssembler_matLines (a : Assembler) : (s.withAssembler a).matLines = s.matLines := rfl
@[simp] theorem State.withAssembler_decoders (a : Assembler) : (s.withAssembler a).decoders = s.decoders := rfl
@[simp] theorem State.withAssembler_assembler (a : Assembler) : (s.withAssembler a).assembler = a := rfl
@[simp] theorem State.withAssembler_intake (a : Assembler) : (s.withAssembler a).intake = s.intake := rfl
@[simp] theorem State.withAssembler_itemClock (a : Assembler) : (s.withAssembler a).itemClock = s.itemClock := rfl
@[simp] theorem State.withAssembler_sweep (a : Assembler) : (s.withAssembler a).sweep = s.sweep := rfl
@[simp] theorem State.withAssembler_screens (a : Assembler) : (s.withAssembler a).screens = s.screens := rfl
@[simp] theorem State.withAssembler_handovers (a : Assembler) : (s.withAssembler a).handovers = s.handovers := rfl
@[simp] theorem State.withAssembler_bannerItems (a : Assembler) : (s.withAssembler a).bannerItems = s.bannerItems := rfl
@[simp] theorem State.withAssembler_statusTimer (a : Assembler) : (s.withAssembler a).statusTimer = s.statusTimer := rfl
@[simp] theorem State.withAssembler_panels (a : Assembler) : (s.withAssembler a).panels = s.panels := rfl
@[simp] theorem State.withAssembler_panelLines (a : Assembler) : (s.withAssembler a).panelLines = s.panelLines := rfl
@[simp] theorem State.withAssembler_journal (a : Assembler) : (s.withAssembler a).journal = s.journal := rfl
@[simp] theorem State.withAssembler_picks (a : Assembler) : (s.withAssembler a).picks = s.picks := rfl
@[simp] theorem State.withAssembler_pending (a : Assembler) : (s.withAssembler a).pending = s.pending := rfl

/-! ## `State.withSweep` -/

@[simp] theorem State.withSweep_engine (w : Sweep) : (s.withSweep w).engine = s.engine := rfl
@[simp] theorem State.withSweep_loadError (w : Sweep) : (s.withSweep w).loadError = s.loadError := rfl
@[simp] theorem State.withSweep_commandRefused (w : Sweep) : (s.withSweep w).commandRefused = s.commandRefused := rfl
@[simp] theorem State.withSweep_faultRegion (w : Sweep) : (s.withSweep w).faultRegion = s.faultRegion := rfl
@[simp] theorem State.withSweep_base (w : Sweep) : (s.withSweep w).base = s.base := rfl
@[simp] theorem State.withSweep_cause (w : Sweep) : (s.withSweep w).cause = s.cause := rfl
@[simp] theorem State.withSweep_causeEnable (w : Sweep) : (s.withSweep w).causeEnable = s.causeEnable := rfl
@[simp] theorem State.withSweep_watchLevel (w : Sweep) : (s.withSweep w).watchLevel = s.watchLevel := rfl
@[simp] theorem State.withSweep_raceClock (w : Sweep) : (s.withSweep w).raceClock = s.raceClock := rfl
@[simp] theorem State.withSweep_localTime (w : Sweep) : (s.withSweep w).localTime = s.localTime := rfl
@[simp] theorem State.withSweep_lastMark (w : Sweep) : (s.withSweep w).lastMark = s.lastMark := rfl
@[simp] theorem State.withSweep_ceilingGiven (w : Sweep) : (s.withSweep w).ceilingGiven = s.ceilingGiven := rfl
@[simp] theorem State.withSweep_resume (w : Sweep) : (s.withSweep w).resume = s.resume := rfl
@[simp] theorem State.withSweep_loaded (w : Sweep) : (s.withSweep w).loaded = s.loaded := rfl
@[simp] theorem State.withSweep_mem (w : Sweep) : (s.withSweep w).mem = s.mem := rfl
@[simp] theorem State.withSweep_refused (w : Sweep) : (s.withSweep w).refused = s.refused := rfl
@[simp] theorem State.withSweep_port (w : Sweep) : (s.withSweep w).port = s.port := rfl
@[simp] theorem State.withSweep_matLines (w : Sweep) : (s.withSweep w).matLines = s.matLines := rfl
@[simp] theorem State.withSweep_decoders (w : Sweep) : (s.withSweep w).decoders = s.decoders := rfl
@[simp] theorem State.withSweep_assembler (w : Sweep) : (s.withSweep w).assembler = s.assembler := rfl
@[simp] theorem State.withSweep_intake (w : Sweep) : (s.withSweep w).intake = s.intake := rfl
@[simp] theorem State.withSweep_itemClock (w : Sweep) : (s.withSweep w).itemClock = s.itemClock := rfl
@[simp] theorem State.withSweep_sweep (w : Sweep) : (s.withSweep w).sweep = w := rfl
@[simp] theorem State.withSweep_screens (w : Sweep) : (s.withSweep w).screens = s.screens := rfl
@[simp] theorem State.withSweep_handovers (w : Sweep) : (s.withSweep w).handovers = s.handovers := rfl
@[simp] theorem State.withSweep_bannerItems (w : Sweep) : (s.withSweep w).bannerItems = s.bannerItems := rfl
@[simp] theorem State.withSweep_statusTimer (w : Sweep) : (s.withSweep w).statusTimer = s.statusTimer := rfl
@[simp] theorem State.withSweep_panels (w : Sweep) : (s.withSweep w).panels = s.panels := rfl
@[simp] theorem State.withSweep_panelLines (w : Sweep) : (s.withSweep w).panelLines = s.panelLines := rfl
@[simp] theorem State.withSweep_journal (w : Sweep) : (s.withSweep w).journal = s.journal := rfl
@[simp] theorem State.withSweep_picks (w : Sweep) : (s.withSweep w).picks = s.picks := rfl
@[simp] theorem State.withSweep_pending (w : Sweep) : (s.withSweep w).pending = s.pending := rfl

/-! ## `State.withJournal` -/

@[simp] theorem State.withJournal_engine (j : Journal) : (s.withJournal j).engine = s.engine := rfl
@[simp] theorem State.withJournal_loadError (j : Journal) : (s.withJournal j).loadError = s.loadError := rfl
@[simp] theorem State.withJournal_commandRefused (j : Journal) : (s.withJournal j).commandRefused = s.commandRefused := rfl
@[simp] theorem State.withJournal_faultRegion (j : Journal) : (s.withJournal j).faultRegion = s.faultRegion := rfl
@[simp] theorem State.withJournal_base (j : Journal) : (s.withJournal j).base = s.base := rfl
@[simp] theorem State.withJournal_cause (j : Journal) : (s.withJournal j).cause = s.cause := rfl
@[simp] theorem State.withJournal_causeEnable (j : Journal) : (s.withJournal j).causeEnable = s.causeEnable := rfl
@[simp] theorem State.withJournal_watchLevel (j : Journal) : (s.withJournal j).watchLevel = s.watchLevel := rfl
@[simp] theorem State.withJournal_raceClock (j : Journal) : (s.withJournal j).raceClock = s.raceClock := rfl
@[simp] theorem State.withJournal_localTime (j : Journal) : (s.withJournal j).localTime = s.localTime := rfl
@[simp] theorem State.withJournal_lastMark (j : Journal) : (s.withJournal j).lastMark = s.lastMark := rfl
@[simp] theorem State.withJournal_ceilingGiven (j : Journal) : (s.withJournal j).ceilingGiven = s.ceilingGiven := rfl
@[simp] theorem State.withJournal_resume (j : Journal) : (s.withJournal j).resume = s.resume := rfl
@[simp] theorem State.withJournal_loaded (j : Journal) : (s.withJournal j).loaded = s.loaded := rfl
@[simp] theorem State.withJournal_mem (j : Journal) : (s.withJournal j).mem = s.mem := rfl
@[simp] theorem State.withJournal_refused (j : Journal) : (s.withJournal j).refused = s.refused := rfl
@[simp] theorem State.withJournal_port (j : Journal) : (s.withJournal j).port = s.port := rfl
@[simp] theorem State.withJournal_matLines (j : Journal) : (s.withJournal j).matLines = s.matLines := rfl
@[simp] theorem State.withJournal_decoders (j : Journal) : (s.withJournal j).decoders = s.decoders := rfl
@[simp] theorem State.withJournal_assembler (j : Journal) : (s.withJournal j).assembler = s.assembler := rfl
@[simp] theorem State.withJournal_intake (j : Journal) : (s.withJournal j).intake = s.intake := rfl
@[simp] theorem State.withJournal_itemClock (j : Journal) : (s.withJournal j).itemClock = s.itemClock := rfl
@[simp] theorem State.withJournal_sweep (j : Journal) : (s.withJournal j).sweep = s.sweep := rfl
@[simp] theorem State.withJournal_screens (j : Journal) : (s.withJournal j).screens = s.screens := rfl
@[simp] theorem State.withJournal_handovers (j : Journal) : (s.withJournal j).handovers = s.handovers := rfl
@[simp] theorem State.withJournal_bannerItems (j : Journal) : (s.withJournal j).bannerItems = s.bannerItems := rfl
@[simp] theorem State.withJournal_statusTimer (j : Journal) : (s.withJournal j).statusTimer = s.statusTimer := rfl
@[simp] theorem State.withJournal_panels (j : Journal) : (s.withJournal j).panels = s.panels := rfl
@[simp] theorem State.withJournal_panelLines (j : Journal) : (s.withJournal j).panelLines = s.panelLines := rfl
@[simp] theorem State.withJournal_journal (j : Journal) : (s.withJournal j).journal = j := rfl
@[simp] theorem State.withJournal_picks (j : Journal) : (s.withJournal j).picks = s.picks := rfl
@[simp] theorem State.withJournal_pending (j : Journal) : (s.withJournal j).pending = s.pending := rfl

/-! ## `State.withPanel` -/

@[simp] theorem State.withPanel_engine (i : Nat) (p : Panel) : (s.withPanel i p).engine = s.engine := rfl
@[simp] theorem State.withPanel_loadError (i : Nat) (p : Panel) : (s.withPanel i p).loadError = s.loadError := rfl
@[simp] theorem State.withPanel_commandRefused (i : Nat) (p : Panel) : (s.withPanel i p).commandRefused = s.commandRefused := rfl
@[simp] theorem State.withPanel_faultRegion (i : Nat) (p : Panel) : (s.withPanel i p).faultRegion = s.faultRegion := rfl
@[simp] theorem State.withPanel_base (i : Nat) (p : Panel) : (s.withPanel i p).base = s.base := rfl
@[simp] theorem State.withPanel_cause (i : Nat) (p : Panel) : (s.withPanel i p).cause = s.cause := rfl
@[simp] theorem State.withPanel_causeEnable (i : Nat) (p : Panel) : (s.withPanel i p).causeEnable = s.causeEnable := rfl
@[simp] theorem State.withPanel_watchLevel (i : Nat) (p : Panel) : (s.withPanel i p).watchLevel = s.watchLevel := rfl
@[simp] theorem State.withPanel_raceClock (i : Nat) (p : Panel) : (s.withPanel i p).raceClock = s.raceClock := rfl
@[simp] theorem State.withPanel_localTime (i : Nat) (p : Panel) : (s.withPanel i p).localTime = s.localTime := rfl
@[simp] theorem State.withPanel_lastMark (i : Nat) (p : Panel) : (s.withPanel i p).lastMark = s.lastMark := rfl
@[simp] theorem State.withPanel_ceilingGiven (i : Nat) (p : Panel) : (s.withPanel i p).ceilingGiven = s.ceilingGiven := rfl
@[simp] theorem State.withPanel_resume (i : Nat) (p : Panel) : (s.withPanel i p).resume = s.resume := rfl
@[simp] theorem State.withPanel_loaded (i : Nat) (p : Panel) : (s.withPanel i p).loaded = s.loaded := rfl
@[simp] theorem State.withPanel_mem (i : Nat) (p : Panel) : (s.withPanel i p).mem = s.mem := rfl
@[simp] theorem State.withPanel_refused (i : Nat) (p : Panel) : (s.withPanel i p).refused = s.refused := rfl
@[simp] theorem State.withPanel_port (i : Nat) (p : Panel) : (s.withPanel i p).port = s.port := rfl
@[simp] theorem State.withPanel_matLines (i : Nat) (p : Panel) : (s.withPanel i p).matLines = s.matLines := rfl
@[simp] theorem State.withPanel_decoders (i : Nat) (p : Panel) : (s.withPanel i p).decoders = s.decoders := rfl
@[simp] theorem State.withPanel_assembler (i : Nat) (p : Panel) : (s.withPanel i p).assembler = s.assembler := rfl
@[simp] theorem State.withPanel_intake (i : Nat) (p : Panel) : (s.withPanel i p).intake = s.intake := rfl
@[simp] theorem State.withPanel_itemClock (i : Nat) (p : Panel) : (s.withPanel i p).itemClock = s.itemClock := rfl
@[simp] theorem State.withPanel_sweep (i : Nat) (p : Panel) : (s.withPanel i p).sweep = s.sweep := rfl
@[simp] theorem State.withPanel_screens (i : Nat) (p : Panel) : (s.withPanel i p).screens = s.screens := rfl
@[simp] theorem State.withPanel_handovers (i : Nat) (p : Panel) : (s.withPanel i p).handovers = s.handovers := rfl
@[simp] theorem State.withPanel_bannerItems (i : Nat) (p : Panel) : (s.withPanel i p).bannerItems = s.bannerItems := rfl
@[simp] theorem State.withPanel_statusTimer (i : Nat) (p : Panel) : (s.withPanel i p).statusTimer = s.statusTimer := rfl
@[simp] theorem State.withPanel_panels (i : Nat) (p : Panel) : (s.withPanel i p).panels = s.panels.set i p := rfl
@[simp] theorem State.withPanel_panelLines (i : Nat) (p : Panel) : (s.withPanel i p).panelLines = s.panelLines := rfl
@[simp] theorem State.withPanel_journal (i : Nat) (p : Panel) : (s.withPanel i p).journal = s.journal := rfl
@[simp] theorem State.withPanel_picks (i : Nat) (p : Panel) : (s.withPanel i p).picks = s.picks := rfl
@[simp] theorem State.withPanel_pending (i : Nat) (p : Panel) : (s.withPanel i p).pending = s.pending := rfl

/-! ## `State.withScreen` -/

@[simp] theorem State.withScreen_engine (i : Nat) (x : ScreenState) : (s.withScreen i x).engine = s.engine := rfl
@[simp] theorem State.withScreen_loadError (i : Nat) (x : ScreenState) : (s.withScreen i x).loadError = s.loadError := rfl
@[simp] theorem State.withScreen_commandRefused (i : Nat) (x : ScreenState) : (s.withScreen i x).commandRefused = s.commandRefused := rfl
@[simp] theorem State.withScreen_faultRegion (i : Nat) (x : ScreenState) : (s.withScreen i x).faultRegion = s.faultRegion := rfl
@[simp] theorem State.withScreen_base (i : Nat) (x : ScreenState) : (s.withScreen i x).base = s.base := rfl
@[simp] theorem State.withScreen_cause (i : Nat) (x : ScreenState) : (s.withScreen i x).cause = s.cause := rfl
@[simp] theorem State.withScreen_causeEnable (i : Nat) (x : ScreenState) : (s.withScreen i x).causeEnable = s.causeEnable := rfl
@[simp] theorem State.withScreen_watchLevel (i : Nat) (x : ScreenState) : (s.withScreen i x).watchLevel = s.watchLevel := rfl
@[simp] theorem State.withScreen_raceClock (i : Nat) (x : ScreenState) : (s.withScreen i x).raceClock = s.raceClock := rfl
@[simp] theorem State.withScreen_localTime (i : Nat) (x : ScreenState) : (s.withScreen i x).localTime = s.localTime := rfl
@[simp] theorem State.withScreen_lastMark (i : Nat) (x : ScreenState) : (s.withScreen i x).lastMark = s.lastMark := rfl
@[simp] theorem State.withScreen_ceilingGiven (i : Nat) (x : ScreenState) : (s.withScreen i x).ceilingGiven = s.ceilingGiven := rfl
@[simp] theorem State.withScreen_resume (i : Nat) (x : ScreenState) : (s.withScreen i x).resume = s.resume := rfl
@[simp] theorem State.withScreen_loaded (i : Nat) (x : ScreenState) : (s.withScreen i x).loaded = s.loaded := rfl
@[simp] theorem State.withScreen_mem (i : Nat) (x : ScreenState) : (s.withScreen i x).mem = s.mem := rfl
@[simp] theorem State.withScreen_refused (i : Nat) (x : ScreenState) : (s.withScreen i x).refused = s.refused := rfl
@[simp] theorem State.withScreen_port (i : Nat) (x : ScreenState) : (s.withScreen i x).port = s.port := rfl
@[simp] theorem State.withScreen_matLines (i : Nat) (x : ScreenState) : (s.withScreen i x).matLines = s.matLines := rfl
@[simp] theorem State.withScreen_decoders (i : Nat) (x : ScreenState) : (s.withScreen i x).decoders = s.decoders := rfl
@[simp] theorem State.withScreen_assembler (i : Nat) (x : ScreenState) : (s.withScreen i x).assembler = s.assembler := rfl
@[simp] theorem State.withScreen_intake (i : Nat) (x : ScreenState) : (s.withScreen i x).intake = s.intake := rfl
@[simp] theorem State.withScreen_itemClock (i : Nat) (x : ScreenState) : (s.withScreen i x).itemClock = s.itemClock := rfl
@[simp] theorem State.withScreen_sweep (i : Nat) (x : ScreenState) : (s.withScreen i x).sweep = s.sweep := rfl
@[simp] theorem State.withScreen_screens (i : Nat) (x : ScreenState) : (s.withScreen i x).screens = s.screens.set i x := rfl
@[simp] theorem State.withScreen_handovers (i : Nat) (x : ScreenState) : (s.withScreen i x).handovers = s.handovers := rfl
@[simp] theorem State.withScreen_bannerItems (i : Nat) (x : ScreenState) : (s.withScreen i x).bannerItems = s.bannerItems := rfl
@[simp] theorem State.withScreen_statusTimer (i : Nat) (x : ScreenState) : (s.withScreen i x).statusTimer = s.statusTimer := rfl
@[simp] theorem State.withScreen_panels (i : Nat) (x : ScreenState) : (s.withScreen i x).panels = s.panels := rfl
@[simp] theorem State.withScreen_panelLines (i : Nat) (x : ScreenState) : (s.withScreen i x).panelLines = s.panelLines := rfl
@[simp] theorem State.withScreen_journal (i : Nat) (x : ScreenState) : (s.withScreen i x).journal = s.journal := rfl
@[simp] theorem State.withScreen_picks (i : Nat) (x : ScreenState) : (s.withScreen i x).picks = s.picks := rfl
@[simp] theorem State.withScreen_pending (i : Nat) (x : ScreenState) : (s.withScreen i x).pending = s.pending := rfl

/-! ## `State.setCause` -/

@[simp] theorem State.setCause_engine (c : Cause) : (s.setCause c).engine = s.engine := rfl
@[simp] theorem State.setCause_loadError (c : Cause) : (s.setCause c).loadError = s.loadError := rfl
@[simp] theorem State.setCause_commandRefused (c : Cause) : (s.setCause c).commandRefused = s.commandRefused := rfl
@[simp] theorem State.setCause_faultRegion (c : Cause) : (s.setCause c).faultRegion = s.faultRegion := rfl
@[simp] theorem State.setCause_base (c : Cause) : (s.setCause c).base = s.base := rfl
@[simp] theorem State.setCause_cause (c : Cause) : (s.setCause c).cause = withCause s.cause c := rfl
@[simp] theorem State.setCause_causeEnable (c : Cause) : (s.setCause c).causeEnable = s.causeEnable := rfl
@[simp] theorem State.setCause_watchLevel (c : Cause) : (s.setCause c).watchLevel = s.watchLevel := rfl
@[simp] theorem State.setCause_raceClock (c : Cause) : (s.setCause c).raceClock = s.raceClock := rfl
@[simp] theorem State.setCause_localTime (c : Cause) : (s.setCause c).localTime = s.localTime := rfl
@[simp] theorem State.setCause_lastMark (c : Cause) : (s.setCause c).lastMark = s.lastMark := rfl
@[simp] theorem State.setCause_ceilingGiven (c : Cause) : (s.setCause c).ceilingGiven = s.ceilingGiven := rfl
@[simp] theorem State.setCause_resume (c : Cause) : (s.setCause c).resume = s.resume := rfl
@[simp] theorem State.setCause_loaded (c : Cause) : (s.setCause c).loaded = s.loaded := rfl
@[simp] theorem State.setCause_mem (c : Cause) : (s.setCause c).mem = s.mem := rfl
@[simp] theorem State.setCause_refused (c : Cause) : (s.setCause c).refused = s.refused := rfl
@[simp] theorem State.setCause_port (c : Cause) : (s.setCause c).port = s.port := rfl
@[simp] theorem State.setCause_matLines (c : Cause) : (s.setCause c).matLines = s.matLines := rfl
@[simp] theorem State.setCause_decoders (c : Cause) : (s.setCause c).decoders = s.decoders := rfl
@[simp] theorem State.setCause_assembler (c : Cause) : (s.setCause c).assembler = s.assembler := rfl
@[simp] theorem State.setCause_intake (c : Cause) : (s.setCause c).intake = s.intake := rfl
@[simp] theorem State.setCause_itemClock (c : Cause) : (s.setCause c).itemClock = s.itemClock := rfl
@[simp] theorem State.setCause_sweep (c : Cause) : (s.setCause c).sweep = s.sweep := rfl
@[simp] theorem State.setCause_screens (c : Cause) : (s.setCause c).screens = s.screens := rfl
@[simp] theorem State.setCause_handovers (c : Cause) : (s.setCause c).handovers = s.handovers := rfl
@[simp] theorem State.setCause_bannerItems (c : Cause) : (s.setCause c).bannerItems = s.bannerItems := rfl
@[simp] theorem State.setCause_statusTimer (c : Cause) : (s.setCause c).statusTimer = s.statusTimer := rfl
@[simp] theorem State.setCause_panels (c : Cause) : (s.setCause c).panels = s.panels := rfl
@[simp] theorem State.setCause_panelLines (c : Cause) : (s.setCause c).panelLines = s.panelLines := rfl
@[simp] theorem State.setCause_journal (c : Cause) : (s.setCause c).journal = s.journal := rfl
@[simp] theorem State.setCause_picks (c : Cause) : (s.setCause c).picks = s.picks := rfl
@[simp] theorem State.setCause_pending (c : Cause) : (s.setCause c).pending = s.pending := rfl

/-! ## `State.halt` -/

@[simp] theorem State.halt_engine (r : Region) : (s.halt r).engine = .halted := rfl
@[simp] theorem State.halt_loadError (r : Region) : (s.halt r).loadError = s.loadError := rfl
@[simp] theorem State.halt_commandRefused (r : Region) : (s.halt r).commandRefused = s.commandRefused := rfl
@[simp] theorem State.halt_faultRegion (r : Region) : (s.halt r).faultRegion = if s.engine = .halted then s.faultRegion else some r := rfl
@[simp] theorem State.halt_base (r : Region) : (s.halt r).base = s.base := rfl
@[simp] theorem State.halt_cause (r : Region) : (s.halt r).cause = withCause s.cause .memoryFault := rfl
@[simp] theorem State.halt_causeEnable (r : Region) : (s.halt r).causeEnable = s.causeEnable := rfl
@[simp] theorem State.halt_watchLevel (r : Region) : (s.halt r).watchLevel = s.watchLevel := rfl
@[simp] theorem State.halt_raceClock (r : Region) : (s.halt r).raceClock = s.raceClock := rfl
@[simp] theorem State.halt_localTime (r : Region) : (s.halt r).localTime = s.localTime := rfl
@[simp] theorem State.halt_lastMark (r : Region) : (s.halt r).lastMark = s.lastMark := rfl
@[simp] theorem State.halt_ceilingGiven (r : Region) : (s.halt r).ceilingGiven = s.ceilingGiven := rfl
@[simp] theorem State.halt_resume (r : Region) : (s.halt r).resume = s.resume := rfl
@[simp] theorem State.halt_loaded (r : Region) : (s.halt r).loaded = s.loaded := rfl
@[simp] theorem State.halt_mem (r : Region) : (s.halt r).mem = s.mem := rfl
@[simp] theorem State.halt_refused (r : Region) : (s.halt r).refused = s.refused := rfl
@[simp] theorem State.halt_port (r : Region) : (s.halt r).port = s.port := rfl
@[simp] theorem State.halt_matLines (r : Region) : (s.halt r).matLines = mapTwo MatLine.dropMark s.matLines := rfl
@[simp] theorem State.halt_decoders (r : Region) : (s.halt r).decoders = s.decoders := rfl
@[simp] theorem State.halt_assembler (r : Region) : (s.halt r).assembler = s.assembler := rfl
@[simp] theorem State.halt_intake (r : Region) : (s.halt r).intake = s.intake := rfl
@[simp] theorem State.halt_itemClock (r : Region) : (s.halt r).itemClock = s.itemClock := rfl
@[simp] theorem State.halt_sweep (r : Region) : (s.halt r).sweep = { s.sweep with timer := none } := rfl
@[simp] theorem State.halt_screens (r : Region) : (s.halt r).screens = s.screens := rfl
@[simp] theorem State.halt_handovers (r : Region) : (s.halt r).handovers = s.handovers := rfl
@[simp] theorem State.halt_bannerItems (r : Region) : (s.halt r).bannerItems = s.bannerItems := rfl
@[simp] theorem State.halt_statusTimer (r : Region) : (s.halt r).statusTimer = none := rfl
@[simp] theorem State.halt_panels (r : Region) : (s.halt r).panels = s.panels := rfl
@[simp] theorem State.halt_panelLines (r : Region) : (s.halt r).panelLines = mapTwo PanelLine.dropClock s.panelLines := rfl
@[simp] theorem State.halt_journal (r : Region) : (s.halt r).journal = s.journal := rfl
@[simp] theorem State.halt_picks (r : Region) : (s.halt r).picks = s.picks := rfl
@[simp] theorem State.halt_pending (r : Region) : (s.halt r).pending = s.pending := rfl

/-! ## `State.reportEnd` -/

@[simp] theorem State.reportEnd_engine (e : EndReport) : (s.reportEnd e).engine = s.engine := rfl
@[simp] theorem State.reportEnd_loadError (e : EndReport) : (s.reportEnd e).loadError = s.loadError := rfl
@[simp] theorem State.reportEnd_commandRefused (e : EndReport) : (s.reportEnd e).commandRefused = s.commandRefused := rfl
@[simp] theorem State.reportEnd_faultRegion (e : EndReport) : (s.reportEnd e).faultRegion = s.faultRegion := rfl
@[simp] theorem State.reportEnd_base (e : EndReport) : (s.reportEnd e).base = s.base := rfl
@[simp] theorem State.reportEnd_cause (e : EndReport) : (s.reportEnd e).cause = s.cause := rfl
@[simp] theorem State.reportEnd_causeEnable (e : EndReport) : (s.reportEnd e).causeEnable = s.causeEnable := rfl
@[simp] theorem State.reportEnd_watchLevel (e : EndReport) : (s.reportEnd e).watchLevel = s.watchLevel := rfl
@[simp] theorem State.reportEnd_raceClock (e : EndReport) : (s.reportEnd e).raceClock = s.raceClock := rfl
@[simp] theorem State.reportEnd_localTime (e : EndReport) : (s.reportEnd e).localTime = s.localTime := rfl
@[simp] theorem State.reportEnd_lastMark (e : EndReport) : (s.reportEnd e).lastMark = s.lastMark := rfl
@[simp] theorem State.reportEnd_ceilingGiven (e : EndReport) : (s.reportEnd e).ceilingGiven = s.ceilingGiven := rfl
@[simp] theorem State.reportEnd_resume (e : EndReport) : (s.reportEnd e).resume = s.resume := rfl
@[simp] theorem State.reportEnd_loaded (e : EndReport) : (s.reportEnd e).loaded = s.loaded := rfl
@[simp] theorem State.reportEnd_mem (e : EndReport) : (s.reportEnd e).mem = s.mem := rfl
@[simp] theorem State.reportEnd_refused (e : EndReport) : (s.reportEnd e).refused = s.refused := rfl
@[simp] theorem State.reportEnd_port (e : EndReport) : (s.reportEnd e).port = s.port := rfl
@[simp] theorem State.reportEnd_matLines (e : EndReport) : (s.reportEnd e).matLines = s.matLines := rfl
@[simp] theorem State.reportEnd_decoders (e : EndReport) : (s.reportEnd e).decoders = s.decoders := rfl
@[simp] theorem State.reportEnd_assembler (e : EndReport) : (s.reportEnd e).assembler = s.assembler := rfl
@[simp] theorem State.reportEnd_intake (e : EndReport) : (s.reportEnd e).intake = s.intake := rfl
@[simp] theorem State.reportEnd_itemClock (e : EndReport) : (s.reportEnd e).itemClock = s.itemClock := rfl
@[simp] theorem State.reportEnd_sweep (e : EndReport) : (s.reportEnd e).sweep = { s.sweep with ends := s.sweep.ends ++ [e] } := rfl
@[simp] theorem State.reportEnd_screens (e : EndReport) : (s.reportEnd e).screens = s.screens := rfl
@[simp] theorem State.reportEnd_handovers (e : EndReport) : (s.reportEnd e).handovers = s.handovers := rfl
@[simp] theorem State.reportEnd_bannerItems (e : EndReport) : (s.reportEnd e).bannerItems = s.bannerItems := rfl
@[simp] theorem State.reportEnd_statusTimer (e : EndReport) : (s.reportEnd e).statusTimer = s.statusTimer := rfl
@[simp] theorem State.reportEnd_panels (e : EndReport) : (s.reportEnd e).panels = s.panels := rfl
@[simp] theorem State.reportEnd_panelLines (e : EndReport) : (s.reportEnd e).panelLines = s.panelLines := rfl
@[simp] theorem State.reportEnd_journal (e : EndReport) : (s.reportEnd e).journal = s.journal := rfl
@[simp] theorem State.reportEnd_picks (e : EndReport) : (s.reportEnd e).picks = s.picks := rfl
@[simp] theorem State.reportEnd_pending (e : EndReport) : (s.reportEnd e).pending = s.pending := rfl

/-! ## `State.withPending` -/

@[simp] theorem State.withPending_engine (q : List Instr) : (s.withPending q).engine = s.engine := rfl
@[simp] theorem State.withPending_loadError (q : List Instr) : (s.withPending q).loadError = s.loadError := rfl
@[simp] theorem State.withPending_commandRefused (q : List Instr) : (s.withPending q).commandRefused = s.commandRefused := rfl
@[simp] theorem State.withPending_faultRegion (q : List Instr) : (s.withPending q).faultRegion = s.faultRegion := rfl
@[simp] theorem State.withPending_base (q : List Instr) : (s.withPending q).base = s.base := rfl
@[simp] theorem State.withPending_cause (q : List Instr) : (s.withPending q).cause = s.cause := rfl
@[simp] theorem State.withPending_causeEnable (q : List Instr) : (s.withPending q).causeEnable = s.causeEnable := rfl
@[simp] theorem State.withPending_watchLevel (q : List Instr) : (s.withPending q).watchLevel = s.watchLevel := rfl
@[simp] theorem State.withPending_raceClock (q : List Instr) : (s.withPending q).raceClock = s.raceClock := rfl
@[simp] theorem State.withPending_localTime (q : List Instr) : (s.withPending q).localTime = s.localTime := rfl
@[simp] theorem State.withPending_lastMark (q : List Instr) : (s.withPending q).lastMark = s.lastMark := rfl
@[simp] theorem State.withPending_ceilingGiven (q : List Instr) : (s.withPending q).ceilingGiven = s.ceilingGiven := rfl
@[simp] theorem State.withPending_resume (q : List Instr) : (s.withPending q).resume = s.resume := rfl
@[simp] theorem State.withPending_loaded (q : List Instr) : (s.withPending q).loaded = s.loaded := rfl
@[simp] theorem State.withPending_mem (q : List Instr) : (s.withPending q).mem = s.mem := rfl
@[simp] theorem State.withPending_refused (q : List Instr) : (s.withPending q).refused = s.refused := rfl
@[simp] theorem State.withPending_port (q : List Instr) : (s.withPending q).port = s.port := rfl
@[simp] theorem State.withPending_matLines (q : List Instr) : (s.withPending q).matLines = s.matLines := rfl
@[simp] theorem State.withPending_decoders (q : List Instr) : (s.withPending q).decoders = s.decoders := rfl
@[simp] theorem State.withPending_assembler (q : List Instr) : (s.withPending q).assembler = s.assembler := rfl
@[simp] theorem State.withPending_intake (q : List Instr) : (s.withPending q).intake = s.intake := rfl
@[simp] theorem State.withPending_itemClock (q : List Instr) : (s.withPending q).itemClock = s.itemClock := rfl
@[simp] theorem State.withPending_sweep (q : List Instr) : (s.withPending q).sweep = s.sweep := rfl
@[simp] theorem State.withPending_screens (q : List Instr) : (s.withPending q).screens = s.screens := rfl
@[simp] theorem State.withPending_handovers (q : List Instr) : (s.withPending q).handovers = s.handovers := rfl
@[simp] theorem State.withPending_bannerItems (q : List Instr) : (s.withPending q).bannerItems = s.bannerItems := rfl
@[simp] theorem State.withPending_statusTimer (q : List Instr) : (s.withPending q).statusTimer = s.statusTimer := rfl
@[simp] theorem State.withPending_panels (q : List Instr) : (s.withPending q).panels = s.panels := rfl
@[simp] theorem State.withPending_panelLines (q : List Instr) : (s.withPending q).panelLines = s.panelLines := rfl
@[simp] theorem State.withPending_journal (q : List Instr) : (s.withPending q).journal = s.journal := rfl
@[simp] theorem State.withPending_picks (q : List Instr) : (s.withPending q).picks = s.picks := rfl
@[simp] theorem State.withPending_pending (q : List Instr) : (s.withPending q).pending = q := rfl

/-! ## `State.countPick` -/

@[simp] theorem State.countPick_engine : s.countPick.engine = s.engine := rfl
@[simp] theorem State.countPick_loadError : s.countPick.loadError = s.loadError := rfl
@[simp] theorem State.countPick_commandRefused : s.countPick.commandRefused = s.commandRefused := rfl
@[simp] theorem State.countPick_faultRegion : s.countPick.faultRegion = s.faultRegion := rfl
@[simp] theorem State.countPick_base : s.countPick.base = s.base := rfl
@[simp] theorem State.countPick_cause : s.countPick.cause = s.cause := rfl
@[simp] theorem State.countPick_causeEnable : s.countPick.causeEnable = s.causeEnable := rfl
@[simp] theorem State.countPick_watchLevel : s.countPick.watchLevel = s.watchLevel := rfl
@[simp] theorem State.countPick_raceClock : s.countPick.raceClock = s.raceClock := rfl
@[simp] theorem State.countPick_localTime : s.countPick.localTime = s.localTime := rfl
@[simp] theorem State.countPick_lastMark : s.countPick.lastMark = s.lastMark := rfl
@[simp] theorem State.countPick_ceilingGiven : s.countPick.ceilingGiven = s.ceilingGiven := rfl
@[simp] theorem State.countPick_resume : s.countPick.resume = s.resume := rfl
@[simp] theorem State.countPick_loaded : s.countPick.loaded = s.loaded := rfl
@[simp] theorem State.countPick_mem : s.countPick.mem = s.mem := rfl
@[simp] theorem State.countPick_refused : s.countPick.refused = s.refused := rfl
@[simp] theorem State.countPick_port : s.countPick.port = s.port := rfl
@[simp] theorem State.countPick_matLines : s.countPick.matLines = s.matLines := rfl
@[simp] theorem State.countPick_decoders : s.countPick.decoders = s.decoders := rfl
@[simp] theorem State.countPick_assembler : s.countPick.assembler = s.assembler := rfl
@[simp] theorem State.countPick_intake : s.countPick.intake = s.intake := rfl
@[simp] theorem State.countPick_itemClock : s.countPick.itemClock = s.itemClock := rfl
@[simp] theorem State.countPick_sweep : s.countPick.sweep = s.sweep := rfl
@[simp] theorem State.countPick_screens : s.countPick.screens = s.screens := rfl
@[simp] theorem State.countPick_handovers : s.countPick.handovers = s.handovers := rfl
@[simp] theorem State.countPick_bannerItems : s.countPick.bannerItems = s.bannerItems := rfl
@[simp] theorem State.countPick_statusTimer : s.countPick.statusTimer = s.statusTimer := rfl
@[simp] theorem State.countPick_panels : s.countPick.panels = s.panels := rfl
@[simp] theorem State.countPick_panelLines : s.countPick.panelLines = s.panelLines := rfl
@[simp] theorem State.countPick_journal : s.countPick.journal = s.journal := rfl
@[simp] theorem State.countPick_picks : s.countPick.picks = s.picks + 1 := rfl
@[simp] theorem State.countPick_pending : s.countPick.pending = s.pending := rfl

/-! ## `State.popHandover` -/

@[simp] theorem State.popHandover_engine : s.popHandover.engine = s.engine := rfl
@[simp] theorem State.popHandover_loadError : s.popHandover.loadError = s.loadError := rfl
@[simp] theorem State.popHandover_commandRefused : s.popHandover.commandRefused = s.commandRefused := rfl
@[simp] theorem State.popHandover_faultRegion : s.popHandover.faultRegion = s.faultRegion := rfl
@[simp] theorem State.popHandover_base : s.popHandover.base = s.base := rfl
@[simp] theorem State.popHandover_cause : s.popHandover.cause = s.cause := rfl
@[simp] theorem State.popHandover_causeEnable : s.popHandover.causeEnable = s.causeEnable := rfl
@[simp] theorem State.popHandover_watchLevel : s.popHandover.watchLevel = s.watchLevel := rfl
@[simp] theorem State.popHandover_raceClock : s.popHandover.raceClock = s.raceClock := rfl
@[simp] theorem State.popHandover_localTime : s.popHandover.localTime = s.localTime := rfl
@[simp] theorem State.popHandover_lastMark : s.popHandover.lastMark = s.lastMark := rfl
@[simp] theorem State.popHandover_ceilingGiven : s.popHandover.ceilingGiven = s.ceilingGiven := rfl
@[simp] theorem State.popHandover_resume : s.popHandover.resume = s.resume := rfl
@[simp] theorem State.popHandover_loaded : s.popHandover.loaded = s.loaded := rfl
@[simp] theorem State.popHandover_mem : s.popHandover.mem = s.mem := rfl
@[simp] theorem State.popHandover_refused : s.popHandover.refused = s.refused := rfl
@[simp] theorem State.popHandover_port : s.popHandover.port = s.port := rfl
@[simp] theorem State.popHandover_matLines : s.popHandover.matLines = s.matLines := rfl
@[simp] theorem State.popHandover_decoders : s.popHandover.decoders = s.decoders := rfl
@[simp] theorem State.popHandover_assembler : s.popHandover.assembler = s.assembler := rfl
@[simp] theorem State.popHandover_intake : s.popHandover.intake = s.intake := rfl
@[simp] theorem State.popHandover_itemClock : s.popHandover.itemClock = s.itemClock := rfl
@[simp] theorem State.popHandover_sweep : s.popHandover.sweep = s.sweep := rfl
@[simp] theorem State.popHandover_screens : s.popHandover.screens = s.screens := rfl
@[simp] theorem State.popHandover_handovers : s.popHandover.handovers = s.handovers.tail := rfl
@[simp] theorem State.popHandover_bannerItems : s.popHandover.bannerItems = s.bannerItems := rfl
@[simp] theorem State.popHandover_statusTimer : s.popHandover.statusTimer = s.statusTimer := rfl
@[simp] theorem State.popHandover_panels : s.popHandover.panels = s.panels := rfl
@[simp] theorem State.popHandover_panelLines : s.popHandover.panelLines = s.panelLines := rfl
@[simp] theorem State.popHandover_journal : s.popHandover.journal = s.journal := rfl
@[simp] theorem State.popHandover_picks : s.popHandover.picks = s.picks := rfl
@[simp] theorem State.popHandover_pending : s.popHandover.pending = s.pending := rfl

/-! ## `State.pushIntake` -/

@[simp] theorem State.pushIntake_engine (x : IntakeItem) : (s.pushIntake x).engine = s.engine := rfl
@[simp] theorem State.pushIntake_loadError (x : IntakeItem) : (s.pushIntake x).loadError = s.loadError := rfl
@[simp] theorem State.pushIntake_commandRefused (x : IntakeItem) : (s.pushIntake x).commandRefused = s.commandRefused := rfl
@[simp] theorem State.pushIntake_faultRegion (x : IntakeItem) : (s.pushIntake x).faultRegion = s.faultRegion := rfl
@[simp] theorem State.pushIntake_base (x : IntakeItem) : (s.pushIntake x).base = s.base := rfl
@[simp] theorem State.pushIntake_cause (x : IntakeItem) : (s.pushIntake x).cause = s.cause := rfl
@[simp] theorem State.pushIntake_causeEnable (x : IntakeItem) : (s.pushIntake x).causeEnable = s.causeEnable := rfl
@[simp] theorem State.pushIntake_watchLevel (x : IntakeItem) : (s.pushIntake x).watchLevel = s.watchLevel := rfl
@[simp] theorem State.pushIntake_raceClock (x : IntakeItem) : (s.pushIntake x).raceClock = s.raceClock := rfl
@[simp] theorem State.pushIntake_localTime (x : IntakeItem) : (s.pushIntake x).localTime = s.localTime := rfl
@[simp] theorem State.pushIntake_lastMark (x : IntakeItem) : (s.pushIntake x).lastMark = s.lastMark := rfl
@[simp] theorem State.pushIntake_ceilingGiven (x : IntakeItem) : (s.pushIntake x).ceilingGiven = s.ceilingGiven := rfl
@[simp] theorem State.pushIntake_resume (x : IntakeItem) : (s.pushIntake x).resume = s.resume := rfl
@[simp] theorem State.pushIntake_loaded (x : IntakeItem) : (s.pushIntake x).loaded = s.loaded := rfl
@[simp] theorem State.pushIntake_mem (x : IntakeItem) : (s.pushIntake x).mem = s.mem := rfl
@[simp] theorem State.pushIntake_refused (x : IntakeItem) : (s.pushIntake x).refused = s.refused := rfl
@[simp] theorem State.pushIntake_port (x : IntakeItem) : (s.pushIntake x).port = s.port := rfl
@[simp] theorem State.pushIntake_matLines (x : IntakeItem) : (s.pushIntake x).matLines = s.matLines := rfl
@[simp] theorem State.pushIntake_decoders (x : IntakeItem) : (s.pushIntake x).decoders = s.decoders := rfl
@[simp] theorem State.pushIntake_assembler (x : IntakeItem) : (s.pushIntake x).assembler = s.assembler := rfl
@[simp] theorem State.pushIntake_intake (x : IntakeItem) : (s.pushIntake x).intake = s.intake ++ [x] := rfl
@[simp] theorem State.pushIntake_itemClock (x : IntakeItem) : (s.pushIntake x).itemClock = if s.intake.isEmpty then some s.raceClock else s.itemClock := rfl
@[simp] theorem State.pushIntake_sweep (x : IntakeItem) : (s.pushIntake x).sweep = s.sweep := rfl
@[simp] theorem State.pushIntake_screens (x : IntakeItem) : (s.pushIntake x).screens = s.screens := rfl
@[simp] theorem State.pushIntake_handovers (x : IntakeItem) : (s.pushIntake x).handovers = s.handovers := rfl
@[simp] theorem State.pushIntake_bannerItems (x : IntakeItem) : (s.pushIntake x).bannerItems = s.bannerItems := rfl
@[simp] theorem State.pushIntake_statusTimer (x : IntakeItem) : (s.pushIntake x).statusTimer = s.statusTimer := rfl
@[simp] theorem State.pushIntake_panels (x : IntakeItem) : (s.pushIntake x).panels = s.panels := rfl
@[simp] theorem State.pushIntake_panelLines (x : IntakeItem) : (s.pushIntake x).panelLines = s.panelLines := rfl
@[simp] theorem State.pushIntake_journal (x : IntakeItem) : (s.pushIntake x).journal = s.journal := rfl
@[simp] theorem State.pushIntake_picks (x : IntakeItem) : (s.pushIntake x).picks = s.picks := rfl
@[simp] theorem State.pushIntake_pending (x : IntakeItem) : (s.pushIntake x).pending = s.pending := rfl

/-! ## `State.stopPort` -/

@[simp] theorem State.stopPort_engine : s.stopPort.engine = .halted := rfl
@[simp] theorem State.stopPort_loadError : s.stopPort.loadError = s.loadError := rfl
@[simp] theorem State.stopPort_commandRefused : s.stopPort.commandRefused = s.commandRefused := rfl
@[simp] theorem State.stopPort_faultRegion : s.stopPort.faultRegion = s.faultRegion := rfl
@[simp] theorem State.stopPort_base : s.stopPort.base = s.base := rfl
@[simp] theorem State.stopPort_cause : s.stopPort.cause = s.cause := rfl
@[simp] theorem State.stopPort_causeEnable : s.stopPort.causeEnable = s.causeEnable := rfl
@[simp] theorem State.stopPort_watchLevel : s.stopPort.watchLevel = s.watchLevel := rfl
@[simp] theorem State.stopPort_raceClock : s.stopPort.raceClock = s.raceClock := rfl
@[simp] theorem State.stopPort_localTime : s.stopPort.localTime = s.localTime := rfl
@[simp] theorem State.stopPort_lastMark : s.stopPort.lastMark = s.lastMark := rfl
@[simp] theorem State.stopPort_ceilingGiven : s.stopPort.ceilingGiven = s.ceilingGiven := rfl
@[simp] theorem State.stopPort_resume : s.stopPort.resume = s.resume := rfl
@[simp] theorem State.stopPort_loaded : s.stopPort.loaded = s.loaded := rfl
@[simp] theorem State.stopPort_mem : s.stopPort.mem = s.mem := rfl
@[simp] theorem State.stopPort_refused : s.stopPort.refused = s.refused := rfl
@[simp] theorem State.stopPort_port : s.stopPort.port = .stopped s.engine := rfl
@[simp] theorem State.stopPort_matLines : s.stopPort.matLines = s.matLines := rfl
@[simp] theorem State.stopPort_decoders : s.stopPort.decoders = s.decoders := rfl
@[simp] theorem State.stopPort_assembler : s.stopPort.assembler = s.assembler := rfl
@[simp] theorem State.stopPort_intake : s.stopPort.intake = s.intake := rfl
@[simp] theorem State.stopPort_itemClock : s.stopPort.itemClock = s.itemClock := rfl
@[simp] theorem State.stopPort_sweep : s.stopPort.sweep = s.sweep := rfl
@[simp] theorem State.stopPort_screens : s.stopPort.screens = s.screens := rfl
@[simp] theorem State.stopPort_handovers : s.stopPort.handovers = s.handovers := rfl
@[simp] theorem State.stopPort_bannerItems : s.stopPort.bannerItems = s.bannerItems := rfl
@[simp] theorem State.stopPort_statusTimer : s.stopPort.statusTimer = s.statusTimer := rfl
@[simp] theorem State.stopPort_panels : s.stopPort.panels = s.panels := rfl
@[simp] theorem State.stopPort_panelLines : s.stopPort.panelLines = s.panelLines := rfl
@[simp] theorem State.stopPort_journal : s.stopPort.journal = s.journal := rfl
@[simp] theorem State.stopPort_picks : s.stopPort.picks = s.picks := rfl
@[simp] theorem State.stopPort_pending : s.stopPort.pending = s.pending := rfl

/-! ## `State.popIntake` -/

@[simp] theorem State.popIntake_engine : s.popIntake.engine = s.engine := rfl
@[simp] theorem State.popIntake_loadError : s.popIntake.loadError = s.loadError := rfl
@[simp] theorem State.popIntake_commandRefused : s.popIntake.commandRefused = s.commandRefused := rfl
@[simp] theorem State.popIntake_faultRegion : s.popIntake.faultRegion = s.faultRegion := rfl
@[simp] theorem State.popIntake_base : s.popIntake.base = s.base := rfl
@[simp] theorem State.popIntake_cause : s.popIntake.cause = s.cause := rfl
@[simp] theorem State.popIntake_causeEnable : s.popIntake.causeEnable = s.causeEnable := rfl
@[simp] theorem State.popIntake_watchLevel : s.popIntake.watchLevel = s.watchLevel := rfl
@[simp] theorem State.popIntake_raceClock : s.popIntake.raceClock = s.raceClock := rfl
@[simp] theorem State.popIntake_localTime : s.popIntake.localTime = s.localTime := rfl
@[simp] theorem State.popIntake_lastMark : s.popIntake.lastMark = s.lastMark := rfl
@[simp] theorem State.popIntake_ceilingGiven : s.popIntake.ceilingGiven = s.ceilingGiven := rfl
@[simp] theorem State.popIntake_resume : s.popIntake.resume = s.resume := rfl
@[simp] theorem State.popIntake_loaded : s.popIntake.loaded = s.loaded := rfl
@[simp] theorem State.popIntake_mem : s.popIntake.mem = s.mem := rfl
@[simp] theorem State.popIntake_refused : s.popIntake.refused = s.refused := rfl
@[simp] theorem State.popIntake_port : s.popIntake.port = s.port := rfl
@[simp] theorem State.popIntake_matLines : s.popIntake.matLines = s.matLines := rfl
@[simp] theorem State.popIntake_decoders : s.popIntake.decoders = s.decoders := rfl
@[simp] theorem State.popIntake_assembler : s.popIntake.assembler = { s.assembler with offerWaits := false } := rfl
@[simp] theorem State.popIntake_intake : s.popIntake.intake = s.intake.tail := rfl
@[simp] theorem State.popIntake_itemClock : s.popIntake.itemClock = if s.intake.tail.isEmpty then none else some s.raceClock := rfl
@[simp] theorem State.popIntake_sweep : s.popIntake.sweep = s.sweep := rfl
@[simp] theorem State.popIntake_screens : s.popIntake.screens = s.screens := rfl
@[simp] theorem State.popIntake_handovers : s.popIntake.handovers = s.handovers := rfl
@[simp] theorem State.popIntake_bannerItems : s.popIntake.bannerItems = s.bannerItems := rfl
@[simp] theorem State.popIntake_statusTimer : s.popIntake.statusTimer = s.statusTimer := rfl
@[simp] theorem State.popIntake_panels : s.popIntake.panels = s.panels := rfl
@[simp] theorem State.popIntake_panelLines : s.popIntake.panelLines = s.panelLines := rfl
@[simp] theorem State.popIntake_journal : s.popIntake.journal = s.journal := rfl
@[simp] theorem State.popIntake_picks : s.popIntake.picks = s.picks := rfl
@[simp] theorem State.popIntake_pending : s.popIntake.pending = s.pending := rfl

end Sys2Proof.Machine
end

