-- ==== Sys2Proof/Laws/Port.lean ====
section
/-! SUPPORT. The memory port: what an access, a store and lists of them can do, said once. -/

namespace Sys2Proof.Machine

/-! ## Sequencing -/

theorem State.andThen_halted {s : State} (f : State → State) (h : s.engine = .halted) : s.andThen f = s := by
  simp [State.andThen, h]

theorem State.andThen_running {s : State} (f : State → State) (h : s.engine ≠ .halted) : s.andThen f = f s := by
  simp [State.andThen, h]

@[simp] theorem State.halt_andThen (r : Region) (f : State → State) (s : State) : (s.halt r).andThen f = s.halt r := by
  simp [State.andThen]

/-- A second fault keeps the first one's region (R16). -/
theorem State.halt_halt (r r' : Region) (s : State) : (s.halt r).halt r' = s.halt r := by
  simp [State.halt, withCause, mapTwo, MatLine.dropMark, PanelLine.dropClock, BitVec.or_assoc]

/-! ## Accesses -/

theorem State.refuses_of_nil {s : State} (h : s.refused = []) (a n : Nat) : s.refuses a n = false := by
  simp [State.refuses, h]

theorem State.access_ok {r : Region} {a n : Nat} {s : State} (h : s.refuses a n = false) : s.access r a n = s := by
  simp [State.access, h]

/-- A refused access is a memory fault for its region (R16). -/
theorem State.access_refused {r : Region} {a n : Nat} {s : State} (h : s.refuses a n = true) :
    s.access r a n = s.halt r := by
  simp [State.access, h]

/-- A store the board takes, in a step that is not cut short, writes its bytes and nothing else. -/
theorem State.store_ok {r : Region} {a : Nat} {bs : List Byte} {s : State} (h : s.refuses a bs.length = false)
    (hp : s.port = .free) (he : s.engine ≠ .halted) : s.store r a bs = s.withMem (Memory.writeBytes s.mem a bs) := by
  simp [State.store, State.access_ok h, State.andThen, he, State.put, hp]

/-- In a step cut short a store takes one of the writes left to it. -/
theorem State.store_left {r : Region} {a : Nat} {bs : List Byte} {s : State} {n : Nat}
    (h : s.refuses a bs.length = false) (hp : s.port = .left (n + 1)) (he : s.engine ≠ .halted) :
    s.store r a bs = { s with mem := Memory.writeBytes s.mem a bs, port := .left n } := by
  simp [State.store, State.access_ok h, State.andThen, he, State.put, hp]

/-- A store before the last one a step cut short makes. -/
theorem State.store_before_last {r : Region} {a : Nat} {bs : List Byte} {s : State} {n : Nat}
    (h : s.refuses a bs.length = false) (hp : s.port = .last (n + 1)) (he : s.engine ≠ .halted) :
    s.store r a bs = { s with mem := Memory.writeBytes s.mem a bs, port := .last n } := by
  simp [State.store, State.access_ok h, State.andThen, he, State.put, hp]

/-- The last store a step cut short makes: the step stops right after it. -/
theorem State.store_last {r : Region} {a : Nat} {bs : List Byte} {s : State} (h : s.refuses a bs.length = false)
    (hp : s.port = .last 0) (he : s.engine ≠ .halted) :
    s.store r a bs = (s.withMem (Memory.writeBytes s.mem a bs)).stopPort := by
  simp [State.store, State.access_ok h, State.andThen, he, State.put, hp]

/-- With no write left the step stops before the field. -/
theorem State.store_stops {r : Region} {a : Nat} {bs : List Byte} {s : State} (h : s.refuses a bs.length = false)
    (hp : s.port = .left 0) (he : s.engine ≠ .halted) : s.store r a bs = s.stopPort := by
  simp [State.store, State.access_ok h, State.andThen, he, State.put, hp]

/-- A refused store is a memory fault and leaves memory as it was (R54). -/
theorem State.store_refused {r : Region} {a : Nat} {bs : List Byte} {s : State} (h : s.refuses a bs.length = true) :
    s.store r a bs = s.halt r := by
  simp [State.store, State.access_refused h]

theorem State.store_halted {r : Region} {a : Nat} {bs : List Byte} {s : State} (he : s.engine = .halted) :
    (s.store r a bs).engine = .halted := by
  unfold State.store State.access
  split <;> simp [State.andThen, he]

theorem Memory.writeAll_wf {m : List Host.Cell} (hm : Memory.wf m = true) (ws : List (Region × Nat × List Byte)) :
    Memory.wf (Memory.writeAll m ws) = true := by
  induction ws generalizing m with
  | nil => exact hm
  | cons w ws ih => exact ih (Memory.writeBytes_wf hm _ _)

/-- A list of writes leaves every byte outside them. -/
theorem Memory.read_writeAll_other (m : List Host.Cell) (ws : List (Region × Nat × List Byte)) (x : Nat)
    (h : ∀ w ∈ ws, w.2.1 < Config.addressSpace ∧ w.2.2.length ≤ Config.addressSpace
      ∧ inBytes w.2.1 w.2.2.length x = false) :
    Memory.read (Memory.writeAll m ws) x = Memory.read m x := by
  induction ws generalizing m with
  | nil => rfl
  | cons w ws ih =>
    have hw := h w (by simp)
    rw [Memory.writeAll, List.foldl_cons, ← Memory.writeAll, ih _ fun w' hw' => h w' (by simp [hw'])]
    exact Memory.read_writeBytes_other m _ hw.1 hw.2.1 hw.2.2

/-- Reads the board takes change nothing. -/
theorem State.accessAll_ok {reads : List (Region × Nat × Nat)} {s : State} (h : s.refused = []) :
    s.accessAll reads = s := by
  induction reads with
  | nil => rfl
  | cons x reads ih =>
    obtain ⟨r, a, n⟩ := x
    simp only [State.accessAll, State.access_ok (State.refuses_of_nil h a n)]
    unfold State.andThen
    split <;> simp [ih]

/-- The first refused read of a list is its memory fault, whatever follows it. -/
theorem State.accessAll_refused {xs : List (Region × Nat × Nat)} {r : Region} {a n : Nat}
    (ys : List (Region × Nat × Nat)) {s : State} (hx : ∀ x ∈ xs, s.refuses x.2.1 x.2.2 = false)
    (h : s.refuses a n = true) (he : s.engine ≠ .halted) : s.accessAll (xs ++ (r, a, n) :: ys) = s.halt r := by
  induction xs with
  | nil => simp [State.accessAll, State.access_refused h, State.andThen]
  | cons x xs ih =>
    rw [List.cons_append, State.accessAll, State.access_ok (hx x (by simp)), State.andThen_running _ he]
    exact ih fun y hy => hx y (by simp [hy])

/-- Reads of one region of which one is refused are a memory fault of that region. -/
theorem State.accessAll_region {reads : List (Region × Nat × Nat)} {r : Region} {s : State} (hr : ∀ x ∈ reads, x.1 = r)
    (h : ∃ x ∈ reads, s.refuses x.2.1 x.2.2 = true) (he : s.engine ≠ .halted) (rest : List (Region × Nat × Nat)) :
    s.accessAll (reads ++ rest) = s.halt r := by
  induction reads with
  | nil => simp at h
  | cons x reads ih =>
    rw [List.cons_append, State.accessAll]
    cases hx : s.refuses x.2.1 x.2.2 with
    | true => rw [State.access_refused hx, hr x (by simp), State.andThen_halted _ rfl]
    | false =>
      rw [State.access_ok hx, State.andThen_running _ he]
      obtain ⟨y, hy, hs⟩ := h
      rcases List.mem_cons.mp hy with rfl | hy
      · rw [hx] at hs; exact absurd hs (by simp)
      · exact ih (fun z hz => hr z (by simp [hz])) ⟨y, hy, hs⟩

/-- Writes the board takes are made, in order, and change nothing else. -/
theorem State.storeAll_ok {ws : List (Region × Nat × List Byte)} {s : State} (h : s.refused = []) (hp : s.port = .free)
    (he : s.engine ≠ .halted) : s.storeAll ws = s.withMem (Memory.writeAll s.mem ws) := by
  induction ws generalizing s with
  | nil => rfl
  | cons x ws ih =>
    obtain ⟨r, a, bs⟩ := x
    simp only [State.storeAll]
    rw [State.store_ok (State.refuses_of_nil h a _) hp he,
      State.andThen_running (s := s.withMem (Memory.writeBytes s.mem a bs)) _ he,
      ih (s := s.withMem (Memory.writeBytes s.mem a bs)) h hp he]
    rfl

/-! ## What an operation through the port can do -/

/-- The state with shared memory and the memory port replaced: all that an access changes where the engine goes on. -/
def State.ported (m : List Host.Cell) (p : Port) (s : State) : State := { s with mem := m, port := p }

/-- `t` is `s` with other memory and port; or that with the engine halted, by the port of a step cut short or by a
memory fault. -/
def PortStep (s t : State) : Prop :=
  (Memory.wf s.mem = true → Memory.wf t.mem = true) ∧
    ((∃ m p, t = s.ported m p) ∨ (∃ m p, t = ({ s with engine := .halted } : State).ported m p)
      ∨ ∃ r m p, t = (s.halt r).ported m p)

theorem PortStep.refl (s : State) : PortStep s s := ⟨id, .inl ⟨s.mem, s.port, rfl⟩⟩

/-- A step goes on from a state that has not halted. -/
theorem PortStep.trans {s t u : State} (h : PortStep s t) (ht : t.engine ≠ .halted) (h' : PortStep t u) : PortStep s u := by
  refine ⟨fun hm => h'.1 (h.1 hm), ?_⟩
  rcases h.2 with ⟨m, p, rfl⟩ | ⟨m, p, rfl⟩ | ⟨r, m, p, rfl⟩
  · rcases h'.2 with ⟨m', p', rfl⟩ | ⟨m', p', rfl⟩ | ⟨r', m', p', rfl⟩
    · exact .inl ⟨m', p', rfl⟩
    · exact .inr (.inl ⟨m', p', rfl⟩)
    · exact .inr (.inr ⟨r', m', p', rfl⟩)
  · exact absurd rfl ht
  · exact absurd rfl ht

theorem PortStep.halt (r : Region) (s : State) : PortStep s (s.halt r) := ⟨id, .inr (.inr ⟨r, s.mem, s.port, rfl⟩)⟩

theorem PortStep.access (r : Region) (a n : Nat) (s : State) : PortStep s (s.access r a n) := by
  unfold State.access
  split
  · exact .halt r s
  · exact .refl s

theorem PortStep.andThen {s t : State} {f : State → State} (h : PortStep s t) (hf : PortStep t (f t)) :
    PortStep s (t.andThen f) := by
  unfold State.andThen
  split
  · exact h
  · exact h.trans ‹_› hf

theorem PortStep.put (a : Nat) (bs : List Byte) (s : State) : PortStep s (s.put a bs) := by
  unfold State.put
  split
  · exact ⟨id, .inr (.inl ⟨s.mem, .stopped s.engine, rfl⟩)⟩
  · exact ⟨fun hm => Memory.writeBytes_wf hm _ _, .inl ⟨_, _, rfl⟩⟩
  · exact ⟨fun hm => Memory.writeBytes_wf hm _ _, .inr (.inl ⟨_, .stopped s.engine, rfl⟩)⟩
  · exact ⟨fun hm => Memory.writeBytes_wf hm _ _, .inl ⟨_, _, rfl⟩⟩
  · exact ⟨fun hm => Memory.writeBytes_wf hm _ _, .inl ⟨_, s.port, rfl⟩⟩
  · exact ⟨fun hm => Memory.writeBytes_wf hm _ _, .inl ⟨_, s.port, rfl⟩⟩

theorem PortStep.store (r : Region) (a : Nat) (bs : List Byte) (s : State) : PortStep s (s.store r a bs) :=
  (PortStep.access r a bs.length s).andThen (.put a bs _)

theorem PortStep.accessAll (reads : List (Region × Nat × Nat)) (s : State) : PortStep s (s.accessAll reads) := by
  induction reads generalizing s with
  | nil => exact .refl s
  | cons x reads ih =>
    obtain ⟨r, a, n⟩ := x
    exact (PortStep.access r a n s).andThen (ih _)

theorem PortStep.storeAll (ws : List (Region × Nat × List Byte)) (s : State) : PortStep s (s.storeAll ws) := by
  induction ws generalizing s with
  | nil => exact .refl s
  | cons x ws ih =>
    obtain ⟨r, a, bs⟩ := x
    exact (PortStep.store r a bs s).andThen (ih _)

/-- A put changes memory inside its bytes alone. -/
theorem State.read_put_other {a x : Nat} {bs : List Byte} (s : State) (ha : a < Config.addressSpace)
    (hn : bs.length ≤ Config.addressSpace) (hx : inBytes a bs.length x = false) :
    Memory.read (s.put a bs).mem x = Memory.read s.mem x := by
  unfold State.put
  split
  · rfl
  · exact Memory.read_writeBytes_other s.mem bs ha hn hx
  · exact Memory.read_writeBytes_other s.mem bs ha hn hx
  · exact Memory.read_writeBytes_other s.mem bs ha hn hx
  · exact Memory.read_writeBytes_other s.mem bs ha hn hx
  · exact Memory.read_writeBytes_other s.mem bs ha hn hx

/-! ## Steps cut short (R16, R17, R114) -/

/-- With no write left a list of writes makes none and stops the step. -/
theorem State.storeAll_stops {ws : List (Region × Nat × List Byte)} {s : State} (h : s.refused = [])
    (hp : s.port = .left 0) (he : s.engine ≠ .halted) (hw : ws ≠ []) : s.storeAll ws = s.stopPort := by
  cases ws with
  | nil => exact absurd rfl hw
  | cons x ws =>
    obtain ⟨r, a, bs⟩ := x
    simp only [State.storeAll]
    rw [State.store_stops (State.refuses_of_nil h a _) hp he]
    exact State.andThen_halted _ rfl

/-- A list of writes of a step cut short stops right after the last one the step makes. -/
theorem State.storeAll_last {ws : List (Region × Nat × List Byte)} {s : State} {n : Nat} (h : s.refused = [])
    (hp : s.port = .last n) (he : s.engine ≠ .halted) (hn : n < ws.length) :
    s.storeAll ws = (s.withMem (Memory.writeAll s.mem (ws.take (n + 1)))).stopPort := by
  induction ws generalizing s n with
  | nil => simp at hn
  | cons x ws ih =>
    obtain ⟨r, a, bs⟩ := x
    simp only [State.storeAll]
    cases n with
    | zero =>
      rw [State.store_last (State.refuses_of_nil h a _) hp he]
      exact State.andThen_halted _ rfl
    | succ n =>
      rw [State.store_before_last (State.refuses_of_nil h a _) hp he,
        State.andThen_running (s := { s with mem := Memory.writeBytes s.mem a bs, port := .last n }) _ he,
        ih (s := { s with mem := Memory.writeBytes s.mem a bs, port := .last n }) h rfl he (by simpa using hn)]
      rfl

/-- A list of writes of a step cut short makes as many as are left to it; with some over, the step stops there. -/
theorem State.storeAll_left {ws : List (Region × Nat × List Byte)} {s : State} {n : Nat} (h : s.refused = [])
    (hp : s.port = .left n) (he : s.engine ≠ .halted) :
    s.storeAll ws = if ws.length ≤ n then s.ported (Memory.writeAll s.mem ws) (.left (n - ws.length))
      else (s.ported (Memory.writeAll s.mem (ws.take n)) (.left 0)).stopPort := by
  induction ws generalizing s n with
  | nil =>
    simp only [State.storeAll, List.length_nil, Nat.zero_le, if_true, Nat.sub_zero]
    rw [← hp]
    rfl
  | cons x ws ih =>
    cases n with
    | zero =>
      rw [State.storeAll_stops h hp he (by simp)]
      simp only [List.length_cons, Nat.le_zero_eq, Nat.add_eq_zero_iff, one_ne_zero, and_false, if_false, List.take_zero]
      rw [show s.ported (Memory.writeAll s.mem []) (.left 0) = s by rw [← hp]; rfl]
    | succ n =>
      obtain ⟨r, a, bs⟩ := x
      simp only [State.storeAll]
      rw [State.store_left (State.refuses_of_nil h a _) hp he,
        State.andThen_running (s := { s with mem := Memory.writeBytes s.mem a bs, port := .left n }) _ he,
        ih (s := { s with mem := Memory.writeBytes s.mem a bs, port := .left n }) h rfl he]
      simp only [List.length_cons, Nat.add_le_add_iff_right, Nat.add_sub_add_right, List.take_succ_cons]
      rfl

end Sys2Proof.Machine
end

