-- ==== Sys2Proof/Laws/Journal.lean ====
section
/-! SUPPORT. The journal writer: what each of its operations can do, said once. -/

namespace Sys2Proof.Machine

/-- The state with shared memory, CAUSE and the journal writer replaced: all that the writer's operations change. -/
def State.journaled (m : List Host.Cell) (c : BitVec 9) (j : Journal) (s : State) : State :=
  { s with mem := m, cause := c, journal := j }

/-- The state with the engine halted by a memory fault, whichever region STATUS names. -/
def State.halted (fr : Option Region) (s : State) : State := { s.halt .page with faultRegion := fr }

/-- The engine halted by the port of a step cut short. -/
def State.stopped (s : State) : State := { s with engine := .halted }

/-- All that an operation of the writer can change. -/
def State.written (m : List Host.Cell) (p : Port) (c : BitVec 9) (j : Journal) (s : State) : State :=
  (s.ported m p).journaled m c j

/-- Nothing more of the step reaches shared memory: the engine has halted, or no write is left to a step cut short. -/
def State.Spent (s : State) : Prop := s.engine = .halted ∨ s.port = .left 0

/-- What an operation of the writer can do: it changes memory (inside the pages), the port, CAUSE (setting bits) and the
writer, and halts the engine where an access is refused or the port stops the step; with no write left it leaves memory as
it was. `q` is what the frame of memory needs:
that the current page has a place left. -/
structure JournalStep (q : Prop) (s t : State) : Prop where
  wf : Memory.wf s.mem = true → Memory.wf t.mem = true
  form : (∃ m p c j, t = s.written m p c j) ∨ (∃ m p c j, t = s.stopped.written m p c j)
    ∨ ∃ fr m p c j, t = (s.halted fr).written m p c j
  quiet : Accepting s → s.engine ≠ .halted → ∃ m c j, t = s.journaled m c j
  causes : s.cause &&& t.cause = s.cause
  range : s.journal.inRange s.config.pages.length → t.journal.inRange s.config.pages.length
  outside : q → s.journal.inRange s.config.pages.length → ∀ a, OutsidePages s a → Memory.read t.mem a = Memory.read s.mem a
  spent : s.Spent → t.Spent ∧ t.mem = s.mem

variable {q : Prop}

/-- The fields no operation of the writer changes. -/
theorem JournalStep.kept {s t : State} (h : JournalStep q s t) :
    t.config = s.config ∧ t.base = s.base ∧ t.refused = s.refused ∧ t.loaded = s.loaded
      ∧ (t.engine = s.engine ∨ t.engine = .halted) := by
  rcases h.form with ⟨m, p, c, j, rfl⟩ | ⟨m, p, c, j, rfl⟩ | ⟨fr, m, p, c, j, rfl⟩
  · exact ⟨rfl, rfl, rfl, rfl, .inl rfl⟩
  · exact ⟨rfl, rfl, rfl, rfl, .inr rfl⟩
  · exact ⟨rfl, rfl, rfl, rfl, .inr rfl⟩

/-- Setting a cause keeps the causes set before (R183). -/
theorem withCause_or (v : BitVec 9) (x : Cause) : v &&& withCause v x = v := by
  unfold withCause
  ext i hi
  rw [BitVec.getElem_and, BitVec.getElem_or]
  cases v[i] <;> simp

namespace JournalStep

theorem refl (s : State) : JournalStep q s s :=
  ⟨id, .inl ⟨s.mem, s.port, s.cause, s.journal, rfl⟩, fun _ _ => ⟨_, _, _, rfl⟩, BitVec.and_self, id, fun _ _ _ _ => rfl,
    fun h => ⟨h, rfl⟩⟩

theorem trans {s t u : State} (h : JournalStep q s t) (h' : JournalStep q t u) : JournalStep q s u := by
  obtain ⟨hc, hb, hr, hl, he⟩ := h.kept
  refine ⟨fun hm => h'.wf (h.wf hm), ?_, fun hr0 he0 => ?_, ?_, fun hj => ?_, fun hq hj a ha => ?_, fun hp =>
    ⟨(h'.spent (h.spent hp).1).1, (h'.spent (h.spent hp).1).2.trans (h.spent hp).2⟩⟩
  · rcases h.form with ⟨m, p, c, j, rfl⟩ | ⟨m, p, c, j, rfl⟩ | ⟨fr, m, p, c, j, rfl⟩
    · rcases h'.form with ⟨m', p', c', j', rfl⟩ | ⟨m', p', c', j', rfl⟩ | ⟨fr', m', p', c', j', rfl⟩
      · exact .inl ⟨m', p', c', j', rfl⟩
      · exact .inr (.inl ⟨m', p', c', j', rfl⟩)
      · exact .inr (.inr ⟨fr', m', p', c', j', rfl⟩)
    · rcases h'.form with ⟨m', p', c', j', rfl⟩ | ⟨m', p', c', j', rfl⟩ | ⟨fr', m', p', c', j', rfl⟩
      · exact .inr (.inl ⟨m', p', c', j', rfl⟩)
      · exact .inr (.inl ⟨m', p', c', j', rfl⟩)
      · exact .inr (.inr ⟨fr', m', p', c', j', rfl⟩)
    · rcases h'.form with ⟨m', p', c', j', rfl⟩ | ⟨m', p', c', j', rfl⟩ | ⟨fr', m', p', c', j', rfl⟩
      · exact .inr (.inr ⟨fr, m', p', c', j', rfl⟩)
      · exact .inr (.inr ⟨fr, m', p', c', j', rfl⟩)
      · exact .inr (.inr ⟨fr', m', p', c', j', rfl⟩)
  · obtain ⟨m, c, j, rfl⟩ := h.quiet hr0 he0
    obtain ⟨m', c', j', rfl⟩ := h'.quiet hr0 he0
    exact ⟨m', c', j', rfl⟩
  · have h1 := h.causes
    have h2 := h'.causes
    calc s.cause &&& u.cause = (s.cause &&& t.cause) &&& u.cause := by rw [h1]
      _ = s.cause &&& (t.cause &&& u.cause) := BitVec.and_assoc ..
      _ = s.cause &&& t.cause := by rw [h2]
      _ = s.cause := h1
  · rw [← hc]
    exact h'.range (by rw [hc]; exact h.range hj)
  · rw [← h.outside hq hj a ha]
    refine h'.outside hq (by rw [hc]; exact h.range hj) a fun p hp => ?_
    have := ha p (by rw [← hc]; exact hp)
    rw [hc, State.addr, hb]
    exact this

theorem andThen {s t : State} {f : State → State} (h : JournalStep q s t) (hf : JournalStep q t (f t)) :
    JournalStep q s (t.andThen f) := by
  unfold State.andThen
  split
  · exact h
  · exact h.trans hf

/-- A step goes on from a state that has not halted. -/
theorem andThenRunning {s t : State} {f : State → State} (h : JournalStep q s t)
    (hf : t.engine ≠ .halted → JournalStep q t (f t)) : JournalStep q s (t.andThen f) := by
  unfold State.andThen
  split
  · exact h
  · exact h.trans (hf ‹_›)

theorem setCause (c : Cause) (s : State) : JournalStep q s (s.setCause c) :=
  ⟨id, .inl ⟨s.mem, s.port, withCause s.cause c, s.journal, rfl⟩, fun _ _ => ⟨_, _, _, rfl⟩, withCause_or _ _, id,
    fun _ _ _ _ => rfl, fun h => ⟨h, rfl⟩⟩

/-- The writer replaced by one whose page indices are in range where they were. -/
theorem withJournal {s : State} (j : Journal)
    (hj : s.journal.inRange s.config.pages.length → j.inRange s.config.pages.length) : JournalStep q s (s.withJournal j) :=
  ⟨id, .inl ⟨s.mem, s.port, s.cause, j, rfl⟩, fun _ _ => ⟨_, _, _, rfl⟩, BitVec.and_self, hj, fun _ _ _ _ => rfl,
    fun h => ⟨h, rfl⟩⟩

/-- The writer replaced by one with the same page indices. -/
theorem withJournal_same {s : State} (j : Journal) (hc : j.current = s.journal.current)
    (hn : j.nextPage = s.journal.nextPage) : JournalStep q s (s.withJournal j) :=
  withJournal j fun h => by rw [Journal.inRange, hc, hn]; exact h

theorem halt (r : Region) {s : State} (hr : s.refused = [] → False) : JournalStep q s (s.halt r) :=
  ⟨id, .inr (.inr ⟨(s.halt r).faultRegion, s.mem, s.port, (s.halt r).cause, s.journal, rfl⟩), fun h _ => (hr h.1).elim,
    withCause_or _ _, id, fun _ _ _ _ => rfl, fun _ => ⟨.inl rfl, rfl⟩⟩

theorem access (r : Region) (a n : Nat) (s : State) : JournalStep q s (s.access r a n) := by
  unfold State.access
  split
  · rename_i h
    exact halt r fun h0 => by rw [State.refuses_of_nil h0] at h; simp at h
  · exact refl s

end JournalStep

/-- Bytes of a part of an extent lie in the extent. -/
theorem inBytes_part {b o n N x : Nat} (h : inBytes ((b + o) % Config.addressSpace) n x = true) (ho : o + n ≤ N)
    (hN : N ≤ Config.addressSpace) : inBytes (b % Config.addressSpace) N x = true := by
  unfold inBytes at *
  unfold Config.addressSpace at *
  rw [decide_eq_true_eq] at *
  rw [Nat.add_mod] at h
  generalize hA : b % 18446744073709551616 = A at *
  have hAlt : A < 18446744073709551616 := by omega
  by_cases ho' : o = 18446744073709551616
  · subst ho'
    omega
  have holt : o < 18446744073709551616 := by omega
  rw [Nat.mod_eq_of_lt holt] at h
  rcases Nat.lt_or_ge (A + o) 18446744073709551616 with h1 | h1
  · rw [Nat.mod_eq_of_lt h1] at h
    omega
  · have h2 : (A + o) % 18446744073709551616 = A + o - 18446744073709551616 := by
      rw [Nat.mod_eq_sub_mod h1, Nat.mod_eq_of_lt (by omega)]
    rw [h2] at h
    omega

/-- What a put leaves of the fields the writer's operations may change. -/
theorem State.put_form (a : Nat) (bs : List Byte) (s : State) :
    (∃ m p, s.put a bs = s.written m p s.cause s.journal) ∨ ∃ m p, s.put a bs = s.stopped.written m p s.cause s.journal := by
  unfold State.put
  split
  · exact .inr ⟨s.mem, .stopped s.engine, rfl⟩
  · exact .inl ⟨Memory.writeBytes s.mem a bs, .left _, rfl⟩
  · exact .inr ⟨Memory.writeBytes s.mem a bs, .stopped s.engine, rfl⟩
  · exact .inl ⟨Memory.writeBytes s.mem a bs, .last _, rfl⟩
  · exact .inl ⟨Memory.writeBytes s.mem a bs, s.port, rfl⟩
  · exact .inl ⟨Memory.writeBytes s.mem a bs, s.port, rfl⟩

theorem State.put_free (a : Nat) (bs : List Byte) {s : State} (h : s.port = .free) :
    s.put a bs = s.withMem (Memory.writeBytes s.mem a bs) := by
  simp [State.put, h]

/-- With no write left a put stops the step before its field. -/
theorem State.put_spent (a : Nat) (bs : List Byte) {s : State} (he : s.engine ≠ .halted) (h : s.Spent) :
    (s.put a bs).Spent ∧ (s.put a bs).mem = s.mem := by
  have hp := h.resolve_left he
  rw [State.put, hp]
  exact ⟨.inl rfl, rfl⟩

namespace JournalStep

/-- A write access inside a page. -/
theorem storePage {s : State} {p o : Nat} {bs : List Byte} (ho : q → o + bs.length ≤ 4128)
    (hp : s.journal.inRange s.config.pages.length → p < s.config.pages.length) :
    JournalStep q s (s.store .page (s.addr (pageOffset s.config p o)) bs) := by
  refine (access .page _ bs.length s).andThenRunning fun he => ⟨(PortStep.put _ _ _).1, ?_,
    fun ha _ => ⟨_, _, _, State.put_free _ _ ha.2⟩, ?_, ?_, fun hq hj a ha => ?_, fun hp => ?_⟩
  · rcases State.put_form (s.addr (pageOffset s.config p o)) bs (s.access .page (s.addr (pageOffset s.config p o)) bs.length)
      with ⟨m, p, h⟩ | ⟨m, p, h⟩
    · exact .inl ⟨_, _, _, _, h⟩
    · exact .inr (.inl ⟨_, _, _, _, h⟩)
  · rcases State.put_form (s.addr (pageOffset s.config p o)) bs (s.access .page (s.addr (pageOffset s.config p o)) bs.length)
      with ⟨m, p, h⟩ | ⟨m, p, h⟩ <;> rw [h] <;> exact BitVec.and_self
  · rcases State.put_form (s.addr (pageOffset s.config p o)) bs (s.access .page (s.addr (pageOffset s.config p o)) bs.length)
      with ⟨m, p, h⟩ | ⟨m, p, h⟩ <;> rw [h] <;> exact id
  on_goal 2 => exact State.put_spent _ _ he hp
  have hs : (s.access .page (s.addr (pageOffset s.config p o)) bs.length).config = s.config ∧
      (s.access .page (s.addr (pageOffset s.config p o)) bs.length).journal = s.journal ∧
      (s.access .page (s.addr (pageOffset s.config p o)) bs.length).base = s.base := by
    unfold State.access
    split <;> exact ⟨rfl, rfl, rfl⟩
  rw [hs.1, hs.2.1] at hj
  have hout := ha p (by rw [hs.1]; exact hp hj)
  rw [hs.1, State.addr, hs.2.2] at hout
  refine State.read_put_other _ (State.addr_lt _ _) (by have := ho hq; unfold Config.addressSpace; omega) ?_
  by_contra hc
  have hin := inBytes_part (b := s.base.toNat + pageOffset s.config p 0) (o := o) (n := bs.length) (N := 4128) (x := a)
    (by simpa [pageOffset, State.addr, Nat.add_assoc] using hc) (ho hq) (by decide)
  rw [hin] at hout
  simp at hout

end JournalStep

theorem openPage_step {p : Nat} {s : State} (hp : s.journal.inRange s.config.pages.length → p < s.config.pages.length) :
    JournalStep q s (openPage p s) := by
  have h1 := JournalStep.storePage (q := q) (s := s) (p := p) (o := 0) (bs := leBytes 4 pageOpen) (fun _ => by simp [leBytes_length]) hp
  refine h1.andThen ?_
  have k1 := h1.kept
  have r1 := h1.form
  have hp1 : ∀ t : State, JournalStep q s t → t.journal = s.journal →
      t.journal.inRange t.config.pages.length → p < t.config.pages.length := by
    intro t ht hj hr
    rw [ht.kept.1] at hr ⊢
    exact hp (hj ▸ hr)
  have hj1 : (s.store .page (s.addr (pageOffset s.config p 0)) (leBytes 4 pageOpen)).journal = s.journal := by
    rcases PortStep.store .page (s.addr (pageOffset s.config p 0)) (leBytes 4 pageOpen) s with
      ⟨_, ⟨m, p, h⟩ | ⟨m, p, h⟩ | ⟨r, m, p, h⟩⟩ <;> rw [h] <;> rfl
  generalize s.store .page (s.addr (pageOffset s.config p 0)) (leBytes 4 pageOpen) = t at *
  have h2 := JournalStep.storePage (q := q) (s := t) (p := p) (o := 8) (bs := leBytes 4 0) (fun _ => by simp [leBytes_length]) (hp1 t h1 hj1)
  refine h2.andThen ?_
  have hj2 : (t.store .page (t.addr (pageOffset t.config p 8)) (leBytes 4 0)).journal = s.journal := by
    rcases PortStep.store .page (t.addr (pageOffset t.config p 8)) (leBytes 4 0) t with
      ⟨_, ⟨m, p, h⟩ | ⟨m, p, h⟩ | ⟨r, m, p, h⟩⟩ <;> rw [h] <;> exact hj1
  have h12 := h1.trans h2
  generalize t.store .page (t.addr (pageOffset t.config p 8)) (leBytes 4 0) = u at *
  refine JournalStep.withJournal _ fun hr => ?_
  have := hp1 u h12 hj2 hr
  exact ⟨fun q hq => by cases hq; exact this, hr.2⟩

theorem tryNextPage_step (b : Bool) (s : State) : JournalStep q s (tryNextPage b s) := by
  unfold tryNextPage
  have h1 := JournalStep.access (q := q) .page (s.addr (pageOffset s.config s.journal.nextPage 0)) 4 s
  refine h1.andThen ?_
  have hj : (s.access .page (s.addr (pageOffset s.config s.journal.nextPage 0)) 4).journal = s.journal := by
    unfold State.access
    split <;> rfl
  generalize s.access .page (s.addr (pageOffset s.config s.journal.nextPage 0)) 4 = t at *
  split
  · refine openPage_step fun hr => ?_
    rw [hj] at hr
    exact hr.2
  · split
    · exact .setCause _ _
    · exact .refl _

theorem reread_step (s : State) : JournalStep q s (reread s) := by
  unfold reread
  split
  · exact tryNextPage_step _ _
  · exact .refl s

theorem sweepEnded_step (s : State) : JournalStep q s (sweepEnded s) := reread_step s

/-- A store keeps the journal writer. -/
theorem store_journal (r : Region) (a : Nat) (bs : List Byte) (s : State) : (s.store r a bs).journal = s.journal := by
  rcases PortStep.store r a bs s with ⟨_, ⟨m, p, h⟩ | ⟨m, p, h⟩ | ⟨r, m, p, h⟩⟩ <;> rw [h] <;> rfl

theorem store_config (r : Region) (a : Nat) (bs : List Byte) (s : State) : (s.store r a bs).config = s.config := by
  rcases PortStep.store r a bs s with ⟨_, ⟨m, p, h⟩ | ⟨m, p, h⟩ | ⟨r, m, p, h⟩⟩ <;> rw [h] <;> rfl

theorem sealPage_step (s : State) : JournalStep q s (sealPage s) := by
  unfold sealPage
  cases hc : s.journal.current with
  | none => exact .refl s
  | some p =>
    dsimp only
    split
    · exact .refl s
    · have hp : ∀ t : State, t.journal = s.journal → t.config = s.config →
          t.journal.inRange t.config.pages.length → p < t.config.pages.length :=
        fun t hj _ hr => hr.1 p (by rw [hj, hc])
      refine (JournalStep.storePage (fun _ => by simp [leBytes_length]) (hp s rfl rfl)).andThen ?_
      have j1 := store_journal .page (s.addr (pageOffset s.config p 8)) (leBytes 4 s.journal.fill) s
      have c1 := store_config .page (s.addr (pageOffset s.config p 8)) (leBytes 4 s.journal.fill) s
      generalize s.store .page (s.addr (pageOffset s.config p 8)) (leBytes 4 s.journal.fill) = t at *
      refine (JournalStep.storePage (fun _ => by simp [leBytes_length]) (hp t j1 c1)).andThen ?_
      have j2 := store_journal .page (t.addr (pageOffset t.config p 4)) (leBytes 4 t.journal.pageSeq.toNat) t
      have c2 := store_config .page (t.addr (pageOffset t.config p 4)) (leBytes 4 t.journal.pageSeq.toNat) t
      generalize t.store .page (t.addr (pageOffset t.config p 4)) (leBytes 4 t.journal.pageSeq.toNat) = u at *
      have j12 := j2.trans j1
      have c12 := c2.trans c1
      refine (JournalStep.storePage (fun _ => by simp [leBytes_length]) (hp u j12 c12)).andThen ?_
      have j3 := store_journal .page (u.addr (pageOffset u.config p 0)) (leBytes 4 pageSealedState) u
      have c3 := store_config .page (u.addr (pageOffset u.config p 0)) (leBytes 4 pageSealedState) u
      generalize u.store .page (u.addr (pageOffset u.config p 0)) (leBytes 4 pageSealedState) = v at *
      have j13 := j3.trans j12
      have c13 := c3.trans c12
      refine ((JournalStep.withJournal _ fun hr => ?_).trans (.setCause _ _)).trans (tryNextPage_step _ _)
      have := hp v j13 c13 hr
      refine ⟨fun _ hq => absurd hq (by simp [Journal.afterSeal]), ?_⟩
      simp only [Journal.afterSeal]
      split <;> omega

theorem JRecord.bytes_length (r : JRecord) : r.bytes.length = 32 := by
  simp [JRecord.bytes, leBytes_length]

theorem putRecord_step {s : State} (r : JRecord) (n : Word) (mark : Bool) (hf : q → s.journal.fill < 128) :
    JournalStep q s (putRecord r n mark s) := by
  unfold putRecord
  cases hc : s.journal.current with
  | none => exact .refl s
  | some p =>
    dsimp only
    have hp : ∀ t : State, t.journal.current = some p →
        t.journal.inRange t.config.pages.length → p < t.config.pages.length := fun t h hr => hr.1 p h
    refine (JournalStep.storePage (fun hq => by have := hf hq; simp only [placeOffset, JRecord.bytes_length]; omega) (hp s hc)).andThen ?_
    have j1 := store_journal .page (s.addr (pageOffset s.config p (placeOffset s.journal.fill))) r.bytes s
    generalize s.store .page (s.addr (pageOffset s.config p (placeOffset s.journal.fill))) r.bytes = t at *
    have hct : t.journal.current = some p := by rw [j1, hc]
    refine (JournalStep.withJournal_same (s := t) { t.journal with
        fill := s.journal.fill + 1
        sealTimer := if t.journal.sealTimer.isNone then some t.localTime else t.journal.sealTimer } rfl rfl).andThen ?_
    have hcu : (t.withJournal { t.journal with
        fill := s.journal.fill + 1
        sealTimer := if t.journal.sealTimer.isNone then some t.localTime else t.journal.sealTimer }).journal.current
          = some p := hct
    generalize t.withJournal { t.journal with
        fill := s.journal.fill + 1
        sealTimer := if t.journal.sealTimer.isNone then some t.localTime else t.journal.sealTimer } = u at *
    have hfirst : JournalStep q u (if s.journal.fill = 0 then
        u.store .page (u.addr (pageOffset u.config p 12)) (leBytes 4 n.toNat) else u) := by
      split
      · exact JournalStep.storePage (fun _ => by simp [leBytes_length]) (hp u hcu)
      · exact .refl u
    refine hfirst.andThen ?_
    have hcv : (if s.journal.fill = 0 then
        u.store .page (u.addr (pageOffset u.config p 12)) (leBytes 4 n.toNat) else u).journal.current = some p := by
      split
      · rw [store_journal, hcu]
      · exact hcu
    generalize (if s.journal.fill = 0 then
        u.store .page (u.addr (pageOffset u.config p 12)) (leBytes 4 n.toNat) else u) = v at *
    refine (JournalStep.storePage (fun _ => by simp [leBytes_length]) (hp v hcv)).andThen ?_
    split
    · exact sealPage_step _
    · exact .refl _

theorem dropRecord_step (s : State) : JournalStep q s (dropRecord s) := by
  unfold dropRecord
  split
  · exact .refl s
  · exact .withJournal_same _ rfl rfl

theorem placeRecord_step {s : State} (r : JRecord) (gap : Bool) (hf : q → s.journal.fill < 128) :
    JournalStep q s (placeRecord r gap s) := by
  unfold placeRecord
  dsimp only
  refine (JournalStep.withJournal_same (s := s) { s.journal with serial := s.journal.serial + 1 } rfl rfl).trans ?_
  split
  · exact putRecord_step _ _ _ hf
  · exact .withJournal_same _ rfl rfl

theorem formGap_step {s : State} (hf : q → s.journal.fill < 128) : JournalStep q s (formGap s) := by
  unfold formGap
  split
  · exact .refl s
  · exact ((JournalStep.withJournal_same (s := s) { s.journal with dropped := 0 } rfl rfl).trans (.setCause _ _)).trans
      (placeRecord_step _ _ hf)

theorem drainHead_step {s : State} (hf : q → s.journal.fill < 128) : JournalStep q s (drainHead s) := by
  unfold drainHead
  cases hs : s.journal.spill with
  | nil => exact .refl s
  | cons x rest =>
    exact (JournalStep.withJournal_same (s := s) { s.journal with spill := rest } rfl rfl).trans (putRecord_step _ _ _ hf)

theorem watchSeal_step (n : Word) (place : Place) (s : State) : JournalStep q s (watchSeal n place s) := by
  unfold watchSeal
  dsimp only
  refine (JournalStep.setCause .watch s).trans ?_
  cases place with
  | page seq =>
    dsimp only
    split
    · exact sealPage_step _
    · exact .refl _
  | spill => exact .withJournal_same _ rfl rfl
  | dropped => exact .refl _

/-! ## The fill position -/

theorem fillOk_andThen {s : State} {f : State → State} (hf : s.engine ≠ .halted → (f s).fillOk) :
    (s.andThen f).fillOk := by
  unfold State.andThen
  split
  · exact .inl ‹_›
  · exact hf ‹_›

theorem fillOk_access {s : State} (r : Region) (a n : Nat) (h : s.fillOk) : (s.access r a n).fillOk := by
  unfold State.access
  split
  · exact .inl rfl
  · exact h

theorem openPage_fillOk (p : Nat) (s : State) : (openPage p s).fillOk := by
  unfold openPage
  exact fillOk_andThen fun _ => fillOk_andThen fun _ => .inr (by simp [State.withJournal])

theorem tryNextPage_fillOk {s : State} (b : Bool) (h : s.fillOk) : (tryNextPage b s).fillOk := by
  unfold tryNextPage
  refine fillOk_andThen fun _ => ?_
  have h' := fillOk_access .page (s.addr (pageOffset s.config s.journal.nextPage 0)) 4 h
  split
  · exact openPage_fillOk _ _
  · split
    · exact h'
    · exact h'

theorem reread_fillOk {s : State} (h : s.fillOk) : (reread s).fillOk := by
  unfold reread
  split
  · exact tryNextPage_fillOk _ h
  · exact h

/-- A seal of a page that holds a record leaves a page with a place, or none. -/
theorem sealPage_fillOk_of_record {s : State} (hc : s.journal.current.isSome = true) (hk : s.journal.fill ≠ 0) :
    (sealPage s).fillOk := by
  unfold sealPage
  cases hp : s.journal.current with
  | none => simp [hp] at hc
  | some p =>
    simp only [hk, if_false]
    refine fillOk_andThen fun _ => fillOk_andThen fun _ => fillOk_andThen fun _ => tryNextPage_fillOk _ (.inr ?_)
    simp [State.withJournal, State.setCause, Journal.afterSeal]

theorem sealPage_fillOk {s : State} (h : s.fillOk) : (sealPage s).fillOk := by
  by_cases hc : s.journal.current.isSome = true ∧ s.journal.fill ≠ 0
  · exact sealPage_fillOk_of_record hc.1 hc.2
  · have : sealPage s = s := by
      unfold sealPage
      cases hp : s.journal.current with
      | none => rfl
      | some p =>
        simp only [hp, Option.isSome_some, true_and, not_not] at hc
        simp [hc]
    rw [this]
    exact h

theorem putRecord_fillOk {s : State} (r : JRecord) (n : Word) (mark : Bool) (h : s.journal.fill < 128) :
    (putRecord r n mark s).fillOk := by
  unfold putRecord
  cases hc : s.journal.current with
  | none => exact .inr h
  | some p =>
    dsimp only
    refine fillOk_andThen fun _ => fillOk_andThen fun _ => fillOk_andThen fun _ => fillOk_andThen fun _ => ?_
    have hx : ∀ (t : State), t.journal.current = some p →
        ∀ u : State, u.journal = { t.journal with
            fill := s.journal.fill + 1
            sealTimer := if t.journal.sealTimer.isNone then some t.localTime else t.journal.sealTimer } →
          (if (decide (s.journal.fill + 1 = Config.pageRecords) || mark) = true then sealPage u else u).fillOk := by
      intro t ht u hu
      split
      · exact sealPage_fillOk_of_record (by rw [hu]; simp [ht]) (by rw [hu]; simp)
      · rename_i hn
        refine .inr ?_
        rw [hu]
        have : s.journal.fill + 1 ≠ 128 := fun he => hn (by simp [Config.pageRecords, he])
        show s.journal.fill + 1 < 128
        omega
    refine hx (s.store .page (s.addr (pageOffset s.config p (placeOffset s.journal.fill))) r.bytes)
      (by rw [store_journal, hc]) _ ?_
    rw [store_journal]
    split
    · rw [store_journal]
      rfl
    · rfl

theorem placeRecord_fillOk {s : State} (r : JRecord) (gap : Bool) (h : s.journal.fill < 128) :
    (placeRecord r gap s).fillOk := by
  unfold placeRecord
  dsimp only
  split
  · exact putRecord_fillOk _ _ _ h
  · exact .inr h

theorem formGap_fillOk {s : State} (h : s.journal.fill < 128) : (formGap s).fillOk := by
  unfold formGap
  split
  · exact .inr h
  · exact placeRecord_fillOk _ _ h

theorem fillOk.running {s : State} (h : s.fillOk) (he : s.engine ≠ .halted) : s.journal.fill < 128 :=
  h.resolve_left he

/-- A record handed over is a step of the writer. -/
theorem handRecord_step (r : JRecord) {s : State} (h : q → s.fillOk) : JournalStep q s (handRecord r s).state := by
  unfold handRecord
  dsimp only
  have h1 : JournalStep q s (reread s) := reread_step s
  have f1 : q → (reread s).fillOk := fun hq => reread_fillOk (h hq)
  generalize reread s = t at *
  split
  · exact h1
  · rename_i he
    have ft : q → t.journal.fill < 128 := fun hq => fillOk.running (f1 hq) he
    split
    · exact h1.trans (dropRecord_step t)
    · have h2 := formGap_step ft
      have f2 : q → (formGap t).fillOk := fun hq => formGap_fillOk (ft hq)
      generalize formGap t = u at *
      split
      · exact h1.trans h2
      · rename_i hu
        exact (h1.trans h2).trans (placeRecord_step _ _ fun hq => fillOk.running (f2 hq) hu)

/-- A place is left after a record was handed over. -/
theorem handRecord_fillOk (r : JRecord) {s : State} (h : s.fillOk) : (handRecord r s).state.fillOk := by
  unfold handRecord
  dsimp only
  have f1 := reread_fillOk h
  generalize reread s = t at *
  split
  · exact f1
  · rename_i he
    have ft := fillOk.running f1 he
    split
    · refine .inr ?_
      unfold dropRecord
      split <;> exact ft
    · have f2 := formGap_fillOk ft
      generalize formGap t = u at *
      split
      · exact f2
      · rename_i hu
        exact placeRecord_fillOk _ _ (fillOk.running f2 hu)

theorem record_step (r : JRecord) {s : State} (h : q → s.fillOk) : JournalStep q s (s.record r) := handRecord_step r h

theorem record_fillOk (r : JRecord) {s : State} (h : s.fillOk) : (s.record r).fillOk := handRecord_fillOk r h

end Sys2Proof.Machine
end

