-- ==== Sys2Proof/Laws/Items.lean ====
section
/-! SUPPORT. The items of the split unit: what running a plan does where no access is refused. -/

namespace Sys2Proof.Machine

/-- A record handed over where no access is refused leaves the engine as it was. -/
theorem record_quiet (r : JRecord) {s : State} (h : Accepting s) (he : s.engine ≠ .halted) :
    Accepting (s.record r) ∧ (s.record r).engine = s.engine := by
  obtain ⟨m, c, j, e⟩ := (record_step (q := False) r (s := s) False.elim).quiet h he
  rw [e]
  exact ⟨h, rfl⟩

theorem handRecord_quiet (r : JRecord) {s : State} (h : Accepting s) (he : s.engine ≠ .halted) :
    ∃ m c j, (handRecord r s).state = s.journaled m c j :=
  (handRecord_step (q := False) r (s := s) False.elim).quiet h he

/-- Records handed over where no access is refused change memory, CAUSE and the writer alone. -/
theorem handAll_quiet (rs : List JRecord) {s : State} (h : Accepting s) (he : s.engine ≠ .halted) :
    ∃ m c j, (handAll rs s).state = s.journaled m c j := by
  cases rs with
  | nil => exact ⟨_, _, _, rfl⟩
  | cons r rest =>
    simp only [handAll]
    obtain ⟨m, c, j, e⟩ := handRecord_quiet r h he
    rw [e]
    clear e
    induction rest generalizing m c j with
    | nil => exact ⟨m, c, j, rfl⟩
    | cons r rest ih =>
      rw [List.foldl_cons, State.andThen_running (s := s.journaled m c j) _ he]
      obtain ⟨m', c', j', e'⟩ := handRecord_quiet r (s := s.journaled m c j) h he
      rw [show State.record r (s.journaled m c j) = s.journaled m' c' j' from e']
      exact ih m' c' j'

theorem watchSeal_quiet (n : Word) (place : Place) {s : State} (h : Accepting s) (he : s.engine ≠ .halted) :
    ∃ m c j, watchSeal n place s = s.journaled m c j :=
  (watchSeal_step (q := False) n place s).quiet h he

/-- A plan whose reads end in a memory fault does nothing more. -/
theorem ItemPlan.run_halt {p : ItemPlan} {r : Region} (w : Option WorkItem) {s : State}
    (h : s.accessAll p.reads = s.halt r) : p.run w s = s.halt r := by
  rw [ItemPlan.run, ItemPlan.access, h, State.andThen_halted _ rfl, State.andThen_halted _ rfl]

/-- A plan carried out where no access is refused. -/
theorem ItemPlan.run_quiet (p : ItemPlan) (w : Option WorkItem) {s : State} (h : Accepting s) (he : s.engine ≠ .halted) :
    p.run w s = planEffect p w s := by
  unfold ItemPlan.run ItemPlan.access
  rw [State.accessAll_ok h.1, State.andThen_running _ he, State.storeAll_ok h.1 h.2 he,
    State.andThen_running (s := s.withMem (Memory.writeAll s.mem p.writes)) _ he]
  obtain ⟨m, c, j, e⟩ := handAll_quiet p.records (s := s.withMem (Memory.writeAll s.mem p.writes)) h he
  unfold planEffect
  change _ = itemDone (w.map fun w => p.report w (handAll p.records (s.withMem (Memory.writeAll s.mem p.writes))).serial) [] _
  generalize hg : handAll p.records (s.withMem (Memory.writeAll s.mem p.writes)) = g at *
  have hge : g.state.engine ≠ .halted := by rw [e]; exact he
  have hga : Accepting g.state := by rw [e]; exact h
  change g.state.andThen (p.finish w g.serial g.place) = _
  rw [State.andThen_running _ hge]
  unfold ItemPlan.finish
  dsimp only
  have hu : (if p.watch then watchSeal g.serial g.place { g.state with handovers := g.state.handovers ++ p.handovers }
      else { g.state with handovers := g.state.handovers ++ p.handovers }).engine ≠ .halted := by
    split
    · obtain ⟨m', c', j', e'⟩ := watchSeal_quiet g.serial g.place
        (s := { g.state with handovers := g.state.handovers ++ p.handovers }) hga hge
      rw [e']
      exact hge
    · exact hge
  rw [State.andThen_running _ hu]
  have hs : (handAll p.records { s with mem := Memory.writeAll s.mem p.writes }) = g := hg
  rw [hs]
  generalize (if p.watch then watchSeal g.serial g.place { g.state with handovers := g.state.handovers ++ p.handovers }
      else { g.state with handovers := g.state.handovers ++ p.handovers }) = u
  cases w <;> simp [itemDone, State.popIntake, State.reportEnd, State.withSweep]

end Sys2Proof.Machine
end

