-- ==== Sys2Proof/Laws/Quiet.lean ====
section
/-! SUPPORT. What the steps through the memory port and of the journal writer give where no access is refused. -/

namespace Sys2Proof.Machine

theorem State.working_running {s : State} (h : s.working = true) : s.engine ≠ .halted := by
  intro he
  simp [State.working, he] at h

theorem State.access_quiet {s : State} (h : Accepting s) (r : Region) (a n : Nat) : s.access r a n = s :=
  State.access_ok (State.refuses_of_nil h.1 a n)

/-- An accepted store, and what the step does next. -/
theorem State.store_then {s : State} (h : Accepting s) (he : s.engine ≠ .halted) (r : Region) (a : Nat) (bs : List Byte)
    (f : State → State) : (s.store r a bs).andThen f = f (s.withMem (Memory.writeBytes s.mem a bs)) := by
  rw [State.store_ok (State.refuses_of_nil h.1 a _) h.2 he]
  exact State.andThen_running (s := s.withMem (Memory.writeBytes s.mem a bs)) _ he

/-- The same for a later store of the step. -/
theorem State.withMem_store_then {s : State} (h : Accepting s) (he : s.engine ≠ .halted) (m : List Host.Cell) (r : Region)
    (a : Nat) (bs : List Byte) (f : State → State) :
    ((s.withMem m).store r a bs).andThen f = f (s.withMem (Memory.writeBytes m a bs)) :=
  State.store_then (s := s.withMem m) h he r a bs f

/-- The next page of the writer, opened where it reads FREE (R179). -/
theorem tryNextPage_quiet {s : State} (h : Accepting s) (he : s.engine ≠ .halted) (spill : Bool) :
    tryNextPage spill s =
      if s.field (pageOffset s.config s.journal.nextPage 0) 4 = 0 then { s with
        mem := Memory.writeAll s.mem
          [(.page, s.addr (pageOffset s.config s.journal.nextPage 0), [1, 0, 0, 0]),
           (.page, s.addr (pageOffset s.config s.journal.nextPage 8), [0, 0, 0, 0])]
        journal := { s.journal with current := some s.journal.nextPage, fill := 0 } }
      else if spill then s.setCause .journalSpill else s := by
  unfold tryNextPage
  dsimp only
  rw [State.access_quiet h, State.andThen_running _ he]
  split
  · unfold openPage
    rw [State.store_then h he, State.withMem_store_then h he]
    rfl
  · rfl

/-- The re-read of the next page while the writer is spilling (R177, R181). -/
theorem reread_quiet {s : State} (h : Accepting s) (he : s.engine ≠ .halted) : reread s = afterReread s := by
  unfold reread afterReread Journal.spilling
  dsimp only
  by_cases hc : s.journal.current = none
  · rw [tryNextPage_quiet h he]
    simp [hc, pageOffset, Memory.writeAll]
  · simp [hc]

theorem afterReread_accepting {s : State} (h : Accepting s) : Accepting (afterReread s) := by
  unfold afterReread
  dsimp only
  split
  · exact h
  · exact h

theorem afterReread_engine (s : State) : (afterReread s).engine = s.engine := by
  unfold afterReread
  dsimp only
  split <;> rfl

/-- A seal (R178). -/
theorem sealPage_quiet {s : State} (h : Accepting s) (he : s.engine ≠ .halted) {p : Nat} (hp : s.journal.current = some p)
    (hf : s.journal.fill ≠ 0) :
    sealPage s = tryNextPage true { s with
      mem := Memory.writeAll s.mem [(.page, s.addr (pageOffset s.config p 8), leBytes 4 s.journal.fill),
        (.page, s.addr (pageOffset s.config p 4), leBytes 4 s.journal.pageSeq.toNat),
        (.page, s.addr (pageOffset s.config p 0), [2, 0, 0, 0])]
      cause   := withCause s.cause .pageSealed
      journal := s.journal.afterSeal p s.config.pages.length } := by
  unfold sealPage
  rw [hp]
  dsimp only
  rw [if_neg hf, State.store_then h he, State.withMem_store_then h he, State.withMem_store_then h he]
  rfl

theorem sealPage_none {s : State} (hp : s.journal.current = none) : sealPage s = s := by
  unfold sealPage
  rw [hp]

theorem sealPage_empty {s : State} (hf : s.journal.fill = 0) : sealPage s = s := by
  unfold sealPage
  split
  · rfl
  · rw [if_pos hf]

/-- A record written into the current page (R177). -/
theorem putRecord_quiet {s : State} (h : Accepting s) (he : s.engine ≠ .halted) {p : Nat} (hp : s.journal.current = some p)
    (r : JRecord) (n : Word) (mark : Bool) :
    let o : Nat → Nat := fun k => s.addr (pageOffset s.config p k)
    let t : State := { s with
      mem := Memory.writeAll s.mem ([(.page, o (32 + 32 * s.journal.fill), r.bytes)]
        ++ (if s.journal.fill = 0 then [(.page, o 12, leBytes 4 n.toNat)] else [])
        ++ [(.page, o 8, leBytes 4 (s.journal.fill + 1))])
      journal := { s.journal with
        fill := s.journal.fill + 1
        sealTimer := if s.journal.sealTimer = none then some s.localTime else s.journal.sealTimer } }
    putRecord r n mark s = if s.journal.fill + 1 = 128 ∨ mark = true then sealPage t else t := by
  dsimp only
  unfold putRecord
  rw [hp]
  dsimp only
  rw [State.store_then h he]
  generalize hu : (State.withJournal _ _ : State) = u
  have hue : u.engine ≠ .halted := by simpa [← hu] using he
  have hua : Accepting u := by
    unfold Accepting at *
    simpa [← hu] using h
  rw [State.andThen_running _ hue]
  by_cases hf : s.journal.fill = 0
  · rw [if_pos hf, State.store_then hua hue, State.withMem_store_then hua hue, ← hu]
    simp [hf, hp, Config.pageRecords, State.withMem, State.withJournal, Memory.writeAll, placeOffset, State.addr, State.config]
  · rw [if_neg hf, State.andThen_running _ hue, State.store_then hua hue, ← hu]
    simp [hf, hp, Config.pageRecords, State.withMem, State.withJournal, Memory.writeAll, placeOffset, State.addr, State.config]

end Sys2Proof.Machine
end

