-- ==== Sys2Proof/Laws/Outbox.lean ====
section
/-! SUPPORT. Frames placed in outboxes: they change the panel records alone, and of those the one panel's, and
keep the bounds of R164 and R166. -/

namespace Sys2Proof.Machine

/-- Only the panel records change. -/
theorem placeFrame_panels (i : Nat) (f : OutFrame) (s : State) :
    placeFrame i f s = { s with panels := (placeFrame i f s).panels } := by
  unfold placeFrame
  split
  · rfl
  · split <;> rfl

theorem placeFrames_panels (i : Nat) (fs : List OutFrame) (s : State) :
    placeFrames i fs s = { s with panels := (placeFrames i fs s).panels } := by
  induction fs generalizing s with
  | nil => rfl
  | cons f fs ih =>
    simp only [placeFrames]
    rw [ih, placeFrame_panels i f s]

theorem placeFrame_length (i : Nat) (f : OutFrame) (s : State) : (placeFrame i f s).panels.length = s.panels.length := by
  unfold placeFrame
  split
  · rfl
  · split
    · simp [State.withPanel]
    · rfl

theorem placeFrames_length (i : Nat) (fs : List OutFrame) (s : State) :
    (placeFrames i fs s).panels.length = s.panels.length := by
  induction fs generalizing s with
  | nil => rfl
  | cons f fs ih => simp only [placeFrames]; rw [ih, placeFrame_length]

/-- The panels of other screens keep their records. -/
theorem placeFrame_other {i j : Nat} (h : j ≠ i) (f : OutFrame) (s : State) :
    (placeFrame i f s).panels[j]? = s.panels[j]? := by
  unfold placeFrame
  split
  · rfl
  · split
    · simp [State.withPanel, List.getElem?_set_ne (Ne.symm h)]
    · rfl

theorem placeFrames_other {i j : Nat} (h : j ≠ i) (fs : List OutFrame) (s : State) :
    (placeFrames i fs s).panels[j]? = s.panels[j]? := by
  induction fs generalizing s with
  | nil => rfl
  | cons f fs ih => simp only [placeFrames]; rw [ih, placeFrame_other h]

/-- What becomes of a panel's record depends on that record and the exchanges of the panel lines alone. -/
theorem placeFrame_same {i : Nat} {s t : State} (hp : s.panels[i]? = t.panels[i]?) (hl : s.panelLines = t.panelLines)
    (f : OutFrame) : (placeFrame i f s).panels[i]? = (placeFrame i f t).panels[i]? := by
  unfold placeFrame
  rw [← hp]
  cases h : s.panels[i]? with
  | none => simp only []; rw [h, ← hp, h]
  | some p =>
    have hi : i < s.panels.length := (List.getElem?_eq_some_iff.1 h).1
    have hi' : i < t.panels.length := (List.getElem?_eq_some_iff.1 (hp ▸ h)).1
    simp only []
    split
    · simp only [State.withPanel, List.getElem?_set_self hi, List.getElem?_set_self hi', State.panelInFlight, hl]
    · exact hp

theorem placeFrames_same {i : Nat} {s t : State} (hp : s.panels[i]? = t.panels[i]?) (hl : s.panelLines = t.panelLines)
    (fs : List OutFrame) : (placeFrames i fs s).panels[i]? = (placeFrames i fs t).panels[i]? := by
  induction fs generalizing s t with
  | nil => exact hp
  | cons f fs ih =>
    simp only [placeFrames]
    refine ih (placeFrame_same hp hl f) ?_
    rw [placeFrame_panels, placeFrame_panels i f t]
    exact hl

/-! ## The bounds of an outbox (R164, R166) -/

/-- The frames of an outbox stand under keys of their own, and their rows are 1 to 8 (R166). -/
def KeysSound (box : List OutFrame) : Prop :=
  box.Pairwise (fun f g => f.key ≠ g.key) ∧ ∀ f ∈ box, ∀ r, f.key = .row r → 1 ≤ r ∧ r ≤ 8

/-- The keys a frame of an outbox can have (R166). -/
def frameKeys : List FrameKey :=
  [.row 1, .row 2, .row 3, .row 4, .row 5, .row 6, .row 7, .row 8, .brightness, .banner, .ping]

/-- An outbox with sound keys holds at most 11 frames. -/
theorem KeysSound.length {box : List OutFrame} (h : KeysSound box) : box.length ≤ 11 := by
  have hn : (box.map OutFrame.key).Nodup := List.pairwise_map.2 h.1
  have hs : box.map OutFrame.key ⊆ frameKeys := by
    intro k hk
    obtain ⟨f, hf, rfl⟩ := List.mem_map.1 hk
    cases hkey : f.key with
    | row r =>
      obtain ⟨h1, h2⟩ := h.2 f hf r hkey
      have : r = 1 ∨ r = 2 ∨ r = 3 ∨ r = 4 ∨ r = 5 ∨ r = 6 ∨ r = 7 ∨ r = 8 := by omega
      rcases this with rfl | rfl | rfl | rfl | rfl | rfl | rfl | rfl <;> simp [frameKeys]
    | brightness => simp [frameKeys]
    | banner => simp [frameKeys]
    | ping => simp [frameKeys]
  have := (hn.subperm hs).length_le
  rw [List.length_map] at this
  exact this

theorem replaceFrame_keys (f : OutFrame) (fly : Bool) (box : List OutFrame) :
    (replaceFrame f fly box).map OutFrame.key = box.map OutFrame.key := by
  induction box generalizing fly with
  | nil => rfl
  | cons g box ih =>
    rw [replaceFrame]
    split
    · rename_i h; simp [h]
    · simp [ih]

theorem keysSound_of_keys {box box' : List OutFrame} (h : KeysSound box)
    (hk : box'.map OutFrame.key = box.map OutFrame.key) : KeysSound box' := by
  refine ⟨?_, fun f hf r hr => ?_⟩
  · have := List.pairwise_map.2 h.1
    exact List.pairwise_map.1 (hk ▸ this)
  · have hm : f.key ∈ box.map OutFrame.key := hk ▸ List.mem_map_of_mem hf
    obtain ⟨g, hg, e⟩ := List.mem_map.1 hm
    exact h.2 g hg r (e.trans hr)

/-- A frame with a key that no frame of the outbox has joins its tail. -/
theorem KeysSound.append {box : List OutFrame} (h : KeysSound box) {f : OutFrame} (hn : ∀ g ∈ box, g.key ≠ f.key)
    (hf : ∀ r, f.key = .row r → 1 ≤ r ∧ r ≤ 8) : KeysSound (box ++ [f]) := by
  refine ⟨List.pairwise_append.2 ⟨h.1, List.pairwise_singleton _ _, fun g hg k hk => ?_⟩, fun g hg r hr => ?_⟩
  · cases List.mem_singleton.1 hk
    exact hn g hg
  · rcases List.mem_append.1 hg with hg | hg
    · exact h.2 g hg r hr
    · cases List.mem_singleton.1 hg
      exact hf r hr

/-- Placing a frame keeps an outbox sound (R166). -/
theorem KeysSound.placeIn {box : List OutFrame} (h : KeysSound box) {f : OutFrame} (fly : Bool)
    (hf : ∀ r, f.key = .row r → 1 ≤ r ∧ r ≤ 8) : KeysSound (placeIn f fly box) := by
  unfold Machine.placeIn
  split
  · exact keysSound_of_keys h (replaceFrame_keys f fly box)
  · rename_i hn
    simp only [List.any_eq_true, decide_eq_true_eq, not_exists, not_and] at hn
    exact h.append (f := { f with replaced := false }) hn hf

theorem PanelBounded.keysSound {p : Panel} (h : PanelBounded p) : KeysSound p.outbox := ⟨h.keys, h.rows⟩

/-- A panel record with another outbox that is sound stays bounded. -/
theorem PanelBounded.withOutbox {p : Panel} (h : PanelBounded p) {box : List OutFrame} (hb : KeysSound box) :
    PanelBounded { p with outbox := box } :=
  ⟨hb.length.trans (by decide), hb.1, hb.2, h.misses, h.waits⟩

/-- Frames handed over keep every panel record bounded, where their rows are 1 to 8 (R164, R166). -/
theorem placeFrames_bounded {fs : List OutFrame} (hf : ∀ f ∈ fs, ∀ r, f.key = .row r → 1 ≤ r ∧ r ≤ 8) (i : Nat) {s : State}
    (h : ∀ p ∈ s.panels, PanelBounded p) : ∀ p ∈ (placeFrames i fs s).panels, PanelBounded p := by
  induction fs generalizing s with
  | nil => exact h
  | cons f fs ih =>
    refine ih (fun g hg => hf g (List.mem_cons_of_mem _ hg)) ?_
    unfold placeFrame
    split
    · exact h
    · rename_i p hp
      split
      · intro q hq
        rcases List.mem_or_eq_of_mem_set hq with hq | rfl
        · exact h q hq
        · have hb := h p (List.mem_of_getElem? hp)
          exact hb.withOutbox (hb.keysSound.placeIn _ (hf f (List.mem_cons_self ..)))
      · exact h

/-- The rows of the frames of a board change are rows of the screen (R144). -/
theorem rowFrames_rows (rows : Nat) (before after : List Entry) :
    ∀ f ∈ rowFrames rows before after, ∀ r, f.key = .row r → 1 ≤ r ∧ r ≤ rows := by
  intro f hf r hr
  obtain ⟨k, hk, hf⟩ := List.mem_flatMap.1 hf
  have hk := List.mem_range.1 hk
  have hkey : f.key = .row (k + 1) := by
    unfold rowChange at hf
    split at hf
    · cases hf
    · rw [List.mem_singleton.1 hf]; rfl
    · rw [List.mem_singleton.1 hf]; rfl
    · split at hf
      · cases hf
      · rw [List.mem_singleton.1 hf]; rfl
  rw [hkey] at hr
  cases hr
  omega

theorem eventFrames_rows (rows : Nat) (x y : ScreenState) :
    ∀ f ∈ eventFrames rows x y, ∀ r, f.key = .row r → 1 ≤ r ∧ r ≤ rows := by
  intro f hf r hr
  rcases List.mem_append.1 hf with hf | hf
  · split at hf
    · cases hf
    · rw [List.mem_singleton.1 hf] at hr
      cases hr
  · exact rowFrames_rows _ _ _ f hf r hr

/-- So are those of a full refresh (R151). -/
theorem refreshFrames_rows (rows : Nat) (x : ScreenState) :
    ∀ f ∈ refreshFrames rows x, ∀ r, f.key = .row r → 1 ≤ r ∧ r ≤ rows := by
  intro f hf r hr
  rcases List.mem_append.1 hf with hf | hf
  · obtain ⟨k, hk, rfl⟩ := List.mem_map.1 hf
    have hk := List.mem_range.1 hk
    have hkey : (rowNow (k + 1) x.board[k]?).key = .row (k + 1) := by
      unfold rowNow
      split <;> rfl
    rw [hkey] at hr
    cases hr
    omega
  · rcases List.mem_cons.1 hf with rfl | hf
    · cases hr
    · rw [List.mem_singleton.1 hf] at hr
      cases hr

end Sys2Proof.Machine
end

