-- ==== Sys2Proof/Laws/Screens.lean ====
section
/-! SUPPORT. What an event at one screen can change, an event made at every screen in turn, and what offering
the free rows of a board can do. -/

namespace Sys2Proof.Machine

/-- An operation on the screen `i`: it changes that screen's state and its panel's record alone, by these two and what
the rest of the state holds. -/
structure ScreenLocal (i : Nat) (g : State → State) : Prop where
  shape   : ∀ s, g s = { s with screens := (g s).screens, panels := (g s).panels }
  screens : ∀ s, (g s).screens.length = s.screens.length
  panels  : ∀ s, (g s).panels.length = s.panels.length
  other   : ∀ s j, j ≠ i → (g s).screens[j]? = s.screens[j]? ∧ (g s).panels[j]? = s.panels[j]?
  same    : ∀ s xs ps, s.screens[i]? = xs[i]? → s.panels[i]? = ps[i]? →
    (g s).screens[i]? = (g { s with screens := xs, panels := ps }).screens[i]? ∧
    (g s).panels[i]? = (g { s with screens := xs, panels := ps }).panels[i]?

theorem ScreenLocal.id (i : Nat) : ScreenLocal i id :=
  ⟨fun _ => rfl, fun _ => rfl, fun _ => rfl, fun _ _ _ => ⟨rfl, rfl⟩, fun _ _ _ h h' => ⟨h, h'⟩⟩

theorem ScreenLocal.placeFrames (i : Nat) (fs : List OutFrame) : ScreenLocal i (placeFrames i fs) where
  shape s := by conv_lhs => rw [placeFrames_panels]
                rw [show (Machine.placeFrames i fs s).screens = s.screens by rw [placeFrames_panels]]
  screens s := by rw [placeFrames_panels]
  panels s := placeFrames_length i fs s
  other s j h := ⟨by rw [placeFrames_panels], placeFrames_other h fs s⟩
  same s xs ps h h' := by
    refine ⟨?_, placeFrames_same (s := s) (t := { s with screens := xs, panels := ps }) h' rfl fs⟩
    rw [placeFrames_panels, placeFrames_panels i fs { s with screens := xs, panels := ps }]
    exact h

theorem ScreenLocal.comp {i : Nat} {f g : State → State} (hf : ScreenLocal i f) (hg : ScreenLocal i g) :
    ScreenLocal i fun s => g (f s) where
  shape s := by rw [hg.shape (f s), hf.shape s]
  screens s := by rw [hg.screens, hf.screens]
  panels s := by rw [hg.panels, hf.panels]
  other s j h := ⟨by rw [(hg.other _ j h).1, (hf.other s j h).1], by rw [(hg.other _ j h).2, (hf.other s j h).2]⟩
  same s xs ps h h' := by
    have hs := hf.same s xs ps h h'
    have e : f { s with screens := xs, panels := ps }
        = { f s with
            screens := (f { s with screens := xs, panels := ps }).screens
            panels  := (f { s with screens := xs, panels := ps }).panels } := by
      conv_lhs => rw [hf.shape]
      conv_rhs => rw [hf.shape s]
    rw [e]
    exact hg.same (f s) _ _ hs.1 hs.2

/-- A change of screen `i`'s state by a function of it and of what the event is given, with its frames. -/
theorem ScreenLocal.change (i : Nat) (f : Screen → Nat → Nat → ScreenState → ScreenState)
    (fs : Screen → ScreenState → ScreenState → List OutFrame) :
    ScreenLocal i fun s =>
      match s.config.screens[i]?, s.screens[i]? with
      | some c, some x =>
        Machine.placeFrames i (fs c x (f c s.raceClock s.localTime x)) (s.withScreen i (f c s.raceClock s.localTime x))
      | _, _ => s where
  shape s := by
    split
    · rename_i c x _ _
      rw [placeFrames_panels]
      rfl
    · rfl
  screens s := by
    split
    · rw [placeFrames_panels]; simp [State.withScreen]
    · rfl
  panels s := by
    split
    · rw [placeFrames_length]; rfl
    · rfl
  other s j h := by
    split
    · refine ⟨?_, ?_⟩
      · rw [placeFrames_panels]; simp [State.withScreen, List.getElem?_set_ne (Ne.symm h)]
      · rw [placeFrames_other h]; rfl
    · exact ⟨rfl, rfl⟩
  same s xs ps h h' := by
    dsimp only
    rw [show State.config { s with screens := xs, panels := ps } = s.config from rfl, ← h]
    cases hc : s.config.screens[i]? with
    | none => exact ⟨h, h'⟩
    | some c =>
      cases hx : s.screens[i]? with
      | none => exact ⟨h, h'⟩
      | some x =>
        have hi : i < s.screens.length := (List.getElem?_eq_some_iff.1 hx).1
        have hi' : i < xs.length := (List.getElem?_eq_some_iff.1 (h ▸ hx)).1
        dsimp only
        generalize f c s.raceClock s.localTime x = y
        refine ⟨?_, placeFrames_same (s := s.withScreen i y)
          (t := State.withScreen i y { s with screens := xs, panels := ps }) h' rfl _⟩
        rw [placeFrames_panels, placeFrames_panels i _ (State.withScreen i y { s with screens := xs, panels := ps })]
        simp only [State.withScreen, List.getElem?_set_self hi, List.getElem?_set_self hi']

theorem ScreenLocal.screenEvent (i : Nat) (f : Screen → Nat → Nat → ScreenState → ScreenState) :
    ScreenLocal i (screenEvent i f) :=
  ScreenLocal.change i f fun c x y => eventFrames c.rows x y

theorem ScreenLocal.endScreen (i : Nat) : ScreenLocal i (endScreen i) :=
  ScreenLocal.change i (fun _ _ now x => endedScreen now x) fun c x y =>
    rowFrames c.rows x.board y.board ++ (if x.power = .dim then [] else [brightnessFrame .dim])

theorem ScreenLocal.setBanner (b : Option Banner) (i : Nat) : ScreenLocal i (setBanner b i) :=
  (ScreenLocal.screenEvent i (bannerEvent b)).comp (ScreenLocal.placeFrames i [bannerFrame b])

theorem ScreenLocal.refresh (i : Nat) : ScreenLocal i (refresh i) where
  shape s := by
    unfold Machine.refresh
    split
    · exact (ScreenLocal.placeFrames i _).shape s
    · rfl
  screens s := by
    unfold Machine.refresh
    split
    · exact (ScreenLocal.placeFrames i _).screens s
    · rfl
  panels s := by
    unfold Machine.refresh
    split
    · exact (ScreenLocal.placeFrames i _).panels s
    · rfl
  other s j h := by
    unfold Machine.refresh
    split
    · exact (ScreenLocal.placeFrames i _).other s j h
    · exact ⟨rfl, rfl⟩
  same s xs ps h h' := by
    unfold Machine.refresh
    rw [show State.config { s with screens := xs, panels := ps } = s.config from rfl]
    dsimp only
    rw [← h]
    split
    · exact (ScreenLocal.placeFrames i _).same s xs ps h h'
    · exact ⟨h, h'⟩

/-- An event made at each of the first `n` screens acts at each as it would act alone. -/
theorem eachScreen_local {f : Nat → State → State} (hf : ∀ i, ScreenLocal i (f i)) (n : Nat) (s : State) :
    eachScreen f n s = { s with screens := (eachScreen f n s).screens, panels := (eachScreen f n s).panels } ∧
    (eachScreen f n s).screens.length = s.screens.length ∧
    (eachScreen f n s).panels.length = s.panels.length ∧
    ∀ i, (i < n → (eachScreen f n s).screens[i]? = (f i s).screens[i]? ∧ (eachScreen f n s).panels[i]? = (f i s).panels[i]?) ∧
      (n ≤ i → (eachScreen f n s).screens[i]? = s.screens[i]? ∧ (eachScreen f n s).panels[i]? = s.panels[i]?) := by
  induction n with
  | zero => exact ⟨rfl, rfl, rfl, fun i => ⟨fun h => absurd h (by omega), fun _ => ⟨rfl, rfl⟩⟩⟩
  | succ n ih =>
    obtain ⟨h1, h2, h3, h4⟩ := ih
    simp only [eachScreen]
    generalize eachScreen f n s = u at *
    refine ⟨?_, by rw [(hf n).screens, h2], by rw [(hf n).panels, h3], fun i => ⟨fun hi => ?_, fun hi => ?_⟩⟩
    · exact ((hf n).shape u).trans
        (congrArg (fun v : State => { v with screens := (f n u).screens, panels := (f n u).panels }) h1)
    · by_cases hn : i = n
      · subst hn
        have h := ((hf i).same s u.screens u.panels ((h4 i).2 (le_refl i)).1.symm ((h4 i).2 (le_refl i)).2.symm)
        rw [← h1] at h
        exact ⟨h.1.symm, h.2.symm⟩
      · obtain ⟨a, b⟩ := (hf n).other u i hn
        obtain ⟨c, d⟩ := (h4 i).1 (by omega)
        exact ⟨a.trans c, b.trans d⟩
    · obtain ⟨a, b⟩ := (hf n).other u i (by omega)
      obtain ⟨c, d⟩ := (h4 i).2 (by omega)
      exact ⟨a.trans c, b.trans d⟩

/-! ## The free rows of a board (R141) -/

/-- The power state's change leaves the schedule, the floor and the tallies. -/
theorem retarget_schedule (now : Nat) (x : ScreenState) :
    (retarget now x).schedule = x.schedule ∧ (retarget now x).floor = x.floor ∧
    (retarget now x).dropped = x.dropped ∧ (retarget now x).missed = x.missed := by
  unfold retarget
  split <;> exact ⟨rfl, rfl, rfl, rfl⟩

theorem retestFace_schedule (c : Screen) (clock now : Nat) (f : FaceIx) (x : ScreenState) :
    (retestFace c clock now f x).schedule = x.schedule ∧ (retestFace c clock now f x).floor = x.floor ∧
    (retestFace c clock now f x).dropped = x.dropped ∧ (retestFace c clock now f x).missed = x.missed := by
  unfold retestFace
  split <;> exact ⟨rfl, rfl, rfl, rfl⟩

/-- The tests that follow a change of the schedule leave the schedule, the floor and the tallies. -/
theorem retest_schedule (c : Screen) (clock now : Nat) (x : ScreenState) :
    (retest c clock now x).schedule = x.schedule ∧ (retest c clock now x).floor = x.floor ∧
    (retest c clock now x).dropped = x.dropped ∧ (retest c clock now x).missed = x.missed := by
  unfold retest
  simp [retarget_schedule, retestFace_schedule]

/-- Entries but for their shown-since. -/
theorem showEntry_entries (clock : Nat) (e : Entry) (l : List Entry) :
    (showEntry clock e l).map (fun y => { y with shownSince := none }) = l.map fun y => { y with shownSince := none } := by
  rw [showEntry, List.map_map]
  refine List.map_congr_left fun y _ => ?_
  dsimp only [Function.comp]
  split <;> rfl

theorem shownCount_cons (y : Entry) (l : List Entry) :
    shownCount (y :: l) = (if y.shownSince.isSome then 1 else 0) + shownCount l := by
  unfold shownCount
  rw [List.filter_cons]
  split <;> simp [Nat.add_comm]

theorem shownCount_le_showEntry (clock : Nat) (e : Entry) (l : List Entry) :
    shownCount l ≤ shownCount (showEntry clock e l) := by
  induction l with
  | nil => exact le_refl 0
  | cons y l ih =>
    rw [showEntry, List.map_cons, ← showEntry, shownCount_cons, shownCount_cons]
    refine Nat.add_le_add ?_ ih
    by_cases h : y.isFor e.runner e.face = true
    · rw [if_pos h]; split <;> simp
    · rw [if_neg h]

/-- Showing a PENDING entry raises the number of SHOWN entries. -/
theorem shownCount_lt_showEntry (clock : Nat) {e : Entry} {l : List Entry} (h : e ∈ l) (hp : e.shownSince = none) :
    shownCount l < shownCount (showEntry clock e l) := by
  induction l with
  | nil => exact absurd h (List.not_mem_nil)
  | cons y l ih =>
    have hl := shownCount_le_showEntry clock e l
    rw [showEntry, List.map_cons, ← showEntry, shownCount_cons, shownCount_cons]
    by_cases hy : y = e
    · subst hy
      have hf : y.isFor y.runner y.face = true := by simp [Entry.isFor]
      rw [if_pos hf, hp]
      simp only [Option.isSome_none, Option.isSome_some, if_true]
      simp; omega
    · have hm := ih ((List.mem_cons.1 h).resolve_left (Ne.symm hy))
      refine Nat.add_lt_add_of_le_of_lt ?_ hm
      by_cases h : y.isFor e.runner e.face = true
      · rw [if_pos h]; split <;> simp
      · rw [if_neg h]

theorem showFree_full {c : Screen} {x : ScreenState} (clock now n : Nat) (h : c.rows ≤ shownCount x.schedule) :
    showFree c clock now n x = x := by
  cases n with
  | zero => rfl
  | succ n => rw [showFree, if_neg (by omega)]

/-- With a turn for each free row, how many turns there are does not matter. -/
theorem showFree_enough (c : Screen) (clock now : Nat) : ∀ (n m : Nat) (x : ScreenState),
    c.rows ≤ shownCount x.schedule + n → c.rows ≤ shownCount x.schedule + m →
    showFree c clock now n x = showFree c clock now m x := by
  intro n
  induction n with
  | zero => intro m x hn _; rw [showFree_full clock now 0 (by omega), showFree_full clock now m (by omega)]
  | succ n ih =>
    intro m x hn hm
    by_cases hf : c.rows ≤ shownCount x.schedule
    · rw [showFree_full clock now _ hf, showFree_full clock now _ hf]
    · cases m with
      | zero => omega
      | succ m =>
        rw [showFree, showFree, if_pos (by omega), if_pos (by omega)]
        cases he : x.schedule.find? (Entry.showable clock) with
        | none => rfl
        | some e =>
          have hp : e.shownSince = none := by
            have := List.find?_some he
            simp [Entry.showable] at this
            exact this.1.1
          have := shownCount_lt_showEntry clock (List.mem_of_find?_eq_some he) hp
          refine ih m _ ?_ ?_ <;> rw [(retest_schedule c clock now _).1] <;> dsimp only <;> omega

/-- Offering the rows of a screen that has none free changes nothing (R141). -/
theorem offerRows_full {c : Screen} {x : ScreenState} (clock now : Nat) (h : c.rows ≤ shownCount x.schedule) :
    offerRows c clock now x = x := showFree_full clock now c.rows h

/-- Offering rows to a schedule with no showable entry changes nothing (R141). -/
theorem offerRows_none {clock : Nat} {x : ScreenState} (c : Screen) (now : Nat)
    (h : x.schedule.find? (Entry.showable clock) = none) : offerRows c clock now x = x := by
  unfold offerRows
  cases c.rows with
  | zero => rfl
  | succ n =>
    rw [showFree]
    split
    · rw [h]
    · rfl

/-- While a row is free and an entry showable, the first in schedule order is shown and the rest offered (R141). -/
theorem offerRows_next {c : Screen} {clock : Nat} {x : ScreenState} {e : Entry} (now : Nat)
    (h : shownCount x.schedule < c.rows) (he : x.schedule.find? (Entry.showable clock) = some e) :
    offerRows c clock now x =
      offerRows c clock now (retest c clock now { x with schedule := showEntry clock e x.schedule }) := by
  conv_lhs => rw [offerRows, showFree_enough c clock now c.rows (c.rows + 1) x (by omega) (by omega), showFree,
    if_pos h, he]
  rfl

/-- What offering rows can do: entries change in their shown-since alone, and afterwards no row is free or no entry
showable (R141). -/
theorem offerRows_frame (c : Screen) (clock now : Nat) (x : ScreenState) :
    let y := offerRows c clock now x
    (c.rows ≤ shownCount y.schedule ∨ y.schedule.find? (Entry.showable clock) = none) ∧
    y.schedule.map (fun e => { e with shownSince := none }) = x.schedule.map (fun e => { e with shownSince := none }) ∧
    y.floor = x.floor ∧ y.dropped = x.dropped ∧ y.missed = x.missed := by
  suffices h : ∀ (n : Nat) (x : ScreenState), c.rows ≤ shownCount x.schedule + n →
      let y := showFree c clock now n x
      (c.rows ≤ shownCount y.schedule ∨ y.schedule.find? (Entry.showable clock) = none) ∧
      y.schedule.map (fun e => { e with shownSince := none }) = x.schedule.map (fun e => { e with shownSince := none }) ∧
      y.floor = x.floor ∧ y.dropped = x.dropped ∧ y.missed = x.missed from h c.rows x (by omega)
  intro n
  induction n with
  | zero => intro x hn; exact ⟨.inl hn, rfl, rfl, rfl, rfl⟩
  | succ n ih =>
    intro x hn
    rw [showFree]
    by_cases hf : shownCount x.schedule < c.rows
    · rw [if_pos hf]
      cases he : x.schedule.find? (Entry.showable clock) with
      | none => exact ⟨.inr he, rfl, rfl, rfl, rfl⟩
      | some e =>
        have hp : e.shownSince = none := by
          have := List.find?_some he
          simp [Entry.showable] at this
          exact this.1.1
        have hlt := shownCount_lt_showEntry clock (List.mem_of_find?_eq_some he) hp
        obtain ⟨r1, r2, r3, r4⟩ := retest_schedule c clock now { x with schedule := showEntry clock e x.schedule }
        obtain ⟨a, b, d, f, g⟩ := ih (retest c clock now { x with schedule := showEntry clock e x.schedule })
          (by rw [r1]; show c.rows ≤ shownCount (showEntry clock e x.schedule) + n; omega)
        exact ⟨a, by rw [b, r1]; exact showEntry_entries clock e x.schedule, d.trans r2, f.trans r3, g.trans r4⟩
    · rw [if_neg hf]
      exact ⟨.inl (by omega), rfl, rfl, rfl, rfl⟩

end Sys2Proof.Machine
end

