-- ==== Sys2Proof/Laws/Cuts.lean ====
section
/-! SUPPORT. Steps cut short: what a step can still do with no write left, and what a cut leaves of a list of writes. -/

namespace Sys2Proof.Machine

/-! ## Steps with no write left -/

/-- From `s`, with no write left, the step comes to `t` with shared memory as it was and no write left. -/
def SpentStep (s t : State) : Prop := s.Spent → t.Spent ∧ t.mem = s.mem

namespace SpentStep

theorem refl (s : State) : SpentStep s s := fun h => ⟨h, rfl⟩

theorem trans {s t u : State} (h : SpentStep s t) (h' : SpentStep t u) : SpentStep s u :=
  fun hs => ⟨(h' (h hs).1).1, (h' (h hs).1).2.trans (h hs).2⟩

theorem andThen {s t : State} {f : State → State} (h : SpentStep s t) (hf : SpentStep t (f t)) :
    SpentStep s (t.andThen f) := by
  unfold State.andThen
  split
  · exact h
  · exact h.trans hf

/-- An operation that leaves the engine, the port and memory. -/
theorem stays {s t : State} (he : t.engine = s.engine) (hp : t.port = s.port) (hm : t.mem = s.mem) : SpentStep s t :=
  fun h => ⟨h.imp (he.trans ·) (hp.trans ·), hm⟩

theorem journal {s t : State} (h : JournalStep False s t) : SpentStep s t := h.spent

theorem access (r : Region) (a n : Nat) (s : State) : SpentStep s (s.access r a n) :=
  journal (.access r a n s)

theorem store (r : Region) (a : Nat) (bs : List Byte) (s : State) : SpentStep s (s.store r a bs) := by
  unfold State.store State.andThen
  split
  · exact access r a _ s
  · exact (access r a _ s).trans fun h => State.put_spent a bs ‹_› h

theorem accessAll (reads : List (Region × Nat × Nat)) (s : State) : SpentStep s (s.accessAll reads) := by
  induction reads generalizing s with
  | nil => exact .refl s
  | cons x reads ih => exact (access x.1 x.2.1 x.2.2 s).andThen (ih _)

theorem storeAll (ws : List (Region × Nat × List Byte)) (s : State) : SpentStep s (s.storeAll ws) := by
  induction ws generalizing s with
  | nil => exact .refl s
  | cons x ws ih => exact (store x.1 x.2.1 x.2.2 s).andThen (ih _)

theorem record (r : JRecord) (s : State) : SpentStep s (s.record r) := journal (record_step r False.elim)

theorem withSweep (w : Sweep) (s : State) : SpentStep s (s.withSweep w) := stays rfl rfl rfl

theorem endSweep (s : State) : SpentStep s (endSweep s) := (journal (sweepEnded_step s)).andThen (withSweep _ _)

theorem advanceSweep (i : Nat) (s : State) : SpentStep s (advanceSweep i s) := by
  unfold Machine.advanceSweep
  split
  · exact withSweep _ s
  · exact endSweep s

theorem local_ {i : Nat} {g : State → State} (h : ScreenLocal i g) (s : State) : SpentStep s (g s) := by
  rw [h.shape s]
  exact stays rfl rfl rfl

theorem eachScreen {f : Nat → State → State} (hf : ∀ i, ScreenLocal i (f i)) (n : Nat) (s : State) :
    SpentStep s (eachScreen f n s) := by
  rw [(eachScreen_local hf n s).1]
  exact stays rfl rfl rfl

theorem handAll (rs : List JRecord) (s : State) : SpentStep s (handAll rs s).state := by
  cases rs with
  | nil => exact .refl s
  | cons r rest =>
    simp only [Machine.handAll]
    have h : SpentStep s (handRecord r s).state := journal (handRecord_step r False.elim)
    generalize (handRecord r s).state = t at h
    induction rest generalizing t with
    | nil => exact h
    | cons r rest ih => exact ih _ (h.andThen (record r t))

theorem finish (p : ItemPlan) (w : Option WorkItem) (n : Word) (place : Place) (s : State) :
    SpentStep s (p.finish w n place s) := by
  unfold ItemPlan.finish
  dsimp only
  have h0 : SpentStep s { s with handovers := s.handovers ++ p.handovers } := stays rfl rfl rfl
  refine SpentStep.andThen (t := if p.watch then _ else _) ?_ ?_
  · split
    · exact h0.trans (journal (watchSeal_step n place _))
    · exact h0
  · cases w <;> exact stays rfl rfl rfl

theorem run (p : ItemPlan) (w : Option WorkItem) (s : State) : SpentStep s (p.run w s) :=
  ((accessAll p.reads s).andThen (storeAll p.writes _)).andThen ((handAll p.records _).andThen (finish p w _ _ _))

theorem handleHead (s : State) : SpentStep s (handleHead s) := by
  unfold Machine.handleHead
  split
  · cases s.intake with
    | nil => exact .refl s
    | cons x rest =>
      dsimp only
      cases s.planOf x with
      | none => exact .refl s
      | some p => exact run p x.work? s
  · exact .refl s

theorem takeSlot (i : Nat) (s : State) : SpentStep s (takeSlot i s) := (store _ _ _ s).andThen (withSweep _ _)

theorem failSlot (i : Nat) (code : OutcomeCode) (notify : Bool) (s : State) : SpentStep s (failSlot i code notify s) := by
  refine (takeSlot i s).andThen ?_
  generalize Machine.takeSlot i s = t
  exact stays rfl rfl rfl

theorem dispatch (w : WorkItem) (s : State) : SpentStep s (dispatch w s) := by
  have hi : SpentStep s (offerItem w s) := by
    unfold offerItem
    split
    · refine SpentStep.andThen (SpentStep.trans ?_ (takeSlot w.slot _)) (advanceSweep _ _)
      exact stays rfl rfl rfl
    · exact endSweep s
  unfold Machine.dispatch
  cases w.kind
  case banner =>
    refine (takeSlot w.slot s).andThen ?_
    generalize Machine.takeSlot w.slot s = t
    refine SpentStep.andThen ?_ (advanceSweep _ _)
    exact stays rfl rfl rfl
  case flushJournal =>
    refine (takeSlot w.slot s).andThen ?_
    generalize Machine.takeSlot w.slot s = t
    refine SpentStep.andThen ?_ (advanceSweep _ _)
    exact stays rfl rfl rfl
  all_goals exact hi

theorem visitSlot (i : Nat) (s : State) : SpentStep s (visitSlot i s) := by
  refine (access .work _ 4 s).andThen ?_
  split
  · exact advanceSweep i _
  · refine (accessAll _ _).andThen ?_
    split
    · exact failSlot _ _ _ _
    · dsimp only
      split
      · exact dispatch _ _
      · exact failSlot _ _ _ _

theorem writeEnd (e : EndReport) (s : State) : SpentStep s (writeEnd e s) := by
  refine (storeAll _ s).andThen ?_
  generalize s.storeAll (s.endWrites e) = u
  have h : SpentStep u (if e.notify then (u.withSweep (u.sweep.closed e)).setCause .workDone
      else u.withSweep (u.sweep.closed e)) := by
    split <;> exact stays rfl rfl rfl
  refine h.trans ?_
  dsimp only
  generalize (if e.notify then (u.withSweep (u.sweep.closed e)).setCause .workDone
      else u.withSweep (u.sweep.closed e)) = v
  split
  · exact advanceSweep _ v
  · exact .refl v

theorem writeStatus (i : Nat) (xs : List ScreenState) (s : State) : SpentStep s (writeStatus i xs s) := by
  induction xs generalizing i s with
  | nil => exact .refl s
  | cons x xs ih => exact (store _ _ _ s).andThen (ih _ _)

theorem runFlush (w : WorkItem) (s : State) : SpentStep s (runFlush w s) := by
  refine (journal (reread_step s)).andThen ?_
  generalize reread s = t
  dsimp only
  refine (journal (sealPage_step t)).andThen ?_
  generalize sealPage t = u
  exact stays rfl rfl rfl

theorem drawFrom (m : Fin 8) (s : State) : SpentStep s (drawFrom m s) := by
  unfold Machine.drawFrom
  split
  · exact .refl s
  · dsimp only
    split
    · exact stays rfl rfl rfl
    · refine (stays (t := (s.withDecoder m (s.decoders[m]).drawn).withAssembler { s.assembler with arbiter := m + 1 })
        rfl rfl rfl).trans ?_
      generalize (s.withDecoder m (s.decoders[m]).drawn).withAssembler { s.assembler with arbiter := m + 1 } = u
      unfold handleRead
      split
      · exact record _ u
      · exact stays rfl rfl rfl

theorem endCall (l : LineIx) (s : State) : SpentStep s (endCall l s) := stays rfl rfl rfl

theorem silence (l : LineIx) (a : Nat) (s : State) : SpentStep s (silence l a s) := by
  unfold Machine.silence
  dsimp only
  split
  · refine SpentStep.trans ?_ (record _ _)
    exact stays rfl rfl rfl
  · exact stays rfl rfl rfl

theorem matFrame (l : LineIx) (type : Byte) (f : RxFrame) {handle : Nat → State → State}
    (hh : ∀ a t, SpentStep t (handle a t)) (s : State) : SpentStep s (matFrame l type f handle s) := by
  unfold Machine.matFrame
  split
  · exact .refl s
  · split
    · split
      · refine SpentStep.andThen (SpentStep.andThen ?_ (hh _ _)) (endCall l _)
        unfold decoderReplied
        dsimp only
        split
        · refine SpentStep.trans ?_ (record _ _)
          exact stays rfl rfl rfl
        · exact stays rfl rfl rfl
      · exact silence l _ s
    · exact .refl s

theorem handleEmpty (l : LineIx) (f : RxFrame) (a : Nat) (s : State) : SpentStep s (handleEmpty l f a s) := by
  unfold Machine.handleEmpty
  dsimp only
  split
  · exact stays rfl rfl rfl
  · refine SpentStep.trans ?_ (record _ _)
    exact stays rfl rfl rfl

theorem handleBatch (l : LineIx) (f : RxFrame) (a : Nat) (s : State) : SpentStep s (handleBatch l f a s) := by
  unfold Machine.handleBatch
  dsimp only
  split <;> exact stays rfl rfl rfl

theorem panelMissed (i : Nat) (p : Panel) (s : State) : SpentStep s (panelMissed i p s) := by
  unfold Machine.panelMissed
  split
  · exact stays rfl rfl rfl
  · split
    · exact stays rfl rfl rfl
    · refine SpentStep.trans ?_ (record _ _)
      exact stays rfl rfl rfl

theorem panelWaits (i : Nat) (p : Panel) (s : State) : SpentStep s (panelWaits i p s) := by
  unfold Machine.panelWaits
  split
  · exact panelMissed i p s
  · exact stays rfl rfl rfl

theorem panelAcked (i : Nat) (p : Panel) (s : State) : SpentStep s (panelAcked i p s) := by
  unfold Machine.panelAcked
  split
  · refine SpentStep.andThen (SpentStep.trans ?_ (record _ _)) (local_ (ScreenLocal.refresh i) _)
    exact stays rfl rfl rfl
  · exact stays rfl rfl rfl

theorem concludeExchange (l : LineIx) (i : Nat) {act : Nat → Panel → State → State}
    (ha : ∀ i p t, SpentStep t (act i p t)) (s : State) : SpentStep s (concludeExchange l i act s) := by
  unfold Machine.concludeExchange
  split
  · exact stays rfl rfl rfl
  · exact (stays (t := endExchange l s) rfl rfl rfl).trans (ha _ _ _)

theorem panelFrame (l : LineIx) (type : Byte) (f : RxFrame) {act : Nat → Panel → State → State}
    (ha : ∀ i p t, SpentStep t (act i p t)) (s : State) : SpentStep s (panelFrame l type f act s) := by
  unfold Machine.panelFrame
  split
  · exact .refl s
  · split
    · split
      · exact concludeExchange l _ ha s
      · exact concludeExchange l _ panelMissed s
    · exact .refl s

theorem scanTable (L : Loaded) (s : State) : SpentStep s (scanTable L s) := by
  unfold Machine.scanTable
  generalize List.range L.slotCount = is
  induction is generalizing s with
  | nil => exact .refl s
  | cons i is ih =>
    refine SpentStep.trans ?_ (ih _)
    exact (SpentStep.refl s).andThen ((access _ _ _ s).andThen (storeAll _ _))

/-- An operation from a state that has not halted, which may move the engine but not the port. -/
theorem running {s t : State} (he : s.engine ≠ .halted) (hp : t.port = s.port) (hm : t.mem = s.mem) : SpentStep s t :=
  fun h => ⟨.inr (hp.trans (h.resolve_left he)), hm⟩

theorem enterPrep (L : Loaded) {s : State} (he : s.engine ≠ .halted) : SpentStep s (enterPrep L s) := by
  unfold Machine.enterPrep State.access
  split
  · exact journal (.halt .directory (fun h => by simp_all [State.refuses]))
  · rw [State.andThen_running _ he]
    dsimp only
    generalize decide (s.directory 8 ≠ 0) = resume
    have h1 : SpentStep s (beginBlocks L resume s) := running he rfl rfl
    have h2 : SpentStep s (refreshAll (beginBlocks L resume s)) :=
      h1.trans (eachScreen ScreenLocal.refresh _ _)
    generalize refreshAll (beginBlocks L resume s) = u at h2
    refine SpentStep.trans ?_ (journal (tryNextPage_step true _))
    refine h2.trans ?_
    split
    · exact .refl u
    · exact stays rfl rfl rfl

theorem endScreens (s : State) : SpentStep s (endScreens s) := by
  unfold Machine.endScreens
  have h := eachScreen ScreenLocal.endScreen s.screens.length s
  generalize Machine.eachScreen endScreen s.screens.length s = u at h
  refine h.trans ?_
  exact stays rfl rfl rfl

theorem endRaceNow {s : State} (he : s.engine ≠ .halted) : SpentStep s (endRaceNow s) := by
  refine SpentStep.trans ?_ (journal (sealPage_step _))
  refine SpentStep.trans ?_ (endScreens _)
  exact running he rfl rfl

/-- Any step that may be under way, with no write left to it. -/
theorem runUnderway (u : Underway) (s : State) : SpentStep s (runUnderway u s) := by
  cases u with
  | load =>
    simp only [Machine.runUnderway, execLoadPassed, stateAfter]
    split
    · rename_i he
      have he : s.engine ≠ .halted := by rw [he]; decide
      split
      · rename_i L _
        have ht := scanTable L s
        unfold State.andThen
        split
        · exact ht
        · exact ht.trans (enterPrep L ‹_›)
      · rename_i r hr
        intro h
        exact ⟨.inl rfl, rfl⟩
      · exact .refl s
    · exact .refl s
  | endRace =>
    simp only [Machine.runUnderway]
    split
    · rename_i he
      exact endRaceNow (by rw [he]; decide)
    · exact .refl s
  | item => exact handleHead s
  | slotVisit =>
    simp only [Machine.runUnderway, execSlotVisit, stateAfter]
    split
    · split
      · exact .refl s
      · exact visitSlot _ s
    · exact .refl s
  | itemEnd =>
    simp only [Machine.runUnderway, execItemEnd, stateAfter]
    split
    · split
      · exact .refl s
      · exact writeEnd _ s
    · exact .refl s
  | statusTimer =>
    simp only [Machine.runUnderway, execStatusTimer, stateAfter]
    split
    · refine (writeStatus 0 s.screens s).andThen ?_
      generalize Machine.writeStatus 0 s.screens s = t
      exact stays rfl rfl rfl
    · exact .refl s
  | sealTimer =>
    simp only [Machine.runUnderway, execSealTimer, stateAfter]
    split
    · exact journal (sealPage_step s)
    · exact .refl s
  | drain =>
    simp only [Machine.runUnderway, execDrain, stateAfter]
    split
    · exact journal (drainHead_step False.elim)
    · exact .refl s
  | flushJournal =>
    simp only [Machine.runUnderway, execFlushJournal, stateAfter]
    split
    · split
      · exact .refl s
      · exact runFlush _ s
    · exact .refl s
  | draw =>
    simp only [Machine.runUnderway, execDraw, stateAfter]
    split
    · split
      · exact .refl s
      · refine SpentStep.trans ?_ (drawFrom _ _)
        unfold settleClusters
        split <;> exact stays rfl rfl rfl
    · exact .refl s
  | batch l f => exact matFrame l _ f (handleBatch l f) s
  | empty l f => exact matFrame l _ f (handleEmpty l f) s
  | busy l f => exact matFrame l _ f (fun _ t => .refl t) s
  | silence l failed =>
    simp only [Machine.runUnderway, execSilence, stateAfter]
    split
    · split
      · exact .refl s
      · exact silence l _ s
    · exact .refl s
  | ack l f => exact panelFrame l _ f panelAcked s
  | wait l f => exact panelFrame l _ f panelWaits s
  | noReply l failed =>
    simp only [Machine.runUnderway, execNoReply, stateAfter]
    split
    · split
      · exact .refl s
      · exact concludeExchange l _ panelMissed s
    · exact .refl s

end SpentStep

/-! ## Steps cut short (R16, R17, R114) -/

theorem cutAll_nil (s : State) : cutAll [] s = s := rfl

theorem cutAll_cons (c : Cut) (cuts : List Cut) (s : State) : cutAll (c :: cuts) s = cutAll cuts (cutAll [c] s) := rfl

theorem State.openPort_mem (s : State) : s.openPort.mem = s.mem := by
  unfold State.openPort
  split <;> rfl

/-- A step cut short before it begins does nothing. -/
theorem cutAll_unbegun (u : Underway) (s : State) : cutAll [⟨u, 0, false⟩] s = s := rfl

/-- A step cut short before its first write leaves shared memory as it was. -/
theorem cutAll_zero (u : Underway) (onward : Bool) (s : State) : (cutAll [⟨u, 0, onward⟩] s).mem = s.mem := by
  cases onward with
  | false => rfl
  | true => exact (State.openPort_mem _).trans (SpentStep.runUnderway u { s with port := .left 0 } (.inr rfl)).2

/-- A step that makes a list of writes and then goes on, cut short right after a write of the list: it has made the
writes up to that one, and nothing else (R17, R114; log entry 8). -/
theorem cutAt_storeAll {ws : List (Region × Nat × List Byte)} {s : State} {made : Nat} (k : State → State)
    (h : Accepting s) (he : s.engine ≠ .halted) (hm : made ≤ ws.length) :
    cutAt made false (fun s => (s.storeAll ws).andThen k) s = s.withMem (Memory.writeAll s.mem (ws.take made)) := by
  cases made with
  | zero => rfl
  | succ n =>
    unfold cutAt State.withPort
    dsimp only
    rw [if_neg Bool.false_ne_true, State.storeAll_last (s := { s with port := .last n }) h.1 rfl he (by omega),
      State.andThen_halted _ rfl]
    unfold State.openPort State.stopPort
    dsimp only [State.withMem]
    rw [← h.2]

/-- The same step cut short onward: shared memory holds the same. -/
theorem cutAt_storeAll_mem {ws : List (Region × Nat × List Byte)} {s : State} {made : Nat} {k : State → State}
    (h : Accepting s) (he : s.engine ≠ .halted) (hk : ∀ t, SpentStep t (k t)) (hm : made ≤ ws.length) (onward : Bool) :
    (cutAt made onward (fun s => (s.storeAll ws).andThen k) s).mem = Memory.writeAll s.mem (ws.take made) := by
  cases onward with
  | false => rw [cutAt_storeAll k h he hm]; rfl
  | true =>
    unfold cutAt State.withPort
    rw [if_pos rfl, State.openPort_mem]
    dsimp only
    rw [State.storeAll_left (s := { s with port := .left made }) h.1 rfl he]
    split
    · have hl : made = ws.length := by omega
      rw [State.andThen_running _ (by exact he), hl, List.take_length, Nat.sub_self]
      exact (hk _ (.inr rfl)).2
    · rw [State.andThen_halted _ rfl]
      rfl

/-! ## Plans and the memory port -/

theorem chipSearch_port (q : Port) (L : Loaded) (chip : Word) (s : State) (n lo hi : Nat) :
    chipSearch { s with port := q } L chip n lo hi = chipSearch s L chip n lo hi := by
  induction n generalizing lo hi with
  | zero => rfl
  | succ n ih => simp only [chipSearch, ih]; rfl

theorem crossingPlan_port (L : Loaded) (x : Crossing) (reads : List (Region × Nat × Nat)) (q : Port) (s : State) :
    crossingPlan { s with port := q } L x reads = crossingPlan s L x reads := rfl

theorem localPlan_port (c : ClosedCrossing) (q : Port) (s : State) : localPlan { s with port := q } c = localPlan s c := by
  unfold localPlan
  dsimp only
  rw [chipSearch_port, show State.config { s with port := q } = s.config from rfl]
  simp only [crossingPlan_port]
  rfl

/-- What a plan is does not depend on the memory port. -/
theorem State.planOf_port (x : IntakeItem) (q : Port) (s : State) : State.planOf { s with port := q } x = s.planOf x := by
  cases x with
  | crossing c => exact congrArg some (localPlan_port c q s)
  | work w =>
    unfold State.planOf
    cases w.kind <;> rfl

/-- The item in flight is handled by its plan (R92). -/
theorem handleHead_plan {s : State} {x : IntakeItem} {rest : List IntakeItem} {p : ItemPlan} (hw : s.working = true)
    (hi : s.intake = x :: rest) (hp : s.planOf x = some p) : handleHead s = p.run x.work? s := by
  simp [handleHead, hw, hi, hp]

end Sys2Proof.Machine
end

