-- ==== Sys2Proof/Laws/Load.lean ====
section
/-! SUPPORT. The load: what its reads and checks answer, table by table, in the words of the statements. -/

namespace Sys2Proof.Machine

/-! ## Reads and checks -/

theorem loadReads_ok {s : State} {reads : List (Region × Nat × Nat)} (h : Readable s reads) :
    s.loadReads reads = .ok () := by
  unfold State.loadReads
  have hn : (reads.find? fun x => s.refuses x.2.1 x.2.2) = none := by
    rw [List.find?_eq_none]
    exact fun x hx => by simp [h x hx]
  rw [hn]
  split <;> rfl

/-- Where the board refuses a read of a table, the load stops for that table's region. -/
theorem loadReads_refused {s : State} {reads : List (Region × Nat × Nat)} {r : Region} (h : ¬ Readable s reads)
    (hr : ∀ x ∈ reads, x.1 = r) : s.loadReads reads = .error (.refused r) := by
  unfold Readable at h
  push Not at h
  obtain ⟨x, hx, hxr⟩ := h
  unfold State.loadReads
  have hne : s.refused.isEmpty = false := by
    unfold State.refuses at hxr
    cases hs : s.refused with
    | nil => simp [hs] at hxr
    | cons _ _ => rfl
  cases hf : reads.find? fun x => s.refuses x.2.1 x.2.2 with
  | none =>
    rw [List.find?_eq_none] at hf
    exact absurd (by simpa using hxr) (hf x hx)
  | some y => simp [hne, hr y (List.mem_of_find?_eq_some hf)]

/-- The region of each table's reads (R16). -/
theorem loadReads_regions (s : State) :
    (∀ x ∈ s.directoryReads, x.1 = .directory) ∧ (∀ x ∈ s.courseReads, x.1 = .course)
      ∧ (∀ x ∈ s.waveTableReads, x.1 = .wave) ∧ (∀ x ∈ s.screenReads, x.1 = .screen)
      ∧ (∀ x ∈ s.chipReads, x.1 = .chip) ∧ (∀ x ∈ s.pageReads, x.1 = .pageDirectory) := by
  refine ⟨?_, ?_, ?_, ?_, ?_, ?_⟩ <;> intro x hx <;>
    simp only [State.directoryReads, State.courseReads, State.waveTableReads, State.screenReads, State.chipReads,
      State.pageReads, List.mem_flatMap, List.mem_map] at hx <;> aesop

/-- A stage of a load that passes, and one that stops it. -/
theorem stage_ok {α β : Type} {x : Except LoadStop α} {a : α} {f : α → Except LoadStop β} (h : x = .ok a) :
    (x >>= f) = f a := by
  subst h
  rfl

theorem stage_stops {α β : Type} {x : Except LoadStop α} {e : LoadStop} {f : α → Except LoadStop β} (h : x = .error e) :
    (x >>= f) = .error e := by
  subst h
  rfl

theorem within_iff {lo hi x : Nat} : within lo hi x = true ↔ Between lo hi x := by simp [within, Between]

/-! ## The directory (R5) -/

theorem magicCheck_iff (s : State) :
    (s.directory 0 == Config.magic && s.directory 4 == Config.formatVersion) = true ↔ MagicRight s := by
  simp [MagicRight, State.directory, Config.magic, Config.formatVersion]

theorem disjointAll_iff (l : List (Nat × Nat)) :
    disjointAll l = true ↔ l.Pairwise fun x y => ¬ (0 < x.2 ∧ 0 < y.2 ∧ x.1 < y.1 + y.2 ∧ y.1 < x.1 + x.2) := by
  induction l with
  | nil => simp [disjointAll]
  | cons x rest ih =>
    simp only [disjointAll, Bool.and_eq_true, ih, List.pairwise_cons, Bool.not_eq_true', List.any_eq_false]
    refine and_congr_left fun _ => forall₂_congr fun y _ => ?_
    simp only [overlap, Bool.and_eq_true, decide_eq_true_eq, and_assoc]

theorem directoryChecks_ok {s : State} (h : MagicRight s) (h' : SizesRight s) : loadChecks s.directoryChecks = .ok () := by
  obtain ⟨h1, h2, h3, h4, h5, h6, h7⟩ := h'
  have hd : disjointAll s.extents = true := (disjointAll_iff _).2 h7
  have hs : within 10 1000 s.sweepIntervalIn = true := within_iff.2 h6
  have hc : (s.directory 44 == 16 && within 0 32 (s.directory 52) && within 0 65000 (s.directory 60)
      && within 0 65000 (s.directory 68) && within 16 256 (s.directory 76)) = true := by
    simp only [Bool.and_eq_true, beq_iff_eq, within_iff, Between]
    exact ⟨⟨⟨⟨h1, Nat.zero_le _, h2⟩, Nat.zero_le _, h3⟩, Nat.zero_le _, h4⟩, h5⟩
  simp only [State.directoryChecks, loadChecks, (magicCheck_iff s).2 h, hc, hs, hd, if_true]

theorem directoryChecks_badMagic {s : State} (h : ¬ MagicRight s) :
    loadChecks s.directoryChecks = .error (.failed .badMagic) := by
  have hm : ¬ (s.directory 0 == Config.magic && s.directory 4 == Config.formatVersion) = true :=
    fun hc => h ((magicCheck_iff s).1 hc)
  simp only [State.directoryChecks, loadChecks, if_neg hm]

theorem directoryChecks_badSize {s : State} (h : MagicRight s) (h' : ¬ SizesRight s) :
    loadChecks s.directoryChecks = .error (.failed .badSize) := by
  simp only [State.directoryChecks, loadChecks, (magicCheck_iff s).2 h, if_true]
  split
  · rename_i hc
    split
    · rename_i hs
      split
      · rename_i hd
        exfalso
        simp only [Bool.and_eq_true, beq_iff_eq, within_iff, Between] at hc hs
        exact h' ⟨hc.1.1.1.1, hc.1.1.1.2.2, hc.1.1.2.2, hc.1.2.2, hc.2, hs, (disjointAll_iff _).1 hd⟩
      · rfl
    · rfl
  · rfl

/-! ## The course (R6) -/

theorem settingChecks_ok {s : State} (h : SettingsRight s) : loadChecks s.settingChecks = .ok () := by
  obtain ⟨h1, h2, h3, h4⟩ := h
  have e1 : within 2 32 (s.directory 36) = true := within_iff.2 h1
  have e2 : (within 150000 400000 s.pMinIn && within 600000 1800000 s.pMaxIn
      && within 1 Config.clockCeiling (s.directory 28)) = true := by
    simp only [Bool.and_eq_true, within_iff]
    exact ⟨⟨h2, h3⟩, h4⟩
  simp only [State.settingChecks, loadChecks, e1, e2, if_true]

theorem settingChecks_fail {s : State} (h : ¬ SettingsRight s) :
    loadChecks s.settingChecks = .error (.failed .badCourse) := by
  simp only [State.settingChecks, loadChecks]
  split
  · rename_i h1
    split
    · rename_i h2
      simp only [Bool.and_eq_true, within_iff] at h1 h2
      exact absurd ⟨h1, h2.1.1, h2.1.2, h2.2⟩ h
    · rfl
  · rfl

/-- The points of the table below `p`, as the loaded copy keeps them. -/
def tablePoints (s : State) (p : Nat) : List Point := (List.range p).map (tablePoint s)

theorem tablePoints_succ (s : State) (p : Nat) : tablePoints s (p + 1) = tablePoints s p ++ [tablePoint s p] := by
  simp [tablePoints, List.range_succ]

theorem pointIn_eq (s : State) (p : Nat) :
    s.pointIn p = if pointField s p 2 1 ≤ 2 ∧ pointField s p 3 1 ≤ 1 ∧ pointField s p 5 1 ≤ 1 then some (tablePoint s p)
      else none := by
  have ek : s.field (s.pointOffset p 2) 1 = pointField s p 2 1 := rfl
  have es : s.field (s.pointOffset p 3) 1 = pointField s p 3 1 := rfl
  have ec : s.field (s.pointOffset p 5) 1 = pointField s p 5 1 := rfl
  have kind : ∀ n, PointKind.ofCode n = if n ≤ 2 then some (if n = 0 then .start else if n = 1 then .split else .finish)
      else none := by
    intro n
    rcases n with _ | _ | _ | n <;> simp [PointKind.ofCode]
  have source : ∀ n, Source.ofCode n = if n ≤ 1 then some (if n = 0 then .fromMats else .fromHost) else none := by
    intro n
    rcases n with _ | _ | n <;> simp [Source.ofCode]
  have choice : ∀ n, TimeChoice.ofCode n = if n ≤ 1 then some (if n = 0 then .first else .peak) else none := by
    intro n
    rcases n with _ | _ | n <;> simp [TimeChoice.ofCode]
  unfold State.pointIn
  rw [ek, es, ec, kind, source, choice]
  by_cases h1 : pointField s p 2 1 ≤ 2
  · by_cases h2 : pointField s p 3 1 ≤ 1
    · by_cases h3 : pointField s p 5 1 ≤ 1
      · simp only [h1, h2, h3, and_self, if_true]
        rfl
      · simp only [h1, h2, h3, and_false, if_true, if_false]
    · simp only [h1, h2, false_and, and_false, if_true, if_false]
  · simp only [h1, false_and, if_false]

theorem tablePoint_kind {s : State} {p : Nat} (h : pointField s p 2 1 ≤ 2) :
    ((tablePoint s p).kind = .start ↔ pointField s p 2 1 = 0) ∧ ((tablePoint s p).kind = .finish ↔ pointField s p 2 1 = 2) := by
  simp only [tablePoint]
  constructor <;> split <;> (try split) <;> simp_all
  omega

/-- The window and place checks of a point with defined codes (R6). -/
theorem placeCheck_iff {s : State} {p : Nat}
    (h : pointField s p 2 1 ≤ 2 ∧ pointField s p 3 1 ≤ 1 ∧ pointField s p 5 1 ≤ 1) :
    (within 1000 30000 (tablePoint s p).window && placedRight (s.field 36 4) p (tablePoint s p)) = true
      ↔ PointCodesRight s p := by
  simp only [placedRight, Bool.and_eq_true, within_iff, beq_iff_eq, decide_eq_decide, Bool.or_eq_true,
    decide_eq_true_eq, (tablePoint_kind h.1).1, (tablePoint_kind h.1).2]
  constructor
  · rintro ⟨hw, ⟨hs, hf⟩, hd⟩
    exact ⟨h.1, h.2.1, h.2.2, hw, hs.symm, hf.symm, fun hp => hd.resolve_left fun hn => hn hp⟩
  · rintro ⟨_, _, _, hw, hs, hf, hd⟩
    refine ⟨hw, ⟨hs.symm, hf.symm⟩, ?_⟩
    by_cases hp : p = 0
    · exact .inr (hd hp)
    · exact .inl hp

theorem orderCheck_iff (s : State) (p : Nat) :
    (((tablePoints s p).getLast?.map fun y => decide (y.distance < (tablePoint s p).distance)).getD true) = true
      ↔ PointOrderRight s p := by
  cases p with
  | zero => simp [tablePoints, PointOrderRight]
  | succ p =>
    simp only [tablePoints_succ, PointOrderRight, tablePoint, List.getLast?_append, List.getLast?_singleton, Option.some_or,
      Option.map_some, Option.getD_some, Nat.zero_lt_succ, forall_const, Nat.add_sub_cancel]
    exact decide_eq_true_iff

theorem field_one_lt (s : State) (o : Nat) : s.field o 1 < 256 := by
  simp only [State.field, Memory.readBytes, leValue]
  have := (Memory.read s.mem (s.addr o)).isLt
  omega

theorem matsCheck_iff (s : State) (p : Nat) :
    matsRight (tablePoints s p) (tablePoint s p) = true ↔ PointMatsRight s p := by
  have zero : ∀ n, n < 256 → (BitVec.ofNat 8 n = 0 ↔ n = 0) := by
    intro n hn
    rw [← BitVec.toNat_inj]
    simp [Nat.mod_eq_of_lt hn]
  have both : ∀ a b, a < 256 → b < 256 → (BitVec.ofNat 8 a &&& BitVec.ofNat 8 b = 0 ↔ a &&& b = 0) := by
    intro a b ha hb
    rw [← BitVec.toNat_inj]
    simp [Nat.mod_eq_of_lt ha, Nat.mod_eq_of_lt hb]
  have lt : ∀ q, pointField s q 4 1 < 256 := fun q => field_one_lt s _
  have src : (tablePoint s p).source = .fromMats ↔ pointField s p 3 1 = 0 := by
    simp only [tablePoint]
    split <;> simp_all
  have mats : ∀ q, (tablePoint s q).mats = BitVec.ofNat 8 (pointField s q 4 1) := fun _ => rfl
  simp only [matsRight, Bool.and_eq_true, beq_iff_eq, decide_eq_decide, List.all_eq_true, decide_eq_true_eq, src, mats,
    PointMatsRight, ne_eq, zero _ (lt p), tablePoints, List.mem_map, List.mem_range, forall_exists_index, and_imp,
    forall_apply_eq_imp_iff₂, both _ _ (lt _) (lt _)]

/-- One point of the table checked with those before it (R6). -/
theorem loadPoints_next {s : State} {n p : Nat} (h : PointRight s p) :
    s.loadPoints (s.field 36 4) (n + 1) p (tablePoints s p) = s.loadPoints (s.field 36 4) n (p + 1) (tablePoints s (p + 1)) := by
  obtain ⟨hc, ho, hm⟩ := h
  have hcodes := And.intro hc.1 (And.intro hc.2.1 hc.2.2.1)
  rw [State.loadPoints, pointIn_eq, if_pos hcodes]
  simp only [pointChecks, loadChecks, (placeCheck_iff hcodes).2 hc, (orderCheck_iff s p).2 ho, (matsCheck_iff s p).2 hm,
    if_true, tablePoints_succ]

theorem loadPoints_codes {s : State} {n p : Nat} (h : ¬ PointCodesRight s p) :
    s.loadPoints (s.field 36 4) (n + 1) p (tablePoints s p) = .error (.failed .badCourse) := by
  rw [State.loadPoints, pointIn_eq]
  split
  · rename_i hn
    split at hn
    · cases hn
    · rfl
  · rename_i x hx
    split at hx
    · rename_i hcodes
      cases hx
      have : ¬ (within 1000 30000 (tablePoint s p).window && placedRight (s.field 36 4) p (tablePoint s p)) = true :=
        fun hc => h ((placeCheck_iff hcodes).1 hc)
      simp only [pointChecks, loadChecks, if_neg this]
    · cases hx

theorem loadPoints_order {s : State} {n p : Nat} (hc : PointCodesRight s p) (h : ¬ PointOrderRight s p) :
    s.loadPoints (s.field 36 4) (n + 1) p (tablePoints s p) = .error (.failed .badPointOrder) := by
  have hcodes := And.intro hc.1 (And.intro hc.2.1 hc.2.2.1)
  rw [State.loadPoints, pointIn_eq, if_pos hcodes]
  simp only [pointChecks, loadChecks, (placeCheck_iff hcodes).2 hc, if_true,
    if_neg fun hx => h ((orderCheck_iff s p).1 hx)]

theorem loadPoints_mats {s : State} {n p : Nat} (hc : PointCodesRight s p) (ho : PointOrderRight s p)
    (h : ¬ PointMatsRight s p) :
    s.loadPoints (s.field 36 4) (n + 1) p (tablePoints s p) = .error (.failed .badMatset) := by
  have hcodes := And.intro hc.1 (And.intro hc.2.1 hc.2.2.1)
  rw [State.loadPoints, pointIn_eq, if_pos hcodes]
  simp only [pointChecks, loadChecks, (placeCheck_iff hcodes).2 hc, (orderCheck_iff s p).2 ho, if_true,
    if_neg fun hx => h ((matsCheck_iff s p).1 hx)]

/-- The points below `k` passed: what is left of the table is checked from `k` on. -/
theorem loadPoints_prefix {s : State} {k : Nat} (n : Nat) (h : ∀ p, p < k → PointRight s p) :
    s.loadPoints (s.field 36 4) (k + n) 0 [] = s.loadPoints (s.field 36 4) n k (tablePoints s k) := by
  induction k generalizing n with
  | zero => simp [tablePoints]
  | succ k ih =>
    rw [show k + 1 + n = k + (n + 1) by omega, ih (n + 1) fun p hp => h p (by omega), loadPoints_next (h k (by omega))]

theorem loadPoints_ok {s : State} (h : ∀ p, p < s.field 36 4 → PointRight s p) :
    s.loadPoints (s.field 36 4) (s.field 36 4) 0 [] = .ok (tablePoints s (s.field 36 4)) := by
  have := loadPoints_prefix 0 h
  rw [Nat.add_zero] at this
  rw [this, State.loadPoints]

/-! ## Waves and screens (R7) -/

theorem waveCheck_iff (s : State) (w : Nat) : gunRight (s.field (s.directory 40 + 8 * w) 4) = true ↔ WaveRight s w := by
  simp only [gunRight, WaveRight, State.directory, Config.absentWord, Config.clockCeiling, Bool.or_eq_true, beq_iff_eq]
  exact or_congr_right decide_eq_true_iff

theorem loadChecks_same {e : LoadError} {α : Type} (l : List α) (f : α → Bool) :
    loadChecks (l.map fun x => (f x, e)) = if ∀ x ∈ l, f x = true then .ok () else .error (.failed e) := by
  induction l with
  | nil => simp [loadChecks]
  | cons x rest ih =>
    simp only [List.map_cons, loadChecks, ih, List.forall_mem_cons]
    by_cases hx : f x = true
    · simp [hx]
    · simp [hx]

theorem waveChecks_eq (s : State) [Decidable (∀ w, w < 16 → WaveRight s w)] :
    loadChecks s.waveChecks = if ∀ w, w < 16 → WaveRight s w then .ok () else .error (.failed .badWave) := by
  rw [State.waveChecks, loadChecks_same]
  simp only [List.mem_range, waveCheck_iff]

/-- The screens of the table below `i`. -/
def tableScreens (s : State) (i : Nat) : List Screen := (List.range i).map (tableScreen s)

theorem tableScreens_succ (s : State) (i : Nat) : tableScreens s (i + 1) = tableScreens s i ++ [tableScreen s i] := by
  simp [tableScreens, List.range_succ]

theorem screenIn_eq (s : State) (i : Nat) : s.screenIn i = tableScreen s i := by
  have one : ∀ d x, orDefaultPlusOne d x = defaulted (d + 1) x - 1 := by
    intro d x
    unfold orDefaultPlusOne defaulted
    split <;> rfl
  unfold State.screenIn tableScreen
  simp only [one]
  rfl

theorem Screen.unique_iff {s : State} {i : Nat} (h : ∀ j, j ≤ i → screenField s j 0 1 ≤ 1) :
    (tableScreen s i).unique (tableScreens s i) = true ↔
      ∀ j, j < i → ¬ (screenField s j 0 1 = screenField s i 0 1 ∧ screenField s j 1 1 = screenField s i 1 1) := by
  have line : ∀ a b, a ≤ 1 → b ≤ 1 → ((Fin.ofNat 2 a : Fin 2) = Fin.ofNat 2 b ↔ a = b) := by
    intro a b ha hb
    interval_cases a <;> interval_cases b <;> simp
  simp only [Screen.unique, tableScreens, List.all_eq_true, List.mem_map, List.mem_range, forall_exists_index, and_imp,
    forall_apply_eq_imp_iff₂, Bool.not_eq_true', Bool.and_eq_false_iff, decide_eq_false_iff_not, beq_eq_false_iff_ne, ne_eq]
  refine forall₂_congr fun j hj => ?_
  simp only [tableScreen, line _ _ (h j (by omega)) (h i (by omega))]
  tauto

/-- The checks of a screen's own fields, those of the earlier screens having passed (R7). -/
theorem screenCheck_iff {s : State} {i : Nat} (h : ∀ j, j < i → ScreenRight s j) :
    (within 0 1 (s.field (s.screenOffset i 0) 1) && within 1 2 (s.field (s.screenOffset i 3) 1)
      && (tableScreen s i).inRange && (tableScreen s i).unique (tableScreens s i)) = true ↔ ScreenRight s i := by
  have e0 : s.field (s.screenOffset i 0) 1 = screenField s i 0 1 := rfl
  have e3 : s.field (s.screenOffset i 3) 1 = screenField s i 3 1 := rfl
  have hr : (tableScreen s i).inRange = true ↔
      Between 1 16 (tableScreen s i).address ∧ Between 1 8 (tableScreen s i).rows ∧ Between 500 10000 (tableScreen s i).dwell
        ∧ Between 8 48 (tableScreen s i).high ∧ (tableScreen s i).low < (tableScreen s i).high
        ∧ Between 5 600 (tableScreen s i).dimAfter ∧ Between 60 3600 (tableScreen s i).darkAfter
        ∧ (tableScreen s i).wakeLead ≤ 120 ∧ Between 1 15 (tableScreen s i).flapLimit
        ∧ Between 60 3600 (tableScreen s i).flapWindow := by
    generalize tableScreen s i = c
    simp only [Screen.inRange, Bool.and_eq_true, within_iff, decide_eq_true_eq, Between, Nat.zero_le, true_and, and_assoc]
  rw [Bool.and_eq_true, Bool.and_eq_true, Bool.and_eq_true, hr, within_iff, within_iff, e0, e3]
  constructor
  · rintro ⟨⟨⟨h0, h1⟩, ha, hw, hd, hh, hl, hm, hk, hv, hf, hp⟩, hu⟩
    refine ⟨h0.2, ha, (Screen.unique_iff fun j hj => ?_).1 hu, hw, h1, hd, hh, hl, hm, hk, hv, hf, hp⟩
    rcases Nat.lt_or_eq_of_le hj with hj | rfl
    · exact (h j hj).1
    · exact h0.2
  · rintro ⟨h0, ha, hu, hw, h1, hd, hh, hl, hm, hk, hv, hf, hp⟩
    refine ⟨⟨⟨⟨Nat.zero_le _, h0⟩, h1⟩, ha, hw, hd, hh, hl, hm, hk, hv, hf, hp⟩, (Screen.unique_iff fun j hj => ?_).2 hu⟩
    rcases Nat.lt_or_eq_of_le hj with hj | rfl
    · exact (h j hj).1
    · exact h0

theorem faceRight_iff {s : State} {n : Nat} (hn : n = s.field 36 4) (f : Face) :
    faceRight (tablePoints s n) f = true ↔ FaceRight s f := by
  unfold faceRight FaceRight
  by_cases hf : f.feed < n
  · have : (tablePoints s n)[f.feed]? = some (tablePoint s f.feed) := by simp [tablePoints, hf]
    rw [this]
    simp only [Bool.and_eq_true, decide_eq_true_eq, within_iff, Between, Nat.zero_le, true_and]
    rw [show (tablePoints s n).length = n by simp [tablePoints], hn]
    simp only [tablePoint]
    tauto
  · have : (tablePoints s n)[f.feed]? = none := by simp [tablePoints]; omega
    rw [this]
    simp only [Bool.false_eq_true, false_iff]
    intro h
    have := h.1
    omega

theorem facesRight_iff {s : State} {n : Nat} (hn : n = s.field 36 4) (i : Nat) :
    (tableScreen s i).facesRight (tablePoints s n) = true ↔ FacesRight s i := by
  unfold Screen.facesRight FacesRight
  simp only [Bool.and_eq_true, faceRight_iff hn]
  refine and_congr_right fun _ => ?_
  simp only [tableScreen]
  by_cases h2 : screenField s i 3 1 = 2
  · simp only [h2, if_true, Option.all_some, Bool.and_eq_true, faceRight_iff hn, forall_const]
    exact and_congr_right fun _ => decide_eq_true_iff
  · simp [h2]

theorem loadScreens_next {s : State} {n i : Nat} (h : ∀ j, j ≤ i → ScreenRight s j) (hf : FacesRight s i) :
    s.loadScreens (tablePoints s (s.field 36 4)) (n + 1) i (tableScreens s i) =
      s.loadScreens (tablePoints s (s.field 36 4)) n (i + 1) (tableScreens s (i + 1)) := by
  rw [State.loadScreens, screenIn_eq]
  simp only [State.screenChecks, loadChecks, (screenCheck_iff fun j hj => h j (by omega)).2 (h i (Nat.le_refl _)),
    (facesRight_iff rfl i).2 hf, if_true, tableScreens_succ]

theorem loadScreens_screen {s : State} {n i : Nat} (h : ∀ j, j < i → ScreenRight s j) (hi : ¬ ScreenRight s i) :
    s.loadScreens (tablePoints s (s.field 36 4)) (n + 1) i (tableScreens s i) = .error (.failed .badScreen) := by
  rw [State.loadScreens, screenIn_eq]
  simp only [State.screenChecks, loadChecks, if_neg fun hx => hi ((screenCheck_iff h).1 hx)]

theorem loadScreens_face {s : State} {n i : Nat} (h : ∀ j, j ≤ i → ScreenRight s j) (hi : ¬ FacesRight s i) :
    s.loadScreens (tablePoints s (s.field 36 4)) (n + 1) i (tableScreens s i) = .error (.failed .badFace) := by
  rw [State.loadScreens, screenIn_eq]
  simp only [State.screenChecks, loadChecks, (screenCheck_iff fun j hj => h j (by omega)).2 (h i (Nat.le_refl _)), if_true,
    if_neg fun hx => hi ((facesRight_iff rfl i).1 hx)]

theorem loadScreens_prefix {s : State} {k : Nat} (n : Nat) (h : ∀ i, i < k → ScreenRight s i ∧ FacesRight s i) :
    s.loadScreens (tablePoints s (s.field 36 4)) (k + n) 0 [] =
      s.loadScreens (tablePoints s (s.field 36 4)) n k (tableScreens s k) := by
  induction k generalizing n with
  | zero => simp [tableScreens]
  | succ k ih =>
    rw [show k + 1 + n = k + (n + 1) by omega, ih (n + 1) fun i hi => h i (by omega),
      loadScreens_next (fun j hj => (h j (by omega)).1) (h k (by omega)).2]

theorem loadScreens_ok {s : State} (h : ∀ i, i < s.field 52 4 → ScreenRight s i ∧ FacesRight s i) :
    s.loadScreens (tablePoints s (s.field 36 4)) (s.field 52 4) 0 [] = .ok (tableScreens s (s.field 52 4)) := by
  have := loadScreens_prefix 0 h
  rw [Nat.add_zero] at this
  rw [this, State.loadScreens]

/-! ## Chips and journal (R8, R9) -/

/-- The code before an entry of the chip directory. -/
def codeBefore (s : State) : Nat → Option Nat
  | 0 => none
  | k + 1 => some (chipCode s k)

theorem chipsLow_iff (s : State) (k : Nat) :
    ((codeBefore s k).all fun b => decide (b ≤ chipCode s k)) = true ↔ (0 < k → chipCode s (k - 1) ≤ chipCode s k) := by
  cases k <;> simp [codeBefore]

theorem chipsSame_iff (s : State) (k : Nat) :
    ((codeBefore s k).all fun b => decide (b ≠ chipCode s k)) = true ↔ (0 < k → chipCode s (k - 1) ≠ chipCode s k) := by
  cases k <;> simp [codeBefore]

theorem loadChips_eq (s : State) (n k : Nat) :
    s.loadChips (n + 1) k (codeBefore s k) =
      if (codeBefore s k).all (fun b => decide (b ≤ chipCode s k)) = true then
        if (codeBefore s k).all (fun b => decide (b ≠ chipCode s k)) = true then
          if chipRunner s k < s.field 60 4 then s.loadChips n (k + 1) (codeBefore s (k + 1))
          else .error (.failed .badRunnerRef)
        else .error (.failed .dupChip)
      else .error (.failed .unsortedChips) := by
  rw [State.loadChips]
  simp only [State.chipChecks, loadChecks, decide_eq_true_eq]
  change (match (if (codeBefore s k).all (fun b => decide (b ≤ chipCode s k)) = true then
      if (codeBefore s k).all (fun b => decide (b ≠ chipCode s k)) = true then
        if chipRunner s k < s.field 60 4 then Except.ok () else .error (.failed .badRunnerRef)
      else .error (.failed .dupChip)
    else .error (LoadStop.failed .unsortedChips) : Except LoadStop Unit) with
    | .error e => Except.error e
    | .ok () => s.loadChips n (k + 1) (codeBefore s (k + 1))) = _
  repeat' split
  all_goals first | rfl | simp_all

theorem loadChips_next {s : State} {n k : Nat} (h : ChipRight s k) :
    s.loadChips (n + 1) k (codeBefore s k) = s.loadChips n (k + 1) (codeBefore s (k + 1)) := by
  rw [loadChips_eq, if_pos ((chipsLow_iff s k).2 fun hk => (h.1 hk).le), if_pos ((chipsSame_iff s k).2 fun hk => (h.1 hk).ne),
    if_pos h.2]

theorem loadChips_prefix {s : State} {k : Nat} (n : Nat) (h : ∀ j, j < k → ChipRight s j) :
    s.loadChips (k + n) 0 none = s.loadChips n k (codeBefore s k) := by
  induction k generalizing n with
  | zero => simp [codeBefore]
  | succ k ih =>
    rw [show k + 1 + n = k + (n + 1) by omega, ih (n + 1) fun j hj => h j (by omega), loadChips_next (h k (by omega))]

theorem loadChips_ok {s : State} (h : ∀ k, k < s.field 68 4 → ChipRight s k) :
    s.loadChips (s.field 68 4) 0 none = .ok () := by
  have := loadChips_prefix 0 h
  rw [Nat.add_zero] at this
  rw [this, State.loadChips]

theorem journalCheck_iff (s : State) :
    (within 4 64 (s.directory 84) && within 250 10000 s.sealIntervalIn) = true ↔ JournalRight s := by
  simp only [Bool.and_eq_true, within_iff]
  rfl

theorem journalChecks_ok {s : State} (h : JournalRight s) : loadChecks s.journalChecks = .ok () := by
  simp only [State.journalChecks, loadChecks, (journalCheck_iff s).2 h, if_true]

theorem journalChecks_fail {s : State} (h : ¬ JournalRight s) :
    loadChecks s.journalChecks = .error (.failed .badJournal) := by
  simp only [State.journalChecks, loadChecks, if_neg fun hx => h ((journalCheck_iff s).1 hx)]

end Sys2Proof.Machine
end

