-- ==== Sys2Proof/Tests/Slice0.lean ====
section
/-! SUPPORT. Tests: ill-formed commands, the worked cases of the manual, and for each statement a state and
operands that meet its hypotheses. -/

namespace Sys2Proof.Tests

open Sys2Proof Sys2Proof.Machine

set_option Elab.async false

/-! ## A small race: five points, two screens, two runners, 16 work slots, four pages -/

def course : List Point :=
  [⟨0, .start, .fromMats, 0x02, 4000, .peak⟩, ⟨5000, .split, .fromMats, 0x04, 4000, .first⟩,
   ⟨10000, .split, .fromHost, 0, 4000, .first⟩, ⟨15000, .split, .fromMats, 0x11, 4000, .first⟩,
   ⟨42195, .finish, .fromMats, 0x08, 4000, .first⟩]

def screen0 : Screen := ⟨0, 1, 2, ⟨3, 15800, 20000, 10000⟩, none, 2000, 40, 16, 60, 900, 30, 3, 600⟩
def screen1 : Screen := ⟨0, 5, 1, ⟨1, 5500, 20000, 10000⟩, some ⟨2, 11000, 20000, 10000⟩, 2000, 40, 16, 60, 900, 30, 3, 600⟩

def table : Loaded :=
  { points := course, screens := [screen0, screen1], sweepInterval := 100, sealInterval := 1000
    pMin := 165000, pMax := 1200000, cutoff := 25200000, waveOffset := 1024, runnerOffset := 2048, runnerCount := 2
    chipOffset := 3072, chipCount := 2, courseOffset := 256, screenOffset := 512, pageDirOffset := 5632, workOffset := 4096, slotCount := 16, statusOffset := 6144
    pages := [8192, 16384, 24576, 32768] }

/-- A field at an offset. -/
def put (o n v : Nat) : Region × Nat × List Byte := (.runner, o, leBytes n v)

/-- The cells of a run of bytes. -/
def cells (o : Nat) (bs : List Byte) : List Host.Cell :=
  (bs.zipIdx.filter fun x => decide (x.1 ≠ 0)).map fun x => (o + x.2, x.1)

/-- A runner record: chip, bib, wave, status, watch, last, start, then its five slots, times with flags 0. -/
def runnerBytes (chip bib wave status watch last start : Nat) (slots : List Nat) : List Byte :=
  leBytes 4 chip ++ leBytes 4 bib ++ leBytes 1 wave ++ leBytes 1 status ++ leBytes 2 watch ++ leBytes 4 last
    ++ List.replicate 16 0 ++ leBytes 4 start ++ leBytes 4 4294967295 ++ List.replicate 24 0
    ++ slots.flatMap fun t => leBytes 4 t ++ [0, 0, 0, 0]

/-- Runner 0 of the worked case (wave 2, gun 1,200,000, fixed on), runner 1 with no time and a wave out of range. -/
def image : List Host.Cell :=
  cells 1040 (leBytes 4 1200000 ++ [1])
    ++ cells 2048 (runnerBytes 77 30412 2 1 0 2 1263480 [1263480, 2733480, 4203480, 4294967295, 4294967295])
    ++ cells 2368 (runnerBytes 99 7 200 0 5 255 4294967295 (List.replicate 5 4294967295))
    ++ cells 3072 (leBytes 4 77 ++ leBytes 4 0 ++ leBytes 4 99 ++ leBytes 4 1)

def racePanel (c : Screen) : Panel := ⟨c.line, c.address, true, [], 0, 0, none, none⟩

/-- The race at a clock reading, page 0 open. -/
def race (clock : Nat) : State :=
  { State.reset with
    engine := .race, raceClock := clock, localTime := 9000000, lastMark := some (clock / 1000), resume := some false
    loaded := some table, mem := image
    decoders := Vector.ofFn fun m => { Decoder.reset with present := (table.pointOfMat m).isSome }
    screens := [screen0.initial 9000000, screen1.initial 9000000], panels := [racePanel screen0, racePanel screen1]
    statusTimer := some 9000000, sweep := { Sweep.reset with timer := some 9000000 }
    journal := { Journal.reset with current := some 0, serial := 48211 } }

def withIntake (q : List IntakeItem) (s : State) : State := { s with intake := q }

/-- A body: bytes at offsets, least significant first. -/
def body (fields : List (Nat × Nat × Nat)) : List Byte :=
  (List.range 40).map fun k => Memory.read (Memory.writeAll [] (fields.map fun f => put f.1 f.2.1 f.2.2)) k

/-- What a step leaves, or the state given where it stops. -/
def after (o : Host.Outcome State Fault Refusal) (s : State) : State :=
  match o with
  | .next t => t
  | _ => s

/-- The record in the place `k` of page 0. -/
def place0 (s : State) (k : Nat) : List Byte := s.fieldBytes (8192 + 32 + 32 * k) 32

/-! ## Ill-formed commands -/

def frame (begun : Nat) (address type : Byte) (payload : List Byte) : RxFrame :=
  ⟨begun, address, BitVec.ofNat 8 payload.length, payload, crc (address :: type :: BitVec.ofNat 8 payload.length :: payload)⟩

theorem test_wf_unknown_code : (Instr.unknownCommand 4).wf = false ∧ (Instr.unknownCommand 5).wf = true := by decide
theorem test_wf_frame_length :
    (Instr.batch 0 ⟨0, 1, 3, [1, 0], 0⟩).wf = false ∧ (Instr.empty 0 ⟨0, 1, 2, [1], 0⟩).wf = false
      ∧ (Instr.busy 0 ⟨0, 1, 1, [], 0⟩).wf = false ∧ (Instr.ack 0 ⟨0, 1, 1, [], 0⟩).wf = false
      ∧ (Instr.wait 0 ⟨0, 1, 0, [9], 0⟩).wf = false
      ∧ (Instr.reset [⟨.item, 3, false⟩, ⟨.batch 0 ⟨0, 1, 3, [1, 0], 0⟩, 1, false⟩]).wf = false
      ∧ (Instr.memoryFault ⟨.page, [⟨.ack 1 ⟨0, 1, 1, [], 0⟩, 0, true⟩]⟩).wf = false
      ∧ (Instr.reset [⟨.item, 3, false⟩]).wf = true
      ∧ (Instr.busy 0 ⟨0, 1, 0, [], 0⟩).wf = true := by decide
/-- Of each block one step at most is under way. -/
theorem test_wf_one_step_of_a_block :
    (Instr.reset [⟨.slotVisit, 0, true⟩, ⟨.item, 9, true⟩, ⟨.itemEnd, 9, true⟩]).wf = false
      ∧ (Instr.memoryFault ⟨.page, [⟨.drain, 1, false⟩, ⟨.sealTimer, 0, false⟩]⟩).wf = false
      ∧ (Instr.memoryFault ⟨.page, [⟨.drain, 1, false⟩, ⟨.silence 0 true, 0, false⟩, ⟨.silence 1 true, 0, true⟩]⟩).wf = true := by
  decide
theorem test_wf_point : (Instr.clusterExpiry 32 7).wf = false ∧ (Instr.clusterExpiry 31 7).wf = true := by decide
theorem test_wf_screen_and_runner :
    (Instr.leaveTime 32 0 0).wf = false ∧ (Instr.leaveTime 0 65000 0).wf = false ∧ (Instr.missed 32 0 0).wf = false
      ∧ (Instr.missed 0 65000 0).wf = false ∧ (Instr.missed 31 64999 1).wf = true := by decide
theorem test_wf_screen :
    (Instr.entryDue 32).wf = false ∧ (Instr.bannerExpiry 32).wf = false ∧ (Instr.darkAfter 32).wf = false
      ∧ (Instr.wakeAgeOut 32).wf = false ∧ (Instr.backOffEnd 32).wf = false ∧ (Instr.probeDue 32).wf = false
      ∧ (Instr.wakeLeadReached 32 0).wf = false ∧ (Instr.dimAfter 32 1).wf = false ∧ (Instr.entryDue 31).wf = true := by decide

/-! ## Worked cases and values of the manual -/

/-- The check over the nine characters 123456789 (spec 12.6). -/
theorem test_check_value : crc [0x31, 0x32, 0x33, 0x34, 0x35, 0x36, 0x37, 0x38, 0x39] = 0x29B1 := by decide +kernel

/-- The texts of spec 10: 3:30:20, 5:02, bib 30412. -/
theorem test_texts :
    timeText 12619705 = [0x20, 0x33, 0x3A, 0x33, 0x30, 0x3A, 0x32, 0x30] ∧ paceText 301750 = [0x20, 0x35, 0x3A, 0x30, 0x32]
      ∧ bibText 30412 = [0x33, 0x30, 0x34, 0x31, 0x32] ∧ bibText 0 = List.replicate 5 0x20
      ∧ timeText 43199001 = List.replicate 8 0x20 := by decide +kernel

def crossing15 : ClosedCrossing := ⟨3, 77, 5712230, 9, 188, false⟩
def split15 : State := withIntake [.crossing crossing15] { race 5717040 with watchLevel := 3 }
def stored15 : State := after (exec .localCrossing split15) split15

/-- Spec 06, the split at 15 km: the record and the serial. -/
theorem test_split_at_15_km_record :
    stored15.field (2048 + 64 + 24) 4 = 5712230 ∧ stored15.field (2048 + 64 + 28) 2 = 0
      ∧ stored15.field (2048 + 36) 4 = 12619705 ∧ stored15.field (2048 + 12) 1 = 3 ∧ stored15.field (2048 + 9) 1 = 1
      ∧ stored15.intake = [] ∧ stored15.journal.serial = 48212 ∧ stored15.cause = 0
      ∧ place0 stored15 0 = [2, 3] ++ leBytes 2 0 ++ [0, 0] ++ leBytes 2 0 ++ leBytes 4 5712230 ++ leBytes 4 4512230
          ++ leBytes 4 4448750 ++ leBytes 4 301750 ++ leBytes 4 12619705 ++ [9, 188, 0, 0] := by decide +kernel

/-- Spec 06, the split at 15 km: the request for screen 0. -/
theorem test_split_at_15_km_request :
    stored15.handovers = [.request ⟨0, 0, 0, 5932596, 5952596, 5962596, 0,
      ⟨30412, List.replicate 16 0, 4448750, 301750, some 12619705, false⟩⟩] := by decide +kernel

/-- Spec 06, the same crossing with the 10 km slot absent: one point missed, distance 10,000 m, time 2,978,750 ms. -/
theorem test_missed_point :
    let s := { split15 with mem := Memory.writeBytes image (2048 + 64 + 16) [255, 255, 255, 255] }
    let t := after (exec .localCrossing s) s
    (place0 t 0).take 5 = [2, 3, 16, 0, 1] ∧ t.field (8192 + 32 + 20) 4 = 297875 := by decide +kernel

def correction (point time void : Nat) : WorkItem :=
  ⟨4, .correctSplit, true, body [(0, 4, 0), (4, 1, point), (5, 1, void), (8, 4, time)]⟩
def corrected15 : State :=
  let s := withIntake [.work (correction 3 5712050 0)] { stored15 with raceClock := 5760000, handovers := [] }
  after (exec .correctSplit s) s

/-- Spec 07.9: the correction, the conflicting correction, the void. -/
theorem test_correction_sequence :
    let conflict := withIntake [.work (correction 2 5720000 0)] corrected15
    let void := withIntake [.work (correction 3 0 1)] { corrected15 with raceClock := 5790000, handovers := [] }
    let t := after (exec .correctSplit conflict) conflict
    let u := after (exec .correctSplit void) void
    corrected15.field (2048 + 64 + 24) 4 = 5712050 ∧ corrected15.field (2048 + 64 + 28) 2 = 64
      ∧ corrected15.field (2048 + 36) 4 = 12618709
      ∧ corrected15.handovers.map (fun h => match h with | .request q => (q.onTime, q.offTime) | _ => (0, 0))
          = [(5932392, 5962392)]
      ∧ t.sweep.ends = [⟨4, .ok, 48212, 0, true⟩, ⟨4, .conflict, 2733480, 5712050, true⟩]
      ∧ u.field (2048 + 64 + 24) 4 = 4294967295 ∧ u.field (2048 + 36) 4 = 12618709 ∧ u.handovers = [.removal 0 0 0] := by
  decide +kernel

/-! ## A load -/

def faceBytes (feed x : Nat) : List Byte := leBytes 2 feed ++ leBytes 2 x ++ leBytes 4 20000 ++ leBytes 4 10000

def pointBytes (distance kind source mats choice : Nat) : List Byte :=
  leBytes 2 distance ++ leBytes 1 kind ++ leBytes 1 source ++ leBytes 1 mats ++ leBytes 3 choice

/-- The directory, course, screen table and page directory about the small race, with a clock start value. -/
def tables (start : Nat) : List Host.Cell :=
  cells 0 ([0x5A543630, 1, start, 0, 0, 0, 0, 25200000, 256, 5, 1024, 16, 512, 2, 2048, 2, 3072, 2, 4096, 16, 5632, 4,
      6144].flatMap (leBytes 4))
    ++ cells 256 (pointBytes 0 0 0 2 1 ++ pointBytes 5000 1 0 4 0 ++ pointBytes 10000 1 1 0 0 ++ pointBytes 15000 1 0 17 0
      ++ pointBytes 42195 2 0 8 0)
    ++ cells 512 ([0, 1, 2, 1] ++ List.replicate 12 0 ++ faceBytes 3 15800 ++ List.replicate 12 0
      ++ [0, 5, 1, 2] ++ List.replicate 12 0 ++ faceBytes 1 5500 ++ faceBytes 2 11000)
    ++ image ++ cells 5632 ([8192, 16384, 24576, 32768].flatMap (leBytes 8))

/-- A load in progress over given writes, local time 700. -/
def loading (start : Nat) (ws : List (Region × Nat × List Byte)) : State :=
  { State.reset with engine := .loading, localTime := 700, mem := Memory.writeAll (tables start) ws }

/-- The load of the small race with slot 3 left TAKEN. -/
def loadAll (start : Nat) : State := loading start [put (4096 + 192) 4 2]
def prepared (start : Nat) : State := after (exec .loadPassed (loadAll start)) (loadAll start)

theorem test_load_outcome : (match (loadAll 0).loadOutcome with | .ok L => decide (L = table) | _ => false) = true := by
  decide +kernel

theorem test_load_enters_prep :
    (fun t : State => (t.engine, t.cause, t.field (4096 + 192) 4, t.field (4096 + 192 + 48) 4, t.field 8192 4))
      (prepared 0) = (.prep, 0x080, 4, 8, 1) := by decide +kernel

/-- The first failing check of each table names the load error (R5 to R9). -/
theorem test_load_errors :
    let errorOf : List (Region × Nat × List Byte) → Option LoadError := fun ws =>
      match (loading 0 ws).loadOutcome with
      | .error (.failed e) => some e
      | _ => none
    errorOf [put 4 4 2] = some .badMagic ∧ errorOf [put 76 4 15] = some .badSize ∧ errorOf [put 36 4 1] = some .badCourse
      ∧ errorOf [put 264 2 0] = some .badPointOrder ∧ errorOf [put 268 1 2] = some .badMatset
      ∧ errorOf [put 1024 4 43200000] = some .badWave ∧ errorOf [put 514 1 9] = some .badScreen
      ∧ errorOf [put 528 1 4] = some .badFace ∧ errorOf [put 3072 4 100] = some .unsortedChips
      ∧ errorOf [put 3072 4 99] = some .dupChip ∧ errorOf [put 3084 4 2] = some .badRunnerRef
      ∧ errorOf [put 84 4 3] = some .badJournal := by decide +kernel

/-! ## The hypotheses of the statements are met -/

def prep (start : Nat) : State :=
  { race 0 with
    engine := .prep, resume := some (decide (start ≠ 0)), mem := cells 8 (leBytes 4 start) ++ image }
def halted : State := { race 5000 with engine := .halted }
def closed (clock : Nat) : State := { race clock with engine := .closed }
def marking : State := { State.reset with engine := .race }

theorem test_witness_StepRunsFrontCommand :
    ({ marking with pending := [.draw, .load] } : State).pending = .draw :: [.load] := rfl

theorem test_ready_events : readyEvents marking = [.secondMark] ∧ timedEvents marking = [.secondMark]
    ∧ readyEvents State.reset = [] := by decide +kernel

/-- The millisecond that reaches the ceiling gives CLOCK_CEILING (R13), and an exchange past its close goes on. -/
theorem test_time_passes :
    let t := passTime { race 43199998 with
      matLines := #v[{ MatLine.reset with exchange := some ⟨1, 8999998, 9000000, false⟩ }, MatLine.reset] }
    t.raceClock = 43199999 ∧ t.cause = 0x040 ∧ t.ceilingGiven = true ∧ (passTime t).raceClock = 43199999
      ∧ t.matLines[0].exchange = some ⟨1, 8999998, 9000000, true⟩ ∧ silenceReady 0 false t = false
      ∧ (timedEvents { t with localTime := 9000029 }).head? = some (.silence 0 true) := by decide +kernel

theorem test_witness_IdleStepTakesReadyEventOrTime :
    marking.pending = [] ∧ chosenEvent marking = some .secondMark ∧ State.reset.pending = []
      ∧ chosenEvent State.reset = none := by
  refine ⟨rfl, ?_, rfl, ?_⟩
  · simp [chosenEvent, test_ready_events, Nat.mod_one]
  · simp [chosenEvent, test_ready_events]

theorem test_witness_HaltedBlocksStand :
    halted.engine = .halted ∧ takenInHalted .draw = false ∧ takenInHalted (.sweepWrite 0) = false := by decide

theorem test_witness_ControlCommandsTakenOrRefused :
    (race 5000).engine ≠ .idle ∧ State.reset.engine = .idle ∧ (race 5000).engine ≠ .prep
      ∧ ((prep 43200000).engine = .prep ∧ (prep 43200000).refused = [] ∧ 43199999 < (prep 43200000).field 8 4)
      ∧ ((prep 43199999).engine = .prep ∧ (prep 43199999).field 8 4 ≤ 43199999)
      ∧ State.reset.engine ≠ .race ∧ (race 5000).engine = .race ∧ (0#32).toNat ∉ [1, 2, 3, 4]
      ∧ (5#32).toNat ∉ [1, 2, 3, 4] := by decide +kernel

theorem test_witness_StartSetsTheClock :
    let s := { prep 0 with refused := [11] }
    (s.engine = .prep ∧ s.refuses (s.addr 8) 4 = true) ∧ (prep 0).field 8 4 % 1000 = 0 ∧ (prep 0).resume = some false
      ∧ (prep 43199999).resume = some true ∧ 43199999 < (prep 43200000).field 8 4 := by decide +kernel

theorem test_witness_EndClosesTheRace :
    (race 5000).engine = .race ∧ Accepting (race 5000) ∧ ScreenAt (race 5000) 0 screen0 (screen0.initial 9000000) :=
  ⟨rfl, ⟨rfl, rfl⟩, rfl, rfl⟩

/-- The end of slot 5 reported, with an in-flight list. -/
def ended (inFlight : List Nat) : State :=
  { race 5000 with sweep := { Sweep.reset with inFlight := inFlight, ends := [⟨5, .ok, 0, 0, true⟩] } }

theorem test_witness_ResetsClearThePart :
    State.reset.engine = .idle ∧ halted.engine = .halted ∧ Accepting split15 ∧ split15.working = true
      ∧ split15.intake = [.crossing crossing15] ∧ Accepting (loadAll 0) ∧ (loadAll 0).engine = .loading
      ∧ (∃ p, split15.planOf (.crossing crossing15) = some p) ∧ statusDue { race 5000 with localTime := 9001000 } = true
      ∧ 5 ∈ (ended [5]).sweep.inFlight ∧ (ended [5]).sweep.ends = ⟨5, .ok, 0, 0, true⟩ :: [] :=
  ⟨rfl, rfl, ⟨rfl, rfl⟩, rfl, rfl, ⟨rfl, rfl⟩, rfl, ⟨_, rfl⟩, by decide, by decide, rfl⟩

/-- A RESET and a fault report two writes into the split of spec 06 (R17, R114): slot and projected finish stand, last
point reached and the record do not; one write into a slot's end (R35): the slot stays TAKEN. -/
theorem test_steps_cut_short :
    let m := after (exec (.reset [⟨.item, 2, true⟩]) split15) split15
    let f := after (exec (.memoryFault ⟨.runner, [⟨.item, 2, false⟩]⟩) split15) split15
    let ending := { race 5000 with
      mem := Memory.writeBytes image 4096 [2], sweep := { Sweep.reset with inFlight := [0], ends := [⟨0, .conflict, 0, 0, true⟩] } }
    let e := cutAll [⟨.itemEnd, 1, true⟩, ⟨.statusTimer, 0, true⟩] ending
    (m.engine = .idle ∧ m.field (2048 + 64 + 24) 4 = 5712230 ∧ m.field (2048 + 36) 4 = 12619705 ∧ m.field (2048 + 12) 1 = 2
        ∧ place0 m 0 = List.replicate 32 0)
      ∧ (f.engine = .halted ∧ f.faultRegion = some .runner ∧ f.field (2048 + 36) 4 = 12619705 ∧ f.field (2048 + 12) 1 = 2
        ∧ f.intake = [.crossing crossing15] ∧ f.port = .free)
      ∧ (e.field (4096 + 48) 4 = 6 ∧ e.field 4096 4 = 2 ∧ e.engine = .race ∧ e.port = .free ∧ e.sweep.ends.length = 1) := by
  decide +kernel

/-- A fault report right after the last write of an item, and of the scan of a load (R10, R131): the item stays in flight
with nothing handed over, and the load is still LOADING as the fault comes, with LOAD_DONE not set. -/
theorem test_steps_cut_after_the_last_write :
    let f := after (exec (.memoryFault ⟨.runner, [⟨.item, 4, false⟩]⟩) split15) split15
    let l := after (exec (.memoryFault ⟨.page, [⟨.load, 3, false⟩]⟩) (loadAll 0)) (loadAll 0)
    (f.engine = .halted ∧ f.field (2048 + 12) 1 = 3 ∧ f.field (2048 + 9) 1 = 1 ∧ f.intake = [.crossing crossing15]
        ∧ f.handovers = [] ∧ f.journal = split15.journal ∧ place0 f 0 = List.replicate 32 0 ∧ f.port = .free)
      ∧ (l.engine = .halted ∧ l.cause = 0x100 ∧ l.loadError = .noError ∧ l.resume = none ∧ l.field (4096 + 192) 4 = 4
        ∧ l.field 8192 4 = 0) := by
  decide +kernel

/-- The end of an item waits for the TAKEN write of its slot (R32). -/
theorem test_end_waits_for_taken :
    after (exec .itemEnd (ended [])) (race 0) = ended [] ∧ (after (exec .itemEnd (ended [5])) (race 0)).sweep.ends = [] := by
  decide +kernel

theorem test_witness_CausesAndInterruptLine :
    let s := { race 5000 with cause := 0x101, causeEnable := 0x100 }
    s.hasCause .workDone = true ∧ s.hasCause .memoryFault = true ∧ s.interruptLine = true := by decide +kernel

theorem test_witness_MemoryFaultHaltsTheEngine :
    (race 5000).engine ≠ .idle ∧ halted.engine = .halted ∧ State.reset.engine = .idle
      ∧ ((split15.planOf (.crossing crossing15)).map fun p => p.writes.length) = some 4
      ∧ (loadAll 0).engine = .loading ∧ (((loadAll 0).allScanWrites table).length = 3) := by decide +kernel

def item (k : WorkKind) (fields : List (Nat × Nat × Nat)) : WorkItem := ⟨5, k, true, body fields⟩
def refusing (a : Nat) (s : State) : State := { s with refused := [a] }
def waveItem (wave now time : Nat) : WorkItem := item .startWave [(0, 1, wave), (1, 1, now), (4, 4, time)]
def queued (w : WorkItem) (s : State) : State := withIntake [.work w] s

theorem itemHead_queued (w : WorkItem) (s : State) (h : s.working = true) : ItemHead w.kind w (queued w s) :=
  ⟨h, rfl, [], rfl⟩

theorem test_witness_RefusedAccessesHaltTheEngine :
    let a := refusing 4099 { race 5000 with sweep := { (race 5000).sweep with at? := some 0 } }
    let b := refusing 4467 (ended [5])
    let c := refusing 1147 (queued (waveItem 15 1 0) (race 5000))
    let d := refusing 2371 (queued (item .setWatch [(0, 4, 1)]) (race 5000))
    let e := refusing 3079 split15
    let f := refusing 6144 { race 5000 with localTime := 9001000 }
    let g := refusing 8203 { race 5000 with
      localTime := 9001000, journal := { (race 5000).journal with fill := 1, sealTimer := some 9000000 } }
    (a.working = true ∧ a.sweep.waits = false ∧ a.refuses (a.addr (workOffset a.config 0 0)) 4 = true)
      ∧ (b.refuses (b.addr (workOffset b.config 5 48)) 4 = true ∧ b.refuses 0 4 = false)
      ∧ ((waveItem 15 1 0).field 0 1 ≤ 15 ∧ (waveItem 15 1 0).field 1 1 ≠ 0
          ∧ c.refuses (c.addr (waveOffset c.config 15 0)) 4 = true)
      ∧ ((item .setWatch [(0, 4, 1)]).field 0 4 < d.config.runnerCount
          ∧ d.refuses (d.addr (runnerOffset d.config 1 0)) 4 = true)
      ∧ (0 < e.config.chipCount
          ∧ e.refuses (e.addr (e.config.chipOffset + 8 * ((e.config.chipCount - 1) / 2))) 8 = true)
      ∧ (statusDue f = true ∧ f.screens ≠ [] ∧ f.refuses (f.addr f.config.statusOffset) 8 = true)
      ∧ (sealDue g = true ∧ g.journal.current = some 0 ∧ g.refuses (g.addr (pageOffset g.config 0 8)) 4 = true)
      ∧ Memory.wf (race 0).mem = true ∧ (race 0).refuses 18446744073709551615 4096 = false ∧ (race 0).port = .free
      ∧ 5 ∈ b.sweep.inFlight ∧ { race 0 with port := .left 1 }.port = .left (0 + 1)
      ∧ { race 0 with port := .last 1 }.port = .last (0 + 1) := by decide +kernel

theorem test_witness_SecondMarksAreGivenAndSent :
    (marking.raceClock % 1000 = 0 ∧ marking.lastMark ≠ some (marking.raceClock / 1000))
      ∧ (race 5000).lastMark = some ((race 5000).raceClock / 1000)
      ∧ ((race 43199999).engine = .race ∧ (race 43199999).raceClock = 43199999 ∧ (race 43199999).ceilingGiven = false)
      ∧ (let s := giveMark 43199 (race 43199000)
         s.matLines[1].exchange = none ∧ s.matLines[1].pendingMark = some 43199
           ∧ s.panelLines[0].exchange = none ∧ s.panelLines[0].pendingClock = some 43199) := by decide +kernel

/-- A load of the small race over given writes, its memory refusing one byte. -/
def barred (a : Nat) (ws : List (Region × Nat × List Byte)) : State := refusing a (loading 0 ws)

/-- Each stage of a load with its reads accepted and the checks before it passed: the bytes that fail a check, and a byte
of each table whose refusal halts the engine, whatever the checks after it would find. -/
theorem test_load_stops :
    let refusedAt : State → Option Region := fun s =>
      match s.loadOutcome with
      | .error (.refused r) => some r
      | _ => none
    refusedAt (barred 91 [put 0 4 1]) = some .directory ∧ refusedAt (barred 127 []) = none
      ∧ refusedAt (barred 256 [put 20 4 1]) = some .course ∧ refusedAt (barred 1024 []) = some .wave
      ∧ refusedAt (barred 512 []) = some .screen ∧ refusedAt (barred 3079 []) = some .chip
      ∧ refusedAt (barred 5635 [put 16 4 1]) = some .pageDirectory := by decide +kernel

theorem test_witness_screens_right : ∀ i, i < (loading 0 []).field 52 4 → ScreenRight (loading 0 []) i := by
  unfold ScreenRight Between
  dsimp only
  decide +kernel

theorem test_witness_faces_right : ∀ i, i < (loading 0 []).field 52 4 → FacesRight (loading 0 []) i := by
  unfold FacesRight FaceRight Between
  decide +kernel

/-- The small race passes every stage. -/
theorem test_witness_LoadChecksEndTheLoad_passes : LoadPasses (loading 0 []) := by
  refine ⟨⟨⟨⟨⟨⟨fun _ _ => rfl, ?_, ?_⟩, fun _ _ => rfl, ?_, ?_⟩, fun _ _ => rfl, ?_⟩, fun _ _ => rfl,
    fun i hi => ⟨test_witness_screens_right i hi, test_witness_faces_right i hi⟩⟩, fun _ _ => rfl, ?_⟩,
    fun _ _ => rfl, ?_⟩
  · unfold MagicRight; decide +kernel
  · unfold SizesRight Between; decide +kernel
  · unfold SettingsRight Between; decide +kernel
  · unfold PointRight PointCodesRight PointOrderRight PointMatsRight Between; decide +kernel
  · unfold WaveRight; decide +kernel
  · unfold ChipRight; decide +kernel
  · unfold JournalRight Between; decide +kernel

/-- For each check a load of the small race with bytes changed that fails it. -/
theorem test_witness_LoadChecksEndTheLoad_fails :
    (¬ MagicRight (loading 0 [put 0 4 1]) ∧ ¬ SizesRight (loading 0 [put 12 4 9]) ∧ ¬ SizesRight (loading 0 [put 32 4 127]))
      ∧ (¬ SettingsRight (loading 0 [put 28 4 0]) ∧ ¬ PointCodesRight (loading 0 [put 266 1 3]) 1
        ∧ ¬ PointOrderRight (loading 0 [put 264 2 0]) 1 ∧ ¬ PointMatsRight (loading 0 [put 268 1 2]) 1)
      ∧ (¬ WaveRight (loading 0 [put 1144 4 43200000]) 15 ∧ ¬ JournalRight (loading 0 [put 16 4 1]))
      ∧ ¬ ScreenRight (loading 0 [put 553 1 17]) 1 ∧ ¬ FacesRight (loading 0 [put 580 1 1]) 1 := by
  refine ⟨?_, ?_, ?_, ?_, ?_⟩
  · unfold MagicRight SizesRight Between; decide +kernel
  · unfold SettingsRight PointCodesRight PointOrderRight PointMatsRight Between; decide +kernel
  · unfold WaveRight JournalRight Between; decide +kernel
  · unfold ScreenRight Between; dsimp only; decide +kernel
  · unfold FacesRight FaceRight Between; decide +kernel

theorem test_witness_LoadChecksEndTheLoad_chips :
    let s := loading 0 ([put 68 4 3, put 3088 4 100, put 3092 4 2])
    chipCode s 0 < chipCode s 1 ∧ chipCode s 1 < chipCode s 2 ∧ chipRunner s 0 < s.field 60 4 ∧ chipRunner s 1 < s.field 60 4
      ∧ s.field 60 4 ≤ chipRunner s 2 ∧ chipCode (loading 0 [put 3072 4 100]) 1 < 100
      ∧ chipCode (loading 0 [put 3072 4 99]) 1 = 99 := by
  decide +kernel

theorem test_witness_LoadPassedEntersPrep :
    (loadAll 0).engine = .loading ∧ Accepting (loadAll 0) ∧ ∃ L, (loadAll 0).loadOutcome = .ok L := by
  refine ⟨rfl, ⟨rfl, rfl⟩, ?_⟩
  have h := test_load_outcome
  revert h
  cases (loadAll 0).loadOutcome with
  | ok L => exact fun _ => ⟨L, rfl⟩
  | error e => exact fun h => Bool.noConfusion h

def onLine (l : LineIx) (f : MatLine → MatLine) (s : State) : State := s.withMatLine l (f s.matLines[l])
def onDecoder (m : Fin 8) (f : Decoder → Decoder) (s : State) : State := s.withDecoder m (f s.decoders[m])

/-- A round just begun: the first call goes to address 1; with addresses 1 to 3 visited, to address 4. -/
theorem test_witness_RoundsAndCalls :
    let begun := onLine 0 (fun x => { x with nextAddress := 1 }) (race 5000)
    let last := onLine 0 (fun x => { x with nextAddress := 4 }) (race 5000)
    (race 5000).polls = true ∧ (race 5000).matLines[0].exchange = none
      ∧ (race 5000).matLines[0].nextAddress = 5 ∧ (race 5000).matLines[0].roundBegan + 5 ≤ (race 5000).localTime
      ∧ begun.matLines[0].nextAddress ≤ 1 ∧ begun.matLines[0].pendingMark = none
      ∧ (begun.decoders[matAt 0 1]).present = true ∧ (begun.decoders[matAt 0 1]).silent = false
      ∧ last.matLines[0].nextAddress ≤ 4 ∧ (last.decoders[matAt 0 4]).present = true
      ∧ (last.decoders[matAt 0 4]).silent = false := by decide +kernel

/-- A call of the decoder at address 1 of line 0 (mat 0) in flight. -/
def calling (s : State) : State := onLine 0 (fun x => { x with exchange := some ⟨1, 9000000, 9000002, false⟩ }) s
def call1 : Exchange := ⟨1, 9000000, 9000002, false⟩
def oneRead : List Byte := leBytes 4 77 ++ leBytes 4 5000 ++ [188, 1]
def batch (number : Byte) : RxFrame := frame 9000000 1 0x81 ([number, 1] ++ oneRead)

theorem test_witness_BatchIsTakenOrHeld :
    let s := calling (race 5000)
    let before := onDecoder 0 (fun d => { d with lastTaken := some 9 }) s
    let held := onDecoder 0 (fun d => { d with hold := true }) s
    let full := onDecoder 0 (fun d => { d with buffer := List.replicate 64 ⟨1, 2, 3, 0⟩ }) s
    let nearly := onDecoder 0 (fun d => { d with buffer := List.replicate 63 ⟨1, 2, 3, 0⟩ }) s
    let reads := batchReads (matAt 0 1) 1 oneRead
    s.matLines[0].exchange = some call1 ∧ s.working = true ∧ call1.opened ≤ (batch 9).begun
      ∧ (batch 9).begun < call1.closes ∧ (batch 9).begun ≤ s.localTime ∧ RxFrame.isReply (batch 9) 0x81 1 = true
      ∧ (before.decoders[matAt 0 1]).lastTaken = some 9 ∧ (s.decoders[matAt 0 1]).lastTaken ≠ some 9
      ∧ (calling (prep 0)).engine = .prep
      ∧ (nearly.decoders[matAt 0 1]).buffer.length + reads.length ≤ 64 ∧ (held.decoders[matAt 0 1]).hold = true
      ∧ 64 < (full.decoders[matAt 0 1]).buffer.length + reads.length := by decide +kernel

theorem test_witness_EmptyAndBusyAreReplies :
    RxFrame.isReply (frame 9000001 1 0x83 []) 0x83 1 = true ∧ RxFrame.isReply (frame 9000001 1 0x82 [1]) 0x82 1 = true
      ∧ ((calling (race 5000)).decoders[matAt 0 1]).antennaFault ≠ (1#8).getLsbD 0
      ∧ ((calling (race 5000)).decoders[matAt 0 1]).antennaFault = (0#8).getLsbD 0 := by decide +kernel

theorem test_witness_SilencesAreCounted :
    let s := calling (race 5000)
    let two := onDecoder 0 (fun d => { d with silentCount := 2 }) s
    let down := onDecoder 0 (fun d => { d with silentCount := 3, silent := true }) { s with localTime := 9000002 }
    (s.decoders[matAt 0 1]).silentCount < 2
      ∧ (2 ≤ (two.decoders[matAt 0 1]).silentCount ∧ (two.decoders[matAt 0 1]).silent = false)
      ∧ ((down.decoders[matAt 0 1]).silentCount = 3 ∧ (down.decoders[matAt 0 1]).silent = true
          ∧ call1.closes ≤ down.localTime ∧ call1.receiving = false ∧ { call1 with receiving := true }.receiving = true) := by
  decide +kernel

theorem test_witness_OnlyWholeFramesAreReplies :
    (race 5000).matLines[0].exchange = none ∧ (8999999 : Nat) < call1.opened ∧ call1.closes ≤ 9000002
      ∧ RxFrame.isReply (frame 9000000 2 0x81 ([9, 1] ++ oneRead)) 0x81 1 = false
      ∧ RxFrame.isReply { frame 9000000 1 0x83 [] with check := 0 } 0x83 1 = false
      ∧ expectedLength 0x81 [9, 17] = none ∧ expectedLength 0x81 [9, 16] = some 162
      ∧ RxFrame.isReply (frame 9000000 1 0x81 [9, 0]) 0x81 1 = true := by decide +kernel

/-! ### Crossing assembly -/

def read (mat : Fin 8) (stamp : Nat) : Read := ⟨77, stamp, 188, mat⟩
def landed (m : Fin 8) (rs : List Read) (s : State) : State := onDecoder m (fun d => { d with buffer := rs }) s

/-- The stale and future limits to the millisecond, the first and the last place of the arbiter, a mat of no point. -/
theorem test_witness_DrawServesTheNextBuffer :
    let s := landed 0 [read 0 39999] (race 100000)
    let u := landed 7 [read 7 40000] (race 100000)
    s.racing = true ∧ s.assembler.held = none ∧ (s.decoders[s.assembler.arbiter + Fin.ofNat 8 0]).buffer = [read 0 39999]
      ∧ (u.decoders[u.assembler.arbiter + Fin.ofNat 8 7]).buffer = [read 7 40000]
      ∧ (∀ k ∈ List.range 7, (u.decoders[u.assembler.arbiter + Fin.ofNat 8 k]).buffer = [])
      ∧ s.config.pointOfMat 0 = some 3 ∧ u.config.pointOfMat 7 = none ∧ 39999 + 60000 < s.raceClock
      ∧ s.raceClock ≤ 40000 + 60000 ∧ s.raceClock + 2000 < 102001 ∧ 102000 ≤ s.raceClock + 2000 := by decide +kernel


def cluster (point : Nat) (chip : Word) (deadline : Nat) : Cluster := ⟨point, chip, 5000, 5000, 100, 1, deadline, false, false⟩

/-- A read of a cluster whose deadline the clock has reached does not join it: the cluster closes first (R77, R81). -/
theorem test_draw_after_a_deadline :
    let s := { landed 0 [⟨77, 8999, 255, 0⟩] (race 9000) with
      assembler := { Assembler.reset with clusters := [cluster 3 77 9000] } }
    (after (exec .draw s) s).assembler.clusters = [(cluster 3 77 9000).close false] := by decide +kernel

theorem test_witness_MergesFollowTheTimeChoice :
    let c := cluster 3 77 9000
    (4999 : Nat) < c.first ∧ c.first ≤ 5000 ∧ c.best.toNat < (101#8).toNat ∧ c.best = 100 ∧ (4999 : Nat) < c.chosen
      ∧ (99#8).toNat < c.best.toNat ∧ c.chosen ≤ 5000 := by decide +kernel

def holding (cs : List Cluster) : Assembler := { Assembler.reset with clusters := cs }
def full : List Cluster := (List.range 1024).map fun k => cluster 3 (toWord (100 + k)) (9000 + k)
def closedAs (cs : List Cluster) : List Cluster := cs.map (Cluster.close false)

/-- Echoes to the millisecond (twice the window of 4,000 ms), a table with one place left, a full table. -/
theorem test_witness_ReadMeetsTheClusterTable :
    let r : PlacedRead := ⟨read 0 5000, 3⟩
    let echo : ClosedEntry := ⟨3, 77, 13000⟩
    (holding (closedAs [cluster 3 77 9000])).find 3 77 = some ((cluster 3 77 9000).close false)
      ∧ (holding [cluster 3 77 9000]).find 3 77 = some (cluster 3 77 9000) ∧ (cluster 3 77 9000).closing = false
      ∧ (holding (full.take 1023)).find 3 77 = none ∧ (holding (full.take 1023)).clusters.length < 1024
      ∧ (echo.point = r.point ∧ echo.chip = r.read.chip ∧ echo.chosen ≤ r.read.stamp + 2 * table.window 3
          ∧ r.read.stamp ≤ echo.chosen + 2 * table.window 3)
      ∧ (holding full).find 3 77 = none ∧ 1024 ≤ (holding full).clusters.length ∧ (holding full).memory = []
      ∧ (∀ x ∈ closedAs full, x.closing = true)
      ∧ (∀ x ∈ full, x.closing = false → cluster 3 100 9000 = x ∨ (cluster 3 100 9000).before x = true) := by
  decide +kernel

def closing (n : Nat) : State :=
  { race 9000 with
    assembler := holding (closedAs [cluster 3 77 9000]), intake := List.replicate n (.crossing crossing15) }

theorem test_witness_ClustersExpireAndAreOfferedInOrder :
    (cluster 3 77 9000).before (cluster 3 78 9000) = true
      ∧ (holding [cluster 3 77 9000]).find 3 77 = some (cluster 3 77 9000) ∧ (cluster 3 77 9000).deadline ≤ (race 9000).raceClock
      ∧ (atClock (closing 256)).closingHead = some ((cluster 3 77 9000).close false)
      ∧ (closing 256).assembler.offerWaits = false ∧ 256 ≤ (closing 256).intake.length ∧ (closing 255).intake.length < 256
      ∧ (holding [cluster 3 77 9000]).closingHead = none := by decide +kernel

/-! ### The work sweep -/

def sweeping (i : Nat) (s : State) : State := s.withSweep { s.sweep with at? := some i, timer := none }
def posted (i kind : Nat) (s : State) : State :=
  s.withMem (Memory.writeAll s.mem [put (4096 + 64 * i) 4 1, put (4096 + 64 * i + 4) 2 kind, put (4096 + 64 * i + 9) 1 1])

theorem test_witness_SweepWriteRequestsASweep :
    (race 5000).engine = .race ∧ (race 5000).sweep.at? = none ∧ (sweeping 15 (race 5000)).sweep.at? = some 15
      ∧ halted.engine = .halted ∧ (loadAll 0).engine = .loading := by decide +kernel

theorem test_witness_SweepsBeginAndEnd :
    let s := { race 5000 with localTime := 9000100 }
    s.working = true ∧ s.sweep.at? = none ∧ s.sweep.timer = some 9000000 ∧ 9000000 + s.config.sweepInterval ≤ s.localTime
      ∧ s.sweep.requested = false ∧ { s.sweep with requested := true }.requested = true := by decide +kernel

/-- A slot that is not POSTED, kinds 0 and 9, a kind the state refuses, the three ways a kind goes, at the last slot and room of the queue. -/
theorem test_witness_SlotVisitsTakeAcceptedItems :
    let s := fun k => posted 15 k (sweeping 15 (race 5000))
    let kind := fun k => WorkKind.ofCode ((s k).field (4096 + 64 * 15 + 4) 2)
    (s 1).working = true ∧ (s 1).sweep.at? = some 15 ∧ (sweeping 15 (race 5000)).field (4096 + 64 * 15) 4 ≠ 1
      ∧ (s 1).field (4096 + 64 * 15) 4 = 1 ∧ 15 ∉ (s 1).sweep.inFlight ∧ kind 0 = none ∧ kind 9 = none
      ∧ kind 2 = some .startWave ∧ WorkKind.startWave.accepted .closed true = false
      ∧ kind 7 = some .banner ∧ kind 8 = some .flushJournal ∧ WorkKind.banner.accepted .race true = true
      ∧ kind 6 = some .correctSplit ∧ WorkKind.correctSplit.accepted .race true = true ∧ (s 6).intake.length < 256
      ∧ 256 ≤ (closing 256).intake.length := by decide +kernel

/-- A slot of no known kind is taken, and the sweep goes on to the next slot once the end is written (R26, R27). -/
theorem test_sweep_waits_at_a_failed_slot :
    let s := posted 3 9 (sweeping 3 (race 5000))
    let t := after (exec .slotVisit s) s
    let u := after (exec .itemEnd t) t
    t.field (4096 + 192) 4 = 2 ∧ t.sweep.at? = some 3 ∧ slotVisitReady t = false ∧ after (exec .slotVisit t) s = t
      ∧ u.field (4096 + 192) 4 = 4 ∧ u.field (4096 + 192 + 48) 4 = 1 ∧ u.sweep.at? = some 4 ∧ slotVisitReady u = true := by
  decide +kernel

/-- The clock reading of an item is the clock as it became the head of the queue (R91). -/
theorem test_item_clock :
    let s := (race 5000).pushIntake (.work (waveItem 3 1 0))
    let t := { s with raceClock := 7000 }.pushIntake (.work (waveItem 4 1 0))
    let u := after (exec .startWave t) t
    s.itemClock = some 5000 ∧ t.itemNow = 5000 ∧ u.field (1024 + 24) 4 = 5000 ∧ u.itemClock = some 7000 := by decide +kernel

theorem test_witness_ItemEndIsWritten :
    let s := { race 5000 with sweep := { Sweep.reset with ends := [⟨15, .conflict, 1, 2, true⟩], inFlight := [15] } }
    State.reset.working = false ∧ s.working = true ∧ s.sweep.ends = [⟨15, .conflict, 1, 2, true⟩]
      ∧ 15 ∈ s.sweep.inFlight ∧ 5 ∉ (ended []).sweep.inFlight := by decide

/-! ### Crossings -/

def patch (o n v : Nat) (s : State) : State := s.withMem (Memory.writeBytes s.mem o (leBytes n v))
def crossing (p time : Nat) : Crossing := ⟨0, p, time, false, false, 9, 188⟩
def remote (p time : Nat) : WorkItem := item .remoteCrossing [(0, 4, 0), (4, 1, p), (8, 4, time)]

/-- The whole body of a slot of no known kind is read (R26): a refusal at its first or last byte halts with nothing written,
one at the unused byte before it or the outcome behind it does not. -/
theorem test_body_of_unknown_kind_is_read :
    let at9 := fun a => refusing a (posted 3 9 (sweeping 3 (race 5000)))
    let visit := fun a => after (exec .slotVisit (at9 a)) split15
    let o := 4096 + 192 + 8
    let s := at9 o
    (s.working = true ∧ s.sweep.at? = some 3 ∧ s.sweep.waits = false ∧ s.refuses (s.addr (4096 + 192)) 4 = false
        ∧ s.field (4096 + 192) 4 = 1 ∧ 3 ∉ s.sweep.inFlight ∧ ¬ ∀ x ∈ s.slotReads 3, s.refuses x.2.1 x.2.2 = false)
      ∧ (visit o).engine = .halted ∧ (visit (o + 39)).engine = .halted ∧ (visit o).mem = s.mem
      ∧ (visit (o - 1)).engine = .race ∧ (visit (o + 40)).engine = .race := by decide +kernel

/-- Unused bytes are not read (R185): a refusal at bytes 6 and 7 of a split slot, at an unused byte of a body, at the time
beside a "now" mark that is set, or in the body of FLUSH_JOURNAL halts nothing; one at a field that is read does. -/
theorem test_unused_bytes_are_not_read :
    let slot := fun a => (after (exec .localCrossing (refusing a split15)) split15).engine
    let visit := fun k a => (after (exec .slotVisit (refusing a (posted 3 k (sweeping 3 (race 5000))))) split15).engine
    let timed := patch (4096 + 192 + 9) 1 0 (posted 3 2 (sweeping 3 (race 5000)))
    let visitTimed := fun a => (after (exec .slotVisit (refusing a timed)) split15).engine
    let o := 4096 + 192 + 8
    (slot (2048 + 64 + 6) = .race ∧ slot (2048 + 64 + 15) = .race ∧ slot (2048 + 64 + 5) = .halted)
      ∧ (visit 8 o = .race ∧ visit 8 (o + 39) = .race)
      ∧ (visit 1 (o + 5) = .race ∧ visit 1 (o + 11) = .halted ∧ visit 7 (o + 39) = .halted ∧ visit 5 (o + 20) = .race)
      ∧ (visit 2 (o + 4) = .race ∧ visit 2 (o + 1) = .halted ∧ visitTimed (o + 4) = .halted) := by decide +kernel

theorem test_witness_ChipLookupFindsOrRefuses :
    let s := race 5000
    let code := fun k => s.field (table.chipOffset + 8 * k) 4
    table.chipCount ≤ 65000 ∧ 0 < table.chipCount ∧ code 0 < code 1 ∧ code 1 = (99#32).toNat ∧ code 0 ≠ 78 ∧ code 1 ≠ 78
      ∧ (chipSearch s s.config 78 32 0 s.config.chipCount).2 = none
      ∧ (let u := patch 3076 4 2 s
         (chipSearch u u.config 77 32 0 2).2 = some 2 ∧ u.config.runnerCount ≤ 2)
      ∧ (let u := patch 3076 4 1 s
         (chipSearch u u.config 77 32 0 2).2 = some 1 ∧ (u.readRunner u.config 1).chip ≠ 77) := by decide +kernel

theorem test_witness_crossingHead_local : CrossingHead none (crossing 3 5712230) split15 :=
  ⟨rfl, crossing15, [], 0, rfl, by decide +kernel, by decide +kernel, by decide +kernel, rfl⟩

theorem test_witness_crossingHead_remote :
    CrossingHead (some (remote 4 5717040)) ⟨0, 4, 5717040, true, false, 0, 0⟩ (queued (remote 4 5717040) (race 5717040)) :=
  ⟨itemHead_queued _ _ rfl, by decide +kernel, by decide +kernel, by decide +kernel, by decide +kernel⟩

/-- Each refusal, with times at the bounds: runner 0 (gun 1,200,000, start 1,263,480, 5 km 2,733,480, 10 km 4,203,480). -/
theorem test_witness_CrossingsAreRefusedOrDropped :
    let s := race 5717040
    let r := s.readRunner table 0
    let away := (patch (2048 + 9) 1 3 s).readRunner table 0
    let unstarted := (patch (2048 + 32) 4 4294967295 s).readRunner table 0
    away.status = .withdrawn ∧ r.status = .onCourse ∧ r.wave = some 2 ∧ s.runnerGun table r = some 1200000
      ∧ s.runnerGun table (s.readRunner table 1) = none
      ∧ r.start.isSome = true
      ∧ (unstarted.start = none ∧ (unstarted.slot 1).time = some 2733480 ∧ 2733480 ≤ max 2733480 1200000)
      ∧ (r.slot 2).time.isSome = true ∧ (r.slot 3).time = none ∧ (1199999 : Nat) < 1200000
      ∧ r.lowerBound (r.start <|> s.runnerGun table r) 3 = some 4203480
      ∧ (let gap := (patch (2048 + 64 + 8) 4 4294967295 s).readRunner table 0
         (gap.slot 1).time = none ∧ gap.upperBound 5 1 = some 4203480) := by decide +kernel

theorem test_witness_SplitNeighboursAndArithmetic :
    let r := (race 5717040).readRunner table 0
    (r.start.getD 1200000 ≤ 5712230 ∧ (r.segmentFrom (r.start.getD 1200000) 3).2 ≤ 5712230)
      ∧ ((r.slot 2).time = some 4203480 ∧ slotSuspect (r.slot 2).flags = false)
      ∧ (∀ q ∈ [1, 2, 3, 4], (((race 5717040).readRunner table 1).slot q).time = none)
      ∧ r.upperBound 5 1 = some 4203480 := by decide +kernel

def startFlags : SplitFlags := { startClamped := true }

/-- Runner 0 with its start and slots absent, crossing the start one millisecond before the gun. -/
theorem test_witness_StartCrossingIsStored :
    let s := patch (2048 + 32) 4 4294967295 (patch (2048 + 72) 4 4294967295 (patch (2048 + 80) 4 4294967295 (race 1300000)))
    let r := s.readRunner table 0
    r.status ≠ .withdrawn ∧ r.start = none ∧ (∀ q ∈ [1, 2, 3, 4], (r.slot q).time = none)
      ∧ s.runnerGun table r = some 1200000
      ∧ startFlags = { startClamped := decide ((1199999 : Nat) < 1200000), remote := false, earlyClose := false
                       held := decide (r.status = .held), gunUnknown := false, lateStart := startFlags.lateStart }
      ∧ (chipSearch s s.config 77 32 0 s.config.chipCount).2 = some 0 ∧ r.chip = 77 := by decide +kernel

theorem test_witness_SplitCrossingIsStored :
    let s := race 5717040
    let r := s.readRunner table 0
    r.status ≠ .withdrawn ∧ (r.slot 3).time = none ∧ s.runnerGun table r = some 1200000
      ∧ r.lowerBound (r.start <|> s.runnerGun table r) 3 = some 4203480 ∧ 4203480 < 4203481 ∧ r.upperBound 5 3 = none := by
  decide +kernel

theorem test_witness_FaceTimesOfASplit :
    faceTimes table screen0.face0 3 5712230 300458 5717040 = some (5932596, 5952596, 5962596)
      ∧ faceTimes table screen0.face0 3 5712230 300458 5962596 = none
      ∧ faceTimes table screen0.face0 3 5712230 300458 5962595 = some (5962595, 5952596, 5962596) := by decide +kernel

def derived15 : Derived := derive table ((race 5717040).readRunner table 0) 1200000 3 5712230

theorem test_witness_StatusWrittenAndScreensTold :
    (race 5717040).engine = .race ∧ derived15.suspect = false ∧ ((race 5717040).readRunner table 0).status ≠ .held
      ∧ (closed 5717040).engine ≠ .race ∧ (derive table ((race 0).readRunner table 0) 1200000 3 4203481).suspect = true := by
  decide +kernel

/-! ### Runner and wave items -/

theorem test_witness_ItemChecksRefuse :
    let s := race 5717040
    let r := s.readRunner table 0
    table.runnerCount ≤ (item .setName [(0, 4, 2)]).field 0 4 ∧ (item .setName [(0, 4, 1)]).field 0 4 < table.runnerCount
      ∧ table.pointCount ≤ (remote 5 0).field 4 1 ∧ (remote 4 0).field 4 1 < table.pointCount
      ∧ s.raceClock < (remote 4 5717041).field 8 4 ∧ (correction 3 5717041 0).field 5 1 = 0
      ∧ s.raceClock < (correction 3 5717041 0).field 8 4
      ∧ ((correction 3 4203480 0).field 8 4 ≤ s.raceClock
          ∧ r.lowerBound (r.start <|> s.runnerGun table r) 3 = some 4203480)
      ∧ r.upperBound 5 1 = some 4203480 := by decide +kernel

theorem test_witness_WaveWatchAndNameAreWritten :
    let s := race 5717040
    (15 < (waveItem 16 0 0).field 0 1 ∧ (waveItem 15 0 0).field 0 1 ≤ 15)
      ∧ (43199999 < (waveItem 15 0 43200000).field 4 4 ∧ (waveItem 15 0 43199999).field 4 4 ≤ 43199999)
      ∧ s.field (table.waveOffset + 8 * 2 + 4) 1 ≠ 0 ∧ s.field (table.waveOffset + 8 * 15 + 4) 1 = 0
      ∧ (item .setWatch [(0, 4, 1), (4, 1, 9)]).field 0 4 < s.config.runnerCount := by decide +kernel

/-- Every action on a runner of each status it tells apart. -/
theorem test_witness_RunnerStatusFollowsItsTable :
    let read := fun k => (patch (2048 + 9) 1 k (race 5717040)).readRunner table 0
    let fresh := fun k => (patch (2368 + 9) 1 k (race 5717040)).readRunner table 1
    let done := (patch (2048 + 9) 1 3 (patch (2048 + 96) 4 9000000 (race 5717040))).readRunner table 0
    [0, 1, 2, 3, 4, 5].map (fun k => (read k).status) = [.registered, .onCourse, .finished, .withdrawn, .held, .registered]
      ∧ StatusAction.ofCode 4 = none ∧ [0, 1, 2, 3].map StatusAction.ofCode
          = [some .withdraw, some .reinstate, some .hold, some .release]
      ∧ (done.status = .withdrawn ∧ (done.slot 4).time.isSome = true)
      ∧ ((read 3).slot 4).time = none ∧ (read 3).start.isSome = true
      ∧ (fresh 3).start = none ∧ (∀ q ∈ [0, 1, 2, 3, 4], ((fresh 3).slot q).time = none) := by decide +kernel

theorem test_witness_VoidEmptiesTheSlot :
    (correction 4 0 1).field 0 4 < table.runnerCount ∧ (correction 4 0 1).field 4 1 < table.pointCount
      ∧ (correction 4 0 1).field 5 1 ≠ 0 ∧ (correction 4 0 1).kind = .correctSplit := by decide +kernel

/-- A VOID of a runner of wave 2: granted, with the wave entry refused at either field, and with the record refused (R40). -/
theorem test_void_reads_its_wave :
    let s := withIntake [.work (correction 3 0 1)] corrected15
    let r := s.readRunner table 0
    let bad (a : Nat) : State := { s with refused := [a] }
    let wave (o : Nat) := s.addr (waveOffset table 2 o)
    let t := bad (wave 0)
    r.wave = some 2 ∧ s.refused = [] ∧ s.port = .free
      ∧ (t.readRunner table 0).wave = some 2 ∧ t.refuses (wave 0) 4 = true ∧ (∀ x ∈ t.runnerReads table 0, t.refuses x.2.1 x.2.2 = false)
      ∧ (after (exec .correctSplit t) t).engine = .halted ∧ (after (exec .correctSplit t) t).mem = t.mem
      ∧ (bad (wave 4)).refuses (wave 4) 1 = true
      ∧ ¬ (∀ x ∈ s.runnerReads table 0, (bad (s.addr (runnerOffset table 0 9))).refuses x.2.1 x.2.2 = false) := by decide +kernel

theorem test_witness_CorrectionWritesTheTime :
    let s := { stored15 with raceClock := 5760000 }
    let r := s.readRunner table 0
    let w := correction 3 5712050 0
    w.field 0 4 < table.runnerCount ∧ w.field 4 1 < table.pointCount ∧ w.field 5 1 = 0 ∧ w.field 8 4 ≤ 43199999
      ∧ w.field 8 4 ≤ s.raceClock ∧ r.lowerBound (r.start <|> s.runnerGun table r) 3 = some 4203480
      ∧ 4203480 < w.field 8 4 ∧ r.upperBound 5 3 = none := by decide +kernel

/-! ### Screens -/

def shows : Snapshot := ⟨30412, List.replicate 16 0x41, 4448750, 301750, none, false⟩
def entry (runner on priority : Nat) (since : Option Nat) : Entry := ⟨runner, 0, on, on, on + 10000, priority, since, shows⟩
def request (priority on off : Nat) : Request := ⟨0, 0, 900, on, on, off, priority, shows⟩
def fresh : ScreenState := screen0.initial 9000000
def scheduled (n : Nat) : ScreenState := { fresh with schedule := (List.range n).map fun k => entry k (6000000 + k) 0 none }
def onScreen (x : ScreenState) (s : State) : State := s.withScreen 0 x
def asked (q : Request) (s : State) : State := { s with handovers := [.request q] }

theorem screenAt_onScreen (x : ScreenState) (clock : Nat) (hs : List HandOver) :
    ScreenAt { onScreen x (race clock) with handovers := hs } 0 screen0 x := ⟨rfl, rfl⟩

/-- Below the floor; room for one entry more; a full schedule with no candidate and with one; off times at the clock and after it. -/
theorem test_witness_NewRequestsAreAdmittedOrDropped :
    (asked (request 0 7 8) (race 5000)).working = true
      ∧ ((request 6 0 0).priority < { fresh with floor := 7 }.floor ∧ fresh.floor ≤ (request 0 0 0).priority)
      ∧ (scheduled 47).schedule.length < 48 ∧ 48 ≤ (scheduled 48).schedule.length
      ∧ findEntry 900 0 (scheduled 48).schedule = none
      ∧ (∀ e ∈ (scheduled 48).schedule, ¬ (e.shownSince = none ∧ e.priority < (request 0 0 0).priority))
      ∧ ((scheduled 48).schedule = (scheduled 47).schedule ++ entry 47 6000047 0 none :: []
          ∧ (entry 47 6000047 0 none).shownSince = none ∧ (entry 47 6000047 0 none).priority < (request 1 0 0).priority
          ∧ ∀ g ∈ (scheduled 47).schedule, (entry 47 6000047 0 none).priority ≤ g.priority)
      ∧ (request 0 0 5000).offTime ≤ (race 5000).raceClock ∧ ¬ (request 0 0 5001).offTime ≤ (race 5000).raceClock := by
  decide +kernel

theorem test_witness_RequestsReplaceTheirEntry :
    let shown := { fresh with schedule := [entry 900 3000 0 (some 3000)] }
    let pending := { fresh with schedule := [entry 900 6000 0 none] }
    findEntry 900 0 pending.schedule = some (entry 900 6000 0 none)
      ∧ findEntry 900 0 shown.schedule = some (entry 900 3000 0 (some 3000))
      ∧ (max (request 0 0 5000).offTime (min (3000 + screen0.dwell) 43199999) ≤ (race 5000).raceClock)
      ∧ (race 5000).raceClock < max (request 0 0 5000).offTime (min (3001 + screen0.dwell) 43199999) := by decide +kernel

/-- A request whose entry is missed at once still offers the rows: the entry that came due in that millisecond is shown
(R135, R141, R143). -/
theorem test_missed_request_offers_rows :
    let due := { fresh with schedule := [entry 1 5000 0 none] }
    let y := requestEvent (request 0 0 5000) screen0 5000 9000000 due
    y.schedule = [entry 1 5000 0 (some 5000)] ∧ y.missed = 1 := by decide +kernel

theorem test_witness_PurgesAndRemovals :
    let s := { onScreen (scheduled 2) (race 5000) with handovers := [.removal 0 0 1] }
    ScreenAt s 0 screen0 (scheduled 2) ∧ findEntry 1 0 (scheduled 2).schedule = some (entry 1 6000001 0 none)
      ∧ findEntry 2 0 (scheduled 2).schedule = none
      ∧ { s with handovers := [.purge 1] }.handovers = .purge 1 :: [] :=
  ⟨screenAt_onScreen _ _ _, by decide +kernel, by decide +kernel, rfl⟩

/-- A due entry and a free row; a leave time and an off time that the clock has just reached. -/
theorem test_witness_BoardsOfferRowsByTheClock :
    let due := { fresh with schedule := [entry 1 5000 0 none, entry 2 4000 0 (some 4000)] }
    let leaving := { fresh with schedule := [entry 1 3000 0 (some 11000)] }
    ((entry 1 5000 0 none).showable 5000 = true ∧ shownCount due.schedule + 1 = screen0.rows
        ∧ shownCount [entry 1 5000 0 none] < screen0.rows
        ∧ due.schedule.find? (Entry.showable 5000) = some (entry 1 5000 0 none))
      ∧ (∀ e ∈ leaving.schedule, e.showable 5000 = false)
      ∧ (findEntry 1 0 leaving.schedule = some (entry 1 3000 0 (some 11000))
          ∧ max (entry 1 3000 0 none).offTime (min (11000 + screen0.dwell) 43199999) ≤ 13000)
      ∧ (findEntry 1 0 due.schedule = some (entry 1 5000 0 none) ∧ (entry 1 5000 0 none).offTime ≤ 15000)
      ∧ screen0.rows ≤ shownCount [entry 1 1 0 (some 1), entry 2 2 0 (some 2)] := by decide +kernel

def bannerItem (set expiry : Nat) (text : Byte) : WorkItem := item .banner [(0, 4, set), (4, 4, expiry), (8, 1, text.toNat)]

theorem test_witness_BannersAreSetAndExpire :
    let s := race 5000
    let b : Banner := ⟨(bannerItem 1 0 0x41).bytes 8 32, some 5000⟩
    { s with bannerItems := [bannerItem 1 0 0x41] }.bannerItems = bannerItem 1 0 0x41 :: []
      ∧ ¬ (∀ c ∈ (bannerItem 1 0 0x41).bytes 8 32, c = 0 ∨ c = 0x20)
      ∧ (∀ c ∈ (bannerItem 1 0 0x20).bytes 8 32, c = 0 ∨ c = 0x20)
      ∧ ((bannerItem 1 5000 0x41).field 4 4 ≤ s.raceClock ∧ s.raceClock < (bannerItem 1 5001 0x41).field 4 4)
      ∧ (43199999 < (bannerItem 1 43200000 0x41).field 4 4 ∧ (bannerItem 1 4294967295 0x41).field 4 4 = 4294967295)
      ∧ (((bannerItem 1 0 0x41).field 0 4).testBit 0 = true ∧ ((bannerItem 1 0 0x41).field 0 4).testBit 1 = false)
      ∧ { fresh with banner := some b }.banner = some b ∧ b.expiry = some 5000 := by decide +kernel

/-- An expiry that equals the clock frozen at END is acted on in CLOSED; a later one never is (R149). -/
theorem test_banner_expiry_in_closed :
    let closed (t : Nat) := { onScreen { fresh with banner := some ⟨[], some t⟩ } (race 5000) with engine := .closed }
    bannerExpiryReady 0 (closed 5000) = true ∧ bannerExpiryReady 0 (closed 5001) = false
      ∧ (after (exec (.bannerExpiry 0) (closed 5000)) (closed 5000)).screens[0]?.map ScreenState.banner = some none := by
  decide +kernel

theorem test_witness_StatusRecordsAreWritten :
    let s := { race 5000 with localTime := 9001000 }
    s.working = true ∧ s.refused = [] ∧ s.port = .free ∧ s.statusTimer = some 9000000 ∧ 9000000 + 1000 ≤ s.localTime := by decide

/-- Each power event at the first moment it is due; a wake history below and at the flap limit of 3. -/
theorem test_witness_ScreenPowerFollowsItsRules :
    let idle : Vector FaceState 2 := #v[⟨.idle, 9000000⟩, ⟨.idle, 9000000⟩]
    let near := { fresh with schedule := [entry 1 35000 0 none] }
    let dim := { fresh with power := .dim, dimSince := some 9000000, faces := idle }
    faceBusy screen0 5000 near 0 = true ∧ faceBusy screen0 4999 near 0 = false ∧ near.faces[0].activity = .quiet
      ∧ near.faces[0].idleSince + 1000 * screen0.dimAfter ≤ 9060000
      ∧ (dim.targetActive = false ∧ { dim with force := true }.targetActive = true ∧ fresh.power = .active)
      ∧ { dim with power := .dark }.power = .dark
      ∧ (dim.dimSince = some 9000000 ∧ 9000000 + 1000 * screen0.darkAfter ≤ 9900000 ∧ dim.demoted = false)
      ∧ ([9300001, 9300002].filter fun w => !decide (w + 1000 * screen0.flapWindow < 9900000)).length < screen0.flapLimit
      ∧ screen0.flapLimit ≤ ([9300000, 9300002, 9300003].filter fun w => !decide (w + 1000 * screen0.flapWindow < 9900000)).length
      ∧ 9300000 + 1000 * screen0.flapWindow ≤ 9900000 := by decide +kernel

/-- A wake that ages out as dark_after passes (R159): timer first, the screen is demoted and the age-out sends it to DARK;
age-out first, the timer finds the count below the limit. -/
theorem test_age_out_as_dark_after_passes :
    let idle : Vector FaceState 2 := #v[⟨.idle, 9000000⟩, ⟨.idle, 9000000⟩]
    let dim := { fresh with
      power := .dim, dimSince := some 9000000, faces := idle, wakes := [9300000, 9300002, 9300003] }
    let timer := darkAfterEvent screen0 5000 9900000 dim
    (timer.power = .dim ∧ timer.demoted = true ∧ timer.wakes = dim.wakes)
      ∧ wakeAgeEvent screen0 5000 9900000 timer = darkAfterEvent screen0 5000 9900000 (wakeAgeEvent screen0 5000 9900000 dim)
      ∧ (wakeAgeEvent screen0 5000 9900000 timer).power = .dark := by decide +kernel

/-! ### Panels -/

def boxed (box : List OutFrame) (p : Panel) : Panel := { p with outbox := box }
def onPanel (p : Panel) (s : State) : State := { s with panels := s.panels.set 0 p }
def panel0 : Panel := boxed [brightnessFrame .dim, bannerFrame none] (racePanel screen0)
def sending (p : Panel) (s : State) : State := s.withPanelLine 0 ⟨2, none, some ⟨0, 9000000, 9000020, false⟩, []⟩ |> onPanel p

theorem test_witness_PanelsAreServedAndProbed :
    let s := onPanel panel0 (race 5000)
    let last := s.withPanelLine 0 ⟨2, none, none, []⟩
    let probing := { racePanel screen0 with online := false, probeDue := some 9000000, backOff := some 9000000 }
    s.panelLines[0].exchange = none ∧ s.panelLines[0].pendingClock = none
      ∧ (s.panelAt 0 ((s.panelLines[0].position + 15 + 0) % 16 + 1) = some 0 ∧ s.panels[0]? = some panel0)
      ∧ last.panelAt 0 ((last.panelLines[0].position + 15 + 15) % 16 + 1) = some 0
      ∧ (last.panelAt 0 5 = some 1 ∧ (last.panels[1]?.map Panel.outbox) = some [])
      ∧ (∀ a ∈ [2, 3, 4, 6, 7, 8, 9, 10, 11, 12, 13, 14, 15, 16], last.panelAt 0 a = none)
      ∧ panel0.outbox ≠ [] ∧ panel0.backOff = none
      ∧ (probing.online = false ∧ probing.probeDue = some 9000000 ∧ probing.backOff = some 9000000
          ∧ ∀ f ∈ probing.outbox, f.key ≠ .ping) := by decide +kernel

theorem test_witness_PanelRepliesAreActedOn :
    let s := sending panel0 (race 5000)
    let pinging := boxed [pingFrame] { racePanel screen0 with online := false }
    s.panelLines[0].exchange = some ⟨0, 9000000, 9000020, false⟩ ∧ s.panels[0]? = some panel0
      ∧ panel0.outbox = brightnessFrame .dim :: [bannerFrame none] ∧ (brightnessFrame .dim).key ≠ .ping
      ∧ (pinging.outbox = pingFrame :: [] ∧ pingFrame.key = .ping)
      ∧ RxFrame.isReply (frame 9000000 1 0x91 []) 0x91 panel0.address = true
      ∧ RxFrame.isReply (frame 9000000 1 0x92 []) 0x92 panel0.address = true
      ∧ { panel0 with waits := 18 }.waits < 19 ∧ 19 ≤ { panel0 with waits := 19 }.waits := by decide +kernel

/-- The third miss, by a reply that failed and by a twentieth WAIT: the panel is OFFLINE, LINE_FAULT set (R171). -/
theorem test_third_miss :
    let p := { panel0 with misses := 2, waits := 19 }
    let s := sending p (race 5000)
    let t := after (exec (.noReply 0 true) s) s
    let u := after (exec (.wait 0 (frame 9000000 1 0x92 [])) s) s
    s.panels[0]? = some p ∧ p.outbox = brightnessFrame .dim :: [bannerFrame none] ∧ ¬ p.misses < 2
      ∧ t.panels[0]?.map Panel.online = some false ∧ t.cause &&& 0x020#9 = 0x020#9 ∧ t.panels = u.panels := by
  decide +kernel

theorem test_witness_FramesCoalesceByKey :
    panel0.online = true ∧ { panel0 with online := false }.online = false
      ∧ (∀ g ∈ panel0.outbox, g.key ≠ (clearRowFrame 1).key)
      ∧ panel0.outbox = [brightnessFrame .dim] ++ bannerFrame none :: [] ∧ (bannerFrame none).key = .banner
      ∧ ∀ h ∈ [brightnessFrame .dim], h.key ≠ .banner := by decide +kernel

theorem test_witness_FramesCoalesceByKey_refresh : ScreenAt (race 5000) 0 screen0 fresh := ⟨rfl, rfl⟩

/-! ### The journal -/

def writing (j : Journal) : State := { race 5000 with journal := j }
def spilled (n : Nat) : List Spilled := List.replicate n ⟨gapRecord 1 2, 3, false, false⟩
def openAt (fill : Nat) : Journal := { Journal.reset with current := some 0, fill := fill, sealTimer := some 9000000 }
/-- Every page SEALED. -/
def sealed (j : Journal) : State :=
  let s := writing j
  s.withMem (Memory.writeAll s.mem ([8192, 16384, 24576, 32768].map fun o => put o 4 2))

/-- A record handed to a spilling writer whose next page reads FREE reopens it (R181), and drops that wait put a GAP record
into the page before it. -/
theorem test_reopened_page_takes_the_gap :
    let s := writing { Journal.reset with dropped := 7, nextPage := 1 }
    let h := handRecord (gapRecord 9 9) s
    h.serial = 1 ∧ h.state.journal.current = some 1 ∧ h.state.journal.fill = 2 ∧ h.state.journal.dropped = 0
      ∧ h.state.field 16384 4 = 1 ∧ h.state.field (16384 + 32) 1 = 7 ∧ h.state.field (16384 + 32 + 12) 4 = 7
      ∧ h.state.field (16384 + 64 + 12) 4 = 9 := by decide +kernel

/-- The first and the last place of a page; draining; spilling with room, with drops waiting, and full; drops waiting
before an open page. -/
theorem test_witness_RecordsArePlacedInTheJournal :
    ((openAt 0).fill + 1 ≠ 128 ∧ (openAt 127).fill + 1 = 128 ∧ (openAt 0).spill = [] ∧ (openAt 0).dropped = 0)
      ∧ (afterReread (writing (openAt 0))).journal.current = some 0
      ∧ (afterReread (writing { openAt 5 with dropped := 7 })).journal.dropped ≠ 0
      ∧ (afterReread (writing { Journal.reset with nextPage := 3 })).journal.current = some 3
      ∧ (afterReread (sealed Journal.reset)).journal.current = none
      ∧ { openAt 5 with spill := spilled 1 }.spill ≠ []
      ∧ ((sealed Journal.reset).journal.current = none
          ∧ (sealed Journal.reset).field ((sealed Journal.reset).config.pages.getD 0 0) 4 ≠ 0)
      ∧ { Journal.reset with spill := spilled 255 }.places < 256 ∧ 256 ≤ { Journal.reset with spill := spilled 256 }.places
      ∧ { Journal.reset with dropped := 7 }.dropped ≠ 0 ∧ { Journal.reset with dropped := 65535 }.dropped = 65535
      ∧ Memory.wf image = true ∧ (openAt 127).fill < 128 := by decide +kernel

theorem test_witness_RecordsArePlacedInTheJournal_range :
    (openAt 127).inRange 4 := ⟨fun _ h => by cases h; decide, by decide⟩

theorem test_witness_SealsMoveToTheNextPage :
    let s := writing (openAt 128)
    s.engine ≠ .halted ∧ s.journal.current = some 0 ∧ s.journal.fill ≠ 0 ∧ s.field 16384 4 = 0
      ∧ (sealed (openAt 1)).field 16384 4 ≠ 0 := by decide +kernel

theorem test_witness_SealRequestsAndDraining :
    let s := { writing (openAt 1) with localTime := 9001000 }
    let flush := item .flushJournal []
    s.journal.sealTimer = some 9000000 ∧ 9000000 + s.config.sealInterval ≤ s.localTime
      ∧ { s.journal with flushes := [flush] }.flushes = flush :: []
      ∧ { s.journal with spill := spilled 1 }.spill = ⟨gapRecord 1 2, 3, false, false⟩ :: []
      ∧ s.journal.current ≠ none ∧ s.journal.fill ≠ 0 ∧ s.journal.pageSeq = 0 := by decide +kernel

/-! ### What every command leaves, and the laws -/

theorem test_witness_EventsNotDueChangeNothing :
    let s := State.reset
    secondMarkReady s = false ∧ ceilingReady s = false ∧ s.engine ≠ .loading ∧ roundReady 0 s = false ∧ callReady 1 s = false
      ∧ markReady 0 s = false ∧ silenceReady 0 true s = false ∧ panelReady 0 s = false ∧ noReplyReady 1 true s = false
      ∧ clockReady 0 s = false ∧ drawReady s = false ∧ expiryReady 3 77 s = false ∧ offerReady s = false
      ∧ slotVisitReady s = false ∧ sweepTimerReady s = false ∧ s.sweep.ends = [] ∧ s.intake = [] ∧ s.handovers = []
      ∧ s.bannerItems = [] ∧ statusDue s = false ∧ entryDueReady 0 s = false ∧ leaveReady 0 1 0 s = false
      ∧ missedReady 0 1 0 s = false ∧ bannerExpiryReady 0 s = false ∧ wakeLeadReady 0 0 s = false
      ∧ dimAfterReady 0 1 s = false ∧ darkAfterReady 0 s = false ∧ wakeAgeReady 0 s = false ∧ backOffReady 0 s = false
      ∧ probeReady 0 s = false ∧ sealDue s = false ∧ drainReady s = false ∧ s.journal.flushes = [] := by decide +kernel

theorem test_race_journalSound : JournalSound (race 5000) :=
  ⟨Or.inr (by decide), fun _ => rfl, fun _ h => by cases h; decide, by decide⟩

theorem test_race_schedulesSound : SchedulesSound (race 5000) := by
  refine ⟨rfl, ?_⟩
  rintro (_ | _ | i) c x ⟨hc, hx⟩
  · cases hx; exact ⟨List.Pairwise.nil, List.Pairwise.nil, by cases hc; decide⟩
  · cases hx; exact ⟨List.Pairwise.nil, List.Pairwise.nil, by cases hc; decide⟩
  · exact absurd hx (by simp [race])

theorem test_race_bounded : Bounded (race 5000) where
  base     := by decide
  clock    := by decide
  landing  := by decide +kernel
  silence  := by decide +kernel
  rounds   := by decide +kernel
  clusters := by decide
  reads    := by decide
  memory   := by decide
  intake   := by decide
  spill    := by decide
  dropped  := by decide
  screens  := by
    intro x hx
    have h : x = screen0.initial 9000000 ∨ x = screen1.initial 9000000 := by simpa [race] using hx
    rcases h with rfl | rfl <;> exact ⟨by decide, by decide, by decide, by decide, by decide⟩
  rows     := by decide
  panels   := by
    intro p hp
    have h : p = racePanel screen0 ∨ p = racePanel screen1 := by simpa [race] using hp
    rcases h with rfl | rfl <;> exact ⟨by decide, .nil, (fun f hf => nomatch hf), by decide, by decide⟩
  position := by decide +kernel

/-- A step from a sound state with a canonical memory, and a byte outside all that the step stores and outside the pages. -/
theorem test_witness_laws :
    Memory.wf (race 5000).mem = true ∧ storedBy .secondMark (race 5000) = []
      ∧ (∀ p ∈ List.range 4, inBytes ((race 5000).addr (pageOffset table p 0)) 4128 4096 = false)
      ∧ (∀ p ∈ List.range 4, inBytes ((race 5000).addr (pageOffset table p 0)) 4128 8191 = false)
      ∧ ∃ t, step { race 5000 with pending := [.secondMark] } = .next t :=
  ⟨by decide +kernel, rfl, by decide +kernel, by decide +kernel, _, rfl⟩

end Sys2Proof.Tests
end

/-! The bounds of the state, part by part, and the relation `Steady`: what an operation of the blocks keeps. -/

namespace Sys2Proof.Machine

/-! ## The bounds of the parts -/

/-- The bounds of the assembler's collections (R76, R79, R84). -/
structure AssemblerBounded (a : Assembler) : Prop where
  clusters : a.clusters.length ≤ 1024
  reads    : ∀ c ∈ a.clusters, c.count ≤ 255
  memory   : a.memory.length ≤ 512

/-- The bounds of the journal writer's spill buffer and dropped count (R176, R180). -/
structure JournalBounded (j : Journal) : Prop where
  spill   : j.places ≤ 256
  dropped : j.dropped ≤ 65535

theorem mapTwo_get {α : Type} (f : α → α) (v : Vector α 2) (l : LineIx) : (mapTwo f v)[l] = f v[l] := by
  fin_cases l <;> rfl

namespace Bounded

variable {s : State}

theorem assembler (h : Bounded s) : AssemblerBounded s.assembler := ⟨h.clusters, h.reads, h.memory⟩

theorem journal (h : Bounded s) : JournalBounded s.journal := ⟨h.spill, h.dropped⟩

theorem withDecoder (h : Bounded s) (m : Fin 8) {d : Decoder} (hb : d.buffer.length ≤ 64) (hs : d.silentCount ≤ 3) :
    Bounded (s.withDecoder m d) :=
  { h with
    landing := fun k => by
      simp only [State.withDecoder_decoders, Fin.getElem_fin, Vector.getElem_set]
      split
      · exact hb
      · exact h.landing k
    silence := fun k => by
      simp only [State.withDecoder_decoders, Fin.getElem_fin, Vector.getElem_set]
      split
      · exact hs
      · exact h.silence k }

theorem withMatLine (h : Bounded s) (l : LineIx) {x : MatLine} (hx : x.round ≤ 7) : Bounded (s.withMatLine l x) :=
  { h with
    rounds := fun k => by
      simp only [State.withMatLine_matLines, Fin.getElem_fin, Vector.getElem_set]
      split
      · exact hx
      · exact h.rounds k }

theorem withPanelLine (h : Bounded s) (l : LineIx) {x : PanelLine} (hx : 1 ≤ x.position ∧ x.position ≤ 16) :
    Bounded (s.withPanelLine l x) :=
  { h with
    position := fun k => by
      simp only [State.withPanelLine_panelLines, Fin.getElem_fin, Vector.getElem_set]
      split
      · exact hx
      · exact h.position k }

theorem withAssembler (h : Bounded s) {a : Assembler} (ha : AssemblerBounded a) : Bounded (s.withAssembler a) :=
  { h with clusters := ha.clusters, reads := ha.reads, memory := ha.memory }

theorem withJournal (h : Bounded s) {j : Journal} (hj : JournalBounded j) : Bounded (s.withJournal j) :=
  { h with spill := hj.spill, dropped := hj.dropped }

theorem withPanel (h : Bounded s) (i : Nat) {p : Panel} (hp : PanelBounded p) : Bounded (s.withPanel i p) :=
  { h with
    panels := fun q hq => by
      rcases List.mem_or_eq_of_mem_set hq with hq | rfl
      · exact h.panels q hq
      · exact hp }

theorem withScreen (h : Bounded s) (i : Nat) {x : ScreenState} (hx : ScreenBounded x) : Bounded (s.withScreen i x) :=
  { h with
    screens := fun y hy => by
      rcases List.mem_or_eq_of_mem_set hy with hy | rfl
      · exact h.screens y hy
      · exact hx }

/-- Both lines of either kind changed alike, rounds and service positions in their ranges. -/
theorem mapLines (h : Bounded s) {f : MatLine → MatLine} {g : PanelLine → PanelLine}
    (hf : ∀ x, x.round ≤ 7 → (f x).round ≤ 7)
    (hg : ∀ x, 1 ≤ x.position ∧ x.position ≤ 16 → 1 ≤ (g x).position ∧ (g x).position ≤ 16) :
    Bounded { s with matLines := mapTwo f s.matLines, panelLines := mapTwo g s.panelLines } :=
  { h with
    rounds   := fun l => by rw [mapTwo_get]; exact hf _ (h.rounds l)
    position := fun l => by rw [mapTwo_get]; exact hg _ (h.position l) }

/-- A memory fault keeps the bounds: every collection stays (R16). -/
theorem halt (h : Bounded s) (r : Region) : Bounded (s.halt r) :=
  { h.mapLines (f := MatLine.dropMark) (g := PanelLine.dropClock) (fun _ h => h) (fun _ h => h) with }

/-- Frames handed over to a panel, their rows 1 to 8. -/
theorem placeFrames (h : Bounded s) (i : Nat) {fs : List OutFrame} (hf : ∀ f ∈ fs, ∀ r, f.key = .row r → 1 ≤ r ∧ r ≤ 8) :
    Bounded (placeFrames i fs s) := by
  rw [placeFrames_panels]
  exact { h with panels := placeFrames_bounded hf i h.panels }

end Bounded

/-! ## What an operation of the blocks keeps -/

/-- From `s` an operation of the blocks comes to `t`: the engine stays or halts, the clocks stand, the bounds are kept. -/
structure Steady (s t : State) : Prop where
  engine    : t.engine = s.engine ∨ t.engine = .halted
  raceClock : t.raceClock = s.raceClock
  localTime : t.localTime = s.localTime
  bounded   : Bounded s → Bounded t

namespace Steady

variable {s t u : State}

theorem refl (s : State) : Steady s s := ⟨.inl rfl, rfl, rfl, id⟩

theorem trans (h : Steady s t) (h' : Steady t u) : Steady s u where
  engine    := h'.engine.elim (fun e => h.engine.imp e.trans e.trans) .inr
  raceClock := h'.raceClock.trans h.raceClock
  localTime := h'.localTime.trans h.localTime
  bounded   := h'.bounded ∘ h.bounded

theorem andThen {f : State → State} (h : Steady s t) (hf : ∀ u, Steady u (f u)) : Steady s (t.andThen f) := by
  unfold State.andThen
  split
  · exact h
  · exact h.trans (hf t)

/-- An operation that leaves engine and clocks as they are. -/
theorem stays (he : t.engine = s.engine) (hr : t.raceClock = s.raceClock) (hl : t.localTime = s.localTime)
    (hb : Bounded s → Bounded t) : Steady s t := ⟨.inl he, hr, hl, hb⟩

theorem halt (r : Region) (s : State) : Steady s (s.halt r) := ⟨.inr rfl, rfl, rfl, fun h => h.halt r⟩

/-- An operation through the memory port changes no collection. -/
theorem port (h : PortStep s t) : Steady s t := by
  rcases h.2 with ⟨m, p, rfl⟩ | ⟨m, p, rfl⟩ | ⟨r, m, p, rfl⟩
  · exact stays rfl rfl rfl fun h => { h with }
  · exact ⟨.inr rfl, rfl, rfl, fun h => { h with }⟩
  · exact ⟨.inr rfl, rfl, rfl, fun h => { h.halt r with }⟩

/-- An operation of the journal writer that keeps the writer's bounds. -/
theorem writer (h : JournalStep False s t) (hj : JournalBounded s.journal → JournalBounded t.journal) : Steady s t := by
  have hw (h : Bounded s) := h.withJournal (hj h.journal)
  rcases h.form with ⟨m, p, c, j, rfl⟩ | ⟨m, p, c, j, rfl⟩ | ⟨fr, m, p, c, j, rfl⟩
  · exact stays rfl rfl rfl fun h => { hw h with }
  · exact ⟨.inr rfl, rfl, rfl, fun h => { hw h with }⟩
  · exact ⟨.inr rfl, rfl, rfl, fun h => { (hw h).halt .page with }⟩

theorem setCause (c : Cause) (s : State) : Steady s (s.setCause c) := stays rfl rfl rfl fun h => { h with }

theorem withSweep (w : Sweep) (s : State) : Steady s (s.withSweep w) := stays rfl rfl rfl fun h => { h with }

theorem reportEnd (e : EndReport) (s : State) : Steady s (s.reportEnd e) := stays rfl rfl rfl fun h => { h with }

theorem withJournal {j : Journal} (hj : JournalBounded s.journal → JournalBounded j) : Steady s (s.withJournal j) :=
  stays rfl rfl rfl fun h => h.withJournal (hj h.journal)

theorem withAssembler {a : Assembler} (ha : AssemblerBounded s.assembler → AssemblerBounded a) :
    Steady s (s.withAssembler a) :=
  stays rfl rfl rfl fun h => h.withAssembler (ha h.assembler)

theorem withMatLine (l : LineIx) {x : MatLine} (hx : s.matLines[l].round ≤ 7 → x.round ≤ 7) : Steady s (s.withMatLine l x) :=
  stays rfl rfl rfl fun h => h.withMatLine l (hx (h.rounds l))

theorem withDecoder (m : Fin 8) {d : Decoder} (hb : (s.decoders[m]).buffer.length ≤ 64 → d.buffer.length ≤ 64)
    (hs : (s.decoders[m]).silentCount ≤ 3 → d.silentCount ≤ 3) : Steady s (s.withDecoder m d) :=
  stays rfl rfl rfl fun h => h.withDecoder m (hb (h.landing m)) (hs (h.silence m))

theorem withPanelLine (l : LineIx) {x : PanelLine}
    (hx : 1 ≤ s.panelLines[l].position ∧ s.panelLines[l].position ≤ 16 → 1 ≤ x.position ∧ x.position ≤ 16) :
    Steady s (s.withPanelLine l x) :=
  stays rfl rfl rfl fun h => h.withPanelLine l (hx (h.position l))

theorem withPanel (i : Nat) {p : Panel} (hp : Bounded s → PanelBounded p) : Steady s (s.withPanel i p) :=
  stays rfl rfl rfl fun h => h.withPanel i (hp h)

end Steady

/-! ## The journal writer's spill buffer and dropped count (R176, R180, R181) -/

/-- The spill buffer and the dropped count stand. -/
def SpillKept (s t : State) : Prop := t.journal.spill = s.journal.spill ∧ t.journal.dropped = s.journal.dropped

namespace SpillKept

variable {s t u : State}

theorem refl (s : State) : SpillKept s s := ⟨rfl, rfl⟩

theorem trans (h : SpillKept s t) (h' : SpillKept t u) : SpillKept s u := ⟨h'.1.trans h.1, h'.2.trans h.2⟩

theorem andThen {f : State → State} (h : SpillKept s t) (hf : ∀ u, SpillKept u (f u)) : SpillKept s (t.andThen f) := by
  unfold State.andThen
  split
  · exact h
  · exact h.trans (hf t)

theorem of_journal (h : t.journal = s.journal) : SpillKept s t := by rw [SpillKept, h]; exact ⟨rfl, rfl⟩

theorem store (r : Region) (a : Nat) (bs : List Byte) (s : State) : SpillKept s (s.store r a bs) :=
  of_journal (store_journal r a bs s)

theorem access (r : Region) (a n : Nat) (s : State) : SpillKept s (s.access r a n) := by
  unfold State.access
  split
  · exact of_journal rfl
  · exact refl s

theorem places (h : SpillKept s t) : t.journal.places = s.journal.places := by
  rw [Journal.places, h.1, ← Journal.places]

theorem bounded (h : SpillKept s t) (hj : JournalBounded s.journal) : JournalBounded t.journal :=
  ⟨h.places ▸ hj.spill, h.2 ▸ hj.dropped⟩

theorem openPage (p : Nat) (s : State) : SpillKept s (openPage p s) := by
  exact (store _ _ _ s).andThen fun t => (store _ _ _ t).andThen fun u => ⟨rfl, rfl⟩

theorem tryNextPage (b : Bool) (s : State) : SpillKept s (tryNextPage b s) := by
  refine (access _ _ _ s).andThen fun t => ?_
  split
  · exact openPage _ t
  · split
    · exact of_journal rfl
    · exact refl t

theorem reread (s : State) : SpillKept s (reread s) := by
  unfold Machine.reread
  split
  · exact tryNextPage _ s
  · exact refl s

theorem sealPage (s : State) : SpillKept s (sealPage s) := by
  unfold Machine.sealPage
  split
  · exact refl s
  · split
    · exact refl s
    · refine (store _ _ _ s).andThen fun t => (store _ _ _ t).andThen fun u => (store _ _ _ u).andThen fun v => ?_
      exact SpillKept.trans (t := (v.withJournal _).setCause .pageSealed) ⟨rfl, rfl⟩ (tryNextPage _ _)

theorem putRecord (r : JRecord) (n : Word) (mark : Bool) (s : State) : SpillKept s (putRecord r n mark s) := by
  unfold Machine.putRecord
  split
  · exact refl s
  · refine (store _ _ _ s).andThen fun t => SpillKept.andThen (t := t.withJournal _) ⟨rfl, rfl⟩ fun u =>
      SpillKept.andThen ?_ fun v => (store _ _ _ v).andThen fun w => ?_
    · split
      · exact store _ _ _ u
      · exact refl u
    · split
      · exact sealPage w
      · exact refl w

end SpillKept

/-- The spill buffer has a place for a record, or the page takes it. -/
def Journal.hasPlace (j : Journal) : Prop := j.direct = true ∨ j.places < 256

theorem Journal.hasPlace_of_full {j : Journal} (h : ¬ j.full = true) : j.hasPlace := by
  simp only [Journal.full, Config.spillCapacity, Bool.and_eq_true, Bool.not_eq_true', decide_eq_true_eq, not_and, not_le] at h
  by_cases hd : j.direct = true
  · exact .inl hd
  · exact .inr (h (by simpa using hd))

/-- A writer that writes into the page holds nothing in the spill buffer (R177). -/
theorem Journal.places_of_direct {j : Journal} (h : j.direct = true) : j.places = 0 := by
  simp only [Journal.direct, Bool.and_eq_true, List.isEmpty_iff] at h
  simp [Journal.places, h.2]

theorem Journal.hasPlace.lt {j : Journal} (h : j.hasPlace) : j.places < 256 :=
  h.elim (fun hd => by rw [Journal.places_of_direct hd]; decide) id

/-- A record placed: the spill buffer holds one more place at most, none more for a GAP record (R177, R181). -/
theorem placeRecord_places (r : JRecord) (gap : Bool) (s : State) :
    (placeRecord r gap s).journal.places ≤ s.journal.places + (if gap then 0 else 1)
      ∧ (placeRecord r gap s).journal.dropped = s.journal.dropped := by
  unfold placeRecord
  dsimp only
  split
  · have h := SpillKept.putRecord r s.journal.serial false (s.withJournal { s.journal with serial := s.journal.serial + 1 })
    exact ⟨h.places.trans_le (Nat.le_add_right _ _), h.2⟩
  · cases gap <;> simp [Journal.places]

theorem formGap_places (s : State) :
    (formGap s).journal.places ≤ s.journal.places ∧ (formGap s).journal.dropped ≤ s.journal.dropped := by
  unfold formGap
  split
  · exact ⟨Nat.le_refl _, Nat.le_refl _⟩
  · obtain ⟨hp, hd⟩ := placeRecord_places (gapRecord s.journal.dropped s.raceClock) true
      ((s.withJournal { s.journal with dropped := 0 }).setCause .journalGap)
    exact ⟨hp, hd.trans_le (Nat.zero_le _)⟩

theorem dropRecord_bounded {s : State} (h : JournalBounded s.journal) : JournalBounded (dropRecord s).journal := by
  unfold dropRecord
  split
  · exact h
  · rename_i hd
    exact ⟨h.spill, Nat.lt_of_le_of_ne h.dropped hd⟩

/-- A record handed over keeps the spill buffer within its 256 places and the dropped count at or below 65,535. -/
theorem handRecord_bounded (r : JRecord) {s : State} (h : JournalBounded s.journal) :
    JournalBounded (handRecord r s).state.journal := by
  unfold handRecord
  dsimp only
  have h1 := (SpillKept.reread s).bounded h
  generalize reread s = t at h1
  split
  · exact h1
  · split
    · exact dropRecord_bounded h1
    · rename_i hf
      obtain ⟨hp, hd⟩ := formGap_places t
      have hlt := (Journal.hasPlace_of_full hf).lt
      generalize formGap t = u at hp hd
      split
      · exact ⟨hp.trans h1.spill, hd.trans h1.dropped⟩
      · obtain ⟨hp', hd'⟩ := placeRecord_places r false u
        rw [if_neg Bool.false_ne_true] at hp'
        exact ⟨hp'.trans (hp.trans_lt hlt), hd'.trans_le (hd.trans h1.dropped)⟩

theorem drainHead_bounded {s : State} (h : JournalBounded s.journal) : JournalBounded (drainHead s).journal := by
  unfold drainHead
  split
  · exact h
  · rename_i x rest hs
    refine (SpillKept.putRecord _ _ _ _).bounded ⟨?_, h.dropped⟩
    refine le_trans ?_ h.spill
    simp only [Journal.places, State.withJournal_journal, hs, List.filter_cons]
    split <;> simp

theorem watchSeal_bounded (n : Word) (place : Place) {s : State} (h : JournalBounded s.journal) :
    JournalBounded (watchSeal n place s).journal := by
  unfold watchSeal
  dsimp only
  cases place with
  | page seq =>
    dsimp only
    split
    · exact (SpillKept.sealPage _).bounded h
    · exact h
  | spill =>
    refine ⟨le_of_eq_of_le ?_ h.spill, h.dropped⟩
    have hg : ∀ x : Spilled, (x.marked n).gap = x.gap := fun x => by unfold Spilled.marked; split <;> rfl
    simp [Journal.places, List.filter_map, Function.comp_def, hg]
  | dropped => exact h

namespace Steady

variable (s : State)

theorem access (r : Region) (a n : Nat) : Steady s (s.access r a n) := port (.access r a n s)

theorem store (r : Region) (a : Nat) (bs : List Byte) : Steady s (s.store r a bs) := port (.store r a bs s)

theorem accessAll (reads : List (Region × Nat × Nat)) : Steady s (s.accessAll reads) := port (.accessAll reads s)

theorem storeAll (ws : List (Region × Nat × List Byte)) : Steady s (s.storeAll ws) := port (.storeAll ws s)

theorem tryNextPage (b : Bool) : Steady s (tryNextPage b s) := writer (tryNextPage_step b s) (SpillKept.tryNextPage b s).bounded

theorem reread : Steady s (reread s) := writer (reread_step s) (SpillKept.reread s).bounded

theorem sealPage : Steady s (sealPage s) := writer (sealPage_step s) (SpillKept.sealPage s).bounded

theorem handRecord (r : JRecord) : Steady s (handRecord r s).state :=
  writer (handRecord_step r False.elim) (handRecord_bounded r)

theorem record (r : JRecord) : Steady s (s.record r) := handRecord s r

theorem drainHead : Steady s (drainHead s) := writer (drainHead_step False.elim) drainHead_bounded

theorem watchSeal (n : Word) (place : Place) : Steady s (watchSeal n place s) :=
  writer (watchSeal_step n place s) (watchSeal_bounded n place)

theorem runFlush (w : WorkItem) : Steady s (runFlush w s) :=
  (reread s).andThen fun t => (sealPage t).andThen fun u =>
    (withJournal (j := { u.journal with flushes := u.journal.flushes.tail }) fun h => ⟨h.spill, h.dropped⟩).trans
      (reportEnd _ _)

end Steady

end Sys2Proof.Machine

/-! Every operation of the blocks is `Steady`: the screens, the panels, the mat lines, the assembler, the work sweep and the
items of the split unit. -/

namespace Sys2Proof.Machine

/-! ## Events at one screen (R134, R138, R139, R160) -/

theorem bumpTally_le {n : Nat} (h : n ≤ 65535) : bumpTally n ≤ 65535 := by
  unfold bumpTally Config.tallyLimit
  split <;> omega

theorem addWake_length {wakes : List Nat} (now : Nat) (h : wakes.length ≤ 15) : (addWake now wakes).length ≤ 15 := by
  unfold addWake Config.wakeCapacity
  split <;> simp only [List.length_append, List.length_tail, List.length_singleton] <;> omega

theorem removeEntry_length (runner : Nat) (face : FaceIx) (l : List Entry) : (removeEntry runner face l).length ≤ l.length :=
  List.length_filter_le _ _

/-- Where there is an entry for a runner and face, its removal shortens the schedule. -/
theorem removeEntry_lt {runner : Nat} {face : FaceIx} {l : List Entry} {e : Entry} (he : e ∈ l)
    (h : e.isFor runner face = true) : (removeEntry runner face l).length < l.length :=
  List.length_filter_lt_length_iff_exists.2 ⟨e, he, by simp [h]⟩

theorem findEntry_some {runner : Nat} {face : FaceIx} {l : List Entry} {e : Entry} (h : findEntry runner face l = some e) :
    e ∈ l ∧ e.isFor runner face = true :=
  ⟨List.mem_of_find?_eq_some h, List.find?_some h⟩

theorem insertEntry_length (e : Entry) (l : List Entry) : (insertEntry e l).length = l.length + 1 := by
  induction l with
  | nil => rfl
  | cons x l ih =>
    rw [insertEntry]
    split
    · rfl
    · simp [ih]

/-- A fold that keeps what it holds or takes the element it looks at ends with an element of the list, if with any. -/
theorem foldl_choice_mem {α : Type} {g : Option α → α → Option α} (hg : ∀ best e, g best e = some e ∨ g best e = best)
    {xs : List α} {best : Option α} {e : α} (h : xs.foldl g best = some e) : e ∈ xs ∨ best = some e := by
  induction xs generalizing best with
  | nil => exact .inr h
  | cons x xs ih =>
    rcases ih h with hm | hb
    · exact .inl (List.mem_cons_of_mem _ hm)
    · rcases hg best x with hx | hx <;> rw [hx] at hb
      · cases hb; exact .inl (List.mem_cons_self ..)
      · exact .inr hb

/-- The eviction candidate stands in the schedule (R137). -/
theorem candidate_mem {priority : Nat} {l : List Entry} {e : Entry} (h : candidate priority l = some e) : e ∈ l := by
  refine (foldl_choice_mem (fun best e => ?_) h).elim (fun hm => (List.mem_filter.1 hm).1) fun hb => nomatch hb
  cases best with
  | none => exact .inl rfl
  | some b =>
    dsimp only
    split
    · exact .inl rfl
    · exact .inr rfl

namespace ScreenBounded

variable {x : ScreenState} (c : Screen) (clock now : Nat)

theorem retarget (h : ScreenBounded x) : ScreenBounded (retarget now x) := by
  unfold Machine.retarget
  split
  · exact { h with }
  · exact { h with }
  · exact { h with wakes := addWake_length now h.wakes }
  · exact h
  · exact h
  · exact h

theorem retestFace (h : ScreenBounded x) (f : FaceIx) : ScreenBounded (retestFace c clock now f x) := by
  unfold Machine.retestFace
  split
  · exact { h with }
  · exact h

theorem retest (h : ScreenBounded x) : ScreenBounded (retest c clock now x) :=
  ((h.retestFace c clock now 0).retestFace c clock now 1).retarget now

theorem leaveEntry (h : ScreenBounded x) (runner : Nat) (face : FaceIx) :
    ScreenBounded (leaveEntry c clock now runner face x) := by
  have hf : floorAfterRemoval c (removeEntry runner face x.schedule).length x.floor ≤ 7 := by
    unfold floorAfterRemoval
    have := h.floor
    split <;> omega
  exact retest c clock now { h with schedule := (removeEntry_length runner face x.schedule).trans h.schedule, floor := hf }

theorem missEntry (h : ScreenBounded x) (runner : Nat) (face : FaceIx) :
    ScreenBounded (missEntry c clock now runner face x) :=
  leaveEntry c clock now (x := { x with missed := bumpTally x.missed }) { h with missed := bumpTally_le h.missed } runner face

theorem showFree (n : Nat) (h : ScreenBounded x) : ScreenBounded (showFree c clock now n x) := by
  induction n generalizing x with
  | zero => exact h
  | succ n ih =>
    rw [Machine.showFree]
    split
    · split
      · exact h
      · exact ih (retest c clock now { h with schedule := by simpa [showEntry] using h.schedule })
    · exact h

theorem offerRows (h : ScreenBounded x) : ScreenBounded (offerRows c clock now x) := h.showFree c clock now c.rows

theorem dropRequest (h : ScreenBounded x) : ScreenBounded (dropRequest x) := { h with dropped := bumpTally_le h.dropped }

theorem enterRequest (h : ScreenBounded x) (hl : x.schedule.length < 48) (r : Request) :
    ScreenBounded (enterRequest c clock now r x) := by
  have hf : ∀ n, floorAfterInsertion c n x.floor ≤ 7 := fun n => by
    unfold floorAfterInsertion
    have := h.floor
    split <;> omega
  exact retest c clock now { h with schedule := by rw [insertEntry_length]; exact hl, floor := hf _ }

/-- An eviction leaves a place in the schedule (R137). -/
theorem evictEntry (h : ScreenBounded x) {e : Entry} (he : e ∈ x.schedule) :
    ScreenBounded (evictEntry c clock now e x) ∧ (evictEntry c clock now e x).schedule.length < 48 := by
  have hlt := (removeEntry_lt (runner := e.runner) (face := e.face) he (by simp [Entry.isFor])).trans_le h.schedule
  refine ⟨retest c clock now { h with schedule := hlt.le, dropped := bumpTally_le h.dropped }, ?_⟩
  rw [Machine.evictEntry, (retest_schedule c clock now _).1]
  exact hlt

theorem settleEntry (h : ScreenBounded x) (runner : Nat) (face : FaceIx) :
    ScreenBounded (settleEntry c clock now runner face x) := by
  unfold Machine.settleEntry
  split
  · exact h
  · split
    · split
      · exact (h.missEntry c clock now runner face).offerRows c clock now
      · exact h.offerRows c clock now
    · split
      · exact (h.leaveEntry c clock now runner face).offerRows c clock now
      · exact h.offerRows c clock now

theorem requestEvent (h : ScreenBounded x) (r : Request) : ScreenBounded (requestEvent r c clock now x) := by
  unfold Machine.requestEvent
  split
  · rename_i old ho
    obtain ⟨hm, hk⟩ := findEntry_some ho
    refine (retest c clock now ?_).settleEntry c clock now _ _
    exact { h with schedule := by rw [insertEntry_length]; exact (removeEntry_lt hm hk).trans_le h.schedule }
  · split
    · exact h.dropRequest
    · split
      · exact (h.enterRequest c clock now ‹_› r).settleEntry c clock now _ _
      · split
        · exact h.dropRequest
        · rename_i e he
          obtain ⟨h', hl⟩ := h.evictEntry c clock now (candidate_mem he)
          exact (h'.enterRequest c clock now hl r).settleEntry c clock now _ _

theorem removalEvent (h : ScreenBounded x) (runner : Nat) (face : FaceIx) :
    ScreenBounded (removalEvent runner face c clock now x) := by
  unfold Machine.removalEvent
  split
  · exact h
  · exact (h.leaveEntry c clock now runner face).offerRows c clock now

theorem leaveIfAny (h : ScreenBounded x) (runner : Nat) (face : FaceIx) :
    ScreenBounded (leaveIfAny c clock now runner face x) := by
  unfold Machine.leaveIfAny
  split
  · exact h
  · exact h.leaveEntry c clock now runner face

theorem purgeEvent (h : ScreenBounded x) (runner : Nat) : ScreenBounded (purgeEvent runner c clock now x) := by
  unfold Machine.purgeEvent
  split
  · exact ((h.leaveIfAny c clock now runner 0).leaveIfAny c clock now runner 1).offerRows c clock now
  · exact h

theorem leaveEvent (h : ScreenBounded x) (runner : Nat) (face : FaceIx) :
    ScreenBounded (leaveEvent runner face c clock now x) := (h.leaveEntry c clock now runner face).offerRows c clock now

theorem bannerEvent (h : ScreenBounded x) (b : Option Banner) : ScreenBounded (bannerEvent b c clock now x) :=
  retarget (x := { x with banner := b, force := b.isSome }) now { h with }

theorem wakeLeadEvent (h : ScreenBounded x) (f : FaceIx) : ScreenBounded (wakeLeadEvent f c clock now x) :=
  (h.retestFace c clock now f).retarget now

theorem dimAfterEvent (h : ScreenBounded x) (f : FaceIx) : ScreenBounded (dimAfterEvent f c clock now x) :=
  retarget now { h with }

theorem darkAfterEvent (h : ScreenBounded x) : ScreenBounded (darkAfterEvent c clock now x) := by
  have hw := (List.length_filter_le (fun w => !agedBefore c now w) x.wakes).trans h.wakes
  unfold Machine.darkAfterEvent
  dsimp only
  split
  · exact { h with wakes := hw }
  · exact { h with wakes := hw }

theorem wakeAgeEvent (h : ScreenBounded x) : ScreenBounded (wakeAgeEvent c clock now x) := by
  have hw : x.wakes.tail.length ≤ 15 := by rw [List.length_tail]; exact (Nat.sub_le _ _).trans h.wakes
  unfold Machine.wakeAgeEvent
  dsimp only
  split
  · exact { h with wakes := hw }
  · exact { h with wakes := hw }

theorem endedScreen (h : ScreenBounded x) : ScreenBounded (endedScreen now x) :=
  { h with schedule := Nat.zero_le _, floor := Nat.zero_le _ }

end ScreenBounded

namespace Steady

variable {s : State}

/-- An event at one screen that keeps the screen's bounds. -/
theorem screenEvent (i : Nat) {f : Screen → Nat → Nat → ScreenState → ScreenState}
    (hf : ∀ c clock now x, ScreenBounded x → ScreenBounded (f c clock now x)) (s : State) :
    Steady s (screenEvent i f s) := by
  unfold Machine.screenEvent
  split
  · rename_i c x hc hx
    dsimp only
    generalize hy : f c s.raceClock s.localTime x = y
    have hp := placeFrames_panels i (eventFrames c.rows x y) (s.withScreen i y)
    refine stays (by rw [hp]; rfl) (by rw [hp]; rfl) (by rw [hp]; rfl) fun h => ?_
    have hb : ScreenBounded y := hy ▸ hf _ _ _ _ (h.screens x (List.mem_of_getElem? hx))
    refine (h.withScreen i hb).placeFrames i fun g hg r hr => ?_
    obtain ⟨h1, h2⟩ := eventFrames_rows _ _ _ g hg r hr
    exact ⟨h1, h2.trans (h.rows c (List.mem_of_getElem? hc))⟩
  · exact refl s

theorem placeBanner (b : Option Banner) (i : Nat) (s : State) : Steady s (placeFrame i (bannerFrame b) s) := by
  have hp := placeFrame_panels i (bannerFrame b) s
  refine stays (by rw [hp]) (by rw [hp]) (by rw [hp]) fun h => ?_
  exact h.placeFrames i (fs := [bannerFrame b]) fun f hf r hr => by rw [List.mem_singleton.1 hf] at hr; cases hr

theorem setBanner (b : Option Banner) (i : Nat) (s : State) : Steady s (setBanner b i s) :=
  (screenEvent i (fun c clock now _ h => h.bannerEvent c clock now b) s).trans (placeBanner b i _)

theorem eachScreen {f : Nat → State → State} (hf : ∀ i u, Steady u (f i u)) (n : Nat) (s : State) :
    Steady s (eachScreen f n s) := by
  induction n with
  | zero => exact refl s
  | succ n ih => exact ih.trans (hf n _)

theorem popHandover (s : State) : Steady s s.popHandover := stays rfl rfl rfl fun h => { h with }

theorem bannerEnd (w : WorkItem) (code : OutcomeCode) (detail : Nat) (s : State) : Steady s (bannerEnd w code detail s) :=
  stays rfl rfl rfl fun h => { h with }

theorem runBanner (w : WorkItem) (s : State) : Steady s (runBanner w s) := by
  unfold Machine.runBanner
  dsimp only
  split
  · exact bannerEnd w _ _ s
  · refine (eachScreen (fun i u => ?_) _ s).trans (bannerEnd w _ _ _)
    split
    · exact setBanner _ i u
    · exact refl u

theorem endScreen (i : Nat) (s : State) : Steady s (endScreen i s) := by
  unfold Machine.endScreen
  split
  · rename_i c x hc hx
    dsimp only
    generalize hy : endedScreen s.localTime x = y
    generalize hfs : rowFrames c.rows x.board y.board ++ (if x.power = .dim then [] else [brightnessFrame .dim]) = fs
    have hp := placeFrames_panels i fs (s.withScreen i y)
    refine stays (by rw [hp]; rfl) (by rw [hp]; rfl) (by rw [hp]; rfl) fun h => ?_
    have hb : ScreenBounded y := hy ▸ (h.screens x (List.mem_of_getElem? hx)).endedScreen _
    refine (h.withScreen i hb).placeFrames i fun g hg r hr => ?_
    rcases List.mem_append.1 (hfs ▸ hg) with hg | hg
    · obtain ⟨h1, h2⟩ := rowFrames_rows _ _ _ g hg r hr
      exact ⟨h1, h2.trans (h.rows c (List.mem_of_getElem? hc))⟩
    · split at hg
      · cases hg
      · rw [List.mem_singleton.1 hg] at hr; cases hr
  · exact refl s

theorem endScreens (s : State) : Steady s (endScreens s) :=
  (eachScreen endScreen s.screens.length s).trans (stays rfl rfl rfl fun h => { h with })

theorem refresh (i : Nat) (s : State) : Steady s (refresh i s) := by
  unfold Machine.refresh
  split
  · rename_i c x hc hx
    have hp := placeFrames_panels i (refreshFrames c.rows x) s
    refine stays (by rw [hp]) (by rw [hp]) (by rw [hp]) fun h => h.placeFrames i fun g hg r hr => ?_
    obtain ⟨h1, h2⟩ := refreshFrames_rows _ _ g hg r hr
    exact ⟨h1, h2.trans (h.rows c (List.mem_of_getElem? hc))⟩
  · exact refl s

theorem writeStatus (i : Nat) (xs : List ScreenState) (s : State) : Steady s (writeStatus i xs s) := by
  induction xs generalizing i s with
  | nil => exact refl s
  | cons x xs ih => exact (store s _ _ _).andThen (ih (i + 1))

end Steady

/-! ## Panels (R164, R166) -/

theorem KeysSound.sublist {box box' : List OutFrame} (h : KeysSound box) (hs : box'.Sublist box) : KeysSound box' :=
  ⟨h.1.sublist hs, fun f hf => h.2 f (hs.subset hf)⟩

theorem KeysSound.sentHead {box : List OutFrame} (h : KeysSound box) : KeysSound (sentHead box) := by
  cases box with
  | nil => exact h
  | cons f rest => exact keysSound_of_keys h rfl

theorem KeysSound.ackedOutbox {box : List OutFrame} (h : KeysSound box) : KeysSound (ackedOutbox box) := by
  cases box with
  | nil => exact h
  | cons f rest =>
    rw [Machine.ackedOutbox]
    split
    · exact h
    · exact h.sublist (List.sublist_cons_self f rest)

theorem positionAfter_range (a : Nat) : 1 ≤ positionAfter a ∧ positionAfter a ≤ 16 := by
  unfold positionAfter
  split <;> omega

namespace Steady

variable {s : State}

theorem serve (l : LineIx) (s : State) : Steady s (serve l s) := by
  unfold Machine.serve
  split
  · split
    · exact refl s
    · rename_i i _
      split
      · exact refl s
      · rename_i p hp
        split
        · exact refl s
        · have hs : Steady s (s.withPanel i { p with outbox := sentHead p.outbox }) := withPanel _ fun h =>
            have hb := h.panels p (List.mem_of_getElem? hp)
            hb.withOutbox hb.keysSound.sentHead
          exact hs.trans (withPanelLine l fun _ => positionAfter_range p.address)
  · exact refl s

theorem endExchange (l : LineIx) (s : State) : Steady s (endExchange l s) := withPanelLine l id

theorem panelMissed (i : Nat) {p : Panel} (hp : Bounded s → PanelBounded p) : Steady s (panelMissed i p s) := by
  unfold Machine.panelMissed
  split
  · refine withPanel i fun h => ?_
    exact { (hp h).withOutbox ((hp h).keysSound.sublist (List.tail_sublist _)) with }
  · split
    · exact withPanel i fun h => { hp h with waits := Nat.zero_le _, misses := by dsimp only; omega }
    · refine Steady.trans ((withPanel (p := p.wentOffline s.localTime) i fun _ => ?_).trans (setCause _ _)) (record _ _)
      exact ⟨Nat.zero_le 16, .nil, (fun f hf => nomatch hf), Nat.zero_le 3, Nat.zero_le 20⟩

theorem panelWaits (i : Nat) {p : Panel} (hp : Bounded s → PanelBounded p) : Steady s (panelWaits i p s) := by
  unfold Machine.panelWaits
  split
  · exact panelMissed i hp
  · rename_i hn
    simp only [Bool.or_eq_true, decide_eq_true_eq, not_or, not_le] at hn
    exact withPanel i fun h => { hp h with waits := hn.2.le }

theorem panelAcked (i : Nat) {p : Panel} (hp : Bounded s → PanelBounded p) : Steady s (panelAcked i p s) := by
  unfold Machine.panelAcked
  split
  · refine Steady.andThen (Steady.trans (withPanel (p := p.cameBack) i fun h => ?_) (record _ _)) (refresh i)
    exact { (hp h).withOutbox ((hp h).keysSound.sublist (List.tail_sublist _)) with
      misses := Nat.zero_le _, waits := Nat.zero_le _ }
  · refine withPanel i fun h => ?_
    exact { (hp h).withOutbox (hp h).keysSound.ackedOutbox with misses := Nat.zero_le _, waits := Nat.zero_le _ }

theorem concludeExchange (l : LineIx) (i : Nat) {act : Nat → Panel → State → State}
    (ha : ∀ i p u, (Bounded u → PanelBounded p) → Steady u (act i p u)) (s : State) :
    Steady s (concludeExchange l i act s) := by
  unfold Machine.concludeExchange
  split
  · exact endExchange l s
  · rename_i p hp
    exact (endExchange l s).trans (ha i p _ fun h => h.panels p (List.mem_of_getElem? hp))

theorem panelFrame (l : LineIx) (type : Byte) (f : RxFrame) {act : Nat → Panel → State → State}
    (ha : ∀ i p u, (Bounded u → PanelBounded p) → Steady u (act i p u)) (s : State) :
    Steady s (panelFrame l type f act s) := by
  unfold Machine.panelFrame
  split
  · exact refl s
  · split
    · split
      · exact concludeExchange l _ ha s
      · exact concludeExchange l _ (fun i _ _ => panelMissed i) s
    · exact refl s

theorem endBackOff (i : Nat) (s : State) : Steady s (endBackOff i s) := by
  unfold Machine.endBackOff
  split
  · exact refl s
  · rename_i p hp
    exact (withPanel (p := { p with backOff := none }) i fun h => { h.panels p (List.mem_of_getElem? hp) with }).trans
      (serve p.line _)

/-- A PING joins the outbox of a panel whose probe is due, where none waits (R172). -/
theorem placePing {i : Nat} (hr : probeReady i s = true) : Steady s (placePing i s) := by
  unfold Machine.placePing
  split
  · exact refl s
  · rename_i p hp
    have hn : ∀ f ∈ p.outbox, f.key ≠ .ping := by
      simp only [probeReady, hp, Option.map_some, Option.getD_some, Panel.probeReady, Bool.and_eq_true, Bool.not_eq_true',
        List.any_eq_false, decide_eq_true_eq] at hr
      exact hr.2.2
    refine withPanel i fun h => ?_
    have hb := h.panels p (List.mem_of_getElem? hp)
    exact hb.withOutbox (hb.keysSound.append hn fun r hr => nomatch hr)

end Steady

end Sys2Proof.Machine

namespace Sys2Proof.Machine

/-! ## Mat lines and decoders (R55, R56, R62, R69) -/

theorem silentAfter_le (n : Nat) : silentAfter n ≤ 3 := by
  unfold silentAfter
  split <;> omega

theorem nextRound_le (n : Nat) : nextRound n ≤ 7 := by
  unfold nextRound
  split <;> omega

/-- A BATCH joins a landing buffer only where its 64 places suffice (R62). -/
theorem Decoder.offered_bounded (prep : Bool) (number : Byte) (reads : List Read) {d : Decoder} (h : d.buffer.length ≤ 64) :
    (d.offered prep number reads).1.buffer.length ≤ 64 := by
  unfold Decoder.offered
  split
  · exact h
  · split
    · exact h
    · split
      · rename_i ht
        simp only [Decoder.takes, Config.landingCapacity, Bool.and_eq_true, decide_eq_true_eq] at ht
        simpa using ht.2
      · exact h

theorem Decoder.offered_silentCount (prep : Bool) (number : Byte) (reads : List Read) (d : Decoder) :
    (d.offered prep number reads).1.silentCount = d.silentCount := by
  unfold Decoder.offered
  repeat' split
  all_goals rfl

theorem Decoder.drawn_length (d : Decoder) : d.drawn.buffer.length ≤ d.buffer.length := by
  simp [Decoder.drawn]

namespace Steady

variable {s : State}

/-- An operation carried out where a condition holds. -/
theorem when {p : Prop} [Decidable p] {s t : State} (h : p → Steady s t) : Steady s (if p then t else s) := by
  split
  · exact h ‹_›
  · exact refl s

theorem endCall (l : LineIx) (s : State) : Steady s (endCall l s) := withMatLine l id

theorem silence (l : LineIx) (a : Nat) (s : State) : Steady s (silence l a s) := by
  have h : Steady s (Machine.endCall l (s.withDecoder (matAt l a) (s.decoders[matAt l a]).silenced)) :=
    (withDecoder (d := (s.decoders[matAt l a]).silenced) _ id fun _ => silentAfter_le _).trans (endCall l _)
  unfold Machine.silence
  dsimp only
  split
  · exact h.trans ((setCause _ _).trans (record _ _))
  · exact h

theorem decoderReplied (l : LineIx) (a : Nat) (s : State) : Steady s (decoderReplied l a s) := by
  have h : Steady s (s.withDecoder (matAt l a) { s.decoders[matAt l a] with silent := false, silentCount := 0 }) :=
    withDecoder _ id fun _ => Nat.zero_le _
  unfold Machine.decoderReplied
  dsimp only
  split
  · exact h.trans (record _ _)
  · exact h

theorem matFrame (l : LineIx) (type : Byte) (f : RxFrame) {handle : Nat → State → State}
    (hh : ∀ a u, Steady u (handle a u)) (s : State) : Steady s (matFrame l type f handle s) := by
  unfold Machine.matFrame
  split
  · exact refl s
  · split
    · split
      · exact ((decoderReplied l _ s).andThen (hh _)).andThen (endCall l)
      · exact silence l _ s
    · exact refl s

theorem handleBatch (l : LineIx) (f : RxFrame) (a : Nat) (s : State) : Steady s (handleBatch l f a s) := by
  have hanswer : ∀ type payload (u : State), Steady u (answer l a type payload u) := fun _ _ _ => withMatLine l id
  unfold Machine.handleBatch
  dsimp only
  have hd : ∀ number reads, Steady s (s.withDecoder (matAt l a)
      ((s.decoders[matAt l a]).offered (decide (s.engine = .prep)) number reads).1) := fun _ _ =>
    withDecoder _ (Decoder.offered_bounded _ _ _) (Decoder.offered_silentCount _ _ _ _).trans_le
  split
  · exact (hd _ _).trans (hanswer _ _ _)
  · exact (hd _ _).trans (hanswer _ _ _)

theorem handleEmpty (l : LineIx) (f : RxFrame) (a : Nat) (s : State) : Steady s (handleEmpty l f a s) := by
  have h : ∀ flag, Steady s (s.withDecoder (matAt l a) { s.decoders[matAt l a] with antennaFault := flag }) :=
    fun _ => withDecoder _ id id
  unfold Machine.handleEmpty
  dsimp only
  split
  · exact h _
  · exact (h _).trans (record _ _)

end Steady

/-! ## The assembler (R76, R79, R84) -/

/-- The read count of a cluster after a merge (R79). -/
theorem Cluster.merge_count (choice : TimeChoice) (window : Nat) (r : Read) {c : Cluster} (h : c.count ≤ 255) :
    (c.merge choice window r).count ≤ 255 := by
  have hj : (c.joined window r).count ≤ 255 := by
    simp only [Cluster.joined]
    split <;> omega
  unfold Cluster.merge
  cases choice with
  | first => exact hj
  | peak =>
    dsimp only
    split
    · exact hj
    · split <;> exact hj

theorem Cluster.settle_count (closed : Bool) (clock : Nat) (c : Cluster) : (c.settle closed clock).count = c.count := by
  unfold Cluster.settle
  split <;> rfl

theorem firstCluster_mem {l : List Cluster} {c : Cluster} (h : firstCluster l = some c) : c ∈ l := by
  induction l generalizing c with
  | nil => cases h
  | cons x l ih =>
    rw [firstCluster] at h
    split at h
    · cases h; exact List.mem_cons_self ..
    · rename_i d hd
      split at h <;> cases h
      · exact List.mem_cons_of_mem _ (ih hd)
      · exact List.mem_cons_self ..

theorem Assembler.closingHead_mem {a : Assembler} {c : Cluster} (h : a.closingHead = some c) : c ∈ a.clusters :=
  (List.mem_filter.1 (firstCluster_mem h)).1

namespace AssemblerBounded

variable {a : Assembler}

/-- Each cluster of the table changed, its read count in range. -/
theorem mapClusters (h : AssemblerBounded a) {f : Cluster → Cluster} (hf : ∀ c, c.count ≤ 255 → (f c).count ≤ 255) :
    AssemblerBounded { a with clusters := a.clusters.map f } :=
  { h with
    clusters := (List.length_map f).trans_le h.clusters
    reads    := fun d hd => by
      obtain ⟨c, hc, rfl⟩ := List.mem_map.1 hd
      exact hf c (h.reads c hc) }

theorem update (h : AssemblerBounded a) (point : Nat) (chip : Word) {f : Cluster → Cluster}
    (hf : ∀ c, c.count ≤ 255 → (f c).count ≤ 255) : AssemblerBounded (a.update point chip f) :=
  h.mapClusters fun c hc => by
    split
    · exact hf c hc
    · exact hc

theorem expire (h : AssemblerBounded a) (clock : Nat) : AssemblerBounded (a.expire clock) :=
  h.mapClusters fun c hc => by split <;> exact hc

theorem closeAll (h : AssemblerBounded a) : AssemblerBounded a.closeAll :=
  h.mapClusters fun c hc => by split <;> exact hc

/-- A read opens its cluster in a free entry (R78). -/
theorem openCluster (h : AssemblerBounded a) (hl : a.clusters.length < 1024) (window : Nat) (closed : Bool) (clock : Nat)
    (r : PlacedRead) : AssemblerBounded (a.openCluster window closed clock r) :=
  { h with
    clusters := by simpa [Assembler.openCluster, Assembler.add] using hl
    reads    := fun d hd => by
      rcases List.mem_append.1 hd with hd | hd
      · exact h.reads d hd
      · rw [List.mem_singleton.1 hd, Cluster.settle_count]
        exact (by decide : 1 ≤ 255) }

theorem holdRead (h : AssemblerBounded a) (r : PlacedRead) : AssemblerBounded (a.holdRead r) := by
  have h' : AssemblerBounded { a with held := some r } := { h with }
  unfold Assembler.holdRead
  dsimp only
  split
  · exact h'
  · exact h'.update _ _ fun c hc => hc

theorem place (h : AssemblerBounded a) (L : Loaded) (closed : Bool) (clock : Nat) (r : PlacedRead) :
    AssemblerBounded (a.place L closed clock r) := by
  unfold Assembler.place
  dsimp only
  split
  · split
    · exact h
    · exact h.update _ _ fun c hc => (Cluster.settle_count _ _ _).trans_le (Cluster.merge_count _ _ _ hc)
  · split
    · exact h
    · split
      · exact h.openCluster ‹_› _ _ _ _
      · exact h.holdRead r

/-- A cluster that leaves the table frees an entry, and the closed-crossing memory keeps to its 512 (R82, R84). -/
theorem release (h : AssemblerBounded a) {c : Cluster} (hc : c ∈ a.clusters) :
    AssemblerBounded (a.release c) ∧ (a.release c).clusters.length < 1024 := by
  have hlt : (a.release c).clusters.length < a.clusters.length :=
    List.length_filter_lt_length_iff_exists.2 ⟨c, hc, by simp [Cluster.isFor]⟩
  refine ⟨⟨(hlt.trans_le h.clusters).le, fun d hd => h.reads d (List.mem_filter.1 hd).1, ?_⟩, hlt.trans_le h.clusters⟩
  have hm := h.memory
  simp only [Assembler.release, Config.closedMemoryCapacity, List.length_append, List.length_singleton]
  split
  · rw [List.length_tail]; omega
  · omega

theorem placeHeld (h : AssemblerBounded a) (hl : a.clusters.length < 1024) (L : Loaded) (closed : Bool) (clock : Nat) :
    AssemblerBounded (a.placeHeld L closed clock) := by
  unfold Assembler.placeHeld
  split
  · exact h
  · exact openCluster (a := { a with held := none }) { h with } hl _ _ _ _

end AssemblerBounded

namespace Steady

variable {s : State}

theorem settleClusters (s : State) : Steady s (settleClusters s) := by
  unfold Machine.settleClusters
  split
  · exact withAssembler fun h => h.expire _
  · exact refl s

theorem drawFrom (m : Fin 8) (s : State) : Steady s (drawFrom m s) := by
  unfold Machine.drawFrom
  split
  · exact refl s
  · dsimp only
    have h : Steady s ((s.withDecoder m (s.decoders[m]).drawn).withAssembler { s.assembler with arbiter := m + 1 }) :=
      (withDecoder m (Decoder.drawn_length _).trans id).trans (withAssembler fun h => { h with })
    split
    · exact h
    · refine h.trans ?_
      generalize (s.withDecoder m (s.decoders[m]).drawn).withAssembler { s.assembler with arbiter := m + 1 } = u
      unfold handleRead
      split
      · exact record u _
      · exact withAssembler fun h => h.place _ _ _ _

theorem offerHead {c : Cluster} (hc : c ∈ s.assembler.clusters) : Steady s (offerHead c s) := by
  unfold Machine.offerHead
  split
  · rename_i hl
    refine stays rfl rfl rfl fun h => ?_
    obtain ⟨h1, h2⟩ := h.assembler.release hc
    exact { h.withAssembler (h1.placeHeld h2 _ _ _) with intake := by simpa [State.pushIntake] using hl }
  · exact withAssembler fun h => { h with }

/-! ## The work sweep -/

theorem endSweep (s : State) : Steady s (endSweep s) := (reread s).andThen fun _ => withSweep _ _

theorem advanceSweep (i : Nat) (s : State) : Steady s (advanceSweep i s) := by
  unfold Machine.advanceSweep
  split
  · exact withSweep _ s
  · exact endSweep s

theorem takeSlot (i : Nat) (s : State) : Steady s (takeSlot i s) := (store s _ _ _).andThen fun _ => withSweep _ _

theorem failSlot (i : Nat) (code : OutcomeCode) (notify : Bool) (s : State) : Steady s (failSlot i code notify s) :=
  (takeSlot i s).andThen fun _ => (withSweep _ _).trans (reportEnd _ _)

/-- An item joins the intake queue where its 256 places suffice (R29, R90). -/
theorem offerItem (w : WorkItem) (s : State) : Steady s (offerItem w s) := by
  unfold Machine.offerItem
  split
  · rename_i hl
    have h : Steady s (s.pushIntake (.work w)) := stays rfl rfl rfl fun h =>
      { h with intake := by simpa [State.pushIntake] using hl }
    exact (h.trans (takeSlot _ _)).andThen (advanceSweep _)
  · exact endSweep s

theorem dispatch (w : WorkItem) (s : State) : Steady s (dispatch w s) := by
  unfold Machine.dispatch
  split
  · exact (takeSlot _ s).andThen fun u =>
      (stays (s := u) (t := { u with bannerItems := u.bannerItems ++ [w] }) rfl rfl rfl fun h => { h with }).andThen (advanceSweep _)
  · exact (takeSlot _ s).andThen fun u =>
      (withJournal (s := u) (j := { u.journal with flushes := u.journal.flushes ++ [w] })
        fun h => ⟨h.spill, h.dropped⟩).andThen (advanceSweep _)
  all_goals exact offerItem w s

theorem takePosted (i : Nat) (s : State) : Steady s (takePosted i s) := by
  refine (accessAll s _).andThen fun u => ?_
  split
  · exact failSlot _ _ _ u
  · dsimp only
    split
    · exact dispatch _ u
    · exact failSlot _ _ _ u

theorem visitSlot (i : Nat) (s : State) : Steady s (visitSlot i s) := by
  refine (access s _ _ _).andThen fun u => ?_
  split
  · exact advanceSweep i u
  · exact takePosted i u

theorem writeEnd (e : EndReport) (s : State) : Steady s (writeEnd e s) := by
  refine (storeAll s _).andThen fun u => ?_
  have h : Steady u (if e.notify then (u.withSweep (u.sweep.closed e)).setCause .workDone
      else u.withSweep (u.sweep.closed e)) := by
    split
    · exact (withSweep _ u).trans (setCause _ _)
    · exact withSweep _ u
  refine h.trans ?_
  dsimp only
  generalize (if e.notify then (u.withSweep (u.sweep.closed e)).setCause .workDone
      else u.withSweep (u.sweep.closed e)) = v
  exact when fun _ => advanceSweep _ v

/-! ## Items of the split unit -/

theorem popIntake (s : State) : Steady s s.popIntake := stays rfl rfl rfl fun h =>
  { h with intake := (List.tail_sublist s.intake).length_le.trans h.intake }

theorem handAll (rs : List JRecord) (s : State) : Steady s (handAll rs s).state := by
  cases rs with
  | nil => exact refl s
  | cons r rest =>
    simp only [Machine.handAll]
    have h : Steady s (Machine.handRecord r s).state := handRecord s r
    generalize (Machine.handRecord r s).state = u at h
    induction rest generalizing u with
    | nil => exact h
    | cons r rest ih => exact ih _ (h.andThen fun v => record v r)

theorem finish (p : ItemPlan) (w : Option WorkItem) (n : Word) (place : Place) (s : State) :
    Steady s (p.finish w n place s) := by
  unfold ItemPlan.finish
  dsimp only
  have h : Steady s { s with handovers := s.handovers ++ p.handovers } := stays rfl rfl rfl fun h => { h with }
  refine Steady.andThen (t := if p.watch then _ else _) ?_ fun u => ?_
  · split
    · exact h.trans (watchSeal _ n place)
    · exact h
  · split
    · exact popIntake u
    · exact (reportEnd _ u).trans (popIntake _)

theorem run (p : ItemPlan) (w : Option WorkItem) (s : State) : Steady s (p.run w s) :=
  Steady.andThen ((accessAll s p.reads).andThen fun u => storeAll u p.writes) fun u =>
    (handAll p.records u).andThen (finish p w _ _)

theorem runItem (k : WorkKind) (plan : State → WorkItem → ItemPlan) (s : State) : Steady s (runItem k plan s) := by
  unfold Machine.runItem
  split
  · exact refl s
  · exact run _ _ s

theorem handleHead (s : State) : Steady s (handleHead s) := by
  unfold Machine.handleHead
  split
  · split
    · exact refl s
    · split
      · exact refl s
      · exact run _ _ s
  · exact refl s

end Steady

end Sys2Proof.Machine

namespace Sys2Proof.Machine

/-! ## What a command of the blocks keeps -/

/-- No command stops the machine: each leaves a next state. -/
theorem exec_next (c : Instr) (s : State) : exec c s = .next (stateAfter (exec c s) s) := by
  cases c <;> rfl

namespace Steady

theorem execRegisterWriteIgnored (r : ReadOnlyRegister) (v : Word) (s : State) :
    Steady s (stateAfter (execRegisterWriteIgnored r v s) s) :=
  .refl s

theorem execSweepWrite (v : Word) (s : State) : Steady s (stateAfter (execSweepWrite v s) s) := by
  refine .when fun _ => ?_
  split
  · exact .withSweep _ s
  · exact .withSweep _ s

theorem execSecondMark (s : State) : Steady s (stateAfter (execSecondMark s) s) := by
  exact .when fun _ => .stays rfl rfl rfl fun h =>
    { h.mapLines (f := fun x => { x with pendingMark := some (s.raceClock / 1000) })
        (g := fun x => { x with pendingClock := some (s.raceClock / 1000) }) (fun _ h => h) (fun _ h => h) with }

theorem execClockCeiling (s : State) : Steady s (stateAfter (execClockCeiling s) s) :=
  .when fun _ => .stays rfl rfl rfl fun h => { h with }

theorem execRound (l : LineIx) (s : State) : Steady s (stateAfter (execRound l s) s) :=
  .when fun _ => .withMatLine l fun _ => nextRound_le _

theorem execCall (l : LineIx) (s : State) : Steady s (stateAfter (execCall l s) s) := by
  refine .when fun _ => ?_
  split
  · exact .refl s
  · exact .withMatLine l id

theorem execMark (l : LineIx) (s : State) : Steady s (stateAfter (execMark l s) s) := by
  refine .when fun _ => ?_
  split
  · exact .refl s
  · exact .withMatLine l id

theorem execClock (l : LineIx) (s : State) : Steady s (stateAfter (execClock l s) s) := by
  refine .when fun _ => ?_
  split
  · exact .refl s
  · exact .withPanelLine l id

theorem execBatch (l : LineIx) (f : RxFrame) (s : State) : Steady s (stateAfter (execBatch l f s) s) :=
  .matFrame l _ f (.handleBatch l f) s

theorem execEmpty (l : LineIx) (f : RxFrame) (s : State) : Steady s (stateAfter (execEmpty l f s) s) :=
  .matFrame l _ f (.handleEmpty l f) s

theorem execBusy (l : LineIx) (f : RxFrame) (s : State) : Steady s (stateAfter (execBusy l f s) s) :=
  .matFrame l _ f (fun _ u => .refl u) s

theorem execSilence (l : LineIx) (failed : Bool) (s : State) : Steady s (stateAfter (execSilence l failed s) s) := by
  refine .when fun _ => ?_
  split
  · exact .refl s
  · exact .silence l _ s

theorem execDraw (s : State) : Steady s (stateAfter (execDraw s) s) := by
  refine .when fun _ => ?_
  split
  · exact .refl s
  · exact (Steady.settleClusters s).trans (.drawFrom _ _)

theorem execClusterExpiry (point : Nat) (chip : Word) (s : State) :
    Steady s (stateAfter (execClusterExpiry point chip s) s) :=
  .when fun _ => .withAssembler fun h => h.update point chip fun _ hc => hc

theorem execClosedCrossingOffer (s : State) : Steady s (stateAfter (execClosedCrossingOffer s) s) := by
  refine .when fun _ => ?_
  split
  · exact .refl s
  · exact (Steady.settleClusters s).trans (.offerHead (Assembler.closingHead_mem ‹_›))

theorem execSlotVisit (s : State) : Steady s (stateAfter (execSlotVisit s) s) := by
  refine .when fun _ => ?_
  split
  · exact .refl s
  · exact .visitSlot _ s

theorem execSweepTimer (s : State) : Steady s (stateAfter (execSweepTimer s) s) := .when fun _ => .withSweep _ s

theorem execItemEnd (s : State) : Steady s (stateAfter (execItemEnd s) s) := by
  refine .when fun _ => ?_
  split
  · exact .refl s
  · exact .writeEnd _ s

theorem execLocalCrossing (s : State) : Steady s (stateAfter (execLocalCrossing s) s) := by
  refine .when fun _ => ?_
  split
  · exact .run _ _ s
  · exact .refl s

theorem execRemoteCrossing (s : State) : Steady s (stateAfter (execRemoteCrossing s) s) := .runItem _ _ s

theorem execStartWave (s : State) : Steady s (stateAfter (execStartWave s) s) := .runItem _ _ s

theorem execRunnerStatus (s : State) : Steady s (stateAfter (execRunnerStatus s) s) := .runItem _ _ s

theorem execSetWatch (s : State) : Steady s (stateAfter (execSetWatch s) s) := .runItem _ _ s

theorem execSetName (s : State) : Steady s (stateAfter (execSetName s) s) := .runItem _ _ s

theorem execCorrectSplit (s : State) : Steady s (stateAfter (execCorrectSplit s) s) := .runItem _ _ s

theorem execScreenRequest (s : State) : Steady s (stateAfter (execScreenRequest s) s) := by
  refine .when fun _ => ?_
  split
  · exact (Steady.screenEvent _ (fun c clock now _ h => h.requestEvent c clock now _) s).trans (.popHandover _)
  · exact .refl s

theorem execPurge (s : State) : Steady s (stateAfter (execPurge s) s) := by
  refine .when fun _ => ?_
  split
  · exact (Steady.eachScreen (fun i => .screenEvent i fun c clock now _ h => h.purgeEvent c clock now _) _ s).trans
      (.popHandover _)
  · exact .refl s

theorem execRemoval (s : State) : Steady s (stateAfter (execRemoval s) s) := by
  refine .when fun _ => ?_
  split
  · exact (Steady.screenEvent _ (fun c clock now _ h => h.removalEvent c clock now _ _) s).trans (.popHandover _)
  · exact .refl s

theorem execEntryDue (i : Nat) (s : State) : Steady s (stateAfter (execEntryDue i s) s) :=
  .when fun _ => .screenEvent i (fun c clock now _ h => h.offerRows c clock now) s

theorem execLeaveTime (i n : Nat) (f : FaceIx) (s : State) : Steady s (stateAfter (execLeaveTime i n f s) s) :=
  .when fun _ => .screenEvent i (fun c clock now _ h => h.leaveEvent c clock now n f) s

theorem execMissed (i n : Nat) (f : FaceIx) (s : State) : Steady s (stateAfter (execMissed i n f s) s) :=
  .when fun _ => .screenEvent i (fun c clock now _ h => h.missEntry c clock now n f) s

theorem execBanner (s : State) : Steady s (stateAfter (execBanner s) s) := by
  refine .when fun _ => ?_
  split
  · exact .refl s
  · exact .runBanner _ s

theorem execBannerExpiry (i : Nat) (s : State) : Steady s (stateAfter (execBannerExpiry i s) s) :=
  .when fun _ => .setBanner none i s

theorem execStatusTimer (s : State) : Steady s (stateAfter (execStatusTimer s) s) := by
  exact .when fun _ => (Steady.writeStatus 0 s.screens s).andThen fun u => .stays rfl rfl rfl fun h => { h with }

theorem execWakeLeadReached (i : Nat) (f : FaceIx) (s : State) : Steady s (stateAfter (execWakeLeadReached i f s) s) :=
  .when fun _ => .screenEvent i (fun c clock now _ h => h.wakeLeadEvent c clock now f) s

theorem execDimAfter (i : Nat) (f : FaceIx) (s : State) : Steady s (stateAfter (execDimAfter i f s) s) :=
  .when fun _ => .screenEvent i (fun c clock now _ h => h.dimAfterEvent c clock now f) s

theorem execDarkAfter (i : Nat) (s : State) : Steady s (stateAfter (execDarkAfter i s) s) :=
  .when fun _ => .screenEvent i (fun c clock now _ h => h.darkAfterEvent c clock now) s

theorem execWakeAgeOut (i : Nat) (s : State) : Steady s (stateAfter (execWakeAgeOut i s) s) :=
  .when fun _ => .screenEvent i (fun c clock now _ h => h.wakeAgeEvent c clock now) s

theorem execPanelExchange (l : LineIx) (s : State) : Steady s (stateAfter (execPanelExchange l s) s) := .serve l s

theorem execAck (l : LineIx) (f : RxFrame) (s : State) : Steady s (stateAfter (execAck l f s) s) :=
  .panelFrame l _ f (fun i _ _ => .panelAcked i) s

theorem execWait (l : LineIx) (f : RxFrame) (s : State) : Steady s (stateAfter (execWait l f s) s) :=
  .panelFrame l _ f (fun i _ _ => .panelWaits i) s

theorem execNoReply (l : LineIx) (failed : Bool) (s : State) : Steady s (stateAfter (execNoReply l failed s) s) := by
  refine .when fun _ => ?_
  split
  · exact .refl s
  · exact .concludeExchange l _ (fun i _ _ => .panelMissed i) s

theorem execBackOffEnd (i : Nat) (s : State) : Steady s (stateAfter (execBackOffEnd i s) s) :=
  .when fun _ => .endBackOff i s

theorem execProbeDue (i : Nat) (s : State) : Steady s (stateAfter (execProbeDue i s) s) := .when fun h => .placePing h

theorem execSealTimer (s : State) : Steady s (stateAfter (execSealTimer s) s) := .when fun _ => .sealPage s

theorem execDrain (s : State) : Steady s (stateAfter (execDrain s) s) := .when fun _ => .drainHead s

theorem execFlushJournal (s : State) : Steady s (stateAfter (execFlushJournal s) s) := by
  refine .when fun _ => ?_
  split
  · exact .refl s
  · exact .runFlush s _

end Steady

/-- A command of the blocks, the two ends of a load apart, keeps clocks and bounds, and the engine stays or halts. -/
theorem exec_steady {c : Instr} (hc : takenInHalted c = false) (hp : c ≠ .loadPassed) (hf : c ≠ .loadFailed) (s : State) :
    Steady s (stateAfter (exec c s) s) := by
  cases c with
  | load | start | endRace | reset | unknownCommand | baseLoWrite | baseHiWrite | causeWrite | causeEnableWrite | memoryFault
  | powerOnReset => cases hc
  | loadPassed => exact absurd rfl hp
  | loadFailed => exact absurd rfl hf
  | registerWriteIgnored r v => exact Steady.execRegisterWriteIgnored r v s
  | sweepWrite v => exact Steady.execSweepWrite v s
  | secondMark => exact Steady.execSecondMark s
  | clockCeiling => exact Steady.execClockCeiling s
  | round l => exact Steady.execRound l s
  | call l => exact Steady.execCall l s
  | mark l => exact Steady.execMark l s
  | clock l => exact Steady.execClock l s
  | batch l f => exact Steady.execBatch l f s
  | empty l f => exact Steady.execEmpty l f s
  | busy l f => exact Steady.execBusy l f s
  | silence l failed => exact Steady.execSilence l failed s
  | draw => exact Steady.execDraw s
  | clusterExpiry point chip => exact Steady.execClusterExpiry point chip s
  | closedCrossingOffer => exact Steady.execClosedCrossingOffer s
  | slotVisit => exact Steady.execSlotVisit s
  | sweepTimer => exact Steady.execSweepTimer s
  | itemEnd => exact Steady.execItemEnd s
  | localCrossing => exact Steady.execLocalCrossing s
  | remoteCrossing => exact Steady.execRemoteCrossing s
  | startWave => exact Steady.execStartWave s
  | runnerStatus => exact Steady.execRunnerStatus s
  | setWatch => exact Steady.execSetWatch s
  | setName => exact Steady.execSetName s
  | correctSplit => exact Steady.execCorrectSplit s
  | screenRequest => exact Steady.execScreenRequest s
  | purge => exact Steady.execPurge s
  | removal => exact Steady.execRemoval s
  | entryDue i => exact Steady.execEntryDue i s
  | leaveTime i n f => exact Steady.execLeaveTime i n f s
  | missed i n f => exact Steady.execMissed i n f s
  | banner => exact Steady.execBanner s
  | bannerExpiry i => exact Steady.execBannerExpiry i s
  | statusTimer => exact Steady.execStatusTimer s
  | wakeLeadReached i f => exact Steady.execWakeLeadReached i f s
  | dimAfter i f => exact Steady.execDimAfter i f s
  | darkAfter i => exact Steady.execDarkAfter i s
  | wakeAgeOut i => exact Steady.execWakeAgeOut i s
  | panelExchange l => exact Steady.execPanelExchange l s
  | ack l f => exact Steady.execAck l f s
  | wait l f => exact Steady.execWait l f s
  | noReply l failed => exact Steady.execNoReply l failed s
  | backOffEnd i => exact Steady.execBackOffEnd i s
  | probeDue i => exact Steady.execProbeDue i s
  | sealTimer => exact Steady.execSealTimer s
  | drain => exact Steady.execDrain s
  | flushJournal => exact Steady.execFlushJournal s

end Sys2Proof.Machine

namespace Sys2Proof.Machine

/-! ## What every step keeps: the race clock, local time and the bounds -/

/-- From `s` to `t` the clocks stand and the bounds are kept, whatever becomes of the engine. -/
structure Kept (s t : State) : Prop where
  raceClock : t.raceClock = s.raceClock
  localTime : t.localTime = s.localTime
  bounded   : Bounded s → Bounded t

theorem Steady.kept {s t : State} (h : Steady s t) : Kept s t := ⟨h.raceClock, h.localTime, h.bounded⟩

namespace Kept

variable {s t u : State}

theorem refl (s : State) : Kept s s := ⟨rfl, rfl, id⟩

theorem trans (h : Kept s t) (h' : Kept t u) : Kept s u :=
  ⟨h'.raceClock.trans h.raceClock, h'.localTime.trans h.localTime, h'.bounded ∘ h.bounded⟩

theorem andThen {f : State → State} (h : Kept s t) (hf : Kept t (f t)) : Kept s (t.andThen f) := by
  unfold State.andThen
  split
  · exact h
  · exact h.trans hf

end Kept

/-! ## The load (R5 to R10) -/

/-- A load passes where each of its stages does. -/
theorem stage_inv {α β : Type} {x : Except LoadStop α} {f : α → Except LoadStop β} {b : β} (h : (x >>= f) = .ok b) :
    ∃ a, x = .ok a ∧ f a = .ok b := by
  cases x with
  | error e => cases h
  | ok a => exact ⟨a, rfl, h⟩

/-- What a load that passes has found of the directory and the screens, and what it keeps. -/
theorem loadOutcome_inv {s : State} {L : Loaded} (h : s.loadOutcome = .ok L) :
    loadChecks s.directoryChecks = .ok () ∧
      ∃ points screens, s.loadScreens points (s.directory 52) 0 [] = .ok screens ∧ L = s.loadedCopy points screens := by
  unfold State.loadOutcome at h
  obtain ⟨_, _, h⟩ := stage_inv h
  obtain ⟨_, hd, h⟩ := stage_inv h
  obtain ⟨_, _, h⟩ := stage_inv h
  obtain ⟨_, _, h⟩ := stage_inv h
  obtain ⟨points, _, h⟩ := stage_inv h
  obtain ⟨_, _, h⟩ := stage_inv h
  obtain ⟨_, _, h⟩ := stage_inv h
  obtain ⟨_, _, h⟩ := stage_inv h
  obtain ⟨screens, hs, h⟩ := stage_inv h
  obtain ⟨_, _, h⟩ := stage_inv h
  obtain ⟨_, _, h⟩ := stage_inv h
  obtain ⟨_, _, h⟩ := stage_inv h
  obtain ⟨_, _, h⟩ := stage_inv h
  cases h
  exact ⟨hd, points, screens, hs, rfl⟩

/-- The screens that pass their checks have at most eight rows (R7). -/
theorem loadScreens_rows {s : State} {points : List Point} {n i : Nat} {before screens : List Screen}
    (h : s.loadScreens points n i before = .ok screens) (hb : ∀ c ∈ before, c.rows ≤ 8) : ∀ c ∈ screens, c.rows ≤ 8 := by
  induction n generalizing i before with
  | zero => cases h; exact hb
  | succ n ih =>
    rw [State.loadScreens] at h
    split at h
    · cases h
    · rename_i hc
      refine ih h fun c hm => ?_
      rcases List.mem_append.1 hm with hm | hm
      · exact hb c hm
      · rw [List.mem_singleton.1 hm]
        simp only [State.screenChecks, loadChecks] at hc
        split at hc
        · rename_i hr
          simp only [Bool.and_eq_true, Screen.inRange, within, decide_eq_true_eq] at hr
          omega
        · cases hc

theorem loadOutcome_rows {s : State} {L : Loaded} (h : s.loadOutcome = .ok L) : ∀ c ∈ L.screens, c.rows ≤ 8 := by
  obtain ⟨_, points, screens, hs, rfl⟩ := loadOutcome_inv h
  exact loadScreens_rows hs fun c hc => nomatch hc

theorem scanSlot_steady (L : Loaded) (s : State) (i : Nat) : Steady s (scanSlot L s i) :=
  (Steady.refl s).andThen fun u => (Steady.access u _ _ _).andThen fun v => .storeAll v _

theorem scanTable_steady (L : Loaded) (s : State) : Steady s (scanTable L s) := by
  unfold scanTable
  generalize List.range L.slotCount = is
  induction is generalizing s with
  | nil => exact .refl s
  | cons i is ih => exact (scanSlot_steady L s i).trans (ih _)

/-- The blocks begin within the bounds, the rows of the screens being at most eight. -/
theorem beginBlocks_kept {L : Loaded} (hL : ∀ c ∈ L.screens, c.rows ≤ 8) (resume : Bool) (s : State) :
    Kept s (beginBlocks L resume s) :=
  ⟨rfl, rfl, fun h =>
    { h with
      landing  := fun m => by simpa [beginBlocks, presentDecoders] using h.landing m
      silence  := fun m => by simpa [beginBlocks, presentDecoders] using h.silence m
      spill    := Nat.zero_le _
      dropped  := Nat.zero_le _
      screens  := fun x hx => by
        obtain ⟨c, _, rfl⟩ := List.mem_map.1 hx
        exact ⟨Nat.zero_le 48, Nat.zero_le 7, Nat.zero_le 65535, Nat.zero_le 65535, Nat.zero_le 15⟩
      rows     := hL
      panels   := fun p hp => by
        obtain ⟨c, _, rfl⟩ := List.mem_map.1 hp
        exact ⟨Nat.zero_le 16, .nil, (fun f hf => nomatch hf), Nat.zero_le 3, Nat.zero_le 20⟩
      position := fun l => by
        rw [show (beginBlocks L resume s).panelLines = mapTwo (fun x => { x with position := 1 }) s.panelLines from rfl,
          mapTwo_get]
        exact ⟨Nat.le_refl 1, (by decide : 1 ≤ 16)⟩ }⟩

theorem beginPolling_steady (s : State) : Steady s (beginPolling s) :=
  .stays rfl rfl rfl fun h =>
    { h.mapLines (f := MatLine.beginRound 0 s.localTime) (g := id) (fun _ _ => Nat.zero_le 7) (fun _ h => h) with
      position := h.position }

/-- The rest of the entry into PREP, once the blocks have begun: the full refreshes, polling, page 0 (R9). -/
theorem enterPrep_rest (resume : Bool) (s : State) :
    Steady s (tryNextPage true (if resume then refreshAll s else beginPolling (refreshAll s))) := by
  have h : Steady s (refreshAll s) := .eachScreen .refresh _ s
  cases resume with
  | true => exact h.trans (.tryNextPage _ _)
  | false => exact (h.trans (beginPolling_steady _)).trans (.tryNextPage _ _)

/-- The entry into PREP ends in PREP, or in HALTED at a refused access. -/
theorem enterPrep_kept {L : Loaded} (hL : ∀ c ∈ L.screens, c.rows ≤ 8) (s : State) :
    Kept s (enterPrep L s) ∧ ((enterPrep L s).engine = .prep ∨ (enterPrep L s).engine = .halted) := by
  unfold enterPrep
  have ha := (Steady.access s .directory (s.addr 8) 4).kept
  generalize s.access .directory (s.addr 8) 4 = t at ha
  unfold State.andThen
  split
  · exact ⟨ha, .inr ‹_›⟩
  · have hr := enterPrep_rest (decide (t.directory 8 ≠ 0)) (beginBlocks L (decide (t.directory 8 ≠ 0)) t)
    exact ⟨ha.trans ((beginBlocks_kept hL _ t).trans hr.kept), hr.engine⟩

/-- LOAD_PASSED: the load goes on, ends in PREP, or halts; outside LOADING nothing happens (R9). -/
theorem loadPassed_kept (s : State) :
    Kept s (stateAfter (execLoadPassed s) s) ∧ (s.engine ≠ .loading → stateAfter (execLoadPassed s) s = s) ∧
      (stateAfter (execLoadPassed s) s = s ∨ (stateAfter (execLoadPassed s) s).engine = .prep
        ∨ (stateAfter (execLoadPassed s) s).engine = .halted) := by
  simp only [execLoadPassed, stateAfter]
  split
  · rename_i he
    refine ⟨?_, fun hn => absurd he hn, ?_⟩
    · split
      · rename_i L hL
        exact (scanTable_steady L s).kept.andThen (enterPrep_kept (loadOutcome_rows hL) _).1
      · exact (Steady.halt _ s).kept
      · exact .refl s
    · split
      · rename_i L hL
        unfold State.andThen
        split
        · exact .inr (.inr ‹_›)
        · exact .inr (enterPrep_kept (loadOutcome_rows hL) _).2
      · exact .inr (.inr rfl)
      · exact .inl rfl
  · exact ⟨.refl s, fun _ => rfl, .inl rfl⟩

/-- LOAD_FAILED: the load goes on, ends in IDLE, or halts; outside LOADING nothing happens (R10). -/
theorem loadFailed_kept (s : State) :
    Kept s (stateAfter (execLoadFailed s) s) ∧ (s.engine ≠ .loading → stateAfter (execLoadFailed s) s = s) ∧
      (stateAfter (execLoadFailed s) s = s ∨ (stateAfter (execLoadFailed s) s).engine = .idle
        ∨ (stateAfter (execLoadFailed s) s).engine = .halted) := by
  simp only [execLoadFailed, stateAfter]
  split
  · rename_i he
    refine ⟨?_, fun hn => absurd he hn, ?_⟩
    · split
      · exact .refl s
      · exact (Steady.halt _ s).kept
      · exact ⟨rfl, rfl, fun h => { h with }⟩
    · split
      · exact .inl rfl
      · exact .inr (.inr rfl)
      · exact .inr (.inl rfl)
  · exact ⟨.refl s, fun _ => rfl, .inl rfl⟩

/-! ## END and steps cut short (R12, R16, R17) -/

/-- END goes from CLOSED on: it ends in CLOSED, or in HALTED where the seal meets a refused access. -/
theorem endRaceNow_kept (s : State) :
    Kept s (endRaceNow s) ∧ ((endRaceNow s).engine = .closed ∨ (endRaceNow s).engine = .halted) := by
  unfold endRaceNow
  generalize ht : ({ s with
      engine         := .closed
      commandRefused := false
      assembler      := s.assembler.closeAll
      matLines       := mapTwo MatLine.dropMark s.matLines
      panelLines     := mapTwo PanelLine.dropClock s.panelLines } : State) = t
  have h : Steady t (sealPage (endScreens t)) := (Steady.endScreens t).trans (.sealPage _)
  have hk : Kept s t := by
    rw [← ht]
    refine ⟨rfl, rfl, fun h => ?_⟩
    exact { (h.withAssembler h.assembler.closeAll).mapLines (f := MatLine.dropMark) (g := PanelLine.dropClock)
      (fun _ h => h) (fun _ h => h) with }
  have he : t.engine = .closed := by rw [← ht]
  exact ⟨hk.trans h.kept, h.engine.imp_left (·.trans he)⟩

/-- A step that may be under way keeps clocks and bounds. -/
theorem runUnderway_kept (u : Underway) (s : State) : Kept s (runUnderway u s) := by
  cases u with
  | load => exact (loadPassed_kept s).1
  | endRace =>
    unfold runUnderway
    dsimp only
    split
    · exact (endRaceNow_kept s).1
    · exact .refl s
  | item => exact (Steady.handleHead s).kept
  | slotVisit => exact (Steady.execSlotVisit s).kept
  | itemEnd => exact (Steady.execItemEnd s).kept
  | statusTimer => exact (Steady.execStatusTimer s).kept
  | sealTimer => exact (Steady.execSealTimer s).kept
  | drain => exact (Steady.execDrain s).kept
  | flushJournal => exact (Steady.execFlushJournal s).kept
  | draw => exact (Steady.execDraw s).kept
  | batch l f => exact (Steady.execBatch l f s).kept
  | empty l f => exact (Steady.execEmpty l f s).kept
  | busy l f => exact (Steady.execBusy l f s).kept
  | silence l failed => exact (Steady.execSilence l failed s).kept
  | ack l f => exact (Steady.execAck l f s).kept
  | wait l f => exact (Steady.execWait l f s).kept
  | noReply l failed => exact (Steady.execNoReply l failed s).kept

/-- So does a step cut short, wherever it is cut (log entry 8). -/
theorem cutStep_kept (s : State) (c : Cut) : Kept s (cutStep s c) := by
  have hopen : ∀ t : State, Kept t t.openPort := fun t => by
    unfold State.openPort
    split <;> exact ⟨rfl, rfl, fun h => { h with }⟩
  have hport : ∀ p, Kept s (s.withPort p (runUnderway c.step)) := fun p =>
    (Kept.trans (s := s) (t := { s with port := p }) ⟨rfl, rfl, fun h => { h with }⟩ (runUnderway_kept c.step _)).trans (hopen _)
  unfold cutStep cutAt
  split
  · exact hport _
  · split
    · exact .refl s
    · exact hport _

theorem cutAll_kept (cuts : List Cut) (s : State) : Kept s (cutAll cuts s) := by
  induction cuts generalizing s with
  | nil => exact .refl s
  | cons c cuts ih => exact (cutStep_kept s c).trans (ih _)

/-! ## The register window, START and the resets -/

theorem bounded_reset : Bounded State.reset where
  base     := by decide
  clock    := by decide
  landing  := by decide
  silence  := by decide
  rounds   := by decide
  clusters := by decide
  reads    := by decide
  memory   := by decide
  intake   := by decide
  spill    := by decide
  dropped  := by decide
  screens  := fun x hx => nomatch hx
  rows     := by decide
  panels   := fun p hp => nomatch hp
  position := by decide

/-- The value of two halves of a double word. -/
theorem append_toNat (hi lo : Word) : (hi ++ lo : BitVec (32 + 32)).toNat = hi.toNat * 4294967296 + lo.toNat := by
  rw [BitVec.toNat_append, ← Nat.shiftLeft_add_eq_or_of_lt lo.isLt, Nat.shiftLeft_eq]

/-- BASE written in its low half is a multiple of 64: bits 5 to 0 are not stored (R3). -/
theorem withBaseLo_multiple (v : Word) (b : BitVec 64) : (withBaseLo v b).toNat % 64 = 0 := by
  have hlow : (v &&& 0xFFFFFFC0#32).toNat % 64 = 0 := by
    rw [BitVec.toNat_and, ← Nat.and_two_pow_sub_one_eq_mod _ 6, Nat.and_assoc]
    exact Nat.and_zero _
  have h := append_toNat ((b >>> 32).truncate 32) (v &&& 0xFFFFFFC0#32)
  rw [show (withBaseLo v b).toNat = _ from h]
  omega

/-- BASE written in its high half keeps its low half. -/
theorem withBaseHi_multiple (v : Word) {b : BitVec 64} (hb : b.toNat % 64 = 0) : (withBaseHi v b).toNat % 64 = 0 := by
  have h := append_toNat v (b.truncate 32)
  rw [show (withBaseHi v b).toNat = _ from h]
  simp only [BitVec.truncate_eq_setWidth, BitVec.toNat_setWidth]
  omega

/-- START taken: the race goes on from a state in RACE with the clock at the value (R11). -/
theorem beginRace_steady (value : Nat) (s : State) :
    Steady { s with engine := .race, raceClock := value, commandRefused := false, lastMark := none, ceilingGiven := false }
      (beginRace value s) := by
  have hmark : ∀ u, Steady u (markNow u) := fun u => .stays rfl rfl rfl fun h =>
    { h.mapLines (f := fun x => { x with pendingMark := some (u.raceClock / 1000) })
        (g := fun x => { x with pendingClock := some (u.raceClock / 1000) }) (fun _ h => h) (fun _ h => h) with }
  have hceiling : ∀ u, Steady u (giveCeiling u) := fun u => .stays rfl rfl rfl fun h => { h with }
  unfold beginRace
  generalize ({ s with engine := .race, raceClock := value, commandRefused := false, lastMark := none
                       ceilingGiven := false } : State) = u
  dsimp only
  have h1 : Steady u (if u.resume = some true then beginPolling u else u) := .when fun _ => beginPolling_steady u
  generalize (if u.resume = some true then beginPolling u else u) = v at h1
  have h2 : Steady v (if value % 1000 = 0 then markNow v else v) := .when fun _ => hmark v
  exact (h1.trans h2).trans (.when fun _ => hceiling _)

theorem beginRace_bounded {value : Nat} {s : State} (hv : value ≤ 43199999) (h : Bounded s) : Bounded (beginRace value s) :=
  (beginRace_steady value s).bounded { h with clock := hv }

theorem startRace_bounded {s : State} (h : Bounded s) : Bounded (startRace s) := by
  unfold startRace State.andThen
  have ha := (Steady.access s .directory (s.addr 8) 4).bounded h
  split
  · exact ha
  · dsimp only
    split
    · exact { ha with }
    · exact beginRace_bounded (Nat.le_of_not_lt ‹_›) ha

/-- A write of a code to CONTROL keeps the bounds; a reset gives those of the reset state, with BASE as it was (R2). -/
theorem controlWrite_bounded (code : Nat) (cuts : List Cut) {s : State} (h : Bounded s) :
    Bounded (controlWrite code cuts s) := by
  have hrefuse : Bounded (refuseCommand s) := { h with }
  unfold controlWrite
  split
  · split
    · exact { h with }
    · exact hrefuse
  · split
    · exact startRace_bounded h
    · exact hrefuse
  · split
    · exact (endRaceNow_kept s).1.bounded h
    · exact hrefuse
  · exact { bounded_reset with base := h.base }
  · exact hrefuse

/-- Every command keeps the bounds. -/
theorem exec_bounded (c : Instr) {s : State} (h : Bounded s) : Bounded (stateAfter (exec c s) s) := by
  by_cases hc : takenInHalted c = false
  · by_cases hp : c = .loadPassed
    · subst hp; exact (loadPassed_kept s).1.bounded h
    · by_cases hf : c = .loadFailed
      · subst hf; exact (loadFailed_kept s).1.bounded h
      · exact (exec_steady hc hp hf s).bounded h
  · cases c with
    | load => exact controlWrite_bounded 1 [] h
    | start => exact controlWrite_bounded 2 [] h
    | endRace => exact controlWrite_bounded 3 [] h
    | reset cuts => exact controlWrite_bounded 4 cuts h
    | unknownCommand code => exact controlWrite_bounded code.toNat [] h
    | powerOnReset => exact { bounded_reset with }
    | baseLoWrite v =>
      simp only [exec, execBaseLoWrite, stateAfter]
      split
      · exact { h with base := withBaseLo_multiple v s.base }
      · exact { h with }
    | baseHiWrite v =>
      simp only [exec, execBaseHiWrite, stateAfter]
      split
      · exact { h with base := withBaseHi_multiple v h.base }
      · exact { h with }
    | causeWrite v => exact { h with }
    | causeEnableWrite v => exact { h with }
    | memoryFault report =>
      simp only [exec, execMemoryFault, stateAfter]
      split
      · exact h
      · exact ((cutAll_kept report.cuts s).bounded h).halt report.region
    | _ => exact absurd rfl hc

/-- A millisecond that passes keeps the bounds: the race clock stops at its ceiling (R13). -/
theorem passTime_bounded {s : State} (h : Bounded s) : Bounded (passTime s) := by
  have hl : Bounded (linesGoOn s) := by
    unfold linesGoOn
    split
    · exact h.mapLines (fun _ h => h) (fun _ h => h)
    · exact h
  have hclock : (countTime (linesGoOn s)).raceClock ≤ 43199999 := by
    have := hl.clock
    simp only [countTime, Config.clockCeiling]
    split <;> omega
  have hc : Bounded (countTime (linesGoOn s)) := { hl with clock := hclock }
  unfold passTime
  dsimp only
  split
  · exact { hc with }
  · exact hc

/-- Settles O57: every command keeps the bounds, and so does a millisecond that passes. -/
theorem boundsAreKept : Obligations.BoundsAreKept := by
  intro s t h hs
  have hexec : ∀ c (u : State), Bounded u → exec c u = .next t → Bounded t := fun c u hu he => by
    rw [exec_next] at he
    cases he
    exact exec_bounded c hu
  unfold step at hs
  split at hs
  · unfold idle at hs
    split at hs
    · exact hexec _ s.countPick { h with } hs
    · cases hs
      exact passTime_bounded (s := s.countPick) { h with }
  · rename_i c rest _
    exact hexec c (s.withPending rest) { h with } hs

end Sys2Proof.Machine

/-! The engine and the clocks: what stands in IDLE and HALTED, the path of the engine states, and which commands the part
takes by itself. -/

namespace Sys2Proof.Machine

/-! ## Where the blocks stand (R16) -/

/-- The engine is in IDLE or HALTED, where no block works and no load is in progress. -/
def State.still (s : State) : Prop := s.engine = .idle ∨ s.engine = .halted

namespace State.still

variable {s : State}

theorem working (h : s.still) : s.working = false := by
  rcases h with h | h <;> simp [State.working, h]

theorem racing (h : s.still) : s.racing = false := by
  rcases h with h | h <;> simp [State.racing, h]

theorem polls (h : s.still) : s.polls = false := by
  rcases h with h | h <;> simp [State.polls, h]

theorem not_race (h : s.still) : s.engine ≠ .race := by
  rcases h with h | h <;> simp [h]

theorem not_prep (h : s.still) : s.engine ≠ .prep := by
  rcases h with h | h <;> simp [h]

theorem not_loading (h : s.still) : s.engine ≠ .loading := by
  rcases h with h | h <;> simp [h]

theorem matFrame (h : s.still) (l : LineIx) (type : Byte) (f : RxFrame) (handle : Nat → State → State) :
    matFrame l type f handle s = s := by
  unfold Machine.matFrame
  split
  · rfl
  · simp [h.working]

theorem panelFrame (h : s.still) (l : LineIx) (type : Byte) (f : RxFrame) (act : Nat → Panel → State → State) :
    panelFrame l type f act s = s := by
  unfold Machine.panelFrame
  split
  · rfl
  · simp [h.working]

theorem runItem (h : s.still) (k : WorkKind) (plan : State → WorkItem → ItemPlan) : runItem k plan s = s := by
  have hn : s.headItem k = none := by
    unfold State.headItem
    split
    · simp [h.working]
    · rfl
  simp [Machine.runItem, hn]

theorem handleHead (h : s.still) : handleHead s = s := by
  simp [Machine.handleHead, h.working]

/-- In IDLE and HALTED a command of the blocks changes nothing. -/
theorem exec {c : Instr} (h : s.still) (hc : takenInHalted c = false) : exec c s = .next s := by
  have hw := h.working
  have hr := h.racing
  have hp := h.polls
  have hrace := h.not_race
  have hprep := h.not_prep
  have hload := h.not_loading
  cases c with
  | load | start | endRace | reset | unknownCommand | baseLoWrite | baseHiWrite | causeWrite | causeEnableWrite | memoryFault
  | powerOnReset => cases hc
  | registerWriteIgnored => rfl
  | loadPassed => simp [Machine.exec, execLoadPassed, hload]
  | loadFailed => simp [Machine.exec, execLoadFailed, hload]
  | sweepWrite => simp [Machine.exec, execSweepWrite, hw]
  | secondMark => simp [Machine.exec, execSecondMark, secondMarkReady, hrace]
  | clockCeiling => simp [Machine.exec, execClockCeiling, ceilingReady, hrace]
  | round => simp [Machine.exec, execRound, roundReady, hp]
  | call => simp [Machine.exec, execCall, callReady, hp]
  | mark => simp [Machine.exec, execMark, markReady, hrace]
  | clock => simp [Machine.exec, execClock, clockReady, hrace]
  | silence => simp [Machine.exec, execSilence, silenceReady, hw]
  | noReply => simp [Machine.exec, execNoReply, noReplyReady, hw]
  | batch l f => exact congrArg _ (h.matFrame l _ f _)
  | empty l f => exact congrArg _ (h.matFrame l _ f _)
  | busy l f => exact congrArg _ (h.matFrame l _ f _)
  | ack l f => exact congrArg _ (h.panelFrame l _ f _)
  | wait l f => exact congrArg _ (h.panelFrame l _ f _)
  | draw => simp [Machine.exec, execDraw, drawReady, hr]
  | closedCrossingOffer => simp [Machine.exec, execClosedCrossingOffer, offerReady, hr]
  | clusterExpiry => simp [Machine.exec, execClusterExpiry, expiryReady, hrace]
  | slotVisit => simp [Machine.exec, execSlotVisit, slotVisitReady, hw]
  | sweepTimer => simp [Machine.exec, execSweepTimer, sweepTimerReady, hw]
  | itemEnd => simp [Machine.exec, execItemEnd, itemEndReady, hw]
  | localCrossing => simp [Machine.exec, execLocalCrossing, hw]
  | remoteCrossing => exact congrArg _ (h.runItem _ _)
  | startWave => exact congrArg _ (h.runItem _ _)
  | runnerStatus => exact congrArg _ (h.runItem _ _)
  | setWatch => exact congrArg _ (h.runItem _ _)
  | setName => exact congrArg _ (h.runItem _ _)
  | correctSplit => exact congrArg _ (h.runItem _ _)
  | screenRequest => simp [Machine.exec, execScreenRequest, hw]
  | purge => simp [Machine.exec, execPurge, hw]
  | removal => simp [Machine.exec, execRemoval, hw]
  | entryDue => simp [Machine.exec, execEntryDue, entryDueReady, hrace]
  | leaveTime => simp [Machine.exec, execLeaveTime, leaveReady, hrace]
  | missed => simp [Machine.exec, execMissed, missedReady, hrace]
  | wakeLeadReached => simp [Machine.exec, execWakeLeadReached, wakeLeadReady, hrace]
  | dimAfter => simp [Machine.exec, execDimAfter, dimAfterReady, hrace, hprep]
  | darkAfter => simp [Machine.exec, execDarkAfter, darkAfterReady, hw]
  | wakeAgeOut => simp [Machine.exec, execWakeAgeOut, wakeAgeReady, hw]
  | banner => simp [Machine.exec, execBanner, hw]
  | bannerExpiry => simp [Machine.exec, execBannerExpiry, bannerExpiryReady, hw]
  | statusTimer => simp [Machine.exec, execStatusTimer, statusDue, hw]
  | panelExchange => simp [Machine.exec, execPanelExchange, serve, panelReady, hw]
  | backOffEnd => simp [Machine.exec, execBackOffEnd, backOffReady, hw]
  | probeDue => simp [Machine.exec, execProbeDue, probeReady, hw]
  | sealTimer => simp [Machine.exec, execSealTimer, sealDue, hw]
  | drain => simp [Machine.exec, execDrain, drainReady, hw]
  | flushJournal => simp [Machine.exec, execFlushJournal, hw]

end State.still

/-- Settles O4: HALTED is one of the two states in which no block works. -/
theorem haltedBlocksStand : Obligations.HaltedBlocksStand := fun _ _ he hc => State.still.exec (.inr he) hc

/-! ## The path of the engine and the clocks (R1, R13, R15) -/

/-- What a step may do to the race clock: it stands, counts in RACE, is set as RACE is entered, or returns to 0. -/
def ClockPath (s t : State) : Prop :=
  t.raceClock = s.raceClock ∨ (s.engine = .race ∧ t.engine = .race ∧ t.raceClock = s.raceClock + 1) ∨
    (s.engine = .prep ∧ t.engine = .race) ∨ (t.engine = .idle ∧ t.raceClock = 0)

/-- What a step that is a reset, or is not, does to the engine and the race clock. -/
structure OnPath (reset : Bool) (s t : State) : Prop where
  engine : EnginePath reset s.engine t.engine
  clock  : ClockPath s t
  halted : s.engine = .halted → reset = false → t.engine = .halted ∧ t.raceClock = s.raceClock

namespace OnPath

variable {reset : Bool} {s t : State}

/-- The engine stays, the race clock stands. -/
theorem stays (he : t.engine = s.engine) (hr : t.raceClock = s.raceClock) : OnPath reset s t :=
  ⟨.inl he.symm, .inl hr, fun h _ => ⟨he.trans h, hr⟩⟩

/-- A memory fault outside IDLE. -/
theorem halts (hs : s.engine ≠ .idle) (he : t.engine = .halted) (hr : t.raceClock = s.raceClock) : OnPath reset s t :=
  ⟨.inr (.inr (.inl ⟨he, hs⟩)), .inl hr, fun _ _ => ⟨he, hr⟩⟩

theorem of_steady (hs : s.engine ≠ .idle) (h : Steady s t) : OnPath reset s t :=
  h.engine.elim (fun he => stays he h.raceClock) fun he => halts hs he h.raceClock

/-- A reset leads to IDLE and the race clock to 0 (R17, R18). -/
theorem resets (he : t.engine = .idle) (hr : t.raceClock = 0) : OnPath true s t :=
  ⟨.inr (.inl ⟨rfl, he⟩), .inr (.inr (.inr ⟨he, hr⟩)), fun _ h => nomatch h⟩

end OnPath

theorem loadPassed_path (reset : Bool) (s : State) : OnPath reset s (stateAfter (execLoadPassed s) s) := by
  obtain ⟨hk, hn, hcases⟩ := loadPassed_kept s
  by_cases hl : s.engine = .loading
  · rcases hcases with he | he | he
    · rw [he]; exact .stays rfl rfl
    · exact ⟨.inr (.inr (.inr (.inr (.inl ⟨hl, he⟩)))), .inl hk.raceClock, fun h _ => by rw [hl] at h; cases h⟩
    · exact .halts (by rw [hl]; decide) he hk.raceClock
  · rw [hn hl]; exact .stays rfl rfl

theorem loadFailed_path (reset : Bool) (s : State) : OnPath reset s (stateAfter (execLoadFailed s) s) := by
  obtain ⟨hk, hn, hcases⟩ := loadFailed_kept s
  by_cases hl : s.engine = .loading
  · rcases hcases with he | he | he
    · rw [he]; exact .stays rfl rfl
    · exact ⟨.inr (.inr (.inr (.inr (.inr (.inl ⟨hl, he⟩))))), .inl hk.raceClock, fun h _ => by rw [hl] at h; cases h⟩
    · exact .halts (by rw [hl]; decide) he hk.raceClock
  · rw [hn hl]; exact .stays rfl rfl

theorem beginRace_engine (value : Nat) (s : State) : (beginRace value s).engine = .race := by
  unfold beginRace
  dsimp only
  split <;> split <;> split <;> rfl

/-- START in PREP: RACE is entered, or the read of the value is a memory fault, or START is refused (R11). -/
theorem startRace_path {s : State} (hs : s.engine = .prep) (reset : Bool) :
    OnPath reset s (startRace s) ∧ (startRace s).localTime = s.localTime := by
  have hidle : s.engine ≠ .idle := by rw [hs]; decide
  have ha := Steady.access s .directory (s.addr 8) 4
  unfold startRace State.andThen
  split
  · exact ⟨.of_steady hidle ha, ha.localTime⟩
  · dsimp only
    split
    · exact ⟨.of_steady hidle ⟨ha.engine, ha.raceClock, ha.localTime, fun h => { ha.bounded h with }⟩, ha.localTime⟩
    · have he := beginRace_engine ((s.access .directory (s.addr 8) 4).directory 8) (s.access .directory (s.addr 8) 4)
      exact ⟨⟨.inr (.inr (.inr (.inr (.inr (.inr (.inl ⟨hs, he⟩)))))), .inr (.inr (.inl ⟨hs, he⟩)),
        fun h _ => by rw [hs] at h; cases h⟩, (beginRace_steady _ _).localTime.trans ha.localTime⟩

/-- A write of a code to CONTROL: RESET's own code alone is a reset (R2). -/
theorem controlWrite_path (code : Nat) (cuts : List Cut) (s : State) :
    OnPath (decide (code = 4)) s (controlWrite code cuts s) ∧ (controlWrite code cuts s).localTime = s.localTime := by
  have hrefuse : ∀ reset, OnPath reset s (refuseCommand s) ∧ (refuseCommand s).localTime = s.localTime :=
    fun _ => ⟨.stays rfl rfl, rfl⟩
  unfold controlWrite
  split
  · split
    · rename_i he
      exact ⟨⟨.inr (.inr (.inr (.inl ⟨he, rfl⟩))), .inl rfl, fun h _ => by rw [he] at h; cases h⟩, rfl⟩
    · exact hrefuse _
  · split
    · exact startRace_path ‹_› _
    · exact hrefuse _
  · split
    · rename_i he
      obtain ⟨hk, hc | hh⟩ := endRaceNow_kept s
      · exact ⟨⟨.inr (.inr (.inr (.inr (.inr (.inr (.inr ⟨he, hc⟩)))))), .inl hk.raceClock,
          fun h _ => by rw [he] at h; cases h⟩, hk.localTime⟩
      · exact ⟨.halts (by rw [he]; decide) hh hk.raceClock, hk.localTime⟩
    · exact hrefuse _
  · exact ⟨.resets rfl rfl, rfl⟩
  · exact hrefuse _

/-- Every command keeps the engine and the race clock on their path, and local time too but for a power-on reset. -/
theorem exec_path (c : Instr) (s : State) :
    OnPath (isReset c) s (stateAfter (exec c s) s) ∧
      (c ≠ .powerOnReset → (stateAfter (exec c s) s).localTime = s.localTime) := by
  by_cases hc : takenInHalted c = false
  · by_cases hstill : s.still
    · rw [hstill.exec hc]
      exact ⟨.stays rfl rfl, fun _ => rfl⟩
    · by_cases hp : c = .loadPassed
      · subst hp; exact ⟨loadPassed_path _ s, fun _ => (loadPassed_kept s).1.localTime⟩
      · by_cases hf : c = .loadFailed
        · subst hf; exact ⟨loadFailed_path _ s, fun _ => (loadFailed_kept s).1.localTime⟩
        · have h := exec_steady hc hp hf s
          exact ⟨.of_steady (fun he => hstill (.inl he)) h, fun _ => h.localTime⟩
  · have hcontrol : ∀ code cuts, (controlWrite code cuts s).localTime = s.localTime :=
      fun code cuts => (controlWrite_path code cuts s).2
    cases c with
    | load => exact ⟨(controlWrite_path 1 [] s).1, fun _ => hcontrol 1 []⟩
    | start => exact ⟨(controlWrite_path 2 [] s).1, fun _ => hcontrol 2 []⟩
    | endRace => exact ⟨(controlWrite_path 3 [] s).1, fun _ => hcontrol 3 []⟩
    | reset cuts => exact ⟨(controlWrite_path 4 cuts s).1, fun _ => hcontrol 4 cuts⟩
    | unknownCommand code => exact ⟨(controlWrite_path code.toNat [] s).1, fun _ => hcontrol code.toNat []⟩
    | powerOnReset => exact ⟨.resets rfl rfl, fun h => absurd rfl h⟩
    | baseLoWrite v =>
      simp only [exec, execBaseLoWrite, stateAfter]
      split <;> exact ⟨.stays rfl rfl, fun _ => rfl⟩
    | baseHiWrite v =>
      simp only [exec, execBaseHiWrite, stateAfter]
      split <;> exact ⟨.stays rfl rfl, fun _ => rfl⟩
    | causeWrite v => exact ⟨.stays rfl rfl, fun _ => rfl⟩
    | causeEnableWrite v => exact ⟨.stays rfl rfl, fun _ => rfl⟩
    | memoryFault report =>
      have hk := cutAll_kept report.cuts s
      simp only [exec, execMemoryFault, stateAfter]
      split
      · exact ⟨.stays rfl rfl, fun _ => rfl⟩
      · exact ⟨.halts ‹_› rfl hk.raceClock, fun _ => hk.localTime⟩
    | _ => exact absurd rfl hc

/-! ## The events the part takes by itself -/

/-- No command of a list resets the part. -/
def NoReset (l : List Instr) : Prop := ∀ c ∈ l, isReset c = false

namespace NoReset

@[simp] theorem append_iff {l l' : List Instr} : NoReset (l ++ l') ↔ NoReset l ∧ NoReset l' := List.forall_mem_append

@[simp] theorem eventIf_iff {ready : Bool} {c : Instr} : NoReset (eventIf ready c) ↔ (ready = true → isReset c = false) := by
  unfold eventIf
  split <;> simp_all [NoReset]

theorem flatMap {α : Type} {l : List α} {f : α → List Instr} (h : ∀ x, NoReset (f x)) : NoReset (l.flatMap f) := fun c hc => by
  obtain ⟨x, _, hx⟩ := List.mem_flatMap.1 hc
  exact h x c hx

theorem lineTimedEvents (s : State) (l : LineIx) : NoReset (lineTimedEvents s l) := by
  simp [Machine.lineTimedEvents, isReset]

theorem windowEvents (s : State) (l : LineIx) : NoReset (windowEvents s l) := by
  simp [Machine.windowEvents, isReset]

theorem screenTimedEvents (s : State) (i : Nat) : NoReset (screenTimedEvents s i) := by
  have he : NoReset (((s.screens[i]?.map ScreenState.schedule).getD []).flatMap (entryEvents s i)) :=
    flatMap fun e => by simp [entryEvents, isReset]
  simp [Machine.screenTimedEvents, faceEvents, isReset, he]

theorem timedEvents (s : State) : NoReset (timedEvents s) := by
  have hc : NoReset (expiryEvents s) := flatMap fun c => by simp [isReset]
  have hs : NoReset ((List.range s.screens.length).flatMap (Machine.screenTimedEvents s)) := flatMap (screenTimedEvents s)
  simp [Machine.timedEvents, lineTimedEvents, isReset, hc, hs]

theorem loadEvent (s : State) : NoReset (loadEvent s) := fun c hc => by
  unfold Machine.loadEvent at hc
  split at hc
  · split at hc <;> rw [List.mem_singleton.1 hc] <;> rfl
  · cases hc

theorem intakeCommand (x : IntakeItem) : NoReset x.command := fun c hc => by
  unfold IntakeItem.command at hc
  split at hc
  · rw [List.mem_singleton.1 hc]; rfl
  · split at hc
    all_goals first | (rw [List.mem_singleton.1 hc]; rfl) | cases hc

theorem handOverCommand (l : List HandOver) : NoReset (l.map HandOver.command) := fun c hc => by
  obtain ⟨x, _, rfl⟩ := List.mem_map.1 hc
  cases x <;> rfl

theorem blockEvents (s : State) : NoReset (blockEvents s) := by
  have hi : NoReset ((s.intake.take 1).flatMap IntakeItem.command) := flatMap intakeCommand
  simp only [Machine.blockEvents, append_iff, eventIf_iff, hi, handOverCommand, windowEvents, isReset, implies_true, and_self]

theorem readyEvents (s : State) : NoReset (readyEvents s) := by
  refine append_iff.2 ⟨timedEvents s, append_iff.2 ⟨loadEvent s, ?_⟩⟩
  split
  · exact blockEvents s
  · exact fun c hc => nomatch hc

end NoReset

/-- The event taken is one of those that stand ready. -/
theorem chosenEvent_mem {s : State} {c : Instr} (h : chosenEvent s = some c) : c ∈ readyEvents s := by
  unfold chosenEvent at h
  dsimp only at h
  split at h
  · cases h
  · exact List.mem_of_getElem? h

/-- Time passes only where no timed event stands. -/
theorem timedEvents_of_chosen_none {s : State} (h : chosenEvent s = none) : timedEvents s = [] := by
  unfold chosenEvent at h
  dsimp only at h
  split at h
  · rename_i he
    exact (List.append_eq_nil_iff.1 (List.isEmpty_iff.1 he)).1
  · rename_i he
    rw [List.getElem?_eq_none_iff] at h
    by_contra ht
    have hpos : 0 < (readyEvents s).length := List.length_pos_iff.2 fun hn => he (by rw [hn]; rfl)
    rw [Bool.eq_false_iff.2 fun hi => ht (List.isEmpty_iff.1 hi)] at h
    exact absurd (Nat.mod_lt (Config.pick s.picks) hpos) (Nat.not_lt.2 h)

/-- A millisecond that passes: the race clock counts in RACE alone, local time counts on (R13, R15). -/
theorem passTime_path (s : State) : OnPath false s (passTime s) ∧ (passTime s).localTime = s.localTime + 1 := by
  have hl : linesGoOn s = s ∨ ∃ m p, linesGoOn s = { s with matLines := m, panelLines := p } := by
    unfold linesGoOn
    split
    · exact .inr ⟨_, _, rfl⟩
    · exact .inl rfl
  have he : (passTime s).engine = s.engine := by
    unfold passTime
    rcases hl with hl | ⟨m, p, hl⟩ <;> rw [hl] <;> dsimp only <;> split <;> rfl
  have hr : (passTime s).raceClock =
      if s.engine = .race ∧ s.raceClock < Config.clockCeiling then s.raceClock + 1 else s.raceClock := by
    unfold passTime
    rcases hl with hl | ⟨m, p, hl⟩ <;> rw [hl] <;> dsimp only <;> split <;> rfl
  refine ⟨?_, ?_⟩
  · split at hr
    · rename_i hc
      exact ⟨.inl he.symm, .inr (.inl ⟨hc.1, he.trans hc.1, hr⟩), fun h _ => by rw [hc.1] at h; cases h⟩
    · exact .stays he hr
  · unfold passTime
    rcases hl with hl | ⟨m, p, hl⟩ <;> rw [hl] <;> dsimp only <;> split <;> rfl

/-- Settles O60: each command of the queue keeps to the path, and so do the events the part takes by itself, none of them a
reset, and the passing of time. -/
theorem engineAndClocksFollowTheirPath : Obligations.EngineAndClocksFollowTheirPath := by
  intro s t hs
  suffices h : OnPath (s.pending.head?.any isReset) s t ∧ (s.pending.head? ≠ some .powerOnReset → s.localTime ≤ t.localTime) from
    ⟨h.1.engine, h.1.clock, h.2, h.1.halted⟩
  unfold step at hs
  split at hs
  · rename_i hp
    rw [hp]
    unfold idle at hs
    split at hs
    · rename_i c hc
      rw [exec_next] at hs
      cases hs
      have hnr := NoReset.readyEvents s c (chosenEvent_mem hc)
      obtain ⟨h, hl⟩ := exec_path c s.countPick
      rw [hnr] at h
      exact ⟨⟨h.engine, h.clock, h.halted⟩, fun _ => (hl fun he => by rw [he] at hnr; cases hnr).ge⟩
    · cases hs
      obtain ⟨h, hl⟩ := passTime_path s.countPick
      exact ⟨⟨h.engine, h.clock, h.halted⟩, fun _ => (Nat.le_succ _).trans hl.ge⟩
  · rename_i c rest hp
    rw [hp]
    rw [exec_next] at hs
    cases hs
    obtain ⟨h, hl⟩ := exec_path c (s.withPending rest)
    exact ⟨⟨h.engine, h.clock, h.halted⟩, fun hn => (hl fun he => hn (congrArg some he)).ge⟩

end Sys2Proof.Machine

/-! The register window, the clock unit, START and the idle step, command by command. -/

namespace Sys2Proof.Machine

/-- A pair of lines is the pair of its two lines. -/
theorem pair_eq {α : Type} (v : Vector α 2) : #v[v[0], v[1]] = v := by
  ext i hi
  interval_cases i <;> rfl

/-! ## START (R11) -/

/-- A line as polling begins, if it does (R58). -/
def MatLine.polledIf (p : Prop) [Decidable p] (now : Nat) (x : MatLine) : MatLine :=
  if p then { x with round := 0, nextAddress := 1, roundBegan := now } else x

/-- A mat line, and a panel line, given the mark of a second at a whole second (R14). -/
def MatLine.markedIf (p : Prop) [Decidable p] (second : Nat) (x : MatLine) : MatLine :=
  if p then { x with pendingMark := some second } else x

def PanelLine.clockedIf (p : Prop) [Decidable p] (second : Nat) (x : PanelLine) : PanelLine :=
  if p then { x with pendingClock := some second } else x

theorem beginPolling_if (p : Prop) [Decidable p] (s : State) :
    (if p then beginPolling s else s) = { s with
      matLines := #v[s.matLines[0].polledIf p s.localTime, s.matLines[1].polledIf p s.localTime] } := by
  unfold MatLine.polledIf
  split
  · rfl
  · rw [pair_eq]

theorem markNow_if (p : Prop) [Decidable p] (s : State) :
    (if p then markNow s else s) = { s with
      matLines   := #v[s.matLines[0].markedIf p (s.raceClock / 1000), s.matLines[1].markedIf p (s.raceClock / 1000)]
      panelLines := #v[s.panelLines[0].clockedIf p (s.raceClock / 1000), s.panelLines[1].clockedIf p (s.raceClock / 1000)]
      lastMark   := if p then some (s.raceClock / 1000) else s.lastMark } := by
  unfold MatLine.markedIf PanelLine.clockedIf
  split
  · rfl
  · rw [pair_eq, pair_eq]

theorem giveCeiling_if (p : Prop) [Decidable p] (s : State) :
    (if p then giveCeiling s else s) = { s with
      cause        := if p then s.cause ||| 0x040#9 else s.cause
      ceilingGiven := s.ceilingGiven || decide p } := by
  split
  · simp [giveCeiling, State.setCause, withCause, Cause.bit, *]
  · simp [*]

/-- START taken, field by field: the clock, polling after a resume load, the mark of a whole second, the ceiling (R11). -/
theorem beginRace_eq (v : Nat) (s : State) :
    beginRace v s = { s with
      engine         := .race
      raceClock      := v
      commandRefused := false
      lastMark       := if v % 1000 = 0 then some (v / 1000) else none
      ceilingGiven   := decide (v = 43199999)
      cause          := if v = 43199999 then s.cause ||| 0x040#9 else s.cause
      matLines       :=
        #v[(s.matLines[0].polledIf (s.resume = some true) s.localTime).markedIf (v % 1000 = 0) (v / 1000),
           (s.matLines[1].polledIf (s.resume = some true) s.localTime).markedIf (v % 1000 = 0) (v / 1000)]
      panelLines     := #v[s.panelLines[0].clockedIf (v % 1000 = 0) (v / 1000),
                           s.panelLines[1].clockedIf (v % 1000 = 0) (v / 1000)] } := by
  unfold beginRace
  dsimp only
  rw [beginPolling_if, markNow_if, giveCeiling_if]
  simp only [Bool.false_or]
  rfl

theorem startRace_quiet {s : State} (ha : Accepting s) (he : s.engine = .prep) :
    startRace s = if 43199999 < s.field 8 4 then refuseCommand s else beginRace (s.field 8 4) s := by
  unfold startRace
  rw [State.access_quiet ha, State.andThen_running _ (by rw [he]; decide)]
  rfl

theorem exec_start_prep {s : State} (he : s.engine = .prep) : exec .start s = .next (startRace s) := by
  simp [exec, execStart, controlWrite, he]

/-- Settles O6: the read of the value, then the three cases of START. -/
theorem startSetsTheClock : Obligations.StartSetsTheClock := by
  intro s he
  rw [exec_start_prep he]
  refine ⟨fun hr => ?_, fun ha hv => ?_, fun ha hv => ?_⟩
  · rw [startRace, State.access_refused hr, State.halt_andThen]
  · rw [startRace_quiet ha he, if_pos hv]
    rfl
  · rw [startRace_quiet ha he, if_neg (Nat.not_lt.2 hv), beginRace_eq]
    rfl

/-! ## The CONTROL commands (R2) -/

theorem controlWrite_unknown {code : Nat} (h : code ∉ [1, 2, 3, 4]) (cuts : List Cut) (s : State) :
    controlWrite code cuts s = refuseCommand s := by
  simp only [List.mem_cons, List.not_mem_nil, or_false, not_or] at h
  unfold controlWrite
  split <;> simp_all

/-- END ends in CLOSED where no access is refused, the command-refused flag clear. -/
theorem endRaceNow_quiet {s : State} (ha : Accepting s) :
    (endRaceNow s).engine = .closed ∧ (endRaceNow s).commandRefused = false := by
  unfold endRaceNow
  generalize ht : ({ s with
      engine         := .closed
      commandRefused := false
      assembler      := s.assembler.closeAll
      matLines       := mapTwo MatLine.dropMark s.matLines
      panelLines     := mapTwo PanelLine.dropClock s.panelLines } : State) = t
  have hshape : endScreens t = { t with
      handovers := []
      screens   := (eachScreen endScreen t.screens.length t).screens
      panels    := (eachScreen endScreen t.screens.length t).panels } := by
    unfold endScreens
    rw [(eachScreen_local ScreenLocal.endScreen t.screens.length t).1]
  obtain ⟨m, c, j, hj⟩ := (sealPage_step (q := False) (endScreens t)).quiet
    (by rw [hshape, ← ht]; exact ha) (by rw [hshape, ← ht]; exact fun h => nomatch h)
  rw [hj, hshape, ← ht]
  exact ⟨rfl, rfl⟩

/-- Settles O5: the cases of `controlWrite`. -/
theorem controlCommandsTakenOrRefused : Obligations.ControlCommandsTakenOrRefused := by
  intro s
  have hstart := startSetsTheClock s
  refine ⟨fun he => ?_, fun he => ?_, fun he => ?_, fun he ha hv => (hstart he).2.1 ha hv, fun he ha hv => ?_, fun he => ?_,
    fun he ha => ?_, fun cuts => ⟨_, rfl, rfl, rfl⟩, ⟨_, rfl, rfl, rfl⟩, fun code hc => ?_⟩
  · simp [exec, execLoad, controlWrite, he, refuseCommand]
  · simp [exec, execLoad, controlWrite, he, beginLoad]
  · simp [exec, execStart, controlWrite, he, refuseCommand]
  · exact ⟨_, (hstart he).2.2 ha hv, rfl, rfl⟩
  · simp [exec, execEndRace, controlWrite, he, refuseCommand]
  · refine ⟨endRaceNow s, ?_, endRaceNow_quiet ha⟩
    simp [exec, execEndRace, controlWrite, he]
  · exact congrArg _ (controlWrite_unknown hc [] s)

/-! ## The register window (R3) -/

theorem statusWord_toNat (s : State) :
    s.statusWord.toNat = s.engine.code + 256 * s.loadError.code + 4096 * s.commandRefused.toNat
      + 65536 * regionField s.faultRegion := by
  have he : s.engine.code ≤ 5 := by cases s.engine <;> decide
  have hl : s.loadError.code ≤ 12 := by cases s.loadError <;> decide
  have hc : s.commandRefused.toNat ≤ 1 := Bool.toNat_le _
  have hr : regionField s.faultRegion ≤ 10 := by
    cases s.faultRegion with
    | none => decide
    | some r => cases r <;> decide
  rw [State.statusWord, BitVec.toNat_ofNat]
  exact Nat.mod_eq_of_lt (by omega)

/-- CAUSE_ENABLE reads its enables in bits 8 to 0 and WATCH_LEVEL in bits 26 to 24. -/
theorem causeEnable_toNat (s : State) :
    (readRegister .causeEnable s).toNat = s.causeEnable.toNat + 2 ^ 24 * s.watchLevel.toNat := by
  have he := s.causeEnable.isLt
  have hw := s.watchLevel.isLt
  simp only [readRegister, BitVec.toNat_or, BitVec.toNat_shiftLeft, BitVec.truncate_eq_setWidth, BitVec.toNat_setWidth]
  rw [Nat.mod_eq_of_lt (by omega : s.causeEnable.toNat < 2 ^ 32),
    Nat.mod_eq_of_lt (by omega : s.watchLevel.toNat < 2 ^ 32),
    Nat.mod_eq_of_lt (by rw [Nat.shiftLeft_eq]; omega), Nat.or_comm,
    ← Nat.shiftLeft_add_eq_or_of_lt (by omega : s.causeEnable.toNat < 2 ^ 24), Nat.shiftLeft_eq]
  omega

theorem highHalf_eq (b : BitVec 64) : (b >>> 32).truncate 32 = b.extractLsb' 32 32 := by
  ext i hi
  simp

/-- Settles O9: the writes by the engine state, the reads register by register. -/
theorem registerWindowReadsAndWrites : Obligations.RegisterWindowReadsAndWrites := by
  intro s v
  refine ⟨fun _ => rfl, fun he => ⟨?_, ?_⟩, fun he => ⟨?_, ?_⟩, ?_, rfl, rfl, rfl, ?_, highHalf_eq s.base, ?_,
    causeEnable_toNat s, statusWord_toNat s⟩
  · simp only [exec, execBaseLoWrite, he, if_true, withBaseLo, highHalf_eq]
  · simp only [exec, execBaseHiWrite, he, if_true, withBaseHi]
    rfl
  · simp only [exec, execBaseLoWrite, he, if_false, refuseCommand]
  · simp only [exec, execBaseHiWrite, he, if_false, refuseCommand]
  · simp only [exec, execCauseEnableWrite]
    congr 2
  · rfl
  · have := s.cause.isLt
    simp only [readRegister, BitVec.truncate_eq_setWidth, BitVec.toNat_setWidth]
    exact Nat.mod_eq_of_lt (by omega)

/-! ## Second marks and the ceiling (R13, R14, R60, R173) -/

/-- Settles O13: each command in its moment, and at any other moment nothing. -/
theorem secondMarksAreGivenAndSent : Obligations.SecondMarksAreGivenAndSent := by
  refine ⟨fun s he => ⟨fun hz hm => ?_, fun hm => ?_, fun hc hg => ?_, fun hg => ?_⟩, fun l second s he => ⟨fun hx hm => ?_,
    fun hx hm => ?_⟩⟩
  · have hr : secondMarkReady s = true := by simp [secondMarkReady, he, hz, hm]
    simp only [exec, execSecondMark, hr, if_true]
    rfl
  · have hr : secondMarkReady s = false := by simp [secondMarkReady, hm]
    simp [exec, execSecondMark, hr]
  · have hr : ceilingReady s = true := by simp [ceilingReady, he, hc, hg]
    simp only [exec, execClockCeiling, hr, if_true]
    rfl
  · have hr : ceilingReady s = false := by simp [ceilingReady, hg]
    simp [exec, execClockCeiling, hr]
  · have hr : markReady l s = true := by simp only [markReady, he, hx, hm]; rfl
    simp only [exec, execMark, hr, if_true, hm]
    rfl
  · have hr : clockReady l s = true := by simp only [clockReady, he, hx, hm]; rfl
    simp only [exec, execClock, hr, if_true, hm]
    rfl

/-! ## The idle step (R13, R15, R57, R169) -/

/-- An exchange as time passes: one past its close goes on with the reception begun in its window (R57, R169). -/
def exchangeGoesOn (s : State) (x : Option Exchange) : Option Exchange :=
  if s.working then x.map (Exchange.goesOn s.localTime) else x

theorem linesGoOn_eq (s : State) :
    linesGoOn s = { s with
      matLines   := #v[{ s.matLines[0] with exchange := exchangeGoesOn s s.matLines[0].exchange },
                       { s.matLines[1] with exchange := exchangeGoesOn s s.matLines[1].exchange }]
      panelLines := #v[{ s.panelLines[0] with exchange := exchangeGoesOn s s.panelLines[0].exchange },
                       { s.panelLines[1] with exchange := exchangeGoesOn s s.panelLines[1].exchange }] } := by
  unfold linesGoOn exchangeGoesOn
  split
  · rfl
  · rw [pair_eq, pair_eq]

/-- Settles O2: the event chosen runs, and where none is chosen none is due and a millisecond passes. -/
theorem idleStepTakesReadyEventOrTime : Obligations.IdleStepTakesReadyEventOrTime := by
  intro s hp
  have hstep : step s = idle s := by simp only [step, hp]
  refine ⟨fun c hc => ⟨chosenEvent_mem hc, ?_⟩, fun hn => ⟨timedEvents_of_chosen_none hn, ?_⟩⟩
  · rw [hstep, idle, hc]
    rfl
  · rw [hstep, idle, hn]
    simp only [passTime, giveCeiling_if, linesGoOn_eq, ceilingReady, Bool.decide_eq_true, beq_eq_decide]
    rfl

end Sys2Proof.Machine

/-! The state after power-on (R18). -/

namespace Sys2Proof.Machine

theorem journalSound_reset : JournalSound State.reset :=
  ⟨.inr (by decide), fun h => absurd h (by decide), rfl⟩

theorem schedulesSound_reset : SchedulesSound State.reset :=
  ⟨rfl, fun i c x h => by simp [ScreenAt, State.reset] at h⟩

/-- Settles O3: the values by evaluation, the laws of the state by the lemmas above. -/
theorem resetStateIsSound : Obligations.ResetStateIsSound := by
  have hdecoders : ∀ m : Fin 8, State.reset.decoders[m] = Decoder.reset := by decide
  have hmats : ∀ l : LineIx, State.reset.matLines[l] = MatLine.reset := by decide
  have hpanels : ∀ l : LineIx, State.reset.panelLines[l] = PanelLine.reset := by decide
  exact ⟨rfl, rfl, rfl, rfl, rfl, rfl, rfl, rfl, rfl, rfl, rfl, rfl, rfl,
    fun m => by rw [hdecoders m]; exact ⟨rfl, rfl, rfl, rfl, rfl, rfl⟩, fun l => by rw [hmats l]; exact ⟨rfl, rfl, rfl⟩,
    rfl, rfl, rfl, rfl, rfl, rfl, rfl, rfl, rfl, rfl, rfl, rfl, rfl, rfl, rfl, rfl, rfl, rfl,
    fun l => by rw [hpanels l]; exact ⟨rfl, rfl⟩,
    rfl, rfl, rfl, rfl, rfl, rfl, rfl, rfl, rfl, bounded_reset, journalSound_reset, schedulesSound_reset⟩

end Sys2Proof.Machine

/-! END: the race closes, the screens go dim and the writer seals its page (R12, R150, R178). -/

namespace Sys2Proof.Machine

/-- What the writer opens next depends on memory, the causes, the journal, BASE and the loaded copy alone (R179). -/
theorem tryNextPage_same {s u : State} (hs : Accepting s) (he : s.engine ≠ .halted) (hu : Accepting u)
    (hue : u.engine ≠ .halted) (hb : u.base = s.base) (hl : u.loaded = s.loaded) (spill : Bool) (m : List Host.Cell)
    (c : BitVec 9) (j : Journal) :
    let v := tryNextPage spill (s.journaled m c j)
    tryNextPage spill (u.journaled m c j) = u.journaled v.mem v.cause v.journal := by
  have hconfig : (u.journaled m c j).config = (s.journaled m c j).config := congrArg (·.getD Loaded.blank) hl
  have haddr : (u.journaled m c j).addr = (s.journaled m c j).addr :=
    funext fun o => congrArg (fun b : BitVec 64 => (b.toNat + o) % Config.addressSpace) hb
  have hfield : (u.journaled m c j).field = (s.journaled m c j).field := by unfold State.field; rw [haddr]; rfl
  dsimp only
  rw [tryNextPage_quiet (s := s.journaled m c j) hs he, tryNextPage_quiet (s := u.journaled m c j) hu hue, hconfig, haddr,
    hfield, show (u.journaled m c j).journal = (s.journaled m c j).journal from rfl]
  split
  · rfl
  · split <;> rfl

/-- And so does a seal (R178). -/
theorem sealPage_same {s u : State} (hs : Accepting s) (he : s.engine ≠ .halted) (hu : Accepting u)
    (hue : u.engine ≠ .halted) (hm : u.mem = s.mem) (hc : u.cause = s.cause) (hj : u.journal = s.journal)
    (hb : u.base = s.base) (hl : u.loaded = s.loaded) :
    sealPage u = u.journaled (sealPage s).mem (sealPage s).cause (sealPage s).journal := by
  have hsame : u = u.journaled s.mem s.cause s.journal := by simp [State.journaled, ← hc, ← hm, ← hj]
  cases hp : s.journal.current with
  | none => rw [sealPage_none hp, sealPage_none (hj ▸ hp)]; exact hsame
  | some p =>
    by_cases hf : s.journal.fill = 0
    · rw [sealPage_empty hf, sealPage_empty (hj ▸ hf)]; exact hsame
    · have hconfig : u.config = s.config := by unfold State.config; rw [hl]
      have haddr : u.addr = s.addr := by unfold State.addr; rw [hb]
      rw [sealPage_quiet hs he hp hf, sealPage_quiet hu hue (by rw [hj]; exact hp) (by rw [hj]; exact hf), hconfig, haddr, hm,
        hc, hj]
      exact tryNextPage_same hs he hu hue hb hl true _ _ _

/-- END with no access refused, field by field: the schedules and outboxes as each screen ends alone. -/
theorem endRaceNow_eq {s t : State} (ha : Accepting s) (ht : t = { s with
      engine         := .closed
      commandRefused := false
      assembler      := s.assembler.closeAll
      matLines       := mapTwo MatLine.dropMark s.matLines
      panelLines     := mapTwo PanelLine.dropClock s.panelLines }) :
    endRaceNow s = State.journaled (sealPage { s with engine := .closed }).mem (sealPage { s with engine := .closed }).cause
      (sealPage { s with engine := .closed }).journal
      { t with
        handovers := []
        screens   := (eachScreen endScreen t.screens.length t).screens
        panels    := (eachScreen endScreen t.screens.length t).panels } := by
  have hscreens : endScreens t = { t with
      handovers := []
      screens   := (eachScreen endScreen t.screens.length t).screens
      panels    := (eachScreen endScreen t.screens.length t).panels } := by
    unfold endScreens
    rw [(eachScreen_local ScreenLocal.endScreen t.screens.length t).1]
  have hrun : Engine.closed ≠ .halted := fun h => nomatch h
  rw [endRaceNow, ← ht, hscreens]
  exact sealPage_same (s := { s with engine := .closed }) ha hrun (by rw [ht]; exact ha) (by rw [ht]; exact hrun)
    (by rw [ht]) (by rw [ht]) (by rw [ht]) (by rw [ht]) (by rw [ht])

/-- A screen as its race ends: what it is left with, and the frames placed for it (R150). -/
theorem endScreen_at {s : State} {i : Nat} {c : Screen} {x : ScreenState} (hi : ScreenAt s i c x) :
    (endScreen i s).screens[i]? = some (endedScreen s.localTime x) ∧
    (endScreen i s).panels[i]? = (placeFrames i (rowFrames c.rows x.board [] ++
      (if x.power = .dim then [] else [brightnessFrame .dim])) s).panels[i]? := by
  obtain ⟨hc, hx⟩ := hi
  have hlt : i < s.screens.length := (List.getElem?_eq_some_iff.1 hx).1
  have hboard : (endedScreen s.localTime x).board = [] := rfl
  rw [endScreen, hc, hx]
  dsimp only
  rw [hboard]
  refine ⟨?_, placeFrames_same (s := s.withScreen i _) (t := s) rfl rfl _⟩
  rw [placeFrames_panels]
  simp [State.withScreen, hlt]

/-- Settles O7: END screen by screen, and the seal as it would be made alone. -/
theorem endClosesTheRace : Obligations.EndClosesTheRace := by
  intro s he ha
  refine ⟨endRaceNow s, by simp [exec, execEndRace, controlWrite, he], ?_⟩
  obtain ⟨t, ht⟩ : ∃ t : State, t = { s with
      engine         := .closed
      commandRefused := false
      assembler      := s.assembler.closeAll
      matLines       := mapTwo MatLine.dropMark s.matLines
      panelLines     := mapTwo PanelLine.dropClock s.panelLines } := ⟨_, rfl⟩
  obtain ⟨-, hscreens, hpanels, heach⟩ := eachScreen_local ScreenLocal.endScreen t.screens.length t
  rw [endRaceNow_eq ha ht]
  refine ⟨?_, by rw [ht] at hscreens ⊢; exact hscreens, by rw [ht] at hpanels ⊢; exact hpanels, fun i c x hi => ?_⟩
  · subst ht
    rfl
  · have hit : ScreenAt t i c x := by rw [ht]; exact hi
    obtain ⟨hx, hp⟩ := endScreen_at hit
    obtain ⟨hx', hp'⟩ := (heach i).1 (List.getElem?_eq_some_iff.1 hit.2).1
    refine ⟨hx'.trans (hx.trans ?_), hp'.trans (hp.trans ?_)⟩
    · rw [ht]
      rfl
    · exact placeFrames_same (by rw [ht]) (by rw [ht]; rfl) _

end Sys2Proof.Machine

/-! Steps cut short: each step that makes a list of writes and then goes on, cut after some of them (R10, R17, R35, R114). -/

namespace Sys2Proof.Machine

/-! ## Sequences of writes -/

theorem State.andThen_congr {s : State} {f g : State → State} (h : s.engine ≠ .halted → f s = g s) :
    s.andThen f = s.andThen g := by
  unfold State.andThen
  split
  · rfl
  · exact h ‹_›

theorem State.andThen_assoc (s : State) (f g : State → State) :
    (s.andThen f).andThen g = s.andThen fun t => (f t).andThen g := by
  by_cases h : s.engine = .halted
  · simp [State.andThen_halted, h]
  · simp [State.andThen_running, h]

theorem State.andThen_nil (s : State) : s.andThen (State.storeAll []) = s := by
  unfold State.andThen
  split <;> rfl

theorem State.storeAll_one (r : Region) (a : Nat) (bs : List Byte) (s : State) : s.storeAll [(r, a, bs)] = s.store r a bs :=
  State.andThen_nil _

/-- Where the board refuses nothing, no write is made once the engine has halted. -/
theorem State.storeAll_halted {ws : List (Region × Nat × List Byte)} {s : State} (h : s.refused = [])
    (he : s.engine = .halted) : s.storeAll ws = s := by
  cases ws with
  | nil => rfl
  | cons x ws =>
    obtain ⟨r, a, bs⟩ := x
    rw [State.storeAll, State.store, State.access_ok (State.refuses_of_nil h _ _), State.andThen_halted _ he,
      State.andThen_halted _ he]

theorem State.andThen_storeAll {ws : List (Region × Nat × List Byte)} {s : State} (h : s.refused = []) :
    s.andThen (State.storeAll ws) = s.storeAll ws := by
  unfold State.andThen
  split
  · exact (State.storeAll_halted h ‹_›).symm
  · rfl

theorem PortStep.refused {s t : State} (h : PortStep s t) : t.refused = s.refused := by
  rcases h.2 with ⟨m, p, h⟩ | ⟨m, p, h⟩ | ⟨r, m, p, h⟩ <;> rw [h] <;> rfl

theorem PortStep.base {s t : State} (h : PortStep s t) : t.base = s.base := by
  rcases h.2 with ⟨m, p, h⟩ | ⟨m, p, h⟩ | ⟨r, m, p, h⟩ <;> rw [h] <;> rfl

theorem PortStep.loaded {s t : State} (h : PortStep s t) : t.loaded = s.loaded := by
  rcases h.2 with ⟨m, p, h⟩ | ⟨m, p, h⟩ | ⟨r, m, p, h⟩ <;> rw [h] <;> rfl

theorem PortStep.panels {s t : State} (h : PortStep s t) : t.panels = s.panels := by
  rcases h.2 with ⟨m, p, h⟩ | ⟨m, p, h⟩ | ⟨r, m, p, h⟩ <;> rw [h] <;> rfl

theorem PortStep.config {s t : State} (h : PortStep s t) : t.config = s.config := by
  unfold State.config
  rw [h.loaded]

theorem PortStep.addr {s t : State} (h : PortStep s t) : t.addr = s.addr := by
  unfold State.addr
  rw [h.base]

theorem State.storeAll_append {ws vs : List (Region × Nat × List Byte)} {s : State} (h : s.refused = []) :
    s.storeAll (ws ++ vs) = (s.storeAll ws).storeAll vs := by
  induction ws generalizing s with
  | nil => rfl
  | cons x ws ih =>
    obtain ⟨r, a, bs⟩ := x
    have hu : (s.store r a bs).refused = [] := (PortStep.store r a bs s).refused.trans h
    rw [List.cons_append, State.storeAll, State.storeAll, State.andThen_storeAll hu, State.andThen_storeAll hu, ih hu]

/-- A list of writes leaves every byte outside them. -/
theorem State.read_storeAll_other {ws : List (Region × Nat × List Byte)} (s : State) {x : Nat}
    (h : ∀ w ∈ ws, w.2.1 < Config.addressSpace ∧ w.2.2.length ≤ Config.addressSpace ∧ inBytes w.2.1 w.2.2.length x = false) :
    Memory.read (s.storeAll ws).mem x = Memory.read s.mem x := by
  induction ws generalizing s with
  | nil => rfl
  | cons w ws ih =>
    obtain ⟨r, a, bs⟩ := w
    obtain ⟨ha, hn, hx⟩ := h (r, a, bs) (by simp)
    have hput : ∀ t : State, Memory.read (t.andThen (State.put a bs)).mem x = Memory.read t.mem x := fun t => by
      unfold State.andThen
      split
      · rfl
      · exact State.read_put_other t ha hn hx
    have hstore : Memory.read (s.store r a bs).mem x = Memory.read s.mem x := by
      rw [State.store, hput]
      unfold State.access
      split <;> rfl
    rw [State.storeAll]
    unfold State.andThen
    split
    · exact hstore
    · rw [ih _ fun w hw => h w (by simp [hw]), hstore]

theorem Memory.readBytes_congr {m m' : List Host.Cell} {a n : Nat} (ha : a < Config.addressSpace) (hn : n ≤ Config.addressSpace)
    (h : ∀ x, inBytes a n x = true → Memory.read m x = Memory.read m' x) :
    Memory.readBytes m a n = Memory.readBytes m' a n := by
  induction n generalizing a with
  | zero => rfl
  | succ n ih =>
    have hna : nextAddr a < Config.addressSpace := Nat.mod_lt _ (by decide)
    rw [Memory.readBytes, Memory.readBytes, h a (inBytes_self (n := n + 1) (Nat.succ_pos n)),
      ih hna (by omega) fun x hx => h x (inBytes_next ha hx (by omega))]

theorem State.andThen_twice (s : State) (f : State → State) : (s.andThen fun t => t.andThen f) = s.andThen f :=
  State.andThen_congr fun he => State.andThen_running f he

/-! ## The writes of each step -/

/-- What follows the writes of an end (R32, R33, R26). -/
def endFollows (e : EndReport) (s : State) : State :=
  let s := s.withSweep (s.sweep.closed e)
  let s := if e.notify then s.setCause .workDone else s
  if s.sweep.waitsFor e.slot then advanceSweep e.slot s else s

theorem writeEnd_eq (e : EndReport) (s : State) : writeEnd e s = (s.storeAll (s.endWrites e)).andThen (endFollows e) := rfl

theorem endFollows_spent (e : EndReport) (s : State) : SpentStep s (endFollows e s) := by
  have hsweep : SpentStep s (s.withSweep (s.sweep.closed e)) := .withSweep _ s
  unfold endFollows
  dsimp only
  generalize s.withSweep (s.sweep.closed e) = u at hsweep
  have hcause : SpentStep u (if e.notify then u.setCause .workDone else u) := by
    split <;> exact SpentStep.stays rfl rfl rfl
  generalize (if e.notify then u.setCause .workDone else u) = v at hcause
  refine (hsweep.trans hcause).trans ?_
  split
  · exact .advanceSweep e.slot v
  · exact .refl v

/-- The status pass is the list of its writes. -/
theorem writeStatus_eq {s t : State} (haddr : t.addr = s.addr) (hconfig : t.config = s.config) (hpanels : t.panels = s.panels)
    (i : Nat) (xs : List ScreenState) :
    writeStatus i xs t = t.storeAll ((xs.zipIdx i).map fun y =>
      (.screenStatus, s.addr (s.config.statusOffset + 8 * y.2),
        statusBytes y.1 ((s.panels[y.2]?.map Panel.online).getD true))) := by
  induction xs generalizing i t with
  | nil => rfl
  | cons x xs ih =>
    rw [writeStatus, haddr, hconfig, hpanels, List.zipIdx_cons, List.map_cons, State.storeAll]
    have hport := PortStep.store .screenStatus (s.addr (s.config.statusOffset + 8 * i))
      (statusBytes x ((s.panels[i]?.map Panel.online).getD true)) t
    exact State.andThen_congr fun _ =>
      ih (hport.addr.trans haddr) (hport.config.trans hconfig) (hport.panels.trans hpanels) (i + 1)

/-- The writes of a seal (R178). -/
def State.sealWrites (p : Nat) (s : State) : List (Region × Nat × List Byte) :=
  [(.page, s.addr (pageOffset s.config p 8), leBytes 4 s.journal.fill),
   (.page, s.addr (pageOffset s.config p 4), leBytes 4 s.journal.pageSeq.toNat),
   (.page, s.addr (pageOffset s.config p 0), [2, 0, 0, 0])]

/-- What follows the writes of a seal (R179). -/
def sealFollows (p : Nat) (s : State) : State :=
  tryNextPage true ((s.withJournal (s.journal.afterSeal p s.config.pages.length)).setCause .pageSealed)

theorem sealFollows_spent (p : Nat) (s : State) : SpentStep s (sealFollows p s) := by
  unfold sealFollows
  generalize hu : State.setCause .pageSealed _ = u
  have hs : SpentStep s u := by rw [← hu]; exact SpentStep.stays rfl rfl rfl
  exact hs.trans (.journal (tryNextPage_step true u))

theorem sealPage_eq {s : State} {p : Nat} (hp : s.journal.current = some p) (hf : s.journal.fill ≠ 0) :
    sealPage s = (s.storeAll (s.sealWrites p)).andThen (sealFollows p) := by
  unfold sealPage State.sealWrites
  rw [hp]
  dsimp only
  rw [if_neg hf]
  simp only [State.storeAll, State.andThen_assoc]
  refine State.andThen_congr fun _ => ?_
  have h1 := PortStep.store .page (s.addr (pageOffset s.config p 8)) (leBytes 4 s.journal.fill) s
  have j1 := store_journal .page (s.addr (pageOffset s.config p 8)) (leBytes 4 s.journal.fill) s
  generalize s.store .page (s.addr (pageOffset s.config p 8)) (leBytes 4 s.journal.fill) = t at *
  rw [h1.addr, h1.config, j1]
  refine State.andThen_congr fun _ => ?_
  have h2 := PortStep.store .page (s.addr (pageOffset s.config p 4)) (leBytes 4 s.journal.pageSeq.toNat) t
  generalize t.store .page (s.addr (pageOffset s.config p 4)) (leBytes 4 s.journal.pageSeq.toNat) = u at *
  rw [h2.addr, h2.config, h1.addr, h1.config]
  exact State.andThen_congr fun he => (State.andThen_running (sealFollows p) he).symm

/-! ## The scan of the work table -/

/-- The bytes of two slots of a work table stand apart. -/
theorem slots_apart {b i j x : Nat} (hi : i < 256) (hj : j < 256) (hx : inBytes ((b + 64 * i) % Config.addressSpace) 64 x = true)
    (hy : inBytes ((b + 64 * j) % Config.addressSpace) 64 x = true) : i = j := by
  unfold inBytes at *
  unfold Config.addressSpace at *
  rw [decide_eq_true_eq] at *
  omega

/-- Every write of a slot's scan stands in that slot. -/
theorem scanWrites_in_slot {s : State} {L : Loaded} {i : Nat} {w : Region × Nat × List Byte} (hw : w ∈ s.scanWrites L i) :
    w.2.1 < Config.addressSpace ∧ w.2.2.length ≤ Config.addressSpace ∧
      ∀ x, inBytes w.2.1 w.2.2.length x = true →
        inBytes ((s.base.toNat + L.workOffset + 64 * i) % Config.addressSpace) 64 x = true := by
  have hslot : ∀ o n x, o + n ≤ 64 → inBytes (s.addr (scanOffset L i o)) n x = true →
      inBytes ((s.base.toNat + L.workOffset + 64 * i) % Config.addressSpace) 64 x = true := fun o n x ho hx => by
    refine inBytes_part (o := o) (n := n) ?_ ho (by decide)
    rw [← hx, State.addr, scanOffset, workOffset]
    congr 2
    omega
  unfold State.scanWrites at hw
  split at hw
  · simp only [List.mem_cons, List.not_mem_nil, or_false] at hw
    rcases hw with rfl | rfl | rfl
    · exact ⟨State.addr_lt _ _, by rw [leBytes_length]; decide, fun x hx => hslot 48 4 x (by decide) (leBytes_length 4 _ ▸ hx)⟩
    · exact ⟨State.addr_lt _ _, by rw [leBytes_length]; decide, fun x hx => hslot 52 8 x (by decide) (leBytes_length 8 _ ▸ hx)⟩
    · exact ⟨State.addr_lt _ _, by rw [leBytes_length]; decide, fun x hx => hslot 0 4 x (by decide) (leBytes_length 4 _ ▸ hx)⟩
  · simp at hw

/-- The scan of a slot leaves the state words of the others. -/
theorem scan_keeps_states {s t : State} {L : Loaded} {i j : Nat} (hb : t.base = s.base) (hi : i < 256) (hj : j < 256)
    (h : j ≠ i) :
    (t.storeAll (s.scanWrites L i)).field (scanOffset L j 0) 4 = t.field (scanOffset L j 0) 4 := by
  unfold State.field
  rw [(PortStep.storeAll _ t).addr]
  refine congrArg leValue (Memory.readBytes_congr (State.addr_lt _ _) (by decide) fun x hx => ?_)
  refine State.read_storeAll_other t fun w hw => ?_
  obtain ⟨ha, hn, hslot⟩ := scanWrites_in_slot hw
  refine ⟨ha, hn, ?_⟩
  by_contra hc
  refine h (slots_apart hj hi (x := x) ?_ (hslot x (by simpa using hc)))
  refine inBytes_part (o := 0) (n := 4) ?_ (by decide) (by decide)
  rw [← hx, State.addr, scanOffset, workOffset, hb]
  congr 2
  omega

theorem scanSlots_eq {s : State} {L : Loaded} (is : List Nat) (hd : is.Nodup) (hlt : ∀ i ∈ is, i < 256)
    {t : State} (htr : t.refused = []) (hb : t.base = s.base)
    (hf : ∀ i ∈ is, t.field (scanOffset L i 0) 4 = s.field (scanOffset L i 0) 4) :
    is.foldl (scanSlot L) t = t.storeAll (is.flatMap (s.scanWrites L)) := by
  induction is generalizing t with
  | nil => rfl
  | cons i is ih =>
    have haddr : t.addr = s.addr := by unfold State.addr; rw [hb]
    have hwrites : t.scanWrites L i = s.scanWrites L i := by
      unfold State.scanWrites
      rw [hf i (by simp), haddr]
    have hslot : scanSlot L t i = t.storeAll (s.scanWrites L i) := by
      rw [scanSlot, ← State.andThen_storeAll htr]
      refine State.andThen_congr fun he => ?_
      rw [State.access_ok (State.refuses_of_nil htr _ _), State.andThen_running _ he, hwrites]
    have hport := PortStep.storeAll (s.scanWrites L i) t
    obtain ⟨hni, hd⟩ := List.nodup_cons.1 hd
    rw [List.foldl_cons, hslot, List.flatMap_cons, State.storeAll_append htr]
    refine ih hd (fun j hj => hlt j (by simp [hj])) (hport.refused.trans htr) (hport.base.trans hb) fun j hj => ?_
    rw [scan_keeps_states hb (hlt i (by simp)) (hlt j (by simp [hj])) (by rintro rfl; exact hni hj)]
    exact hf j (by simp [hj])

/-- The scan is the list of all its writes. -/
theorem scanTable_eq {s : State} {L : Loaded} (hr : s.refused = []) (hl : L.slotCount ≤ 256) :
    scanTable L s = s.storeAll (s.allScanWrites L) :=
  scanSlots_eq _ List.nodup_range (fun i hi => by have := List.mem_range.1 hi; omega) hr rfl fun _ _ => rfl

/-! What a load reads and checks does not depend on the memory port. -/

theorem State.loadPoints_port (q : Port) (s : State) (count n p : Nat) (before : List Point) :
    State.loadPoints { s with port := q } count n p before = s.loadPoints count n p before := by
  induction n generalizing p before with
  | zero => rfl
  | succ n ih =>
    simp only [State.loadPoints, ih]
    rfl

theorem State.loadScreens_port (q : Port) (s : State) (points : List Point) (n i : Nat) (before : List Screen) :
    State.loadScreens { s with port := q } points n i before = s.loadScreens points n i before := by
  induction n generalizing i before with
  | zero => rfl
  | succ n ih =>
    simp only [State.loadScreens, ih]
    rfl

theorem State.loadChips_port (q : Port) (s : State) (n k : Nat) (before : Option Nat) :
    State.loadChips { s with port := q } n k before = s.loadChips n k before := by
  induction n generalizing k before with
  | zero => rfl
  | succ n ih =>
    simp only [State.loadChips, ih]
    rfl

theorem State.loadOutcome_port (q : Port) (s : State) : State.loadOutcome { s with port := q } = s.loadOutcome := by
  unfold State.loadOutcome
  simp only [State.loadPoints_port, State.loadScreens_port, State.loadChips_port]
  rfl

/-- A load that passes has at most 256 work slots (R5). -/
theorem slotCount_le {s : State} {L : Loaded} (h : s.loadOutcome = .ok L) : L.slotCount ≤ 256 := by
  obtain ⟨hdir, points, screens, -, rfl⟩ := loadOutcome_inv h
  have hsizes : SizesRight s := by
    by_contra hn
    by_cases hm : MagicRight s
    · rw [directoryChecks_badSize hm hn] at hdir
      cases hdir
    · rw [directoryChecks_badMagic hm] at hdir
      cases hdir
  obtain ⟨-, -, -, -, hslots, -⟩ := hsizes
  exact hslots.2

/-! ## The step cut short -/

/-- A step cut short depends on what it does with the port as the cut gives it. -/
theorem cutAt_congr {f g : State → State} {s : State} (h : ∀ q, f { s with port := q } = g { s with port := q }) (made : Nat)
    (onward : Bool) : cutAt made onward f s = cutAt made onward g s := by
  unfold cutAt State.withPort
  split
  · rw [h]
  · cases made with
    | zero => rfl
    | succ n => exact congrArg State.openPort (h _)

/-- The step makes these writes, whatever its port, and then goes on. -/
def WritesFirst (u : Underway) (ws : List (Region × Nat × List Byte)) (s : State) : Prop :=
  ∃ k : State → State, (∀ t, SpentStep t (k t)) ∧
    ∀ q, runUnderway u { s with port := q } = (State.storeAll ws { s with port := q }).andThen k

namespace WritesFirst

variable {u : Underway} {ws : List (Region × Nat × List Byte)} {s : State} {made : Nat}

/-- Cut short, it has made the first of its writes, as many as the cut says. -/
theorem cut_mem (h : WritesFirst u ws s) (ha : Accepting s) (he : s.engine ≠ .halted) (hm : made ≤ ws.length)
    (onward : Bool) : (cutAll [⟨u, made, onward⟩] s).mem = Memory.writeAll s.mem (ws.take made) := by
  obtain ⟨k, hk, hrun⟩ := h
  exact (congrArg State.mem (cutAt_congr hrun made onward)).trans (cutAt_storeAll_mem ha he hk hm onward)

/-- Cut short right after a write it has done nothing else. -/
theorem cut_eq (h : WritesFirst u ws s) (ha : Accepting s) (he : s.engine ≠ .halted) (hm : made ≤ ws.length) :
    cutAll [⟨u, made, false⟩] s = s.withMem (Memory.writeAll s.mem (ws.take made)) := by
  obtain ⟨k, -, hrun⟩ := h
  exact (cutAt_congr hrun made false).trans (cutAt_storeAll k ha he hm)

/-! ## The steps that write first -/

/-- The item in flight, by its plan (R109, R114). -/
theorem item {x : IntakeItem} {rest : List IntakeItem} {p : ItemPlan} (hr : s.refused = []) (hw : s.working = true)
    (hi : s.intake = x :: rest) (hp : s.planOf x = some p) : WritesFirst .item p.writes s := by
  refine ⟨fun t => (handAll p.records t).state.andThen
      (p.finish x.work? (handAll p.records t).serial (handAll p.records t).place),
    fun t => (SpentStep.handAll p.records t).andThen (SpentStep.finish p x.work? _ _ _), fun q => ?_⟩
  have hplan : State.planOf { s with port := q } x = some p := (State.planOf_port x q s).trans hp
  rw [runUnderway, handleHead_plan (s := { s with port := q }) hw hi hplan, ItemPlan.run, ItemPlan.access,
    State.accessAll_ok (s := { s with port := q }) hr, State.andThen_storeAll (s := { s with port := q }) hr]

/-- The end at the head of the reports (R32). -/
theorem itemEnd {e : EndReport} {rest : List EndReport} (hw : s.working = true) (he : s.sweep.ends = e :: rest)
    (hi : e.slot ∈ s.sweep.inFlight) : WritesFirst .itemEnd (s.endWrites e) s := by
  have hready : ∀ q, itemEndReady { s with port := q } = true := fun q => by
    have hcontains : s.sweep.inFlight.contains e.slot = true := by simpa using hi
    simp only [itemEndReady, he, List.head?_cons, Option.any_some, hcontains, Bool.and_true]
    exact hw
  refine ⟨endFollows e, endFollows_spent e, fun q => ?_⟩
  rw [runUnderway, execItemEnd, if_pos (hready q)]
  dsimp only [stateAfter]
  rw [he]
  exact writeEnd_eq e { s with port := q }

/-- The status pass (R152). -/
theorem statusTimer (hd : statusDue s = true) : WritesFirst .statusTimer (statusWrites s) s := by
  refine ⟨fun t => { t with statusTimer := some t.localTime }, fun t => SpentStep.stays rfl rfl rfl, fun q => ?_⟩
  have hdue : statusDue { s with port := q } = true := hd
  rw [runUnderway, execStatusTimer, if_pos hdue]
  dsimp only [stateAfter]
  rw [writeStatus_eq (s := s) (t := { s with port := q }) rfl rfl rfl]
  rfl

/-- The seal (R178). -/
theorem sealTimer {p : Nat} (hd : sealDue s = true) (hp : s.journal.current = some p) :
    WritesFirst .sealTimer (s.sealWrites p) s := by
  have hf : s.journal.fill ≠ 0 := by
    intro h
    simp [sealDue, h] at hd
  refine ⟨sealFollows p, sealFollows_spent p, fun q => ?_⟩
  have hdue : sealDue { s with port := q } = true := hd
  rw [runUnderway, execSealTimer, if_pos hdue]
  exact sealPage_eq (s := { s with port := q }) hp hf

/-- The scan of a load that passes its checks (R9, R10). -/
theorem load {L : Loaded} (hr : s.refused = []) (he : s.engine = .loading) (hl : s.loadOutcome = .ok L) :
    WritesFirst .load (s.allScanWrites L) s := by
  refine ⟨fun t => t.andThen (enterPrep L), fun t => ?_, fun q => ?_⟩
  · dsimp only
    by_cases ht : t.engine = .halted
    · rw [State.andThen_halted _ ht]
      exact .refl t
    · rw [State.andThen_running _ ht]
      exact SpentStep.enterPrep L ht
  · have hloading : State.engine { s with port := q } = .loading := he
    have houtcome : State.loadOutcome { s with port := q } = .ok L :=
      (State.loadOutcome_port q s).trans hl
    rw [runUnderway, execLoadPassed, if_pos hloading, houtcome]
    dsimp only [stateAfter]
    rw [scanTable_eq (s := { s with port := q }) hr (slotCount_le houtcome), State.andThen_twice]
    rfl

end WritesFirst

end Sys2Proof.Machine

/-! The resets and the memory fault, with the steps under way cut short (R16, R17, R18). -/

namespace Sys2Proof.Machine

/-! ## No step is under way in IDLE or HALTED -/

theorem stateAfter_still {c : Instr} {s : State} (hs : s.still) (hc : takenInHalted c = false) : stateAfter (exec c s) s = s := by
  rw [hs.exec hc]
  rfl

/-- In IDLE and HALTED no step is under way. -/
theorem State.still.runUnderway {s : State} (h : s.still) (u : Underway) : runUnderway u s = s := by
  cases u with
  | load => exact stateAfter_still (c := .loadPassed) h rfl
  | endRace => exact if_neg h.not_race
  | item => exact h.handleHead
  | slotVisit => exact stateAfter_still (c := .slotVisit) h rfl
  | itemEnd => exact stateAfter_still (c := .itemEnd) h rfl
  | statusTimer => exact stateAfter_still (c := .statusTimer) h rfl
  | sealTimer => exact stateAfter_still (c := .sealTimer) h rfl
  | drain => exact stateAfter_still (c := .drain) h rfl
  | flushJournal => exact stateAfter_still (c := .flushJournal) h rfl
  | draw => exact stateAfter_still (c := .draw) h rfl
  | batch l f => exact stateAfter_still (c := .batch l f) h rfl
  | empty l f => exact stateAfter_still (c := .empty l f) h rfl
  | busy l f => exact stateAfter_still (c := .busy l f) h rfl
  | silence l failed => exact stateAfter_still (c := .silence l failed) h rfl
  | ack l f => exact stateAfter_still (c := .ack l f) h rfl
  | wait l f => exact stateAfter_still (c := .wait l f) h rfl
  | noReply l failed => exact stateAfter_still (c := .noReply l failed) h rfl

/-- There a step cut short leaves all but the port, which is free after it. -/
theorem cutStep_still {s : State} (h : s.still) (c : Cut) : (cutStep s c).still ∧ (cutStep s c).mem = s.mem := by
  have hport : ∀ p, (∀ e, p ≠ .stopped e) → s.withPort p (runUnderway c.step) = { s with port := .free } := fun p hp => by
    have hs : State.still { s with port := p } := h
    rw [State.withPort, hs.runUnderway]
    unfold State.openPort
    split
    · exact absurd ‹_› (hp _)
    all_goals rfl
  unfold cutStep cutAt
  split
  · rw [hport _ (by simp)]
    exact ⟨h, rfl⟩
  · split
    · exact ⟨h, rfl⟩
    · rw [hport _ (by simp)]
      exact ⟨h, rfl⟩

theorem cutAll_still {s : State} (h : s.still) (cuts : List Cut) : (cutAll cuts s).mem = s.mem := by
  induction cuts generalizing s with
  | nil => rfl
  | cons c cuts ih =>
    obtain ⟨hs, hm⟩ := cutStep_still h c
    exact (ih hs).trans hm

/-! ## The resets and the fault report -/

/-- Settles O8: the values by evaluation, the writes of each step cut short by `WritesFirst`. -/
theorem resetsClearThePart : Obligations.ResetsClearThePart := by
  have hline : State.reset.interruptLine = false := by decide
  refine ⟨fun s => ⟨rfl, rfl, rfl, rfl, rfl, hline, rfl⟩, fun cuts s => rfl, fun s => ⟨rfl, fun c rest => rfl,
    fun cuts h => cutAll_still h cuts, fun u => ⟨rfl, cutAll_zero u true s⟩, fun ha onward => ?_⟩⟩
  refine ⟨fun x rest p made hw hi hp hm => ?_, fun e rest made hw he hi hm => ?_, fun made hd hm => ?_,
    fun p made hd hp hm => ?_, fun L made he hl hm => ?_⟩
  · exact (WritesFirst.item ha.1 hw hi hp).cut_mem ha (State.working_running hw) hm onward
  · exact (WritesFirst.itemEnd hw he hi).cut_mem ha (State.working_running hw) hm onward
  · have hw : s.working = true := by
      unfold statusDue at hd
      exact (Bool.and_eq_true_iff.1 hd).1
    exact (WritesFirst.statusTimer hd).cut_mem ha (State.working_running hw) (by simpa [statusWrites] using hm) onward
  · have hw : s.working = true := by
      unfold sealDue at hd
      simp only [Bool.and_eq_true] at hd
      exact hd.1.1.1
    exact (WritesFirst.sealTimer hd hp).cut_mem ha (State.working_running hw) hm onward
  · exact (WritesFirst.load ha.1 he hl).cut_mem ha (by rw [he]; exact fun h => nomatch h) hm onward

/-- A fault report outside IDLE halts the engine where the steps under way stand. -/
theorem exec_memoryFault {s : State} (he : s.engine ≠ .idle) (r : Region) (cuts : List Cut) :
    exec (.memoryFault ⟨r, cuts⟩) s = .next ((cutAll cuts s).halt r) := by
  simp only [exec, execMemoryFault, if_neg he]

/-- Settles O11: the report, and a step cut short right after a write by `WritesFirst`. -/
theorem memoryFaultHaltsTheEngine : Obligations.MemoryFaultHaltsTheEngine := by
  refine fun r s => ⟨fun he => exec_memoryFault he r [], fun cuts he => exec_memoryFault he r cuts,
    fun x rest p made ha hw hi hp hm => ?_, fun L made ha he hl hm => ?_, fun cuts he => ?_⟩
  · have hidle : s.engine ≠ .idle := by
      intro h
      simp [State.working, h] at hw
    rw [exec_memoryFault hidle, (WritesFirst.item ha.1 hw hi hp).cut_eq ha (State.working_running hw) hm]
    rfl
  · have hidle : s.engine ≠ .idle := by rw [he]; exact fun h => nomatch h
    rw [exec_memoryFault hidle, (WritesFirst.load ha.1 he hl).cut_eq ha (by rw [he]; exact fun h => nomatch h) hm]
    rfl
  · simp only [exec, execMemoryFault, if_pos he]

end Sys2Proof.Machine

/-! Refused accesses (R16, R54): the memory port, and the steps whose first access is refused. -/

namespace Sys2Proof.Machine

/-! ## The memory port -/

theorem State.refuses_iff (s : State) (a n : Nat) : s.refuses a n = true ↔ ∃ x ∈ s.refused, inBytes a n x = true :=
  List.any_eq_true

/-- An accepted write, by the port of the step that makes it (R54). -/
theorem store_accepted {r : Region} {a : Nat} {bs : List Byte} {s : State} (h : s.refuses a bs.length = false)
    (he : s.engine ≠ .halted) (hm : Memory.wf s.mem = true) (ha : a < 18446744073709551616) (hn : bs.length ≤ 4096) :
    ∃ m, (s.port = .free → s.store r a bs = { s with mem := m }) ∧
      (∀ k, s.port = .left (k + 1) → s.store r a bs = { s with mem := m, port := .left k }) ∧
      (s.port = .left 0 → s.store r a bs = { s with engine := .halted, port := .stopped s.engine }) ∧
      (∀ k, s.port = .last (k + 1) → s.store r a bs = { s with mem := m, port := .last k }) ∧
      (s.port = .last 0 → s.store r a bs = { s with mem := m, engine := .halted, port := .stopped s.engine }) ∧
      Memory.wf m = true ∧ Memory.readBytes m a bs.length = bs ∧
      ∀ x, inBytes a bs.length x = false → Memory.read m x = Memory.read s.mem x := by
  have hl : bs.length ≤ Config.addressSpace := hn.trans (by decide)
  exact ⟨Memory.writeBytes s.mem a bs, fun hp => State.store_ok h hp he, fun k hp => State.store_left h hp he,
    fun hp => State.store_stops h hp he, fun k hp => State.store_before_last h hp he, fun hp => State.store_last h hp he,
    Memory.writeBytes_wf hm a bs, Memory.readBytes_writeBytes hm bs ha hl,
    fun x hx => Memory.read_writeBytes_other s.mem bs ha hl hx⟩

/-- A step whose first write is refused takes the memory fault and nothing else. -/
theorem State.storeAll_first_refused {r : Region} {a : Nat} {bs : List Byte} {ws : List (Region × Nat × List Byte)} {s : State}
    (h : s.refuses a bs.length = true) (k : State → State) : (s.storeAll ((r, a, bs) :: ws)).andThen k = s.halt r := by
  rw [State.storeAll, State.store_refused h, State.halt_andThen, State.halt_andThen]

/-- A list of reads of which the first is refused. -/
theorem State.accessAll_first_refused {reads : List (Region × Nat × Nat)} {r : Region} {a n : Nat} {s : State}
    (hr : reads.head? = some (r, a, n)) (h : s.refuses a n = true) : s.accessAll reads = s.halt r := by
  cases reads with
  | nil => cases hr
  | cons x reads =>
    cases hr
    rw [State.accessAll, State.access_refused h, State.halt_andThen]

/-! ## The first access of an item -/

/-- The work item of a kind in flight is handled by its plan. -/
theorem runItem_head {k : WorkKind} {w : WorkItem} {s : State} (h : ItemHead k w s) (plan : State → WorkItem → ItemPlan) :
    runItem k plan s = (plan s w).run (some w) s := by
  obtain ⟨hw, hk, rest, hi⟩ := h
  simp [runItem, State.headItem, hi, hw, hk]

/-- The search of a chip directory that is not empty probes its middle entry first (R50). -/
theorem chipSearch_first (s : State) (L : Loaded) (chip : Word) (n : Nat) (h : 0 < L.chipCount) :
    (chipSearch s L chip (n + 1) 0 L.chipCount).1.head? = some ((L.chipCount - 1) / 2) := by
  rw [chipSearch, if_neg (by omega)]
  dsimp only
  rw [Nat.zero_add]
  split <;> rfl

theorem startPlan_reads (s : State) (L : Loaded) (x : Crossing) (reads : List (Region × Nat × Nat)) (r : Runner) :
    (startPlan s L x reads r).reads = reads := by
  unfold startPlan
  dsimp only
  split
  · rfl
  · split <;> rfl

theorem splitPlan_reads (s : State) (L : Loaded) (x : Crossing) (reads : List (Region × Nat × Nat)) (r : Runner) :
    (splitPlan s L x reads r).reads = reads := by
  unfold splitPlan
  dsimp only
  split
  · rfl
  · split
    · rfl
    · split <;> rfl

/-- A crossing of a runner reads on from the reads it is given. -/
theorem crossingPlan_reads (s : State) (L : Loaded) (x : Crossing) (reads : List (Region × Nat × Nat)) :
    reads <+: (crossingPlan s L x reads).reads := by
  unfold crossingPlan
  dsimp only
  split
  · exact List.prefix_rfl
  · split
    · rw [startPlan_reads]
      exact List.prefix_append _ _
    · rw [splitPlan_reads]
      exact List.prefix_append _ _

/-- A local crossing reads the entries its lookup probes, and on from there (R93). -/
theorem localPlan_reads (s : State) (c : ClosedCrossing) :
    (chipSearch s s.config c.chip 32 0 s.config.chipCount).1.map (s.chipRead s.config) <+: (localPlan s c).reads := by
  unfold localPlan
  dsimp only
  split
  · exact List.prefix_rfl
  · split
    · exact List.prefix_rfl
    · split
      · exact List.prefix_append _ _
      · exact (List.prefix_append _ _).trans (crossingPlan_reads _ _ _ _)

/-- The first read of a local crossing is the middle entry of the chip directory. -/
theorem localPlan_first (s : State) (c : ClosedCrossing) (h : 0 < s.config.chipCount) :
    (localPlan s c).reads.head? = some (s.chipRead s.config ((s.config.chipCount - 1) / 2)) := by
  obtain ⟨rest, hrest⟩ := localPlan_reads s c
  rw [← hrest, List.head?_append, List.head?_map, chipSearch_first s s.config c.chip 31 h]
  rfl

/-! ## The steps -/

theorem slotVisit_refused {s : State} (hw : s.working = true) {i : Nat} (hi : s.sweep.at? = some i)
    (hwaits : s.sweep.waits = false) (hr : s.refuses (s.addr (workOffset s.config i 0)) 4 = true) :
    exec .slotVisit s = .next (s.halt .work) := by
  have hready : slotVisitReady s = true := by simp [slotVisitReady, hw, hi, hwaits]
  simp only [exec, execSlotVisit, hready, if_true, hi, visitSlot, State.access_refused hr, State.halt_andThen]

theorem itemEnd_refused {s : State} (hw : s.working = true) {e : EndReport} {rest : List EndReport}
    (he : s.sweep.ends = e :: rest) (hi : e.slot ∈ s.sweep.inFlight)
    (hr : s.refuses (s.addr (workOffset s.config e.slot 48)) 4 = true) : exec .itemEnd s = .next (s.halt .work) := by
  have hready : itemEndReady s = true := by simp [itemEndReady, hw, he, hi]
  simp only [exec, execItemEnd, hready, if_true, he]
  exact congrArg _ (State.storeAll_first_refused (by rw [leBytes_length]; exact hr) _)

theorem startWave_refused {s : State} {w : WorkItem} (hh : ItemHead .startWave w s) (hk : w.field 0 1 ≤ 15)
    (hnow : w.field 1 1 ≠ 0) (hr : s.refuses (s.addr (waveOffset s.config (w.field 0 1) 0)) 4 = true) :
    exec .startWave s = .next (s.halt .wave) := by
  have hreads : (startWavePlan s w).reads = s.waveReads s.config (w.field 0 1) := by
    have htime : badWaveTime w = false := by simp [badWaveTime, hnow]
    unfold startWavePlan
    dsimp only
    rw [if_neg (by omega), htime, if_neg Bool.false_ne_true]
    split <;> rfl
  refine congrArg _ ((runItem_head hh startWavePlan).trans (ItemPlan.run_halt _ ?_))
  exact State.accessAll_first_refused (by rw [hreads]; rfl) hr

theorem setWatch_refused {s : State} {w : WorkItem} (hh : ItemHead .setWatch w s) (hi : w.field 0 4 < s.config.runnerCount)
    (hr : s.refuses (s.addr (runnerOffset s.config (w.field 0 4) 0)) 4 = true) :
    exec .setWatch s = .next (s.halt .runner) := by
  refine congrArg _ ((runItem_head hh setWatchPlan).trans (ItemPlan.run_halt _ ?_))
  refine State.accessAll_first_refused ?_ hr
  unfold setWatchPlan
  dsimp only
  rw [if_neg (by omega)]
  rfl

theorem localCrossing_refused {s : State} (hw : s.working = true) {c : ClosedCrossing} {rest : List IntakeItem}
    (hi : s.intake = .crossing c :: rest) (hc : 0 < s.config.chipCount)
    (hr : s.refuses (s.addr (s.config.chipOffset + 8 * ((s.config.chipCount - 1) / 2))) 8 = true) :
    exec .localCrossing s = .next (s.halt .chip) := by
  simp only [exec, execLocalCrossing, hw, if_true, hi]
  exact congrArg _ (ItemPlan.run_halt none (State.accessAll_first_refused (localPlan_first s c hc) hr))

theorem statusTimer_refused {s : State} {x : ScreenState} {rest : List ScreenState} (hx : s.screens = x :: rest)
    (hd : statusDue s = true) (hr : s.refuses (s.addr s.config.statusOffset) 8 = true) :
    exec .statusTimer s = .next (s.halt .screenStatus) := by
  have hlength : ∀ online, (statusBytes x online).length = 8 := fun online => by simp [statusBytes, leBytes_length]
  simp only [exec, execStatusTimer, hd, if_true, hx, writeStatus, Nat.mul_zero, Nat.add_zero]
  rw [State.store_refused (by rw [hlength]; exact hr), State.halt_andThen, State.halt_andThen]

theorem sealTimer_refused {s : State} {p : Nat} (hd : sealDue s = true) (hp : s.journal.current = some p)
    (hr : s.refuses (s.addr (pageOffset s.config p 8)) 4 = true) : exec .sealTimer s = .next (s.halt .page) := by
  have hf : s.journal.fill ≠ 0 := by
    intro h
    simp [sealDue, h] at hd
  simp only [exec, execSealTimer, hd, if_true]
  exact congrArg _ ((sealPage_eq hp hf).trans (State.storeAll_first_refused (by rw [leBytes_length]; exact hr) _))

/-- Settles O12: the port's rules, then each step by its first access. -/
theorem refusedAccessesHaltTheEngine : Obligations.RefusedAccessesHaltTheEngine := by
  refine ⟨fun r a bs s => ⟨fun n => State.refuses_iff s a n, fun n h => ?_, fun n h => State.access_ok h,
    fun h => ⟨State.store_refused h, rfl⟩, store_accepted⟩, fun s hw => ⟨fun i => slotVisit_refused hw,
    fun e rest => itemEnd_refused hw, fun w => startWave_refused, fun w => setWatch_refused,
    fun c rest => localCrossing_refused hw, fun x rest => statusTimer_refused, fun p => sealTimer_refused⟩⟩
  rw [State.access_refused h]
  exact ⟨rfl, fun f => State.halt_andThen r f s⟩

end Sys2Proof.Machine

/-! CORRECT_SPLIT with VOID (R128 to R130). -/

namespace Sys2Proof.Machine

/-- Reads the board takes are passed by. -/
theorem State.accessAll_readable {xs : List (Region × Nat × Nat)} {s : State} (h : Readable s xs) (he : s.engine ≠ .halted)
    (ys : List (Region × Nat × Nat)) : s.accessAll (xs ++ ys) = s.accessAll ys := by
  induction xs with
  | nil => rfl
  | cons x xs ih =>
    rw [List.cons_append, State.accessAll, State.access_ok (h x (by simp)), State.andThen_running _ he,
      ih fun y hy => h y (by simp [hy])]

/-- What a plan does where no access is refused does not depend on its reads. -/
theorem planEffect_reads (p : ItemPlan) (reads : List (Region × Nat × Nat)) (w : Option WorkItem) (s : State) :
    planEffect { p with reads := reads } w s = planEffect p w s := rfl

/-- A correction with VOID is the plan of a void. -/
theorem correctSplitPlan_void {s : State} {w : WorkItem} (hi : w.field 0 4 < s.config.runnerCount)
    (hp : w.field 4 1 < s.config.pointCount) (hv : w.field 5 1 ≠ 0) :
    correctSplitPlan s w =
      voidPlan s s.config (w.field 0 4) (w.field 4 1) (s.readRunner s.config (w.field 0 4)) := by
  unfold correctSplitPlan
  dsimp only
  rw [if_neg (by omega), if_neg (by omega), if_pos (decide_eq_true hv)]

theorem exec_correctSplit_void {s : State} {w : WorkItem} (hh : ItemHead .correctSplit w s)
    (hi : w.field 0 4 < s.config.runnerCount) (hp : w.field 4 1 < s.config.pointCount) (hv : w.field 5 1 ≠ 0) :
    exec .correctSplit s = .next ((voidPlan s s.config (w.field 0 4) (w.field 4 1)
      (s.readRunner s.config (w.field 0 4))).run (some w) s) := by
  rw [← correctSplitPlan_void hi hp hv]
  exact congrArg _ (runItem_head hh correctSplitPlan)

/-- Where the runner's record can be read and its wave entry cannot, the reads are a fault of the wave table (R40). -/
theorem gunReads_refused {s : State} {L : Loaded} {i v : Nat} {r : Runner} (he : s.engine ≠ .halted)
    (h : Readable s (s.runnerReads L i)) (hv : r.wave = some v)
    (hr : s.refuses (s.addr (waveOffset L v 0)) 4 = true ∨ s.refuses (s.addr (waveOffset L v 4)) 1 = true) :
    s.accessAll (s.runnerReads L i ++ s.gunReads L r) = s.halt .wave := by
  have hgun : s.gunReads L r = s.waveReads L v := by simp [State.gunReads, hv]
  rw [State.accessAll_readable h he, hgun, ← List.append_nil (s.waveReads L v)]
  refine State.accessAll_region (by simp [State.waveReads]) ?_ he []
  rcases hr with hr | hr
  · exact ⟨_, List.mem_cons_self, hr⟩
  · exact ⟨_, List.mem_cons_of_mem _ List.mem_cons_self, hr⟩

/-- Settles O39: the reads of a void in order, and its effect where none is refused. -/
theorem voidEmptiesTheSlot : Obligations.VoidEmptiesTheSlot := by
  intro w s hh hi hp hv
  have he : s.engine ≠ .halted := State.working_running hh.1
  rw [exec_correctSplit_void hh hi hp hv]
  refine ⟨fun hn => ?_, fun v hread hwave hr => ?_, fun ha => ?_⟩
  · refine congrArg _ (ItemPlan.run_halt _ (State.accessAll_region (r := .runner) ?_ ?_ he _))
    · simp [State.runnerReads]
    · simpa [Readable] using hn
  · exact congrArg _ (ItemPlan.run_halt _ (gunReads_refused he hread hwave hr))
  · rw [ItemPlan.run_quiet _ _ ha he]
    refine congrArg _ ((planEffect_reads _ [] _ s).symm.trans (congrArg (planEffect · (some w) s) ?_))
    simp only [voidPlan, State.voidStatus, Loaded.isFinish, beq_iff_eq]
    rfl

end Sys2Proof.Machine

/-! The load, stage by stage (R4 to R10): each table is read, then checked, and the rest follows. -/

namespace Sys2Proof.Machine

/-! ## The stages of a load -/

/-- The journal, the last table: its reads and checks, then the copy kept (R9, R36). -/
def State.journalStage (s : State) (points : List Point) (screens : List Screen) : Except LoadStop Loaded := do
  s.loadReads s.pageReads
  loadChecks s.journalChecks
  return s.loadedCopy points screens

/-- The chip directory and what follows it (R8). -/
def State.chipStage (s : State) (points : List Point) (screens : List Screen) : Except LoadStop Loaded := do
  s.loadReads s.chipReads
  s.loadChips (s.directory 68) 0 none
  s.journalStage points screens

/-- The screens and what follows them (R7). -/
def State.screenStage (s : State) (points : List Point) : Except LoadStop Loaded := do
  s.loadReads s.screenReads
  let screens ← s.loadScreens points (s.directory 52) 0 []
  s.chipStage points screens

/-- The waves and what follows them (R7). -/
def State.waveStage (s : State) (points : List Point) : Except LoadStop Loaded := do
  s.loadReads s.waveTableReads
  loadChecks s.waveChecks
  s.screenStage points

/-- The course and what follows it (R6). -/
def State.courseStage (s : State) : Except LoadStop Loaded := do
  s.loadReads s.courseReads
  loadChecks s.settingChecks
  let points ← s.loadPoints (s.directory 36) (s.directory 36) 0 []
  s.waveStage points

theorem loadOutcome_eq (s : State) :
    s.loadOutcome = (s.loadReads s.directoryReads >>= fun _ => loadChecks s.directoryChecks >>= fun _ => s.courseStage) := rfl

/-- A stage whose reads the board refuses ends the load there. -/
theorem readsThen_refused {s : State} {reads : List (Region × Nat × Nat)} {r : Region} {f : Unit → Except LoadStop Loaded}
    (h : ¬ Readable s reads) (hr : ∀ x ∈ reads, x.1 = r) : (s.loadReads reads >>= f) = .error (.refused r) :=
  stage_stops (loadReads_refused h hr)

theorem readsThen_ok {s : State} {reads : List (Region × Nat × Nat)} {f : Unit → Except LoadStop Loaded}
    (h : Readable s reads) : (s.loadReads reads >>= f) = f () :=
  stage_ok (loadReads_ok h)

/-! ## What the passes so far leave -/

section
variable {s : State}

theorem loadOutcome_directory (h : DirectoryPasses s) : s.loadOutcome = s.courseStage := by
  obtain ⟨hr, hm, hs⟩ := h
  rw [loadOutcome_eq, readsThen_ok hr]
  exact stage_ok (directoryChecks_ok hm hs)

theorem courseStage_settings (hr : Readable s s.courseReads) (hs : SettingsRight s) :
    s.courseStage = (s.loadPoints (s.directory 36) (s.directory 36) 0 [] >>= s.waveStage) := by
  rw [State.courseStage, readsThen_ok hr]
  exact stage_ok (settingChecks_ok hs)

theorem loadOutcome_course (h : CoursePasses s) : s.loadOutcome = s.waveStage (tablePoints s (s.field 36 4)) := by
  obtain ⟨hd, hr, hs, hp⟩ := h
  rw [loadOutcome_directory hd, courseStage_settings hr hs]
  exact stage_ok (loadPoints_ok hp)

theorem loadOutcome_waves (h : WavesPass s) : s.loadOutcome = s.screenStage (tablePoints s (s.field 36 4)) := by
  obtain ⟨hc, hr, hw⟩ := h
  classical
  rw [loadOutcome_course hc, State.waveStage, readsThen_ok hr]
  exact stage_ok ((waveChecks_eq s).trans (if_pos hw))

theorem loadOutcome_screens (h : ScreensPass s) :
    s.loadOutcome = s.chipStage (tablePoints s (s.field 36 4)) (tableScreens s (s.field 52 4)) := by
  obtain ⟨hw, hr, hs⟩ := h
  rw [loadOutcome_waves hw, State.screenStage, readsThen_ok hr]
  exact stage_ok (loadScreens_ok hs)

theorem loadOutcome_chips (h : ChipsPass s) :
    s.loadOutcome = s.journalStage (tablePoints s (s.field 36 4)) (tableScreens s (s.field 52 4)) := by
  obtain ⟨hs, hr, hc⟩ := h
  rw [loadOutcome_screens hs, State.chipStage, readsThen_ok hr]
  exact stage_ok (loadChips_ok hc)

theorem loadOutcome_passes (h : LoadPasses s) : s.loadOutcome = .ok (tableLoaded s) := by
  obtain ⟨hc, hr, hj⟩ := h
  rw [loadOutcome_chips hc, State.journalStage, readsThen_ok hr]
  exact stage_ok (journalChecks_ok hj)

/-! ## Where each table stops the load -/

theorem loadOutcome_badPoint {p : Nat} {e : LoadError} (hd : DirectoryPasses s) (hr : Readable s s.courseReads)
    (hs : SettingsRight s) (hp : p < s.field 36 4) (hbefore : ∀ q, q < p → PointRight s q)
    (he : ∀ n, s.loadPoints (s.field 36 4) (n + 1) p (tablePoints s p) = .error (.failed e)) :
    s.loadOutcome = .error (.failed e) := by
  obtain ⟨n, hn⟩ : ∃ n, s.field 36 4 = p + (n + 1) := ⟨s.field 36 4 - p - 1, by omega⟩
  have hpoints : s.loadPoints (s.directory 36) (s.directory 36) 0 [] = .error (.failed e) :=
    (congrArg (fun k => s.loadPoints (s.field 36 4) k 0 []) hn).trans ((loadPoints_prefix (n + 1) hbefore).trans (he n))
  rw [loadOutcome_directory hd, courseStage_settings hr hs]
  exact stage_stops hpoints

theorem loadOutcome_badWave {w : Nat} (hc : CoursePasses s) (hr : Readable s s.waveTableReads) (hw : w < 16)
    (h : ¬ WaveRight s w) : s.loadOutcome = .error (.failed .badWave) := by
  classical
  rw [loadOutcome_course hc, State.waveStage, readsThen_ok hr]
  exact stage_stops ((waveChecks_eq s).trans (if_neg fun hall => h (hall w hw)))

theorem loadOutcome_badScreen {i : Nat} {e : LoadError} (hw : WavesPass s) (hr : Readable s s.screenReads)
    (hi : i < s.field 52 4) (hbefore : ∀ j, j < i → ScreenRight s j ∧ FacesRight s j)
    (he : ∀ n, s.loadScreens (tablePoints s (s.field 36 4)) (n + 1) i (tableScreens s i) = .error (.failed e)) :
    s.loadOutcome = .error (.failed e) := by
  obtain ⟨n, hn⟩ : ∃ n, s.field 52 4 = i + (n + 1) := ⟨s.field 52 4 - i - 1, by omega⟩
  have hscreens : s.loadScreens (tablePoints s (s.field 36 4)) (s.directory 52) 0 [] = .error (.failed e) :=
    (congrArg (fun k => s.loadScreens (tablePoints s (s.field 36 4)) k 0 []) hn).trans
      ((loadScreens_prefix (n + 1) hbefore).trans (he n))
  rw [loadOutcome_waves hw, State.screenStage, readsThen_ok hr]
  exact stage_stops hscreens

theorem loadOutcome_badChip {k : Nat} {e : LoadError} (hs : ScreensPass s) (hr : Readable s s.chipReads)
    (hk : k < s.field 68 4) (hbefore : ∀ j, j < k → ChipRight s j)
    (he : ∀ n, s.loadChips (n + 1) k (codeBefore s k) = .error (.failed e)) : s.loadOutcome = .error (.failed e) := by
  obtain ⟨n, hn⟩ : ∃ n, s.field 68 4 = k + (n + 1) := ⟨s.field 68 4 - k - 1, by omega⟩
  have hchips : s.loadChips (s.directory 68) 0 none = .error (.failed e) :=
    (congrArg (fun k => s.loadChips k 0 none) hn).trans ((loadChips_prefix (n + 1) hbefore).trans (he n))
  rw [loadOutcome_screens hs, State.chipStage, readsThen_ok hr]
  exact stage_stops hchips

theorem loadChips_unsorted {k : Nat} (h : 0 < k ∧ chipCode s k < chipCode s (k - 1)) (n : Nat) :
    s.loadChips (n + 1) k (codeBefore s k) = .error (.failed .unsortedChips) := by
  rw [loadChips_eq, if_neg fun hlow => absurd ((chipsLow_iff s k).1 hlow h.1) (by omega)]

theorem loadChips_dup {k : Nat} (h : 0 < k ∧ chipCode s k = chipCode s (k - 1)) (n : Nat) :
    s.loadChips (n + 1) k (codeBefore s k) = .error (.failed .dupChip) := by
  rw [loadChips_eq, if_pos ((chipsLow_iff s k).2 fun _ => h.2.ge), if_neg fun hsame => (chipsSame_iff s k).1 hsame h.1 h.2.symm]

theorem loadChips_badRunner {k : Nat} (h : 0 < k → chipCode s (k - 1) < chipCode s k) (hr : s.field 60 4 ≤ chipRunner s k)
    (n : Nat) : s.loadChips (n + 1) k (codeBefore s k) = .error (.failed .badRunnerRef) := by
  rw [loadChips_eq, if_pos ((chipsLow_iff s k).2 fun hk => (h hk).le), if_pos ((chipsSame_iff s k).2 fun hk => (h hk).ne),
    if_neg (by omega)]

end

/-! ## The commands of a load -/

theorem loadFailed_check {s : State} (he : s.engine = .loading) {e : LoadError} (h : s.loadOutcome = .error (.failed e)) :
    exec .loadFailed s = .next { s with engine := .idle, loadError := e, cause := s.cause ||| 0x080#9 } := by
  simp only [exec, execLoadFailed, he, if_true, h]
  rfl

theorem load_refused {s : State} (he : s.engine = .loading) {r : Region} (h : s.loadOutcome = .error (.refused r)) :
    exec .loadFailed s = .next (s.halt r) ∧ exec .loadPassed s = .next (s.halt r) := by
  simp only [exec, execLoadFailed, execLoadPassed, he, if_true, h, and_self]

/-- Settles O14: stage by stage, each on what the ones before it left. -/
theorem loadChecksEndTheLoad : Obligations.LoadChecksEndTheLoad := by
  refine ⟨fun s he => ⟨fun e => loadFailed_check he, fun r => load_refused he⟩, fun s => ?_⟩
  obtain ⟨rdirectory, rcourse, rwave, rscreen, rchip, rpage⟩ := loadReads_regions s
  refine ⟨fun h => readsThen_refused h rdirectory, fun hr hm => ?_, fun hr hm hs => ?_,
    fun hd => ⟨fun h => ?_, fun hr => ⟨fun hs => ?_, fun hs p hp hbefore =>
      ⟨fun h => ?_, fun hc h => ?_, fun hc ho h => ?_⟩⟩⟩,
    fun hc => ⟨fun h => ?_, fun hr w hw h => ?_⟩,
    fun hw => ⟨fun h => ?_, fun hr i hi hbefore => ⟨fun h => ?_, fun hi' h => ?_⟩⟩,
    fun hs => ⟨fun h => ?_, fun hr k hk hbefore => ⟨fun h => ?_, fun h => ?_, fun h hrun => ?_⟩⟩,
    fun hc => ⟨fun h => ?_, fun hr h => ?_⟩, loadOutcome_passes⟩
  -- the directory (R5)
  · exact (readsThen_ok hr).trans (stage_stops (directoryChecks_badMagic hm))
  · exact (readsThen_ok hr).trans (stage_stops (directoryChecks_badSize hm hs))
  -- the course (R6)
  · exact (loadOutcome_directory hd).trans (readsThen_refused h rcourse)
  · exact (loadOutcome_directory hd).trans ((readsThen_ok hr).trans (stage_stops (settingChecks_fail hs)))
  · exact loadOutcome_badPoint hd hr hs hp hbefore fun n => loadPoints_codes h
  · exact loadOutcome_badPoint hd hr hs hp hbefore fun n => loadPoints_order hc h
  · exact loadOutcome_badPoint hd hr hs hp hbefore fun n => loadPoints_mats hc ho h
  -- the waves and the screens (R7)
  · exact (loadOutcome_course hc).trans (readsThen_refused h rwave)
  · exact loadOutcome_badWave hc hr hw h
  · exact (loadOutcome_waves hw).trans (readsThen_refused h rscreen)
  · exact loadOutcome_badScreen hw hr hi hbefore fun n => loadScreens_screen (fun j hj => (hbefore j hj).1) h
  · refine loadOutcome_badScreen hw hr hi hbefore fun n => loadScreens_face (fun j hj => ?_) h
    rcases Nat.lt_or_eq_of_le hj with hj | rfl
    · exact (hbefore j hj).1
    · exact hi'
  -- the chip directory and the journal (R8, R9)
  · exact (loadOutcome_screens hs).trans (readsThen_refused h rchip)
  · exact loadOutcome_badChip hs hr hk hbefore (loadChips_unsorted h)
  · exact loadOutcome_badChip hs hr hk hbefore (loadChips_dup h)
  · exact loadOutcome_badChip hs hr hk hbefore (loadChips_badRunner h hrun)
  · exact (loadOutcome_chips hc).trans (readsThen_refused h rpage)
  · exact (loadOutcome_chips hc).trans ((readsThen_ok hr).trans (stage_stops (journalChecks_fail h)))

end Sys2Proof.Machine

/-! The entry into PREP: the scan of the work table, the blocks as they begin, the full refresh, the page (R9). -/

namespace Sys2Proof.Machine

/-! ## The scan of a slot -/

theorem scanSlot_quiet {u : State} (he : u.engine ≠ .halted) (ha : Accepting u) (L : Loaded) (i : Nat) :
    scanSlot L u i = u.withMem (Memory.writeAll u.mem (u.scanWrites L i)) := by
  rw [scanSlot, State.andThen_running _ he, State.access_quiet ha, State.andThen_running _ he,
    State.storeAll_ok ha.1 ha.2 he]

theorem scanTable_quiet {s : State} {L : Loaded} (he : s.engine ≠ .halted) (ha : Accepting s) (h : s.loadOutcome = .ok L) :
    scanTable L s = s.withMem (Memory.writeAll s.mem (s.allScanWrites L)) := by
  rw [scanTable_eq ha.1 (slotCount_le h), State.storeAll_ok ha.1 ha.2 he]

/-! ## Frames placed in an outbox with none of their keys -/

theorem placeIn_fresh {f : OutFrame} {box : List OutFrame} (h : ∀ g ∈ box, g.key ≠ f.key) (hf : f.replaced = false)
    (fly : Bool) : placeIn f fly box = box ++ [f] := by
  have hany : ¬ (box.any fun g => g.key = f.key) = true := by simpa using h
  rw [placeIn, if_neg hany, ← hf]

/-- Frames of keys of their own, none of which waits, stand behind what an ONLINE panel's outbox holds (R166). -/
theorem placeFrames_fresh {i : Nat} {fs : List OutFrame} {s : State} {p : Panel} (hp : s.panels[i]? = some p)
    (hon : p.online = true) (hk : (p.outbox ++ fs).Pairwise fun f g => f.key ≠ g.key) (hr : ∀ f ∈ fs, f.replaced = false) :
    (placeFrames i fs s).panels[i]? = some { p with outbox := p.outbox ++ fs } := by
  induction fs generalizing s p with
  | nil => simp [placeFrames, hp]
  | cons f fs ih =>
    have hlt : i < s.panels.length := (List.getElem?_eq_some_iff.1 hp).1
    have hfresh : ∀ g ∈ p.outbox, g.key ≠ f.key := fun g hg => (List.pairwise_append.1 hk).2.2 g hg f (by simp)
    have hplace : placeFrame i f s = s.withPanel i { p with outbox := p.outbox ++ [f] } := by
      rw [placeFrame, hp]
      dsimp only
      rw [if_pos hon, placeIn_fresh hfresh (hr f (by simp))]
    rw [placeFrames, hplace, ih (p := { p with outbox := p.outbox ++ [f] }) (by simp [State.withPanel, hlt]) hon
      (by simpa using hk) fun g hg => hr g (by simp [hg])]
    simp

/-- The frames of a full refresh stand under keys of their own (R166). -/
theorem refreshFrames_keys (rows : Nat) (x : ScreenState) :
    (refreshFrames rows x).Pairwise fun f g => f.key ≠ g.key := by
  have hrow : ∀ k o, (rowNow k o).key = .row k := fun k o => by cases o <;> rfl
  refine List.pairwise_append.2 ⟨?_, by simp [brightnessFrame, bannerFrame], fun f hf g hg => ?_⟩
  · refine List.pairwise_map.2 (List.nodup_range.imp fun hab => ?_)
    rw [hrow, hrow]
    simpa using hab
  · obtain ⟨k, -, rfl⟩ := List.mem_map.1 hf
    rw [hrow]
    simp only [List.mem_cons, List.not_mem_nil, or_false] at hg
    rcases hg with rfl | rfl
    · exact fun h => nomatch h
    · exact fun h => nomatch h

/-- The full refresh of a screen as it begins in PREP: its rows cleared, ACTIVE, no banner. -/
theorem refreshFrames_initial (now : Nat) (c : Screen) :
    refreshFrames c.rows (Screen.initial now c) =
      (List.range c.rows).map (fun k => clearRowFrame (k + 1)) ++ [brightnessFrame .active, bannerFrame none] := rfl

/-! ## The full refresh of every panel -/

theorem refresh_panels (i : Nat) (s : State) : refresh i s = { s with panels := (refresh i s).panels } := by
  unfold refresh
  split
  · exact placeFrames_panels i _ s
  · rfl

theorem refreshAll_panels (s : State) : refreshAll s = { s with panels := (refreshAll s).panels } := by
  unfold refreshAll
  generalize s.screens.length = n
  induction n with
  | zero => rfl
  | succ n ih =>
    simp only [eachScreen]
    generalize eachScreen refresh n s = u at *
    exact (refresh_panels n u).trans (congrArg (fun v : State => { v with panels := (refresh n u).panels }) ih)

/-- Every panel is ONLINE with a full refresh queued as the blocks begin (R151, R164). -/
theorem refreshAll_begin {L : Loaded} {resume : Bool} {s : State} :
    (refreshAll (beginBlocks L resume s)).panels.length = L.screens.length ∧
    ∀ (i : Nat) (c : Screen), L.screens[i]? = some c → (refreshAll (beginBlocks L resume s)).panels[i]? = some
      (⟨c.line, c.address, true,
        (List.range c.rows).map (fun k => clearRowFrame (k + 1)) ++ [brightnessFrame .active, bannerFrame none],
        0, 0, none, none⟩ : Panel) := by
  obtain ⟨-, -, hlength, heach⟩ := eachScreen_local ScreenLocal.refresh (beginBlocks L resume s).screens.length
    (beginBlocks L resume s)
  refine ⟨hlength.trans (List.length_map ..), fun i c hc => ?_⟩
  have hi : i < (beginBlocks L resume s).screens.length := by
    rw [beginBlocks, List.length_map]
    exact (List.getElem?_eq_some_iff.1 hc).1
  have hconfig : (beginBlocks L resume s).config.screens[i]? = some c := hc
  have hscreen : (beginBlocks L resume s).screens[i]? = some (Screen.initial s.localTime c) := by
    rw [beginBlocks, List.getElem?_map, hc]
    rfl
  have hpanel : (beginBlocks L resume s).panels[i]? = some c.panel := by
    rw [beginBlocks, List.getElem?_map, hc]
    rfl
  refine ((heach i).1 hi).2.trans ?_
  rw [refresh, hconfig, hscreen]
  dsimp only
  rw [placeFrames_fresh (fs := refreshFrames c.rows (Screen.initial s.localTime c)) hpanel rfl
    (by exact refreshFrames_keys c.rows _) (fun f hf => ?_), refreshFrames_initial]
  · rfl
  · rw [refreshFrames_initial] at hf
    simp only [List.mem_append, List.mem_map, List.mem_cons, List.not_mem_nil, or_false] at hf
    rcases hf with ⟨k, -, rfl⟩ | rfl | rfl <;> rfl

/-! ## The entry into PREP -/

theorem enterPrep_quiet {u : State} (ha : Accepting u) (he : u.engine ≠ .halted) (L : Loaded) :
    let resume := decide (u.field 8 4 ≠ 0)
    let v := beginBlocks L resume u
    let free := decide (u.field (L.pages.getD 0 0) 4 = 0)
    let polling : MatLine → MatLine := fun x =>
      if resume then x else { x with round := 0, nextAddress := 1, roundBegan := u.localTime }
    enterPrep L u = { v with
      panels   := (refreshAll v).panels
      matLines := #v[polling u.matLines[0], polling u.matLines[1]]
      cause    := u.cause ||| 0x080#9 ||| (if free then 0 else 0x008#9)
      mem      := if free then Memory.writeAll u.mem [(.page, u.addr (L.pages.getD 0 0), leBytes 4 1),
                    (.page, u.addr (L.pages.getD 0 0 + 8), leBytes 4 0)] else u.mem
      journal  := { Journal.reset with current := if free then some 0 else none } } := by
  dsimp only
  unfold enterPrep
  rw [State.access_quiet ha, State.andThen_running _ he]
  dsimp only
  have hresume : u.directory 8 = u.field 8 4 := rfl
  rw [hresume]
  generalize decide (u.field 8 4 ≠ 0) = resume
  rw [refreshAll_panels]
  generalize (refreshAll (beginBlocks L resume u)).panels = panels
  have hpolling : (if resume = true then ({ beginBlocks L resume u with panels := panels } : State)
      else beginPolling { beginBlocks L resume u with panels := panels }) = { beginBlocks L resume u with
        panels   := panels
        matLines := #v[if resume then u.matLines[0]
            else { u.matLines[0] with round := 0, nextAddress := 1, roundBegan := u.localTime },
          if resume then u.matLines[1]
            else { u.matLines[1] with round := 0, nextAddress := 1, roundBegan := u.localTime }] } := by
    cases resume with
    | false => rfl
    | true => simp [pair_eq, beginBlocks]
  rw [hpolling, tryNextPage_quiet (by exact ha) (by exact fun h => nomatch h)]
  by_cases hfree : u.field (L.pages.getD 0 0) 4 = 0
  · rw [if_pos (by exact hfree)]
    have hcause : u.cause ||| 0x080#9 ||| 0 = u.cause ||| 0x080#9 := BitVec.or_zero
    simp only [hfree, decide_true, if_true, hcause]
    rfl
  · rw [if_neg (by exact hfree), if_pos rfl]
    simp only [hfree, decide_false, Bool.false_eq_true, if_false]
    rfl

/-- Settles O15: the scan leaves memory alone changed, and the entry is made from there. -/
theorem loadPassedEntersPrep : Obligations.LoadPassedEntersPrep := by
  intro s L he ha hl
  have hrun : s.engine ≠ .halted := by rw [he]; exact fun h => nomatch h
  obtain ⟨m, hscan⟩ : ∃ m, scanTable L s = s.withMem m := ⟨_, scanTable_quiet hrun ha hl⟩
  have henter := enterPrep_quiet (u := s.withMem m) ha hrun L
  have hpassed : exec .loadPassed s = .next (enterPrep L (s.withMem m)) := by
    simp only [exec, execLoadPassed, he, if_true, hl, hscan]
    exact congrArg _ (State.andThen_running (s := s.withMem m) _ hrun)
  refine ⟨fun u i hu hua => ?_, enterPrep L (s.withMem m), hpassed, ?_, fun c => ?_, ?_, ?_⟩
  · rw [scanSlot_quiet (by rw [hu]; exact fun h => nomatch h) hua, State.scanWrites]
    by_cases htaken : u.field (L.workOffset + 64 * i) 4 = 2
    · rw [if_pos htaken, if_pos (by exact htaken)]
      rfl
    · rw [if_neg htaken, if_neg (by exact htaken)]
      rfl
  · rw [← scanTable, hscan, henter]
    rfl
  · cases hc : c.face1 <;> simp [Screen.initial, hc]
  · rw [henter]
    exact refreshAll_begin.1
  · rw [henter]
    exact refreshAll_begin.2

end Sys2Proof.Machine

/-! The work sweep: its beginning and end, what a visit reads and does, and the end of an item (R21 to R33). -/

namespace Sys2Proof.Machine

/-! ## Beginning and ending a sweep (R23, R24, R31) -/

/-- Outside PREP, RACE and CLOSED the blocks do not work (R1). -/
theorem State.working_false_iff (s : State) :
    s.working = false ↔ s.engine = .idle ∨ s.engine = .loading ∨ s.engine = .halted := by
  unfold State.working
  cases s.engine <;> decide

theorem State.working_iff (s : State) : s.working = true ↔ s.engine = .prep ∨ s.engine = .race ∨ s.engine = .closed := by
  unfold State.working
  cases s.engine <;> decide

theorem sweepWrite_begins {s : State} (hw : s.working = true) (hat : s.sweep.at? = none) (v : Word) :
    exec (.sweepWrite v) s = .next (beginSweep s) := by
  simp only [exec, execSweepWrite, hw, if_true, hat]

theorem sweepWrite_remembers {s : State} (hw : s.working = true) {i : Nat} (hat : s.sweep.at? = some i) (v : Word) :
    exec (.sweepWrite v) s = .next (s.withSweep { s.sweep with requested := true }) := by
  simp only [exec, execSweepWrite, hw, if_true, hat]

theorem sweepWrite_ignored {s : State} (hw : s.working = false) (v : Word) : exec (.sweepWrite v) s = .next s := by
  simp only [exec, execSweepWrite, hw, Bool.false_eq_true, if_false]

/-- Settles O25: the three cases of a write, the resets by evaluation, the entry into PREP by O15. -/
theorem sweepWriteRequestsASweep : Obligations.SweepWriteRequestsASweep := by
  refine fun v s => ⟨fun he => ?_, fun he => sweepWrite_ignored ((State.working_false_iff s).2 he) v,
    fun cuts => ⟨_, rfl, rfl⟩, ⟨_, rfl, rfl⟩, fun L he ha hl => ?_⟩
  · have hw := (State.working_iff s).2 he
    exact ⟨fun hat => sweepWrite_begins hw hat v, fun i hat => sweepWrite_remembers hw hat v⟩
  · obtain ⟨-, t, ht, hform, -⟩ := loadPassedEntersPrep s L he ha hl
    exact ⟨t, ht, by rw [hform], by rw [hform]⟩

/-- The interval has passed and no sweep runs: one begins (R23). -/
theorem sweepTimer_begins {s : State} (hw : s.working = true) {t : Nat} (hat : s.sweep.at? = none)
    (ht : s.sweep.timer = some t) (hdue : t + s.config.sweepInterval ≤ s.localTime) :
    exec .sweepTimer s = .next (beginSweep s) := by
  have hready : sweepTimerReady s = true := by simp [sweepTimerReady, hw, hat, ht, State.elapsed, hdue]
  simp only [exec, execSweepTimer, hready, if_true]

/-- The end of a sweep where no access is refused (R31, R181). -/
theorem endSweep_quiet {s : State} (ha : Accepting s) (he : s.engine ≠ .halted) :
    endSweep s = (afterReread s).withSweep (s.sweep.ended s.localTime) := by
  have hkept : (afterReread s).sweep = s.sweep ∧ (afterReread s).localTime = s.localTime := by
    unfold afterReread
    dsimp only
    split <;> exact ⟨rfl, rfl⟩
  obtain ⟨hsweep, htime⟩ := hkept
  rw [endSweep, sweepEnded, reread_quiet ha he, State.andThen_running _ (by rwa [afterReread_engine]), hsweep, htime]

/-- Settles O26: the timer, and the end of a sweep by its remembered request. -/
theorem sweepsBeginAndEnd : Obligations.SweepsBeginAndEnd := by
  refine fun s hw => ⟨fun t hat ht hdue => sweepTimer_begins hw hat ht hdue, fun ha => ⟨fun hr => ?_, fun hr => ?_⟩⟩
  · rw [endSweep_quiet ha (State.working_running hw), Sweep.ended, if_pos hr]
    rfl
  · rw [endSweep_quiet ha (State.working_running hw), Sweep.ended, if_neg (by rw [hr]; exact Bool.false_ne_true)]
    rfl

/-! ## The end of an item (R32, R33) -/

theorem itemEnd_waits {s : State} (h : itemEndReady s = false) : exec .itemEnd s = .next s := by
  simp only [exec, execItemEnd, h, Bool.false_eq_true, if_false]

theorem itemEnd_writes {s : State} (hw : s.working = true) {e : EndReport} {rest : List EndReport}
    (he : s.sweep.ends = e :: rest) (hi : e.slot ∈ s.sweep.inFlight) : exec .itemEnd s = .next (writeEnd e s) := by
  have hready : itemEndReady s = true := by simp [itemEndReady, hw, he, hi]
  simp only [exec, execItemEnd, hready, if_true, he]

/-- The writes of an end where no access is refused, and what follows them. -/
theorem writeEnd_quiet {s : State} (ha : Accepting s) (hrun : s.engine ≠ .halted) (e : EndReport) :
    writeEnd e s = endFollows e (s.withMem (Memory.writeAll s.mem (s.endWrites e))) := by
  rw [writeEnd_eq, State.storeAll_ok ha.1 ha.2 hrun]
  exact State.andThen_running (s := s.withMem _) _ hrun

theorem OutcomeCode.finalState_bytes (c : OutcomeCode) :
    leBytes 4 c.finalState = if c = .ok then [3, 0, 0, 0] else [4, 0, 0, 0] := by
  cases c <;> decide

theorem Sweep.waitsFor_iff (i : Nat) (w : Sweep) : w.waitsFor i = true ↔ w.waits = true ∧ w.at? = some i := by
  simp [Sweep.waitsFor]

/-- What follows the writes of an end, the notify flag and the waiting sweep told apart (R32, R33, R26). -/
theorem endFollows_eq (e : EndReport) (s : State) :
    endFollows e s =
      let u : State := { s with
        sweep := s.sweep.closed e
        cause := if e.notify then withCause s.cause .workDone else s.cause }
      if s.sweep.waits = true ∧ s.sweep.at? = some e.slot then advanceSweep e.slot u else u := by
  have hwaits : (s.sweep.closed e).waitsFor e.slot = true ↔ s.sweep.waits = true ∧ s.sweep.at? = some e.slot :=
    Sweep.waitsFor_iff e.slot (s.sweep.closed e)
  unfold endFollows
  cases e.notify <;> exact if_congr hwaits rfl rfl

/-- Settles O28: the ends that wait, then the writes and what follows them. -/
theorem itemEndIsWritten : Obligations.ItemEndIsWritten := by
  refine ⟨fun s hw => itemEnd_waits (by simp [itemEndReady, hw]),
    fun e rest s he hi => itemEnd_waits (by simp [itemEndReady, he, hi]), fun e rest s hw ha he hi => ?_⟩
  rw [itemEnd_writes hw he hi, writeEnd_quiet ha (State.working_running hw), endFollows_eq, State.endWrites,
    OutcomeCode.finalState_bytes, Sweep.closed]
  simp only [State.withMem_sweep, State.withMem_cause, he, List.tail_cons]
  rfl

/-! ## The fields of a slot's body -/

theorem nextAddr_addr (s : State) (o : Nat) : nextAddr (s.addr o) = s.addr (o + 1) := by
  unfold nextAddr State.addr Config.addressSpace
  omega

theorem State.fieldBytes_succ (s : State) (o n : Nat) :
    s.fieldBytes o (n + 1) = Memory.read s.mem (s.addr o) :: s.fieldBytes (o + 1) n := by
  rw [State.fieldBytes, Memory.readBytes, nextAddr_addr, State.fieldBytes]

theorem State.fieldBytes_take (s : State) (o n m : Nat) : (s.fieldBytes o (n + m)).take n = s.fieldBytes o n := by
  induction n generalizing o with
  | zero => rfl
  | succ n ih => rw [Nat.succ_add, State.fieldBytes_succ, List.take_succ_cons, ih, State.fieldBytes_succ]

theorem State.fieldBytes_drop (s : State) (o k n : Nat) : (s.fieldBytes o (k + n)).drop k = s.fieldBytes (o + k) n := by
  induction k generalizing o with
  | zero => rw [Nat.zero_add, List.drop_zero, Nat.add_zero]
  | succ k ih => rw [Nat.succ_add, State.fieldBytes_succ, List.drop_succ_cons, ih, Nat.add_right_comm, Nat.add_assoc]

/-- A field of the item as the sweep read it is the field of its slot's body (spec 12.4). -/
theorem State.slotItem_field {o n : Nat} (h : o + n ≤ 40) (s : State) (i : Nat) (k : WorkKind) :
    (s.slotItem i k).field o n = s.field (workOffset s.config i 8 + o) n := by
  obtain ⟨m, hm⟩ : ∃ m, 40 = o + (n + m) := ⟨40 - o - n, by omega⟩
  rw [State.slotItem, WorkItem.field]
  dsimp only
  rw [hm, State.fieldBytes_drop, State.fieldBytes_take]
  rfl

/-! ## What a visit reads of a slot (R26, R185) -/

theorem State.slotReads_eq (s : State) (i : Nat) :
    s.slotReads i = ((4, 2) :: (6, 1) :: (s.slotBodyFields i).map fun x => (8 + x.1, x.2)).map
      fun x => (.work, s.addr (workOffset s.config i x.1), x.2) := by
  simp [State.slotReads]

/-- Kind, notify flag, and the fields of the body, each in one access at its offset within the slot. -/
theorem State.slotReads_body {s : State} {i : Nat} {fields : List (Nat × Nat)} (h : s.slotBodyFields i = fields) :
    s.slotReads i = ((4, 2) :: (6, 1) :: fields.map fun x => (8 + x.1, x.2)).map
      fun x => (.work, s.addr (s.config.workOffset + 64 * i + x.1), x.2) := by
  rw [State.slotReads_eq, h]
  rfl

theorem State.slotReads_region (s : State) (i : Nat) : ∀ x ∈ s.slotReads i, x.1 = .work := by
  rw [State.slotReads_eq]
  intro x hx
  obtain ⟨y, -, rfl⟩ := List.mem_map.1 hx
  rfl

theorem State.slotBodyFields_known {s : State} {i c : Nat} {k : WorkKind} (hc : s.field (workOffset s.config i 4) 2 = c)
    (hk : WorkKind.ofCode c = some k) : s.slotBodyFields i = k.bodyFields (s.slotItem i k).marked := by
  rw [State.slotBodyFields, hc, hk]

/-- The fields read of a kind that has no mark are its fields in every slot. -/
theorem State.slotBodyFields_unmarked {s : State} {i c : Nat} {k : WorkKind} {fields : List (Nat × Nat)}
    (hc : s.field (workOffset s.config i 4) 2 = c) (hk : WorkKind.ofCode c = some k)
    (hf : ∀ marked, k.bodyFields marked = fields) : s.slotBodyFields i = fields := by
  rw [State.slotBodyFields_known hc hk, hf]

theorem WorkKind.ofCode_none {c : Nat} (h : c = 0 ∨ 8 < c) : WorkKind.ofCode c = none := by
  rcases h with rfl | h
  · rfl
  · obtain ⟨n, rfl⟩ : ∃ n, c = n + 9 := ⟨c - 9, by omega⟩
    rfl

theorem State.slotBodyFields_unknown {s : State} {i : Nat}
    (h : s.field (workOffset s.config i 4) 2 = 0 ∨ 8 < s.field (workOffset s.config i 4) 2) :
    s.slotBodyFields i = [(0, 40)] := by
  rw [State.slotBodyFields, WorkKind.ofCode_none h]

/-- The fields read of a START_WAVE: its time only beside a "now" mark that is clear (R185). -/
theorem State.slotBodyFields_startWave {s : State} {i : Nat} (h : s.field (workOffset s.config i 4) 2 = 2) :
    s.slotBodyFields i =
      if s.field (workOffset s.config i 9) 1 = 0 then [(0, 1), (1, 1), (4, 4)] else [(0, 1), (1, 1)] := by
  have hmark : (s.slotItem i .startWave).marked = (s.field (workOffset s.config i 9) 1 != 0) :=
    congrArg (· != 0) (State.slotItem_field (o := 1) (n := 1) (by decide) s i .startWave)
  rw [State.slotBodyFields_known h rfl, hmark]
  by_cases hnow : s.field (workOffset s.config i 9) 1 = 0 <;> simp [hnow, WorkKind.bodyFields]

/-- The fields read of a CORRECT_SPLIT: its time only beside a VOID mark that is clear (R185). -/
theorem State.slotBodyFields_correctSplit {s : State} {i : Nat} (h : s.field (workOffset s.config i 4) 2 = 6) :
    s.slotBodyFields i =
      if s.field (workOffset s.config i 13) 1 = 0 then [(0, 4), (4, 1), (5, 1), (8, 4)] else [(0, 4), (4, 1), (5, 1)] := by
  have hmark : (s.slotItem i .correctSplit).marked = (s.field (workOffset s.config i 13) 1 != 0) :=
    congrArg (· != 0) (State.slotItem_field (o := 5) (n := 1) (by decide) s i .correctSplit)
  rw [State.slotBodyFields_known h rfl, hmark]
  by_cases hvoid : s.field (workOffset s.config i 13) 1 = 0 <;> simp [hvoid, WorkKind.bodyFields]

/-! ## What a visit does (R26 to R30) -/

theorem slotVisit_visits {s : State} (hw : s.working = true) {i : Nat} (hi : s.sweep.at? = some i)
    (hwaits : s.sweep.waits = false) : exec .slotVisit s = .next (visitSlot i s) := by
  have hready : slotVisitReady s = true := by simp [slotVisitReady, hw, hi, hwaits]
  simp only [exec, execSlotVisit, hready, if_true, hi]

theorem slotVisit_waits {s : State} (hwaits : s.sweep.waits = true) : exec .slotVisit s = .next s := by
  have hready : slotVisitReady s = false := by simp [slotVisitReady, hwaits]
  simp only [exec, execSlotVisit, hready, Bool.false_eq_true, if_false]

section

variable {s : State} {i : Nat} (hrun : s.engine ≠ .halted)

include hrun

/-- A slot that is not POSTED, or whose item is in flight, is passed over (R22, R26). -/
theorem visitSlot_passesOver (ha : Accepting s) (h : s.slotState i ≠ 1 ∨ i ∈ s.sweep.inFlight) :
    visitSlot i s = advanceSweep i s := by
  rw [visitSlot, State.access_quiet ha, State.andThen_running _ hrun, if_pos (by simpa using h)]

theorem visitSlot_posted (hread : s.refuses (s.addr (workOffset s.config i 0)) 4 = false) (hp : s.slotState i = 1)
    (hi : i ∉ s.sweep.inFlight) : visitSlot i s = takePosted i s := by
  rw [visitSlot, State.access_ok hread, State.andThen_running _ hrun, if_neg (by simp [hp, hi])]

/-- One of the reads of a POSTED slot is refused (R35). -/
theorem takePosted_refused (h : ¬ Readable s (s.slotReads i)) : takePosted i s = s.halt .work := by
  have hsome : ∃ x ∈ s.slotReads i, s.refuses x.2.1 x.2.2 = true := by simpa [Readable] using h
  have hhalt := State.accessAll_region (s.slotReads_region i) hsome hrun []
  rw [List.append_nil] at hhalt
  rw [takePosted, hhalt, State.halt_andThen]

variable (ha : Accepting s)

include ha

theorem takePosted_unknown (hk : WorkKind.ofCode (s.field (workOffset s.config i 4) 2) = none) :
    takePosted i s = failSlot i .badKind (s.field (workOffset s.config i 6) 1 != 0) s := by
  rw [takePosted, State.accessAll_ok ha.1, State.andThen_running _ hrun, hk]

theorem takePosted_known {k : WorkKind} (hk : WorkKind.ofCode (s.field (workOffset s.config i 4) 2) = some k) :
    takePosted i s = if k.accepted s.engine (s.field (workOffset s.config i 9) 1 != 0) then dispatch (s.slotItem i k) s
      else failSlot i .badState (s.field (workOffset s.config i 6) 1 != 0) s := by
  rw [takePosted, State.accessAll_ok ha.1, State.andThen_running _ hrun, hk]
  dsimp only
  rw [State.slotItem_field (by decide)]
  rfl

/-- A slot is written TAKEN, and the step goes on (R22, R29, R30). -/
theorem takeSlot_then (f : State → State) :
    (takeSlot i s).andThen f = f { s with
      mem   := Memory.writeBytes s.mem (s.addr (workOffset s.config i 0)) [2, 0, 0, 0]
      sweep := { s.sweep with inFlight := s.sweep.inFlight ++ [i] } } := by
  rw [takeSlot, State.store_then ha hrun]
  exact State.andThen_running (s := State.withSweep _ (s.withMem _)) f hrun

theorem failSlot_quiet (code : OutcomeCode) (notify : Bool) :
    failSlot i code notify s = { s with
      mem   := Memory.writeBytes s.mem (s.addr (workOffset s.config i 0)) [2, 0, 0, 0]
      sweep := { s.sweep with
        inFlight := s.sweep.inFlight ++ [i], waits := true, ends := s.sweep.ends ++ [⟨i, code, 0, 0, notify⟩] } } := by
  rw [failSlot, takeSlot_then hrun ha]
  rfl

/-- A BANNER is taken and goes to the scheduler (R30). -/
theorem dispatch_banner {w : WorkItem} (hk : w.kind = .banner) :
    dispatch w s = advanceSweep w.slot { s with
      mem         := Memory.writeBytes s.mem (s.addr (workOffset s.config w.slot 0)) [2, 0, 0, 0]
      sweep       := { s.sweep with inFlight := s.sweep.inFlight ++ [w.slot] }
      bannerItems := s.bannerItems ++ [w] } := by
  rw [dispatch, hk]
  dsimp only
  rw [takeSlot_then hrun ha]
  exact State.andThen_running _ hrun

/-- A FLUSH_JOURNAL is taken and goes to the journal writer (R30). -/
theorem dispatch_flushJournal {w : WorkItem} (hk : w.kind = .flushJournal) :
    dispatch w s = advanceSweep w.slot { s with
      mem     := Memory.writeBytes s.mem (s.addr (workOffset s.config w.slot 0)) [2, 0, 0, 0]
      sweep   := { s.sweep with inFlight := s.sweep.inFlight ++ [w.slot] }
      journal := { s.journal with flushes := s.journal.flushes ++ [w] } } := by
  rw [dispatch, hk]
  dsimp only
  rw [takeSlot_then hrun ha]
  exact State.andThen_running _ hrun

omit hrun ha in
theorem dispatch_offers {w : WorkItem} (hb : w.kind ≠ .banner) (hf : w.kind ≠ .flushJournal) :
    dispatch w s = offerItem w s := by
  rw [dispatch]
  cases hk : w.kind with
  | banner => exact absurd hk hb
  | flushJournal => exact absurd hk hf
  | remoteCrossing => rfl
  | startWave => rfl
  | runnerStatus => rfl
  | setWatch => rfl
  | setName => rfl
  | correctSplit => rfl

/-- An item of an intake kind joins the intake queue, then its slot is written TAKEN (R29). -/
theorem offerItem_room {w : WorkItem} (h : s.intake.length < 256) :
    offerItem w s = advanceSweep w.slot { s with
      mem       := Memory.writeBytes s.mem (s.addr (workOffset s.config w.slot 0)) [2, 0, 0, 0]
      sweep     := { s.sweep with inFlight := s.sweep.inFlight ++ [w.slot] }
      intake    := s.intake ++ [.work w]
      itemClock := joinedClock s } := by
  have hclock : (s.pushIntake (.work w)).itemClock = joinedClock s := by simp [joinedClock]
  rw [offerItem, if_pos h, takeSlot_then (s := s.pushIntake (.work w)) hrun ha, hclock]
  rfl

omit hrun ha in
theorem offerItem_full {w : WorkItem} (h : 256 ≤ s.intake.length) : offerItem w s = endSweep s :=
  if_neg (Nat.not_lt.2 h)

end

/-- A POSTED slot of which a read is refused halts the engine, with nothing written (R26, R35). -/
theorem slotVisit_read_refused {s : State} (hw : s.working = true) {i : Nat} (hat : s.sweep.at? = some i)
    (hwaits : s.sweep.waits = false) (hstate : s.refuses (s.addr (workOffset s.config i 0)) 4 = false)
    (hp : s.slotState i = 1) (hi : i ∉ s.sweep.inFlight) (h : ¬ Readable s (s.slotReads i)) :
    exec .slotVisit s = .next (s.halt .work) := by
  have hrun := State.working_running hw
  rw [slotVisit_visits hw hat hwaits, visitSlot_posted hrun hstate hp hi, takePosted_refused hrun h]

/-! ## The kinds each engine state accepts (R28) -/

theorem WorkKind.accepted_everywhere {k : WorkKind}
    (h : k = .runnerStatus ∨ k = .setWatch ∨ k = .setName ∨ k = .banner ∨ k = .flushJournal) (now : Bool) :
    k.accepted .prep now = true ∧ k.accepted .race now = true ∧ k.accepted .closed now = true := by
  rcases h with rfl | rfl | rfl | rfl | rfl <;> exact ⟨rfl, rfl, rfl⟩

theorem WorkKind.accepted_from_race {k : WorkKind} (h : k = .remoteCrossing ∨ k = .correctSplit) (now : Bool) :
    k.accepted .prep now = false ∧ k.accepted .race now = true ∧ k.accepted .closed now = true := by
  rcases h with rfl | rfl <;> exact ⟨rfl, rfl, rfl⟩

theorem WorkKind.accepted_startWave (now : Bool) :
    WorkKind.startWave.accepted .prep now = !now ∧ WorkKind.startWave.accepted .race now = true
      ∧ WorkKind.startWave.accepted .closed now = false := by
  cases now <;> exact ⟨rfl, rfl, rfl⟩

/-! ## The statement -/

/-- Settles O27: the outcomes of a visit, the reads by kind, and the kinds accepted. -/
theorem slotVisitsTakeAcceptedItems : Obligations.SlotVisitsTakeAcceptedItems := by
  refine ⟨fun i s hw ha hat => ⟨slotVisit_waits, fun hwaits => ?_⟩, fun i s => ?_,
    fun now => ⟨fun k hk => WorkKind.accepted_from_race hk now, WorkKind.accepted_startWave now,
      fun k hk => WorkKind.accepted_everywhere hk now⟩⟩
  · have hrun := State.working_running hw
    rw [slotVisit_visits hw hat hwaits]
    refine ⟨fun h => congrArg _ (visitSlot_passesOver hrun ha h), fun hp hi => ?_⟩
    rw [visitSlot_posted hrun (State.refuses_of_nil ha.1 _ _) hp hi]
    refine ⟨fun hk => ?_, fun k hk => ?_⟩
    · rw [takePosted_unknown hrun ha hk, failSlot_quiet hrun ha]
      rfl
    rw [takePosted_known hrun ha hk]
    refine ⟨fun hno => ?_, fun hyes => ?_⟩
    · rw [if_neg (by exact ne_true_of_eq_false hno), failSlot_quiet hrun ha]
      rfl
    rw [if_pos (by exact hyes)]
    refine ⟨fun hb => ?_, fun hf => ?_, fun hb hf => ?_⟩
    · exact congrArg _ (dispatch_banner (w := s.slotItem i k) hrun ha hb)
    · exact congrArg _ (dispatch_flushJournal (w := s.slotItem i k) hrun ha hf)
    · rw [dispatch_offers (w := s.slotItem i k) hb hf]
      exact ⟨fun h => congrArg _ (offerItem_room hrun ha h), fun h => congrArg _ (offerItem_full h)⟩
  · refine ⟨fun h => ?_, fun h => ?_, fun h => ?_, fun h => ?_, fun h => ?_, fun h => ?_, fun h => ?_, fun h => ?_,
      fun hw hat hwaits => slotVisit_read_refused hw hat hwaits⟩
    · exact State.slotReads_body (State.slotBodyFields_unmarked h rfl fun _ => rfl)
    · exact State.slotReads_body (State.slotBodyFields_startWave h)
    · rcases h with h | h <;> exact State.slotReads_body (State.slotBodyFields_unmarked h rfl fun _ => rfl)
    · exact State.slotReads_body (State.slotBodyFields_unmarked h rfl fun _ => rfl)
    · exact State.slotReads_body (State.slotBodyFields_correctSplit h)
    · exact State.slotReads_body (State.slotBodyFields_unmarked h rfl fun _ => rfl)
    · exact State.slotReads_body (State.slotBodyFields_unmarked h rfl fun _ => rfl)
    · exact State.slotReads_body (State.slotBodyFields_unknown h)

end Sys2Proof.Machine

/-! Writes and the memory port: which writes of a list a port lets through, and which bytes they leave. -/

namespace Sys2Proof.Machine

/-! ## Bytes outside a field -/

/-- The bytes after the first lie among the field's bytes, wherever the field begins. -/
theorem inBytes_of_next {a n x : Nat} (h : inBytes (nextAddr a) n x = true) : inBytes a (n + 1) x = true := by
  unfold inBytes nextAddr at *
  unfold Config.addressSpace at *
  rw [decide_eq_true_eq] at *
  omega

/-- Writing the bytes of a field leaves every byte outside it, wherever the field begins. -/
theorem Memory.read_writeBytes_outside (m : List Host.Cell) {a x : Nat} {bs : List Byte}
    (h : inBytes a bs.length x = false) : Memory.read (Memory.writeBytes m a bs) x = Memory.read m x := by
  induction bs generalizing m a with
  | nil => rfl
  | cons b bs ih =>
    rw [List.length_cons] at h
    have hfirst : x ≠ a := by
      rintro rfl
      rw [inBytes_self (Nat.succ_pos _)] at h
      cases h
    have hrest : inBytes (nextAddr a) bs.length x = false :=
      Bool.eq_false_iff.2 fun hin => by rw [inBytes_of_next hin] at h; cases h
    rw [Memory.writeBytes, ih _ hrest, Memory.read_write_other m b hfirst]

/-- The byte at `a` lies in no field that a list of writes writes. -/
def Missed (a : Nat) (ws : List (Region × Nat × List Byte)) : Prop := ∀ w ∈ ws, inBytes w.2.1 w.2.2.length a = false

/-! ## What a port lets through -/

/-- The writes of a list that a port lets through: all of them, or in a step cut short as many as are left to it. -/
def Port.lets (p : Port) (ws : List (Region × Nat × List Byte)) : List (Region × Nat × List Byte) :=
  match p with
  | .free | .stopped _ => ws
  | .left n => ws.take n
  | .last n => ws.take (n + 1)

theorem Port.lets_subset (p : Port) (ws : List (Region × Nat × List Byte)) : p.lets ws ⊆ ws := by
  cases p with
  | free | stopped => exact List.Subset.refl ws
  | left | last => exact List.take_subset _ ws

theorem Port.lets_append (p : Port) (ws vs : List (Region × Nat × List Byte)) : p.lets ws ⊆ p.lets (ws ++ vs) := by
  cases p with
  | free | stopped => exact List.subset_append_left ws vs
  | left | last => exact ((List.prefix_append ws vs).take _).subset

theorem Missed.lets {a : Nat} {ws : List (Region × Nat × List Byte)} (h : Missed a ws) (p : Port) : Missed a (p.lets ws) :=
  fun w hw => h w (p.lets_subset ws hw)

variable {a : Nat}

/-- Where a put goes on, the port has let its write through and lets through what it lets of the rest. -/
theorem State.put_lets {b : Nat} {bs : List Byte} {s : State} (h : (s.put b bs).engine ≠ .halted)
    (w : Region × Nat × List Byte) (ws : List (Region × Nat × List Byte)) :
    s.port.lets (w :: ws) = w :: (s.put b bs).port.lets ws := by
  unfold State.put at *
  split at h
  case h_1 => exact absurd rfl h
  case h_3 => exact absurd rfl h
  all_goals simp_all [Port.lets, State.withMem]

theorem State.read_put_missed {r : Region} {b : Nat} {bs : List Byte} {s : State}
    {ws : List (Region × Nat × List Byte)} (h : Missed a (s.port.lets ((r, b, bs) :: ws))) :
    Memory.read (s.put b bs).mem a = Memory.read s.mem a := by
  unfold State.put
  split
  case h_1 => rfl
  all_goals
    rename_i hp
    rw [hp] at h
    exact Memory.read_writeBytes_outside s.mem (h (r, b, bs) (by simp [Port.lets]))

/-- A store halts before its write, or it is the write. -/
theorem State.store_cases (r : Region) (b : Nat) (bs : List Byte) (s : State) :
    ((s.store r b bs).engine = .halted ∧ (s.store r b bs).mem = s.mem) ∨ s.store r b bs = s.put b bs := by
  unfold State.store State.access
  split
  · exact .inl ⟨rfl, rfl⟩
  · unfold State.andThen
    split
    · exact .inl ⟨‹_›, rfl⟩
    · exact .inr rfl

theorem State.storeAll_lets {ws : List (Region × Nat × List Byte)} {s : State} (h : (s.storeAll ws).engine ≠ .halted)
    (vs : List (Region × Nat × List Byte)) : s.port.lets (ws ++ vs) = ws ++ (s.storeAll ws).port.lets vs := by
  induction ws generalizing s with
  | nil => rfl
  | cons w ws ih =>
    obtain ⟨r, b, bs⟩ := w
    rw [State.storeAll] at *
    have hrun : (s.store r b bs).engine ≠ .halted := fun he => h (by rw [State.andThen_halted _ he]; exact he)
    rw [State.andThen_running _ hrun] at *
    have hput := (State.store_cases r b bs s).resolve_left fun hh => hrun hh.1
    rw [hput] at h hrun ⊢
    rw [List.cons_append, State.put_lets hrun, ih h, List.cons_append]

/-- A list of writes leaves a byte that lies in none of those the port lets through. -/
theorem State.read_storeAll_missed {ws : List (Region × Nat × List Byte)} {s : State} (h : Missed a (s.port.lets ws)) :
    Memory.read (s.storeAll ws).mem a = Memory.read s.mem a := by
  induction ws generalizing s with
  | nil => rfl
  | cons w ws ih =>
    obtain ⟨r, b, bs⟩ := w
    rw [State.storeAll]
    rcases State.store_cases r b bs s with ⟨he, hm⟩ | hput
    · rw [State.andThen_halted _ he, hm]
    · rw [hput]
      unfold State.andThen
      split
      · exact State.read_put_missed h
      · rename_i hrun
        rw [State.put_lets hrun] at h
        rw [ih fun w hw => h w (List.mem_cons_of_mem _ hw)]
        exact State.read_put_missed (ws := ws) (r := r) (by rw [State.put_lets hrun]; exact h)

/-- Reads that do not halt the engine change nothing. -/
theorem State.access_running {r : Region} {b n : Nat} {s : State} (h : (s.access r b n).engine ≠ .halted) :
    s.access r b n = s := by
  unfold State.access at *
  split at h
  · exact absurd rfl h
  · exact if_neg ‹_›

theorem State.accessAll_running {reads : List (Region × Nat × Nat)} {s : State} (h : (s.accessAll reads).engine ≠ .halted) :
    s.accessAll reads = s := by
  induction reads with
  | nil => rfl
  | cons x reads ih =>
    obtain ⟨r, b, n⟩ := x
    rw [State.accessAll] at *
    have hrun : (s.access r b n).engine ≠ .halted := fun he => h (by rw [State.andThen_halted _ he]; exact he)
    rw [State.andThen_running _ hrun, State.access_running hrun] at h ⊢
    exact ih h

end Sys2Proof.Machine

/-! Operations of the blocks through the memory port and the journal writer: which bytes of shared memory they leave. -/

namespace Sys2Proof.Machine

/-- The writer's page has a place left, and its page indices name pages of the loaded copy. -/
def State.WriterSound (s : State) : Prop := s.fillOk ∧ s.journal.inRange s.config.pages.length

theorem OutsidePages.congr {s t : State} {a : Nat} (hl : t.loaded = s.loaded) (hb : t.base = s.base) (h : OutsidePages s a) :
    OutsidePages t a := by
  have hc : t.config = s.config := by rw [State.config, State.config, hl]
  have ha : t.addr = s.addr := by unfold State.addr; rw [hb]
  unfold OutsidePages
  rw [hc, ha]
  exact h

/-- From `s` an operation of the blocks comes to `t`: memory stays canonical, the pages and the writer stay sound, and the
byte at `a`, outside the pages, reads as before where `q` says that no other write reaches it. -/
structure PageStep (q : Prop) (a : Nat) (s t : State) : Prop where
  wf     : Memory.wf s.mem = true → Memory.wf t.mem = true
  pages  : OutsidePages s a → OutsidePages t a
  writer : s.WriterSound → t.WriterSound
  byte   : q → s.WriterSound → OutsidePages s a → Memory.read t.mem a = Memory.read s.mem a

namespace PageStep

variable {q : Prop} {a : Nat} {s t u : State}

/-! ## Operations in sequence -/

theorem refl (s : State) : PageStep q a s s := ⟨id, id, id, fun _ _ _ => rfl⟩

theorem trans (h : PageStep q a s t) (h' : PageStep q a t u) : PageStep q a s u where
  wf     := h'.wf ∘ h.wf
  pages  := h'.pages ∘ h.pages
  writer := h'.writer ∘ h.writer
  byte hq hw ho := (h'.byte hq (h.writer hw) (h.pages ho)).trans (h.byte hq hw ho)

theorem andThen {f : State → State} (h : PageStep q a s t) (hf : ∀ u, PageStep q a u (f u)) :
    PageStep q a s (t.andThen f) := by
  unfold State.andThen
  split
  · exact h
  · exact h.trans (hf t)

/-- An operation carried out where a condition holds. -/
theorem when {p : Prop} [Decidable p] (h : p → PageStep q a s t) : PageStep q a s (if p then t else s) := by
  split
  · exact h ‹_›
  · exact refl s

/-- An operation that leaves memory, pages and writer, and no halted engine running. -/
theorem stays (hm : t.mem = s.mem) (hl : t.loaded = s.loaded) (hb : t.base = s.base) (hj : t.journal = s.journal)
    (he : s.engine = .halted → t.engine = .halted) : PageStep q a s t where
  wf h := by rw [hm]; exact h
  pages := OutsidePages.congr hl hb
  writer hw := by
    obtain ⟨hf, hr⟩ := hw
    rw [State.WriterSound, State.fillOk, State.config, hj, hl]
    exact ⟨hf.imp_left he, hr⟩
  byte _ _ _ := by rw [hm]

/-! ## The memory port and the journal writer -/

/-- An operation of the writer. -/
theorem journal (h : JournalStep s.fillOk s t) (hf : s.fillOk → t.fillOk) : PageStep q a s t := by
  obtain ⟨hc, hb, -, hl, -⟩ := h.kept
  exact ⟨h.wf, OutsidePages.congr hl hb, fun hw => ⟨hf hw.1, by rw [hc]; exact h.range hw.2⟩,
    fun _ hw ho => h.outside hw.1 hw.2 a ho⟩

theorem access (r : Region) (b n : Nat) (s : State) : PageStep q a s (s.access r b n) :=
  journal (.access r b n s) (fillOk_access r b n)

theorem accessAll (reads : List (Region × Nat × Nat)) (s : State) : PageStep q a s (s.accessAll reads) := by
  induction reads generalizing s with
  | nil => exact refl s
  | cons x reads ih => exact (access x.1 x.2.1 x.2.2 s).andThen ih

/-- What follows reads begins in the state before them, or is not done. -/
theorem afterReads {reads : List (Region × Nat × Nat)} {f : State → State} (h : PageStep q a s (f s)) :
    PageStep q a s ((s.accessAll reads).andThen f) := by
  unfold State.andThen
  split
  · exact accessAll reads s
  · rw [State.accessAll_running ‹_›]
    exact h

theorem afterRead {r : Region} {b n : Nat} {f : State → State} (h : PageStep q a s (f s)) :
    PageStep q a s ((s.access r b n).andThen f) := by
  unfold State.andThen
  split
  · exact access r b n s
  · rw [State.access_running ‹_›]
    exact h

/-- A list of writes, those that the port lets through missing the byte. -/
theorem storeAll {ws : List (Region × Nat × List Byte)} (hq : q → Missed a (s.port.lets ws)) :
    PageStep q a s (s.storeAll ws) := by
  have h := PortStep.storeAll ws s
  have hj : (s.storeAll ws).journal = s.journal := by
    rcases h.2 with ⟨m, p, h⟩ | ⟨m, p, h⟩ | ⟨r, m, p, h⟩ <;> rw [h] <;> rfl
  have he : s.engine = .halted → (s.storeAll ws).engine = .halted := fun he => by
    rcases h.2 with ⟨m, p, h⟩ | ⟨m, p, h⟩ | ⟨r, m, p, h⟩ <;> rw [h]
    · exact he
    · rfl
    · rfl
  refine ⟨h.1, OutsidePages.congr h.loaded h.base, fun ⟨hf, hr⟩ => ?_, fun hq' _ _ => State.read_storeAll_missed (hq hq')⟩
  rw [State.WriterSound, State.fillOk, hj, h.config]
  exact ⟨hf.imp_left he, hr⟩

theorem store {r : Region} {b : Nat} {bs : List Byte} (hq : q → Missed a (s.port.lets [(r, b, bs)])) :
    PageStep q a s (s.store r b bs) := by
  rw [← State.storeAll_one]
  exact storeAll hq

theorem handRecord (r : JRecord) (s : State) : PageStep q a s (handRecord r s).state :=
  journal (handRecord_step r id) (handRecord_fillOk r)

theorem record (r : JRecord) (s : State) : PageStep q a s (s.record r) := handRecord r s

theorem thenRecord (h : PageStep q a s t) (r : JRecord) : PageStep q a s (t.record r) := h.trans (record r t)

theorem sealPage (s : State) : PageStep q a s (sealPage s) := journal (sealPage_step s) sealPage_fillOk

theorem reread (s : State) : PageStep q a s (reread s) := journal (reread_step s) reread_fillOk

theorem drainHead {s : State} (he : s.engine ≠ .halted) : PageStep q a s (drainHead s) := by
  refine journal (drainHead_step fun hf => fillOk.running hf he) fun hf => ?_
  unfold Machine.drainHead
  split
  · exact hf
  · exact putRecord_fillOk _ _ _ (fillOk.running hf he)

theorem watchSeal (n : Word) (place : Place) (s : State) : PageStep q a s (watchSeal n place s) := by
  refine journal (watchSeal_step n place s) fun hf => ?_
  unfold Machine.watchSeal
  cases place with
  | page seq =>
    dsimp only
    split
    · exact sealPage_fillOk hf
    · exact hf
  | spill => exact hf
  | dropped => exact hf

theorem runFlush (w : WorkItem) (s : State) : PageStep q a s (runFlush w s) :=
  (reread s).andThen fun t => (sealPage t).andThen fun u =>
    (journal (.withJournal_same { u.journal with flushes := u.journal.flushes.tail } rfl rfl) id).trans
      (stays rfl rfl rfl rfl id)

end PageStep

end Sys2Proof.Machine

/-! The blocks' operations that write: the sweep, the items, the lines, the draws; and those that leave memory as it is. -/

namespace Sys2Proof.Machine

namespace PageStep

variable {q : Prop} {a : Nat} {s t u : State}

/-! ## The work sweep -/

theorem withSweep (w : Sweep) (s : State) : PageStep q a s (s.withSweep w) := stays rfl rfl rfl rfl id

theorem endSweep (s : State) : PageStep q a s (endSweep s) := (reread s).andThen fun _ => withSweep _ _

theorem advanceSweep (i : Nat) (s : State) : PageStep q a s (advanceSweep i s) := by
  unfold Machine.advanceSweep
  split
  · exact withSweep _ s
  · exact endSweep s

/-- The TAKEN write of a slot, missing the byte. -/
theorem takeSlot {i : Nat}
    (hq : q → Missed a (s.port.lets [(.work, s.addr (workOffset s.config i 0), leBytes 4 slotTaken)])) :
    PageStep q a s (takeSlot i s) := (store hq).andThen fun _ => withSweep _ _

theorem failSlot {i : Nat}
    (hq : q → Missed a (s.port.lets [(.work, s.addr (workOffset s.config i 0), leBytes 4 slotTaken)]))
    (code : OutcomeCode) (notify : Bool) : PageStep q a s (failSlot i code notify s) :=
  (takeSlot hq).andThen fun _ => stays rfl rfl rfl rfl id

theorem offerItem {w : WorkItem}
    (hq : q → Missed a (s.port.lets [(.work, s.addr (workOffset s.config w.slot 0), leBytes 4 slotTaken)])) :
    PageStep q a s (offerItem w s) := by
  unfold Machine.offerItem
  split
  · have hpush : PageStep q a s (s.pushIntake (.work w)) := stays rfl rfl rfl rfl id
    exact (hpush.trans (takeSlot hq)).andThen (advanceSweep w.slot)
  · exact endSweep s

theorem dispatch {w : WorkItem}
    (hq : q → Missed a (s.port.lets [(.work, s.addr (workOffset s.config w.slot 0), leBytes 4 slotTaken)])) :
    PageStep q a s (dispatch w s) := by
  unfold Machine.dispatch
  split
  · refine (takeSlot hq).andThen fun u => andThen ?_ (advanceSweep w.slot)
    exact stays rfl rfl rfl rfl id
  · refine (takeSlot hq).andThen fun u => andThen ?_ (advanceSweep w.slot)
    exact journal (.withJournal_same _ rfl rfl) id
  all_goals exact offerItem hq

theorem visitSlot {i : Nat}
    (hq : q → Missed a (s.port.lets [(.work, s.addr (workOffset s.config i 0), leBytes 4 slotTaken)])) :
    PageStep q a s (visitSlot i s) := by
  refine afterRead ?_
  split
  · exact advanceSweep i s
  · refine afterReads ?_
    split
    · exact failSlot hq _ _
    · dsimp only
      split
      · exact dispatch hq
      · exact failSlot hq _ _

theorem endFollows (e : EndReport) (s : State) : PageStep q a s (endFollows e s) := by
  have hsweep : PageStep q a s (s.withSweep (s.sweep.closed e)) := withSweep _ s
  unfold Machine.endFollows
  dsimp only
  generalize s.withSweep (s.sweep.closed e) = u at hsweep
  have hcause : PageStep q a u (if e.notify then u.setCause .workDone else u) := when fun _ => stays rfl rfl rfl rfl id
  generalize (if e.notify then u.setCause .workDone else u) = v at hcause
  exact (hsweep.trans hcause).trans (when fun _ => advanceSweep e.slot v)

/-! ## Items of the split unit -/

theorem handAll (rs : List JRecord) (s : State) : PageStep q a s (handAll rs s).state := by
  cases rs with
  | nil => exact refl s
  | cons r rest =>
    simp only [Machine.handAll]
    have h : PageStep q a s (Machine.handRecord r s).state := handRecord r s
    generalize (Machine.handRecord r s).state = u at h
    induction rest generalizing u with
    | nil => exact h
    | cons r rest ih => exact ih _ (h.andThen (record r))

theorem finish (p : ItemPlan) (w : Option WorkItem) (n : Word) (place : Place) (s : State) :
    PageStep q a s (p.finish w n place s) := by
  have hhand : PageStep q a s { s with handovers := s.handovers ++ p.handovers } := stays rfl rfl rfl rfl id
  unfold ItemPlan.finish
  dsimp only
  refine andThen (t := if p.watch then _ else _) ?_ fun u => ?_
  · split
    · exact hhand.trans (watchSeal n place _)
    · exact hhand
  · cases w <;> exact stays rfl rfl rfl rfl id

/-- A plan, its writes missing the byte. -/
theorem run {p : ItemPlan} (hq : q → Missed a (s.port.lets p.writes)) (w : Option WorkItem) : PageStep q a s (p.run w s) :=
  (afterReads (storeAll hq)).andThen fun u => (handAll p.records u).andThen (finish p w _ _)

/-! ## Mat lines and draws -/

theorem silence (l : LineIx) (b : Nat) (s : State) : PageStep q a s (silence l b s) := by
  unfold Machine.silence
  dsimp only
  split
  · refine thenRecord ?_ _
    exact stays rfl rfl rfl rfl id
  · exact stays rfl rfl rfl rfl id

theorem decoderReplied (l : LineIx) (b : Nat) (s : State) : PageStep q a s (decoderReplied l b s) := by
  unfold Machine.decoderReplied
  dsimp only
  split
  · refine thenRecord ?_ _
    exact stays rfl rfl rfl rfl id
  · exact stays rfl rfl rfl rfl id

theorem handleBatch (l : LineIx) (f : RxFrame) (b : Nat) (s : State) : PageStep q a s (handleBatch l f b s) := by
  unfold Machine.handleBatch
  dsimp only
  split <;> exact stays rfl rfl rfl rfl id

theorem handleEmpty (l : LineIx) (f : RxFrame) (b : Nat) (s : State) : PageStep q a s (handleEmpty l f b s) := by
  unfold Machine.handleEmpty
  dsimp only
  split
  · exact stays rfl rfl rfl rfl id
  · refine thenRecord ?_ _
    exact stays rfl rfl rfl rfl id

/-- A frame taken as a reply, then handled by its kind. -/
theorem reply (l : LineIx) (b : Nat) {handle : State → State} (hh : ∀ u, PageStep q a u (handle u)) (s : State) :
    PageStep q a s (((Machine.decoderReplied l b s).andThen handle).andThen (endCall l)) :=
  ((decoderReplied l b s).andThen hh).andThen fun _ => stays rfl rfl rfl rfl id

theorem drawFrom (m : Fin 8) (s : State) : PageStep q a s (drawFrom m s) := by
  unfold Machine.drawFrom
  split
  · exact refl s
  · dsimp only
    split
    · exact stays rfl rfl rfl rfl id
    · refine trans (t := (s.withDecoder m (s.decoders[m]).drawn).withAssembler { s.assembler with arbiter := m + 1 })
        (stays rfl rfl rfl rfl id) ?_
      unfold handleRead
      split
      · exact record _ _
      · exact stays rfl rfl rfl rfl id

theorem settleClusters (s : State) : PageStep q a s (settleClusters s) := when fun _ => stays rfl rfl rfl rfl id

/-! ## Panels -/

theorem screenLocal {i : Nat} {g : State → State} (h : ScreenLocal i g) (s : State) : PageStep q a s (g s) := by
  rw [h.shape s]
  exact stays rfl rfl rfl rfl id

theorem panelMissed (i : Nat) (p : Panel) (s : State) : PageStep q a s (panelMissed i p s) := by
  unfold Machine.panelMissed
  split
  · exact stays rfl rfl rfl rfl id
  · split
    · exact stays rfl rfl rfl rfl id
    · refine thenRecord ?_ _
      exact stays rfl rfl rfl rfl id

theorem panelWaits (i : Nat) (p : Panel) (s : State) : PageStep q a s (panelWaits i p s) := by
  unfold Machine.panelWaits
  split
  · exact panelMissed i p s
  · exact stays rfl rfl rfl rfl id

theorem panelAcked (i : Nat) (p : Panel) (s : State) : PageStep q a s (panelAcked i p s) := by
  unfold Machine.panelAcked
  split
  · have hback : PageStep q a s (s.withPanel i p.cameBack) := stays rfl rfl rfl rfl id
    exact (hback.thenRecord _).andThen (screenLocal (ScreenLocal.refresh i))
  · exact stays rfl rfl rfl rfl id

theorem concludeExchange (l : LineIx) (i : Nat) {act : Nat → Panel → State → State}
    (ha : ∀ i p u, PageStep q a u (act i p u)) (s : State) : PageStep q a s (concludeExchange l i act s) := by
  have hend : PageStep q a s (endExchange l s) := stays rfl rfl rfl rfl id
  unfold Machine.concludeExchange
  split
  · exact hend
  · exact hend.trans (ha _ _ _)

end PageStep

end Sys2Proof.Machine

/-! Shared memory command by command: every command keeps its canonical form, and leaves the bytes outside what it stores
and outside the journal pages (R53, R54). -/

namespace Sys2Proof.Machine

/-! ## The moments at which the blocks work -/

section
variable {s : State}

theorem silenceReady_working {l : LineIx} {failed : Bool} (h : silenceReady l failed s = true) : s.working = true :=
  (Bool.and_eq_true_iff.1 h).1

theorem noReplyReady_working {l : LineIx} {failed : Bool} (h : noReplyReady l failed s = true) : s.working = true :=
  (Bool.and_eq_true_iff.1 h).1

theorem statusDue_working (h : statusDue s = true) : s.working = true := (Bool.and_eq_true_iff.1 h).1

theorem itemEndReady_working (h : itemEndReady s = true) : s.working = true := (Bool.and_eq_true_iff.1 h).1

theorem drainReady_working (h : drainReady s = true) : s.working = true :=
  (Bool.and_eq_true_iff.1 (Bool.and_eq_true_iff.1 h).1).1

theorem slotVisitReady_working (h : slotVisitReady s = true) : s.working = true :=
  (Bool.and_eq_true_iff.1 (Bool.and_eq_true_iff.1 h).1).1

theorem sealDue_working (h : sealDue s = true) : s.working = true :=
  (Bool.and_eq_true_iff.1 (Bool.and_eq_true_iff.1 (Bool.and_eq_true_iff.1 h).1).1).1

theorem drawReady_working (h : drawReady s = true) : s.working = true := by
  have hr : s.racing = true := (Bool.and_eq_true_iff.1 (Bool.and_eq_true_iff.1 h).1).1
  simp only [State.racing, State.working, Bool.or_eq_true] at hr ⊢
  tauto

end

/-! ## What a command keeps of shared memory -/

/-- The memory `m` that a command leaves from `s`: canonical where it was; the byte at `a`, outside the pages, as before
where `q` says that no other write reaches it. -/
structure MemoryKept (q : Prop) (a : Nat) (s : State) (m : List Host.Cell) : Prop where
  wf   : Memory.wf s.mem = true → Memory.wf m = true
  byte : q → JournalSound s → OutsidePages s a → Memory.read m a = Memory.read s.mem a

/-- A sound writer where the blocks work names pages of the loaded copy. -/
theorem JournalSound.writer {s : State} (h : JournalSound s) (hw : s.working = true) : s.WriterSound := by
  obtain ⟨hf, hl, hj⟩ := h
  obtain ⟨L, hL⟩ := Option.isSome_iff_exists.1 (hl hw)
  rw [hL] at hj
  refine ⟨hf, ?_⟩
  rw [State.config, hL]
  exact hj

namespace MemoryKept

variable {q : Prop} {a : Nat} {s t : State}

theorem same {m : List Host.Cell} (h : m = s.mem) : MemoryKept q a s m := by
  rw [h]
  exact ⟨id, fun _ _ _ => rfl⟩

/-- An operation of the blocks, in a state in which they work. -/
theorem blocks (h : PageStep q a s t) (hw : s.working = true) : MemoryKept q a s t.mem :=
  ⟨h.wf, fun hq hj ho => h.byte hq (hj.writer hw) ho⟩

theorem when {p : Prop} [Decidable p] (h : p → MemoryKept q a s t.mem) : MemoryKept q a s (if p then t else s).mem := by
  split
  · exact h ‹_›
  · exact same rfl

/-! ## The steps that may be under way, but a load -/

theorem endRace (he : s.engine = .race) : MemoryKept q a s (endRaceNow s).mem := by
  refine blocks (PageStep.trans ?_ (.sealPage _)) (by simp [State.working, he])
  unfold endScreens
  rw [(eachScreen_local ScreenLocal.endScreen _ _).1]
  exact .stays rfl rfl rfl rfl fun hh => by rw [he] at hh; cases hh

theorem handleHead (hq : q → Missed a (s.port.lets (stepStores .item s))) : MemoryKept q a s (handleHead s).mem := by
  unfold Machine.handleHead
  refine when fun hw => ?_
  cases hi : s.intake with
  | nil => exact same rfl
  | cons x rest =>
    dsimp only
    cases hp : s.planOf x with
    | none => exact same rfl
    | some p =>
      have hwrites : stepStores .item s = p.writes := by simp [stepStores, hi, hp]
      exact blocks (.run (hwrites ▸ hq) x.work?) hw

theorem slotVisit (hq : q → Missed a (s.port.lets (stepStores .slotVisit s))) :
    MemoryKept q a s (stateAfter (execSlotVisit s) s).mem := by
  refine when fun hr => ?_
  cases hi : s.sweep.at? with
  | none => exact same rfl
  | some i =>
    have hwrites : stepStores .slotVisit s = [(.work, s.addr (workOffset s.config i 0), leBytes 4 slotTaken)] := by
      simp [stepStores, hi]
    exact blocks (.visitSlot (hwrites ▸ hq)) (slotVisitReady_working hr)

theorem itemEnd (hq : q → Missed a (s.port.lets (stepStores .itemEnd s))) :
    MemoryKept q a s (stateAfter (execItemEnd s) s).mem := by
  refine when fun hr => ?_
  cases he : s.sweep.ends with
  | nil => exact same rfl
  | cons e rest =>
    have hwrites : stepStores .itemEnd s = s.endWrites e := by simp [stepStores, he]
    dsimp only
    rw [writeEnd_eq]
    exact blocks ((PageStep.storeAll (hwrites ▸ hq)).andThen (.endFollows e)) (itemEndReady_working hr)

theorem statusTimer (hq : q → Missed a (s.port.lets (statusWrites s))) :
    MemoryKept q a s (stateAfter (execStatusTimer s) s).mem := by
  refine when fun hr => blocks ?_ (statusDue_working hr)
  rw [writeStatus_eq rfl rfl rfl]
  exact (PageStep.storeAll hq).andThen fun u => .stays rfl rfl rfl rfl id

theorem sealTimer : MemoryKept q a s (stateAfter (execSealTimer s) s).mem :=
  when fun hr => blocks (.sealPage s) (sealDue_working hr)

theorem drain : MemoryKept q a s (stateAfter (execDrain s) s).mem :=
  when fun hr => blocks (.drainHead (State.working_running (drainReady_working hr))) (drainReady_working hr)

theorem flushJournal : MemoryKept q a s (stateAfter (execFlushJournal s) s).mem := by
  refine when fun hw => ?_
  split
  · exact same rfl
  · exact blocks (.runFlush _ s) hw

theorem draw : MemoryKept q a s (stateAfter (execDraw s) s).mem := by
  refine when fun hr => ?_
  split
  · exact same rfl
  · exact blocks ((PageStep.settleClusters s).trans (.drawFrom _ _)) (drawReady_working hr)

theorem silence (l : LineIx) (failed : Bool) : MemoryKept q a s (stateAfter (execSilence l failed s) s).mem := by
  refine when fun hr => ?_
  split
  · exact same rfl
  · exact blocks (.silence l _ s) (silenceReady_working hr)

theorem matFrame (l : LineIx) (type : Byte) (f : RxFrame) {handle : Nat → State → State}
    (hh : ∀ b u, PageStep q a u (handle b u)) : MemoryKept q a s (matFrame l type f handle s).mem := by
  unfold Machine.matFrame
  split
  · exact same rfl
  · refine when fun hr => blocks ?_ (Bool.and_eq_true_iff.1 (Bool.and_eq_true_iff.1 hr).1).1
    split
    · exact .reply l _ (hh _) s
    · exact .silence l _ s

theorem panelFrame (l : LineIx) (type : Byte) (f : RxFrame) {act : Nat → Panel → State → State}
    (ha : ∀ i p u, PageStep q a u (act i p u)) : MemoryKept q a s (panelFrame l type f act s).mem := by
  unfold Machine.panelFrame
  split
  · exact same rfl
  · refine when fun hr => blocks ?_ (Bool.and_eq_true_iff.1 (Bool.and_eq_true_iff.1 hr).1).1
    split
    · exact .concludeExchange l _ ha s
    · exact .concludeExchange l _ .panelMissed s

theorem noReply (l : LineIx) (failed : Bool) : MemoryKept q a s (stateAfter (execNoReply l failed s) s).mem := by
  refine when fun hr => ?_
  split
  · exact same rfl
  · exact blocks (.concludeExchange l _ .panelMissed s) (noReplyReady_working hr)

end MemoryKept

/-! ## The load -/

section
variable {q : Prop} {a : Nat}

/-- A load that passes has a page for the writer to begin with (R9). -/
theorem loadOutcome_pages {s : State} {L : Loaded} (h : s.loadOutcome = .ok L) : 0 < L.pages.length := by
  rw [loadOutcome_eq] at h
  obtain ⟨_, -, h⟩ := stage_inv h
  obtain ⟨_, -, h⟩ := stage_inv h
  obtain ⟨_, -, h⟩ := stage_inv h
  obtain ⟨_, -, h⟩ := stage_inv h
  obtain ⟨points, -, h⟩ := stage_inv h
  obtain ⟨_, -, h⟩ := stage_inv h
  obtain ⟨_, -, h⟩ := stage_inv h
  obtain ⟨_, -, h⟩ := stage_inv h
  obtain ⟨screens, -, h⟩ := stage_inv h
  obtain ⟨_, -, h⟩ := stage_inv h
  obtain ⟨_, -, h⟩ := stage_inv h
  obtain ⟨_, -, h⟩ := stage_inv h
  obtain ⟨_, hj, h⟩ := stage_inv h
  cases h
  have hright : JournalRight s := by
    by_contra hn
    rw [journalChecks_fail hn] at hj
    cases hj
  have hpages : 4 ≤ s.directory 84 := hright.1.1
  simp only [State.loadedCopy, List.length_map, List.length_range]
  omega

theorem scanSlot_wf (L : Loaded) (i : Nat) {s : State} (h : Memory.wf s.mem = true) :
    Memory.wf (scanSlot L s i).mem = true := by
  unfold scanSlot State.andThen
  split
  · exact h
  · exact ((PortStep.access _ _ _ s).andThen (.storeAll _ _)).1 h

theorem scanTable_wf (L : Loaded) {s : State} (h : Memory.wf s.mem = true) : Memory.wf (scanTable L s).mem = true := by
  unfold scanTable
  generalize List.range L.slotCount = is
  induction is generalizing s with
  | nil => exact h
  | cons i is ih => exact ih (scanSlot_wf L i h)

/-- Once the engine has halted the scan goes no further. -/
theorem scanSlots_halted (L : Loaded) (is : List Nat) {s : State} (h : s.engine = .halted) : is.foldl (scanSlot L) s = s := by
  induction is with
  | nil => rfl
  | cons i is ih => rw [List.foldl_cons, scanSlot, State.andThen_halted _ h, ih]

/-- The scan of a slot halts before its writes, or it is the list of them. -/
theorem scanSlot_cases (L : Loaded) (i : Nat) (s : State) :
    ((scanSlot L s i).engine = .halted ∧ (scanSlot L s i).mem = s.mem) ∨ scanSlot L s i = s.storeAll (s.scanWrites L i) := by
  unfold scanSlot State.andThen
  split
  · exact .inl ⟨‹_›, rfl⟩
  · dsimp only
    split
    · refine .inl ⟨‹_›, ?_⟩
      unfold State.access
      split <;> rfl
    · rw [State.access_running ‹_›]
      exact .inr rfl

/-- The scan of slots from `t` leaves a byte that lies in none of their writes, which a scan from `s` makes too: the slots
stand apart, and the scan of one leaves the state words of the others. -/
theorem read_scanSlots_missed {s t : State} {L : Loaded} {is : List Nat} (hd : is.Nodup) (hlt : ∀ i ∈ is, i < 256)
    (hb : t.base = s.base) (hf : ∀ i ∈ is, t.field (scanOffset L i 0) 4 = s.field (scanOffset L i 0) 4)
    (h : Missed a (t.port.lets (is.flatMap (s.scanWrites L)))) :
    Memory.read (is.foldl (scanSlot L) t).mem a = Memory.read t.mem a := by
  induction is generalizing t with
  | nil => rfl
  | cons i is ih =>
    have hwrites : t.scanWrites L i = s.scanWrites L i := by
      unfold State.scanWrites State.addr
      rw [hf i (by simp), hb]
    obtain ⟨hni, hd⟩ := List.nodup_cons.1 hd
    rw [List.flatMap_cons] at h
    rw [List.foldl_cons]
    rcases scanSlot_cases L i t with ⟨he, hm⟩ | hstore
    · rw [scanSlots_halted L is he, hm]
    · rw [hwrites] at hstore
      have hread : Memory.read (t.storeAll (s.scanWrites L i)).mem a = Memory.read t.mem a :=
        State.read_storeAll_missed fun w hw => h w (Port.lets_append _ _ _ hw)
      rw [hstore]
      by_cases hrun : (t.storeAll (s.scanWrites L i)).engine = .halted
      · rw [scanSlots_halted L is hrun, hread]
      · rw [State.storeAll_lets hrun] at h
        rw [← hread]
        refine ih hd (fun j hj => hlt j (by simp [hj])) ((PortStep.storeAll _ t).base.trans hb) (fun j hj => ?_)
          fun w hw => h w (List.mem_append_right _ hw)
        rw [scan_keeps_states hb (hlt i (by simp)) (hlt j (by simp [hj])) (by rintro rfl; exact hni hj)]
        exact hf j (by simp [hj])

theorem read_scanTable_missed {s : State} {L : Loaded} (hl : L.slotCount ≤ 256)
    (h : Missed a (s.port.lets (s.allScanWrites L))) : Memory.read (scanTable L s).mem a = Memory.read s.mem a :=
  read_scanSlots_missed List.nodup_range (fun _ hi => (List.mem_range.1 hi).trans_le hl) rfl (fun _ _ => rfl) h

/-- The blocks as they stand when the writer looks at its first page: memory and BASE as they were, the copy loaded, the
writer at its reset values. -/
theorem enterPrep_eq (L : Loaded) (s : State) : enterPrep L s = s.access .directory (s.addr 8) 4 ∨
    ∃ u : State, u.mem = s.mem ∧ u.loaded = some L ∧ u.base = s.base ∧ u.journal = Journal.reset
      ∧ enterPrep L s = tryNextPage true u := by
  unfold enterPrep State.andThen
  split
  · exact .inl rfl
  · rw [State.access_running ‹_›]
    refine .inr ⟨_, ?_, ?_, ?_, ?_, rfl⟩ <;> rw [refreshAll_panels] <;> split <;> rfl

theorem enterPrep_wf {L : Loaded} {s : State} (h : Memory.wf s.mem = true) : Memory.wf (enterPrep L s).mem = true := by
  rcases enterPrep_eq L s with he | ⟨u, hm, -, -, -, he⟩ <;> rw [he]
  · exact (PortStep.access _ _ _ s).1 h
  · exact (tryNextPage_step (q := False) true u).wf (by rw [hm]; exact h)

/-- The entry into PREP writes inside the pages of the loaded copy alone. -/
theorem read_enterPrep_outside {L : Loaded} {s : State} (hL : 0 < L.pages.length) (h : OutsidePages (enterPrep L s) a) :
    Memory.read (enterPrep L s).mem a = Memory.read s.mem a := by
  rcases enterPrep_eq L s with he | ⟨u, hm, hl, hb, hj, he⟩
  · rw [he]
    unfold State.access
    split <;> rfl
  · rw [he] at h ⊢
    have hstep := tryNextPage_step (q := True) true u
    obtain ⟨-, hbase, -, hloaded, -⟩ := hstep.kept
    have hrange : u.journal.inRange u.config.pages.length := by
      rw [hj, State.config, hl]
      exact ⟨fun _ hp => (nomatch hp), hL⟩
    rw [hstep.outside trivial hrange a (OutsidePages.congr hloaded.symm hbase.symm h), hm]

/-- A load that passes: the scan, then the entry into PREP. -/
theorem MemoryKept.load {s : State} (hq : q → Missed a (s.port.lets (stepStores .load s)))
    (ht : q → OutsidePages (stateAfter (execLoadPassed s) s) a) :
    MemoryKept q a s (stateAfter (execLoadPassed s) s).mem := by
  simp only [execLoadPassed, stateAfter] at ht ⊢
  refine when fun he => ?_
  rw [if_pos he] at ht
  cases hl : s.loadOutcome with
  | error e => cases e <;> exact same rfl
  | ok L =>
    rw [hl] at ht
    dsimp only at ht ⊢
    have hscan : q → Memory.read (scanTable L s).mem a = Memory.read s.mem a := fun h => by
      have hmissed := hq h
      simp only [stepStores, hl] at hmissed
      exact read_scanTable_missed (slotCount_le hl) fun w hw => hmissed w (Port.lets_append _ _ _ hw)
    unfold State.andThen at ht ⊢
    split
    · exact ⟨scanTable_wf L, fun h _ _ => hscan h⟩
    · rename_i hrun
      rw [if_neg hrun] at ht
      exact ⟨enterPrep_wf ∘ scanTable_wf L, fun h _ _ =>
        (read_enterPrep_outside (loadOutcome_pages hl) (ht h)).trans (hscan h)⟩

end

/-! ## Steps under way, and steps cut short -/

section
variable {q : Prop} {a : Nat} {s : State}

theorem runUnderway_memory (u : Underway) (hq : q → Missed a (s.port.lets (stepStores u s)))
    (ht : q → OutsidePages (runUnderway u s) a) : MemoryKept q a s (runUnderway u s).mem := by
  cases u with
  | load => exact .load hq ht
  | endRace => exact .when fun he => .endRace he
  | item => exact .handleHead hq
  | slotVisit => exact .slotVisit hq
  | itemEnd => exact .itemEnd hq
  | statusTimer => exact .statusTimer hq
  | sealTimer => exact .sealTimer
  | drain => exact .drain
  | flushJournal => exact .flushJournal
  | draw => exact .draw
  | batch l f => exact .matFrame l _ f (.handleBatch l f)
  | empty l f => exact .matFrame l _ f (.handleEmpty l f)
  | busy l f => exact .matFrame l _ f fun _ u => .refl u
  | silence l failed => exact .silence l failed
  | ack l f => exact .panelFrame l _ f .panelAcked
  | wait l f => exact .panelFrame l _ f .panelWaits
  | noReply l failed => exact .noReply l failed

/-- What a step may write does not depend on the memory port. -/
theorem stepStores_port (u : Underway) (p : Port) (s : State) : stepStores u { s with port := p } = stepStores u s := by
  cases u with
  | load =>
    simp only [stepStores, State.loadOutcome_port]
    rfl
  | item =>
    have hplan : State.planOf { s with port := p } = s.planOf := funext fun x => State.planOf_port x p s
    simp only [stepStores, hplan]
  | _ => rfl

theorem OutsidePages.of_openPort (h : OutsidePages s.openPort a) : OutsidePages s a := by
  refine h.congr ?_ ?_ <;> unfold State.openPort <;> split <;> rfl

/-- A step carried out with a port given. -/
theorem withPort_memory (u : Underway) (p : Port) (hq : q → Missed a (p.lets (stepStores u s)))
    (ht : q → OutsidePages (s.withPort p (runUnderway u)) a) : MemoryKept q a s (s.withPort p (runUnderway u)).mem := by
  have hrun : MemoryKept q a { s with port := p } (runUnderway u { s with port := p }).mem :=
    runUnderway_memory u (by rw [stepStores_port]; exact hq) fun h => (ht h).of_openPort
  rw [State.withPort, State.openPort_mem]
  exact ⟨hrun.wf, hrun.byte⟩

/-- A step cut short makes as many of its writes as the cut says, at most (log entry 8). -/
theorem cutStep_memory (c : Cut) (hq : q → Missed a ((stepStores c.step s).take c.made))
    (ht : q → OutsidePages (cutStep s c) a) : MemoryKept q a s (cutStep s c).mem := by
  obtain ⟨u, made, onward⟩ := c
  cases onward with
  | true => exact withPort_memory u (.left made) hq ht
  | false =>
    cases made with
    | zero => exact .same rfl
    | succ n => exact withPort_memory u (.last n) hq ht

theorem mem_cutStates_first (cuts : List Cut) (s : State) : s ∈ cutStates cuts s := by
  cases cuts <;> simp [cutStates]

/-- Steps cut short, each beginning in a sound state. -/
theorem cutAll_memory (cuts : List Cut) (hs : q → ∀ u ∈ cutStates cuts s, JournalSound u ∧ OutsidePages u a)
    (hq : q → Missed a (cutStores cuts s)) : MemoryKept q a s (cutAll cuts s).mem := by
  induction cuts generalizing s with
  | nil => exact .same rfl
  | cons c cuts ih =>
    have hnext : q → ∀ u ∈ cutStates cuts (cutStep s c), JournalSound u ∧ OutsidePages u a :=
      fun h u hu => hs h u (List.mem_cons_of_mem _ hu)
    have hfirst : q → JournalSound (cutStep s c) ∧ OutsidePages (cutStep s c) a :=
      fun h => hnext h _ (mem_cutStates_first cuts _)
    have hc := cutStep_memory (q := q) (a := a) (s := s) c (fun h w hw => hq h w (List.mem_append_left _ hw))
      fun h => (hfirst h).2
    have hrest := ih (s := cutStep s c) hnext fun h w hw => hq h w (List.mem_append_right _ hw)
    exact ⟨hrest.wf ∘ hc.wf, fun h hj ho =>
      (hrest.byte h (hfirst h).1 (hfirst h).2).trans (hc.byte h hj ho)⟩

end

end Sys2Proof.Machine

/-! Every command keeps the canonical form of shared memory and leaves the bytes that it does not store (R53, R54). -/

namespace Sys2Proof.Machine

/-! ## Commands that leave shared memory as it is -/

section
variable {s t : State}

/-- An operation carried out where a condition holds, that leaves memory. -/
theorem mem_when {p : Prop} [Decidable p] (h : t.mem = s.mem) : (if p then t else s).mem = s.mem := by
  split
  · exact h
  · rfl

theorem ScreenLocal.mem {i : Nat} {g : State → State} (h : ScreenLocal i g) (s : State) : (g s).mem = s.mem := by
  rw [h.shape s]

theorem eachScreen_mem {f : Nat → State → State} (hf : ∀ i, ScreenLocal i (f i)) (n : Nat) (s : State) :
    (eachScreen f n s).mem = s.mem := by
  rw [(eachScreen_local hf n s).1]

theorem screenEvent_mem (i : Nat) (f : Screen → Nat → Nat → ScreenState → ScreenState) (s : State) :
    (screenEvent i f s).mem = s.mem := (ScreenLocal.screenEvent i f).mem s

theorem settleClusters_mem (s : State) : (settleClusters s).mem = s.mem := mem_when rfl

theorem offerHead_mem (c : Cluster) (s : State) : (offerHead c s).mem = s.mem := by
  unfold offerHead
  split <;> rfl

theorem runBanner_mem (w : WorkItem) (s : State) : (runBanner w s).mem = s.mem := by
  unfold runBanner
  dsimp only
  split
  · rfl
  · refine eachScreen_mem (f := fun i s => if (w.field 0 4).testBit i then setBanner _ i s else s) (fun i => ?_)
      s.screens.length s
    cases (w.field 0 4).testBit i with
    | true => exact ScreenLocal.setBanner _ i
    | false => exact ScreenLocal.id i

theorem serve_mem (l : LineIx) (s : State) : (serve l s).mem = s.mem := by
  unfold serve
  refine mem_when ?_
  repeat' split
  all_goals rfl

theorem endBackOff_mem (i : Nat) (s : State) : (endBackOff i s).mem = s.mem := by
  unfold endBackOff
  split
  · rfl
  · exact serve_mem _ _

theorem placePing_mem (i : Nat) (s : State) : (placePing i s).mem = s.mem := by
  unfold placePing
  split <;> rfl

theorem access_mem (r : Region) (b n : Nat) (s : State) : (s.access r b n).mem = s.mem := by
  unfold State.access
  split <;> rfl

theorem beginRace_mem (value : Nat) (s : State) : (beginRace value s).mem = s.mem := by
  unfold beginRace
  dsimp only
  repeat' split
  all_goals rfl

theorem startRace_mem (s : State) : (startRace s).mem = s.mem := by
  unfold startRace State.andThen
  split
  · exact access_mem _ _ _ s
  · dsimp only
    split
    · exact access_mem _ _ _ s
    · exact (beginRace_mem _ _).trans (access_mem _ _ _ s)

theorem passTime_mem (s : State) : (passTime s).mem = s.mem := by
  have hlines : (linesGoOn s).mem = s.mem := mem_when rfl
  unfold passTime
  dsimp only
  split <;> exact hlines

end

/-! ## Every command -/

section
variable {q : Prop} {a : Nat} {s : State}

/-- A command of an item of a kind does nothing, or handles the item in flight. -/
theorem runItem_cases {k : WorkKind} {plan : State → WorkItem → ItemPlan}
    (h : ∀ w, w.kind = k → s.planOf (.work w) = some (plan s w)) :
    runItem k plan s = s ∨ runItem k plan s = handleHead s := by
  unfold runItem State.headItem
  cases hi : s.intake with
  | nil => exact .inl rfl
  | cons x rest =>
    cases x with
    | crossing c => exact .inl rfl
    | work w =>
      dsimp only
      by_cases hw : s.working = true ∧ w.kind = k
      · refine .inr ?_
        rw [handleHead_plan hw.1 hi (h w hw.2), if_pos (by simpa using hw)]
        rfl
      · exact .inl (by rw [if_neg (by simpa using hw)])

theorem execLocalCrossing_cases (s : State) :
    stateAfter (execLocalCrossing s) s = s ∨ stateAfter (execLocalCrossing s) s = handleHead s := by
  simp only [execLocalCrossing, stateAfter]
  by_cases hw : s.working = true
  · rw [if_pos hw]
    cases hi : s.intake with
    | nil => exact .inl rfl
    | cons x rest =>
      cases x with
      | work w => exact .inl rfl
      | crossing c => exact .inr (handleHead_plan (x := .crossing c) hw hi rfl).symm
  · exact .inl (if_neg hw)

/-- A command that does nothing, or handles the item in flight. -/
theorem MemoryKept.item {t : State} (hq : q → Missed a (stepStores .item s)) (h : t = s ∨ t = Machine.handleHead s) :
    MemoryKept q a s t.mem := by
  rcases h with rfl | rfl
  · exact .same rfl
  · exact .handleHead fun h => (hq h).lets _

theorem runItem_memory {k : WorkKind} {plan : State → WorkItem → ItemPlan} (hq : q → Missed a (stepStores .item s))
    (h : ∀ w, w.kind = k → s.planOf (.work w) = some (plan s w)) : MemoryKept q a s (runItem k plan s).mem :=
  .item hq (runItem_cases h)

/-- A write of a code to CONTROL: END seals a page, RESET leaves what the steps cut short have written (R12, R17). -/
theorem controlWrite_memory (code : Nat) {cuts : List Cut} (h : MemoryKept q a s (cutAll cuts s).mem) :
    MemoryKept q a s (controlWrite code cuts s).mem := by
  unfold controlWrite
  split
  · exact .same (by split <;> rfl)
  · split
    · exact .same (startRace_mem s)
    · exact .same rfl
  · split
    · exact .endRace ‹_›
    · exact .same rfl
  · exact h
  · exact .same rfl

/-- Every command: what it leaves of shared memory. -/
theorem exec_memory (c : Instr) (hs : q → ∀ u ∈ cutStates (cutsOf c s) s, JournalSound u ∧ OutsidePages u a)
    (hq : q → Missed a (storedBy c s)) (ht : q → OutsidePages (stateAfter (exec c s) s) a) :
    MemoryKept q a s (stateAfter (exec c s) s).mem := by
  have hlets : ∀ {ws}, (q → Missed a ws) → q → Missed a (s.port.lets ws) := fun h hq => (h hq).lets _
  cases c with
  -- the register window, the clock unit and the load
  | load => exact controlWrite_memory 1 (cuts := []) (.same rfl)
  | start => exact controlWrite_memory 2 (cuts := []) (.same rfl)
  | endRace => exact controlWrite_memory 3 (cuts := []) (.same rfl)
  | reset cuts => exact controlWrite_memory 4 (cutAll_memory cuts hs hq)
  | unknownCommand code => exact controlWrite_memory code.toNat (cuts := []) (.same rfl)
  | baseLoWrite v | baseHiWrite v =>
    simp only [exec, execBaseLoWrite, execBaseHiWrite, stateAfter]
    exact .same (by split <;> rfl)
  | sweepWrite v => exact .same (mem_when (by split <;> rfl))
  | causeWrite v | causeEnableWrite v | registerWriteIgnored r v => exact .same rfl
  | loadPassed => exact .load (hlets hq) ht
  | loadFailed => exact .same (mem_when (by split <;> rfl))
  | memoryFault report =>
    simp only [exec, execMemoryFault, stateAfter]
    split
    · exact .same rfl
    · exact cutAll_memory report.cuts hs hq
  | powerOnReset => exact cutAll_memory (Config.underwayAtPowerOn s.picks) hs hq
  | secondMark | clockCeiling => exact .same (mem_when rfl)
  -- mat lines
  | round l => exact .same (mem_when rfl)
  | call l | mark l => exact .same (mem_when (by split <;> rfl))
  | batch l f => exact .matFrame l _ f (.handleBatch l f)
  | empty l f => exact .matFrame l _ f (.handleEmpty l f)
  | busy l f => exact .matFrame l _ f fun _ u => .refl u
  | silence l failed => exact .silence l failed
  -- the crossing assembler
  | draw => exact .draw
  | clusterExpiry point chip => exact .same (mem_when rfl)
  | closedCrossingOffer =>
    refine .same (mem_when ?_)
    split
    · rfl
    · exact (offerHead_mem _ _).trans (settleClusters_mem s)
  -- the work sweep
  | slotVisit => exact .slotVisit (hlets hq)
  | sweepTimer => exact .same (mem_when rfl)
  | itemEnd => exact .itemEnd (hlets hq)
  -- the split unit
  | localCrossing => exact .item hq (execLocalCrossing_cases s)
  | remoteCrossing | startWave | runnerStatus | setWatch | setName | correctSplit =>
    exact runItem_memory hq fun w hk => by simp only [State.planOf, hk]
  -- the screen scheduler
  | screenRequest =>
    refine .same (mem_when ?_)
    split
    · exact screenEvent_mem _ _ s
    · rfl
  | purge =>
    refine .same (mem_when ?_)
    split
    · exact eachScreen_mem (fun i => .screenEvent i _) _ s
    · rfl
  | removal =>
    refine .same (mem_when ?_)
    split
    · exact screenEvent_mem _ _ s
    · rfl
  | entryDue | leaveTime | missed | wakeLeadReached | dimAfter | darkAfter | wakeAgeOut =>
    exact .same (mem_when (screenEvent_mem _ _ s))
  | banner =>
    refine .same (mem_when ?_)
    split
    · rfl
    · exact runBanner_mem _ s
  | bannerExpiry i => exact .same (mem_when ((ScreenLocal.setBanner none i).mem s))
  | statusTimer => exact .statusTimer (hlets hq)
  -- panel lines
  | panelExchange l => exact .same (serve_mem l s)
  | ack l f => exact .panelFrame l _ f .panelAcked
  | wait l f => exact .panelFrame l _ f .panelWaits
  | noReply l failed => exact .noReply l failed
  | backOffEnd i => exact .same (mem_when (endBackOff_mem i s))
  | probeDue i => exact .same (mem_when (placePing_mem i s))
  | clock l => exact .same (mem_when (by split <;> rfl))
  -- the journal writer
  | sealTimer => exact .sealTimer
  | drain => exact .drain
  | flushJournal => exact .flushJournal

end

/-! ## The statements -/

/-- Every command keeps the canonical form, whatever it writes. -/
theorem exec_wf (c : Instr) {s : State} (h : Memory.wf s.mem = true) : Memory.wf (stateAfter (exec c s) s).mem = true :=
  (exec_memory (q := False) (a := 0) c False.elim False.elim False.elim).wf h

/-- Settles O56: the commands of the queue and the part's own events by `exec_wf`; the passing of time leaves memory. -/
theorem memoryStaysCanonical : Obligations.MemoryStaysCanonical := by
  intro s t h hs
  unfold step at hs
  split at hs
  · unfold idle at hs
    split at hs
    · rw [exec_next] at hs
      cases hs
      exact exec_wf _ (s := s.countPick) h
    · cases hs
      rw [passTime_mem]
      exact h
  · rename_i c rest _
    rw [exec_next] at hs
    cases hs
    exact exec_wf c (s := s.withPending rest) h

/-- Settles O55: what `exec_memory` says of a byte that all the writes of the command miss. -/
theorem commandsLeaveOtherBytes : Obligations.CommandsLeaveOtherBytes := by
  intro c s t a he hs hq ht
  rw [exec_next] at he
  cases he
  have hfirst := hs s (mem_cutStates_first (cutsOf c s) s)
  exact (exec_memory (q := True) c (fun _ => hs) (fun _ => hq) fun _ => ht).byte trivial hfirst.1 hfirst.2

end Sys2Proof.Machine

/-! The chip lookup of a local crossing (R50, R93), and how a runner's record and the gun time of its wave are read (R40, R45,
R47). -/

namespace Sys2Proof.Machine

/-! ## The binary search (R50) -/

section
variable (s : State) (L : Loaded) (chip : Word)

/-- The code of an entry of the chip directory. -/
def chipCodeAt (k : Nat) : Nat := s.field (L.chipOffset + 8 * k) 4

/-- The runner index of an entry of the chip directory. -/
def chipRunnerAt (k : Nat) : Nat := s.field (L.chipOffset + 8 * k + 4) 4

/-- The codes of the entries from `lo` up to `hi` rise strictly. -/
def CodesRise (lo hi : Nat) : Prop := ∀ j k, lo ≤ j → j < k → k < hi → chipCodeAt s L j < chipCodeAt s L k

variable {s L chip}

theorem chipSearch_empty {n lo hi : Nat} (h : hi ≤ lo) : chipSearch s L chip n lo hi = ([], none) := by
  cases n with
  | zero => rfl
  | succ n => rw [chipSearch, if_pos h]

/-- The probe of a search finds the code. -/
theorem chipSearch_hit {n lo hi : Nat} (h : lo < hi) (hc : chipCodeAt s L ((lo + hi - 1) / 2) = chip.toNat) :
    chipSearch s L chip (n + 1) lo hi = ([(lo + hi - 1) / 2], some (chipRunnerAt s L ((lo + hi - 1) / 2))) := by
  rw [chipSearch, if_neg (Nat.not_le.2 h)]
  exact if_pos hc

/-- The probe finds a greater code: the search goes on below it. -/
theorem chipSearch_below {n lo hi : Nat} (h : lo < hi) (hc : chip.toNat < chipCodeAt s L ((lo + hi - 1) / 2)) :
    chipSearch s L chip (n + 1) lo hi = ((lo + hi - 1) / 2 :: (chipSearch s L chip n lo ((lo + hi - 1) / 2)).1,
      (chipSearch s L chip n lo ((lo + hi - 1) / 2)).2) := by
  unfold chipCodeAt at hc
  rw [chipSearch, if_neg (Nat.not_le.2 h)]
  dsimp only
  rw [if_neg (Nat.ne_of_gt hc), if_pos hc]

/-- The probe finds a smaller code: the search goes on above it. -/
theorem chipSearch_above {n lo hi : Nat} (h : lo < hi) (hc : chipCodeAt s L ((lo + hi - 1) / 2) < chip.toNat) :
    chipSearch s L chip (n + 1) lo hi = ((lo + hi - 1) / 2 :: (chipSearch s L chip n ((lo + hi - 1) / 2 + 1) hi).1,
      (chipSearch s L chip n ((lo + hi - 1) / 2 + 1) hi).2) := by
  unfold chipCodeAt at hc
  rw [chipSearch, if_neg (Nat.not_le.2 h)]
  dsimp only
  rw [if_neg (Nat.ne_of_lt hc), if_neg (Nat.not_lt.2 hc.le)]

/-- Each probe leaves less than half of the entries: `k` probes are enough for fewer than 2 ^ k. -/
theorem chipSearch_probes {k lo hi : Nat} (n : Nat) (h : hi - lo < 2 ^ k) : (chipSearch s L chip n lo hi).1.length ≤ k := by
  induction k generalizing n lo hi with
  | zero =>
    rw [chipSearch_empty (by simpa [Nat.sub_eq_zero_iff_le] using h)]
    exact Nat.le_refl 0
  | succ k ih =>
    rw [Nat.pow_succ] at h
    cases n with
    | zero => exact Nat.zero_le _
    | succ n =>
      rcases Nat.lt_or_ge lo hi with hlt | hge
      · rcases Nat.lt_trichotomy (chipCodeAt s L ((lo + hi - 1) / 2)) chip.toNat with hc | hc | hc
        · rw [chipSearch_above hlt hc]
          exact Nat.succ_le_succ (ih n (by omega))
        · rw [chipSearch_hit hlt hc]
          exact Nat.succ_le_succ (Nat.zero_le k)
        · rw [chipSearch_below hlt hc]
          exact Nat.succ_le_succ (ih n (by omega))
      · rw [chipSearch_empty hge]
        exact Nat.zero_le _

/-- What is found is the runner of an entry with the code. -/
theorem chipSearch_sound {n lo hi i : Nat} (h : (chipSearch s L chip n lo hi).2 = some i) :
    ∃ k, lo ≤ k ∧ k < hi ∧ chipCodeAt s L k = chip.toNat ∧ i = chipRunnerAt s L k := by
  induction n generalizing lo hi with
  | zero => cases h
  | succ n ih =>
    rcases Nat.lt_or_ge lo hi with hlt | hge
    · rcases Nat.lt_trichotomy (chipCodeAt s L ((lo + hi - 1) / 2)) chip.toNat with hc | hc | hc
      · rw [chipSearch_above hlt hc] at h
        obtain ⟨k, hlo, hhi, hk⟩ := ih h
        exact ⟨k, by omega, hhi, hk⟩
      · rw [chipSearch_hit hlt hc] at h
        cases h
        exact ⟨_, by omega, by omega, hc, rfl⟩
      · rw [chipSearch_below hlt hc] at h
        obtain ⟨k, hlo, hhi, hk⟩ := ih h
        exact ⟨k, hlo, by omega, hk⟩
    · rw [chipSearch_empty hge] at h
      cases h

/-- Among rising codes the search finds the entry with the code, its fuel sufficing. -/
theorem chipSearch_complete {n lo hi k : Nat} (hn : hi - lo < 2 ^ n) (hr : CodesRise s L lo hi) (hlo : lo ≤ k) (hhi : k < hi)
    (hk : chipCodeAt s L k = chip.toNat) : (chipSearch s L chip n lo hi).2 = some (chipRunnerAt s L k) := by
  induction n generalizing lo hi with
  | zero =>
    rw [Nat.pow_zero] at hn
    omega
  | succ n ih =>
    rw [Nat.pow_succ] at hn
    have hlt : lo < hi := by omega
    rcases Nat.lt_trichotomy (chipCodeAt s L ((lo + hi - 1) / 2)) chip.toNat with hc | hc | hc
    · have hkm : (lo + hi - 1) / 2 < k := by
        by_contra hle
        rcases Nat.eq_or_lt_of_le (Nat.not_lt.1 hle) with rfl | hlt'
        · omega
        · have := hr k _ hlo hlt' (by omega)
          omega
      rw [chipSearch_above hlt hc]
      exact ih (by omega) (fun i j hi' hij hj => hr i j (by omega) hij hj) hkm hhi
    · have hkm : k = (lo + hi - 1) / 2 := by
        rcases Nat.lt_trichotomy k ((lo + hi - 1) / 2) with hlt' | heq | hgt
        · have := hr k _ hlo hlt' (by omega)
          omega
        · exact heq
        · have := hr _ k (by omega) hgt hhi
          omega
      rw [chipSearch_hit hlt hc, hkm]
    · have hkm : k < (lo + hi - 1) / 2 := by
        by_contra hle
        rcases Nat.eq_or_lt_of_le (Nat.not_lt.1 hle) with heq | hlt'
        · rw [heq] at hc
          omega
        · have := hr _ k (by omega) hlt' hhi
          omega
      rw [chipSearch_below hlt hc]
      exact ih (by omega) (fun i j hi' hij hj => hr i j hi' hij (by omega)) hlo hkm

/-- Codes that rise from each entry to the next rise strictly. -/
theorem codesRise_of_next {count : Nat} (h : ∀ k, k + 1 < count → chipCodeAt s L k < chipCodeAt s L (k + 1)) :
    CodesRise s L 0 count := by
  intro j k _ hjk hk
  induction k with
  | zero => omega
  | succ k ih =>
    rcases Nat.eq_or_lt_of_le (Nat.le_of_lt_succ hjk) with rfl | hlt
    · exact h j hk
    · exact (ih hlt (by omega)).trans (h k hk)

end

/-! ## A lookup that fails (R93) -/

/-- A lookup that finds no entry, an index that is not below the count, or a record of another chip, gives the STRAY_CHIP
plan. -/
theorem localPlan_stray {s : State} {c : ClosedCrossing}
    (h : ∀ i, (chipSearch s s.config c.chip 32 0 s.config.chipCount).2 = some i →
      s.config.runnerCount ≤ i ∨ (s.readRunner s.config i).chip ≠ c.chip) : ∃ reads, localPlan s c = c.stray reads := by
  unfold localPlan
  dsimp only
  split
  · exact ⟨_, rfl⟩
  · rename_i i hi
    by_cases hcount : s.config.runnerCount ≤ i
    · exact ⟨_, if_pos hcount⟩
    · exact ⟨_, (if_neg hcount).trans (if_pos ((h i hi).resolve_left hcount))⟩

/-- Where no access is refused, the STRAY_CHIP plan hands its record over and writes nothing. -/
theorem planEffect_stray (c : ClosedCrossing) (reads : List (Region × Nat × Nat)) (s : State) :
    planEffect (c.stray reads) none s = itemDone none [] (s.record (chipException .strayChip c.point c.chip c.time)) := by
  simp [planEffect, ClosedCrossing.stray, Memory.writeAll, handAll, State.record]

theorem localCrossing_stray {s : State} {c : ClosedCrossing} {rest : List IntakeItem} (hw : s.working = true) (ha : Accepting s)
    (hi : s.intake = .crossing c :: rest)
    (h : ∀ i, (chipSearch s s.config c.chip 32 0 s.config.chipCount).2 = some i →
      s.config.runnerCount ≤ i ∨ (s.readRunner s.config i).chip ≠ c.chip) :
    exec .localCrossing s = .next (itemDone none [] (s.record (chipException .strayChip c.point c.chip c.time))) := by
  obtain ⟨reads, hp⟩ := localPlan_stray h
  have hexec : exec .localCrossing s = .next ((localPlan s c).run none s) := by
    simp only [exec, execLocalCrossing, hw, hi, if_true]
  rw [hexec, hp, ItemPlan.run_quiet _ _ ha (State.working_running hw), planEffect_stray]

/-! ## Runner records and gun times (R40, R45, R47) -/

theorem Status.ofCode_code {n : Nat} (h : n ≤ 4) : (Status.ofCode n).code = n := by
  interval_cases n <;> rfl

theorem Status.ofCode_out_of_range {n : Nat} (h : 4 < n) : Status.ofCode n = .registered := by
  unfold Status.ofCode
  split
  case h_5 => rfl
  all_goals omega

theorem readRunner_slot {s : State} {L : Loaded} {i p : Nat} (h : p < L.pointCount) :
    (s.readRunner L i).slot p = s.readSlot L i p := by
  simp [Runner.slot, State.readRunner, h]

theorem readRunner_slot_none {s : State} {L : Loaded} {i p : Nat} (h : L.pointCount ≤ p) :
    (s.readRunner L i).slot p = ⟨none, 0⟩ := by
  simp [Runner.slot, State.readRunner, h]

/-- A runner has a split present: a start time, or a time in a slot above slot 0 (R47). -/
theorem Runner.hasSplit_iff (r : Runner) {count : Nat} (h : 0 < count) :
    r.hasSplit count = true ↔ r.start.isSome = true ∨ ∃ p, 1 ≤ p ∧ p < count ∧ (r.slot p).time.isSome = true := by
  simp only [Runner.hasSplit, List.any_eq_true, List.mem_range]
  constructor
  · rintro ⟨p, hp, ht⟩
    cases p with
    | zero => exact .inl ht
    | succ p => exact .inr ⟨p + 1, Nat.le_add_left 1 p, hp, ht⟩
  · rintro (ht | ⟨p, h1, hp, ht⟩)
    · exact ⟨0, h, ht⟩
    · refine ⟨p, hp, ?_⟩
      rw [Runner.timeAt, if_neg (by omega)]
      exact ht

/-- Settles O29: the search by its probes, the lookup that fails by its plan, the record field by field. -/
theorem chipLookupFindsOrRefuses : Obligations.ChipLookupFindsOrRefuses := by
  refine ⟨fun s L chip hcount => ⟨?_, fun hpos => ?_, fun hnext => ⟨fun k hk hc => ?_, fun hnone => ?_⟩⟩,
    fun c rest s hw ha hi h => localCrossing_stray hw ha hi h, fun s L i => ?_⟩
  · exact chipSearch_probes 32 (by omega)
  · exact chipSearch_first s L chip 31 hpos
  · exact chipSearch_complete (by omega) (codesRise_of_next hnext) (Nat.zero_le k) hk hc
  · refine Option.eq_none_iff_forall_ne_some.2 fun i hi => ?_
    obtain ⟨k, -, hk, hc, -⟩ := chipSearch_sound hi
    exact hnone k hk hc
  · refine ⟨rfl, rfl, rfl, fun w hw => ?_, fun hw => ?_, Status.ofCode_code, Status.ofCode_out_of_range, ?_, rfl, rfl, rfl,
      fun p hp => ?_, fun p => readRunner_slot_none, Runner.hasSplit_iff _⟩
    · rw [State.runnerGun, hw]
      rfl
    · rw [State.runnerGun, hw]
      rfl
    · exact (Nat.min_def ..).symm
    · rw [readRunner_slot hp, State.readSlot]
      simp only [runnerOffset, slotOffset, ← Nat.add_assoc]
      rfl

end Sys2Proof.Machine

/-! Mat lines: rounds and calls, silences, and what each kind of reply does (R56, R57, R61 to R70). -/

namespace Sys2Proof.Machine

/-! ## Rounds and calls (R56, R57) -/

section
variable {l : LineIx} {s : State}

/-- The decoder at an address is one that the round calls. -/
theorem callable_iff {a : Nat} :
    (s.decoders[matAt l a]).callable s.matLines[l].round = true ↔ Calls l a s := by
  simp [Decoder.callable, Calls]

/-- The round has no call left: each address it has yet to visit is passed over. -/
theorem nextCall_none (h : ∀ a, 1 ≤ a → a ≤ 4 → s.matLines[l].nextAddress ≤ a → ¬ Calls l a s) : s.nextCall l = none := by
  refine List.find?_eq_none.2 fun a ha hc => ?_
  rw [Bool.and_eq_true, decide_eq_true_eq, callable_iff] at hc
  have hrange : 1 ≤ a ∧ a ≤ 4 := by simp at ha; omega
  exact h a hrange.1 hrange.2 hc.1 hc.2

/-- The next call goes to the first address, of those not yet visited, that the round calls. -/
theorem nextCall_some {a : Nat} (h1 : 1 ≤ a) (h4 : a ≤ 4) (hn : s.matLines[l].nextAddress ≤ a) (hc : Calls l a s)
    (hb : ∀ b, 1 ≤ b → b < a → s.matLines[l].nextAddress ≤ b → ¬ Calls l b s) : s.nextCall l = some a := by
  have hlist : [1, 2, 3, 4] = List.range' 1 (a - 1) ++ a :: List.range' (a + 1) (4 - a) := by
    interval_cases a <;> rfl
  unfold State.nextCall
  rw [hlist, List.find?_append, List.find?_eq_none.2, Option.none_or, List.find?_cons_of_pos]
  · rw [Bool.and_eq_true, decide_eq_true_eq, callable_iff]
    exact ⟨hn, hc⟩
  · intro b hm hbc
    rw [Bool.and_eq_true, decide_eq_true_eq, callable_iff] at hbc
    rw [List.mem_range'_1] at hm
    exact hb b hm.1 (by omega) hbc.1 hbc.2

end

/-- Settles O16: the next call is the first address not yet visited that the round calls. -/
theorem roundsAndCalls : Obligations.RoundsAndCalls := by
  intro l s hp hx
  refine ⟨fun hnone htime => ?_, fun a h1 h4 hn hc hmark hb => ?_⟩
  · have hready : roundReady l s = true := by
      simp only [roundReady, hp, hx, nextCall_none hnone, State.elapsed, decide_eq_true htime, Option.isNone_none, Bool.and_self]
    rw [exec, execRound, if_pos hready]
    rfl
  · have hnext := nextCall_some h1 h4 hn hc hb
    have hready : callReady l s = true := by
      simp only [callReady, hp, hx, hmark, hnext, Option.isNone_none, Option.isSome_some, Bool.and_self]
    rw [exec, execCall, if_pos hready, hnext]
    rfl

/-! ## Silences (R57, R69) -/

section
variable {l : LineIx} {e : Exchange} {s : State}

/-- SILENCE at the end of an exchange that brought no reply. -/
theorem exec_silence {failed : Bool} (hw : s.working = true) (hx : s.matLines[l].exchange = some e)
    (h : failed = true ∨ (e.closes ≤ s.localTime ∧ e.receiving = false)) :
    exec (.silence l failed) s = .next (silence l e.target s) := by
  have hready : silenceReady l failed s = true := by
    rw [silenceReady, hw, hx]
    simpa [Exchange.unanswered] using h
  rw [exec, execSilence, if_pos hready, hx]

/-- While a frame begun in the window is being received, its close is no silence (R57). -/
theorem exec_silence_receiving (hx : s.matLines[l].exchange = some e) (h : e.receiving = true) :
    exec (.silence l false) s = .next s := by
  have hready : silenceReady l false s = false := by
    rw [silenceReady, hx]
    simp [Exchange.unanswered, h]
  rw [exec, execSilence, hready]
  rfl

/-- A silence that makes no decoder SILENT changes the count and ends the exchange. -/
theorem silence_counts {a : Nat} (h : (s.decoders[matAt l a]).fallsSilent = false) :
    silence l a s = { s with
      decoders := s.decoders.set (matAt l a) (s.decoders[matAt l a]).silenced
      matLines := s.matLines.set l { s.matLines[l] with exchange := none } } := by
  unfold silence
  dsimp only
  rw [h]
  rfl

/-- A silence that makes a decoder SILENT sets LINE_FAULT and hands its record over last (log entry 37). -/
theorem silence_falls {a : Nat} (h : (s.decoders[matAt l a]).fallsSilent = true) :
    silence l a s = State.record (lineRecord .decoderSilent l a (matAt l a).val s.raceClock) { s with
      decoders := s.decoders.set (matAt l a) (s.decoders[matAt l a]).silenced
      matLines := s.matLines.set l { s.matLines[l] with exchange := none }
      cause    := s.cause ||| 0x020#9 } := by
  unfold silence
  dsimp only
  rw [if_pos h]
  rfl

end

/-- A silence of a SILENT decoder at 3 leaves its record as it is. -/
theorem Decoder.silenced_same {d : Decoder} (h3 : d.silentCount = 3) (hs : d.silent = true) : d.silenced = d := by
  cases d
  cases h3
  cases hs
  rfl

theorem silentAfter_of_lt {n : Nat} (h : n < 2) : silentAfter n = n + 1 := if_pos (by omega)

theorem silentAfter_third {n : Nat} (h : 2 ≤ n) : silentAfter n = 3 := by
  unfold silentAfter
  split <;> omega

/-- Settles O19: by the silent count and whether the decoder is SILENT. -/
theorem silencesAreCounted : Obligations.SilencesAreCounted := by
  intro l failed e s hw hx
  refine ⟨fun hf hr => hf ▸ exec_silence_receiving hx hr, fun hend => ?_⟩
  dsimp only
  rw [exec_silence hw hx hend]
  refine ⟨fun hlt => ?_, fun hge hact => ?_, fun h3 hsil => ?_⟩
  · have hne : (silentAfter (s.decoders[matAt l e.target]).silentCount == 3) = false := by
      rw [silentAfter_of_lt hlt, beq_eq_false_iff_ne]
      omega
    rw [silence_counts (by rw [Decoder.fallsSilent, hne, Bool.and_false]), Decoder.silenced, hne, silentAfter_of_lt hlt,
      Bool.or_false]
  · rw [silence_falls (by rw [Decoder.fallsSilent, hact, silentAfter_third hge]; rfl), Decoder.silenced,
      silentAfter_third hge, beq_self_eq_true, Bool.or_true]
  · rw [silence_counts (by rw [Decoder.fallsSilent, hsil]; rfl), Decoder.silenced_same h3 hsil]
    simp

/-! ## Which frames are replies (R57, R169, R186) -/

theorem expectedLength_batch {payload : List Byte} : expectedLength 0x81 payload = some payload.length ↔
    ∃ number count rest, payload = number :: count :: rest ∧ count.toNat ≤ 16 ∧ rest.length = 10 * count.toNat := by
  unfold expectedLength
  rw [if_pos rfl]
  match payload with
  | [] | [_] => simp
  | number :: count :: rest =>
    simp only [List.length_cons, List.cons.injEq]
    split
    next h =>
      rw [Option.some.injEq]
      refine ⟨fun hl => ⟨number, count, rest, ⟨rfl, rfl, rfl⟩, h, by omega⟩, ?_⟩
      rintro ⟨_, _, _, ⟨rfl, rfl, rfl⟩, -, hl⟩
      omega
    next h =>
      refine ⟨fun hl => (nomatch hl), ?_⟩
      rintro ⟨_, _, _, ⟨rfl, rfl, rfl⟩, hc, -⟩
      exact absurd hc h

theorem expectedLength_empty {payload : List Byte} :
    expectedLength 0x82 payload = some payload.length ↔ payload.length = 1 := by
  unfold expectedLength
  rw [if_neg (by decide), if_pos rfl, Option.some.injEq, eq_comm]

theorem expectedLength_bare {type : Byte} {payload : List Byte} (h : type = 0x83 ∨ type = 0x91 ∨ type = 0x92) :
    expectedLength type payload = some payload.length ↔ payload = [] := by
  have hb : type ≠ typeBatch := by rcases h with rfl | rfl | rfl <;> decide
  have he : type ≠ typeEmpty := by rcases h with rfl | rfl | rfl <;> decide
  unfold expectedLength
  rw [if_neg hb, if_neg he, if_pos h, Option.some.injEq, eq_comm, List.length_eq_zero_iff]

theorem expectedLength_other {type : Byte} (payload : List Byte) (hb : type ≠ 0x81) (he : type ≠ 0x82)
    (h : ¬ (type = 0x83 ∨ type = 0x91 ∨ type = 0x92)) : expectedLength type payload = none := by
  unfold expectedLength
  rw [if_neg hb, if_neg he, if_neg h]

/-- The payload has the length its type gives it: a BATCH that of its count, an EMPTY 1, the others 0 (R57, spec 12.6). -/
theorem expectedLength_iff {type : Byte} {payload : List Byte} : expectedLength type payload = some payload.length ↔
    (type = 0x81 ∧ ∃ number count rest, payload = number :: count :: rest ∧ count.toNat ≤ 16
        ∧ rest.length = 10 * count.toNat) ∨
      (type = 0x82 ∧ payload.length = 1) ∨ ((type = 0x83 ∨ type = 0x91 ∨ type = 0x92) ∧ payload = []) := by
  constructor
  · intro h
    by_cases hb : type = 0x81
    · subst hb
      exact .inl ⟨rfl, expectedLength_batch.1 h⟩
    by_cases he : type = 0x82
    · subst he
      exact .inr (.inl ⟨rfl, expectedLength_empty.1 h⟩)
    by_cases ht : type = 0x83 ∨ type = 0x91 ∨ type = 0x92
    · exact .inr (.inr ⟨ht, (expectedLength_bare ht).1 h⟩)
    · rw [expectedLength_other payload hb he ht] at h
      cases h
  · rintro (⟨rfl, h⟩ | ⟨rfl, h⟩ | ⟨ht, h⟩)
    · exact expectedLength_batch.2 h
    · exact expectedLength_empty.2 h
    · exact (expectedLength_bare ht).2 h

/-- The tests of R186. -/
theorem RxFrame.isReply_iff (f : RxFrame) (type : Byte) (called : Nat) : RxFrame.isReply f type called = true ↔
    f.address.toNat = called ∧ f.payload.length = f.length.toNat ∧ crc (f.address :: type :: f.length :: f.payload) = f.check ∧
      expectedLength type f.payload = some f.payload.length := by
  simp only [RxFrame.isReply, Bool.and_eq_true, decide_eq_true_eq]
  constructor
  · rintro ⟨⟨⟨ha, hl⟩, he⟩, hc⟩
    exact ⟨ha, hl, hc, hl ▸ he⟩
  · rintro ⟨ha, hl, hc, he⟩
    exact ⟨⟨⟨ha, hl⟩, hl ▸ he⟩, hc⟩

section
variable {l : LineIx} {e : Exchange} {f : RxFrame} {s : State} {type : Byte}

/-- A frame that begins in the window, no later than now, is acted on. -/
theorem window_holds (hw : s.working = true) (hopen : e.opened ≤ f.begun) (hclose : f.begun < e.closes)
    (hnow : f.begun ≤ s.localTime) : (s.working && e.holds f.begun && decide (f.begun ≤ s.localTime)) = true := by
  simp [Exchange.holds, hw, hopen, hclose, hnow]

/-- A frame that begins outside the window of the line's exchange, or while the blocks do not work, is not. -/
theorem window_misses {x : Option Exchange} (hx : x = some e) (h : x = none ∨ s.working = false ∨
    ∃ e, x = some e ∧ (f.begun < e.opened ∨ e.closes ≤ f.begun)) :
    (s.working && e.holds f.begun && decide (f.begun ≤ s.localTime)) = false := by
  subst hx
  rcases h with hn | hw | ⟨e', he, hout⟩
  · cases hn
  · rw [hw]
    rfl
  · cases he
    have hholds : e.holds f.begun = false := by
      simp only [Exchange.holds, Bool.and_eq_false_iff, decide_eq_false_iff_not]
      omega
    rw [hholds, Bool.and_false]
    rfl

/-- Outside a reply window, or while the blocks do not work, a frame on a mat line is disregarded (R57). -/
theorem matFrame_outside {handle : Nat → State → State} (h : s.matLines[l].exchange = none ∨ s.working = false ∨
    ∃ e, s.matLines[l].exchange = some e ∧ (f.begun < e.opened ∨ e.closes ≤ f.begun)) : matFrame l type f handle s = s := by
  unfold matFrame
  split
  · rfl
  · next e hx => rw [window_misses hx h, if_neg Bool.false_ne_true]

/-- The same on a panel line (R169). -/
theorem panelFrame_outside {act : Nat → Panel → State → State} (h : s.panelLines[l].exchange = none ∨ s.working = false ∨
    ∃ e, s.panelLines[l].exchange = some e ∧ (f.begun < e.opened ∨ e.closes ≤ f.begun)) :
    panelFrame l type f act s = s := by
  unfold panelFrame
  split
  · rfl
  · next e hx => rw [window_misses hx h, if_neg Bool.false_ne_true]

/-- A frame on a mat line that begins in the window and is no reply ends the exchange as a failed reception does (R69). -/
theorem matFrame_noReply {handle : Nat → State → State} (hx : s.matLines[l].exchange = some e) (hw : s.working = true)
    (hopen : e.opened ≤ f.begun) (hclose : f.begun < e.closes) (hnow : f.begun ≤ s.localTime)
    (hr : RxFrame.isReply f type e.target = false) :
    Host.Outcome.next (matFrame l type f handle s) = exec (.silence l true) s := by
  rw [exec_silence hw hx (.inl rfl), matFrame, hx]
  dsimp only
  rw [if_pos (window_holds hw hopen hclose hnow), hr]
  rfl

/-- NO_REPLY at the end of a failed reception (R171). -/
theorem exec_noReply_failed (hx : s.panelLines[l].exchange = some e) (hw : s.working = true) :
    exec (.noReply l true) s = .next (concludeExchange l e.target panelMissed s) := by
  have hready : noReplyReady l true s = true := by
    rw [noReplyReady, hw, hx]
    rfl
  rw [exec, execNoReply, if_pos hready, hx]

/-- A frame on a panel line that begins in the window and is no reply ends the exchange as a failed reception does (R171). -/
theorem panelFrame_noReply {act : Nat → Panel → State → State} {p : Panel} (hx : s.panelLines[l].exchange = some e)
    (hp : s.panels[e.target]? = some p) (hw : s.working = true) (hopen : e.opened ≤ f.begun) (hclose : f.begun < e.closes)
    (hnow : f.begun ≤ s.localTime) (hr : RxFrame.isReply f type p.address = false) :
    Host.Outcome.next (panelFrame l type f act s) = exec (.noReply l true) s := by
  rw [exec_noReply_failed hx hw, panelFrame, hx]
  dsimp only
  rw [if_pos (window_holds hw hopen hclose hnow), hp]
  change Host.Outcome.next (if RxFrame.isReply f type p.address = true then _ else _) = _
  rw [hr]
  rfl

end

/-- Settles O20: a frame by its beginning, a reply by the tests of R186. -/
theorem onlyWholeFramesAreReplies : Obligations.OnlyWholeFramesAreReplies := by
  refine ⟨fun l f s => ⟨fun h => ?_, fun h => ?_, fun e hx hw hopen hclose hnow => ?_,
    fun e p hx hp hw hopen hclose hnow => ?_⟩, fun f type called => ?_⟩
  · exact ⟨congrArg _ (matFrame_outside h), congrArg _ (matFrame_outside h), congrArg _ (matFrame_outside h)⟩
  · exact ⟨congrArg _ (panelFrame_outside h), congrArg _ (panelFrame_outside h)⟩
  · exact ⟨matFrame_noReply hx hw hopen hclose hnow, matFrame_noReply hx hw hopen hclose hnow,
      matFrame_noReply hx hw hopen hclose hnow⟩
  · exact ⟨panelFrame_noReply hx hp hw hopen hclose hnow, panelFrame_noReply hx hp hw hopen hclose hnow⟩
  · rw [RxFrame.isReply_iff, expectedLength_iff]

/-! ## Replies (R57, R70) -/

section
variable {l : LineIx} {e : Exchange} {f : RxFrame} {s : State} {type : Byte}

theorem ReplyTo.working {called : Nat} (h : ReplyTo e type called f s) : s.working = true := h.1

/-- What a record handed over leaves of the mat lines and the clock where no access is refused. -/
theorem record_kept (r : JRecord) (ha : Accepting s) (he : s.engine ≠ .halted) :
    (s.record r).engine = s.engine ∧ (s.record r).raceClock = s.raceClock ∧ (s.record r).matLines = s.matLines
      ∧ (s.record r).decoders = s.decoders ∧ Accepting (s.record r) := by
  obtain ⟨m, c, j, hq⟩ := handRecord_quiet r ha he
  rw [State.record, hq]
  exact ⟨rfl, rfl, rfl, rfl, ha⟩

/-- What every reply leaves as it was, and the decoder's record after it (R70). -/
theorem afterReply_kept (a : Nat) (hw : s.working = true) (ha : Accepting s) :
    (afterReply l a s).engine = s.engine ∧ (afterReply l a s).raceClock = s.raceClock
      ∧ (afterReply l a s).matLines = s.matLines
      ∧ (afterReply l a s).decoders =
        s.decoders.set (matAt l a) { s.decoders[matAt l a] with silent := false, silentCount := 0 }
      ∧ Accepting (afterReply l a s) := by
  unfold afterReply
  dsimp only
  split
  · exact record_kept _ (s := s.withDecoder (matAt l a) { s.decoders[matAt l a] with silent := false, silentCount := 0 }) ha
      (State.working_running hw)
  · exact ⟨rfl, rfl, rfl, rfl, ha⟩

/-- A reply in the window is acted on as any reply, then handled by its kind, and the exchange ends. -/
theorem matFrame_reply {handle : Nat → State → State} (hx : s.matLines[l].exchange = some e)
    (hr : ReplyTo e type e.target f s) (ha : Accepting s)
    (hh : (handle e.target (afterReply l e.target s)).engine ≠ .halted) :
    matFrame l type f handle s = endCall l (handle e.target (afterReply l e.target s)) := by
  obtain ⟨hw, hopen, hclose, hnow, hreply⟩ := hr
  have hrun : (decoderReplied l e.target s).engine ≠ .halted :=
    (afterReply_kept e.target hw ha).1.trans_ne (State.working_running hw)
  unfold matFrame
  rw [hx]
  dsimp only
  rw [if_pos (window_holds hw hopen hclose hnow), if_pos hreply, State.andThen_running _ hrun]
  exact State.andThen_running _ hh

/-- The exchange ends in a state whose mat lines are those of another. -/
theorem endCall_eq {u : State} (h : u.matLines = s.matLines) :
    endCall l u = { u with matLines := s.matLines.set l { s.matLines[l] with exchange := none } } := by
  rw [endCall, State.withMatLine, h]

end

/-! ## BATCH (R61 to R64) -/

/-- The reads of a BATCH are as many as it counts. -/
theorem batchReads_length (m : Fin 8) (n : Nat) (bs : List Byte) : (batchReads m n bs).length = n := by
  induction n generalizing bs with
  | zero => rfl
  | succ n ih => rw [batchReads, List.length_cons, ih]

/-- Each read of a BATCH stands in ten bytes of the payload (spec 12.6). -/
theorem batchReads_getElem? (m : Fin 8) {n k : Nat} (bs : List Byte) (h : k < n) : (batchReads m n bs)[k]? = some
    { chip     := toWord (leValue ((bs.drop (10 * k)).take 4))
      stamp    := leValue ((bs.drop (4 + 10 * k)).take 4)
      strength := bs.getD (8 + 10 * k) 0
      mat      := m } := by
  induction n generalizing k bs with
  | zero => omega
  | succ n ih =>
    cases k with
    | zero => rfl
    | succ k =>
      rw [batchReads, List.getElem?_cons_succ, ih _ (by omega)]
      simp [List.drop_drop, List.getD_eq_getElem?_getD, Nat.mul_succ, Nat.add_comm, Nat.add_left_comm]

namespace Decoder

variable {d : Decoder} {number : Byte} {reads : List Read} {prep : Bool}

theorem offered_repeat (h : d.lastTaken = some number) : d.offered prep number reads = (d, true) := if_pos h

theorem offered_prep (h : d.lastTaken ≠ some number) :
    d.offered true number reads = ({ d with lastTaken := some number }, true) := by
  rw [offered, if_neg h]
  rfl

theorem takes_iff {count : Nat} : d.takes count = true ↔ d.hold = false ∧ d.buffer.length + count ≤ 64 := by
  simp [takes, Config.landingCapacity]

theorem offered_taken (h : d.lastTaken ≠ some number) (hh : d.hold = false) (hr : d.buffer.length + reads.length ≤ 64) :
    d.offered false number reads = ({ d with buffer := d.buffer ++ reads, lastTaken := some number }, true) := by
  rw [offered, if_neg h, if_neg Bool.false_ne_true, if_pos (takes_iff.2 ⟨hh, hr⟩)]

theorem offered_held (h : d.lastTaken ≠ some number) (hr : d.hold = true ∨ 64 < d.buffer.length + reads.length) :
    d.offered false number reads = ({ d with hold := true }, false) := by
  have ht : ¬ d.takes reads.length = true := by
    rw [takes_iff]
    rintro ⟨hh, hfree⟩
    rcases hr with hhold | hfull
    · simp [hh] at hhold
    · omega
  rw [offered, if_neg h, if_neg Bool.false_ne_true, if_neg ht]

end Decoder

/-- What handling a BATCH leaves, by what its decoder makes of it. -/
theorem handleBatch_eq {l : LineIx} {a : Nat} {f : RxFrame} {u : State} {d : Decoder} {taken : Bool}
    (h : (u.decoders[matAt l a]).offered (decide (u.engine = .prep)) (f.payload.getD 0 0)
      (batchReads (matAt l a) (f.payload.getD 1 0).toNat (f.payload.drop 2)) = (d, taken)) :
    handleBatch l f a u = { u with
      decoders := u.decoders.set (matAt l a) d
      matLines := u.matLines.set l { u.matLines[l] with
        sent := if taken then frameBytes (BitVec.ofNat 8 a) 0x02 [f.payload.getD 0 0]
                else frameBytes (BitVec.ofNat 8 a) 0x03 [] } } := by
  unfold handleBatch
  dsimp only
  rw [h]
  cases taken <;> rfl

/-- What a BATCH reply leaves: the decoder's record, the answer sent, the exchange at its end. -/
theorem exec_batch_reply {l : LineIx} {e : Exchange} {f : RxFrame} {s : State} (hx : s.matLines[l].exchange = some e)
    (hr : ReplyTo e 0x81 e.target f s) (ha : Accepting s) {d : Decoder} {taken : Bool}
    (hd : Decoder.offered (decide (s.engine = .prep)) (f.payload.getD 0 0)
      (batchReads (matAt l e.target) (f.payload.getD 1 0).toNat (f.payload.drop 2))
      { s.decoders[matAt l e.target] with silent := false, silentCount := 0 } = (d, taken)) :
    exec (.batch l f) s = .next { afterReply l e.target s with
      decoders := s.decoders.set (matAt l e.target) d
      matLines := s.matLines.set l { s.matLines[l] with
        exchange := none
        sent     := if taken then frameBytes (BitVec.ofNat 8 e.target) 0x02 [f.payload.getD 0 0]
                    else frameBytes (BitVec.ofNat 8 e.target) 0x03 [] } } := by
  obtain ⟨he, -, hm, hdec, -⟩ := afterReply_kept (l := l) e.target hr.working ha
  have hhandle := handleBatch_eq (l := l) (a := e.target) (f := f) (u := afterReply l e.target s) (d := d) (taken := taken)
    (by rw [he, hdec, ← hd]; simp)
  rw [exec, execBatch, matFrame_reply hx hr ha, hhandle, hm, hdec]
  · simp [endCall, State.withMatLine]
  · rw [hhandle]
    exact he.trans_ne (State.working_running hr.working)

/-- Settles O17: by what the decoder makes of the BATCH. -/
theorem batchIsTakenOrHeld : Obligations.BatchIsTakenOrHeld := by
  intro l e f s hx hr ha
  dsimp only
  rw [batchReads_length]
  refine ⟨⟨rfl, fun k hk => ?_⟩, fun hrep => ?_, fun hnew hprep => ?_, fun hnew hprep hhold hroom => ?_,
    fun hnew hprep hfull => ?_⟩
  · rw [batchReads_getElem? _ _ hk]
    simp [List.drop_drop, List.getD_eq_getElem?_getD, ← Nat.add_assoc]
  · exact exec_batch_reply (taken := true) hx hr ha (Decoder.offered_repeat hrep)
  · refine exec_batch_reply (taken := true) hx hr ha ?_
    rw [decide_eq_true hprep]
    exact Decoder.offered_prep hnew
  · refine exec_batch_reply (taken := true) hx hr ha ?_
    rw [decide_eq_false hprep]
    exact Decoder.offered_taken hnew hhold (by rw [batchReads_length]; exact hroom)
  · refine exec_batch_reply (taken := false) hx hr ha ?_
    rw [decide_eq_false hprep]
    exact Decoder.offered_held hnew (by rw [batchReads_length]; exact hfull)

/-! ## EMPTY and BUSY (R67, R68) -/

theorem State.withDecoder_self (m : Fin 8) (u : State) : u.withDecoder m u.decoders[m] = u := by
  simp [State.withDecoder]

/-- EMPTY with the antenna fault flag as the indicator has it. -/
theorem handleEmpty_same {l : LineIx} {a : Nat} {f : RxFrame} {u : State}
    (h : (u.decoders[matAt l a]).antennaFault = (f.payload.getD 0 0).getLsbD 0) : handleEmpty l f a u = u := by
  unfold handleEmpty
  dsimp only
  rw [if_pos h, ← h]
  exact State.withDecoder_self _ u

/-- EMPTY with another antenna fault flag: the indicator, then the record. -/
theorem handleEmpty_differs {l : LineIx} {a : Nat} {f : RxFrame} {u : State} {v : Vector Decoder 8} {d : Decoder}
    {clock : Nat} (hd : u.decoders = v.set (matAt l a) d) (hc : u.raceClock = clock)
    (h : d.antennaFault ≠ (f.payload.getD 0 0).getLsbD 0) :
    handleEmpty l f a u = State.record
      (lineRecord (if (f.payload.getD 0 0).getLsbD 0 then .antennaFault else .antennaClear) l a (matAt l a).val clock)
      { u with decoders := v.set (matAt l a) { d with antennaFault := (f.payload.getD 0 0).getLsbD 0 } } := by
  subst hc
  have hget : u.decoders[matAt l a] = d := by rw [hd]; simp
  unfold handleEmpty
  dsimp only
  rw [hget, if_neg h, State.withDecoder, hd, Vector.set_set]
  rfl

/-- Handling an EMPTY leaves the engine and the mat lines as they were. -/
theorem handleEmpty_kept {l : LineIx} {a : Nat} {f : RxFrame} {u : State} (ha : Accepting u) (he : u.engine ≠ .halted) :
    (handleEmpty l f a u).engine = u.engine ∧ (handleEmpty l f a u).matLines = u.matLines := by
  unfold handleEmpty
  dsimp only
  split
  · exact ⟨rfl, rfl⟩
  · obtain ⟨hengine, -, hlines, -⟩ := record_kept
      (decoderRecord (if (f.payload.getD 0 0).getLsbD 0 then .antennaFault else .antennaClear) l a u)
      (s := u.withDecoder (matAt l a) { u.decoders[matAt l a] with antennaFault := (f.payload.getD 0 0).getLsbD 0 }) ha he
    exact ⟨hengine, hlines⟩

/-- An EMPTY reply ends the exchange once it is handled. -/
theorem exec_empty_reply {l : LineIx} {e : Exchange} {f : RxFrame} {s : State} (hx : s.matLines[l].exchange = some e)
    (hr : ReplyTo e 0x82 e.target f s) (ha : Accepting s) :
    exec (.empty l f) s = .next { handleEmpty l f e.target (afterReply l e.target s) with
      matLines := s.matLines.set l { s.matLines[l] with exchange := none } } := by
  obtain ⟨he, -, hm, -, hacc⟩ := afterReply_kept (l := l) e.target hr.working ha
  have hrun := he.trans_ne (State.working_running hr.working)
  obtain ⟨he', hm'⟩ := handleEmpty_kept (l := l) (a := e.target) (f := f) hacc hrun
  rw [exec, execEmpty, matFrame_reply hx hr ha (he'.trans_ne hrun), endCall_eq (hm'.trans hm)]

/-- A BUSY reply ends the exchange and does nothing more (R67). -/
theorem exec_busy_reply {l : LineIx} {e : Exchange} {f : RxFrame} {s : State} (hx : s.matLines[l].exchange = some e)
    (hr : ReplyTo e 0x83 e.target f s) (ha : Accepting s) :
    exec (.busy l f) s = .next { afterReply l e.target s with
      matLines := s.matLines.set l { s.matLines[l] with exchange := none } } := by
  obtain ⟨he, -, hm, -, -⟩ := afterReply_kept (l := l) e.target hr.working ha
  rw [exec, execBusy, matFrame_reply hx hr ha (he.trans_ne (State.working_running hr.working)), endCall_eq hm]

/-- Settles O18: BUSY leaves what any reply leaves, EMPTY compares the flag with the indicator. -/
theorem emptyAndBusyAreReplies : Obligations.EmptyAndBusyAreReplies := by
  intro l e f s hx ha
  refine ⟨fun hr => exec_busy_reply hx hr ha, fun hr hsame => ?_, fun hr hdiff => ?_⟩
  · obtain ⟨-, -, -, hdec, -⟩ := afterReply_kept (l := l) e.target hr.working ha
    rw [exec_empty_reply hx hr ha, handleEmpty_same]
    rw [hdec, ← hsame]
    simp
  · obtain ⟨-, hclock, -, hdec, -⟩ := afterReply_kept (l := l) e.target hr.working ha
    rw [exec_empty_reply hx hr ha, handleEmpty_differs hdec hclock hdiff]

end Sys2Proof.Machine

/-! Draws: the buffer served, the read tested, and where it goes (R66, R73 to R77, R81). -/

namespace Sys2Proof.Machine

section
variable {s : State}

/-- The assembler before a draw: in RACE no cluster's deadline is behind it (R77, R81). -/
theorem settleClusters_eq (s : State) : settleClusters s = s.withAssembler (atClock s) := by
  unfold settleClusters atClock
  split
  next h => simp [h, Assembler.expire, Cluster.close, Bool.and_eq_true]
  next h => simp [h, State.withAssembler]

/-- The arbiter serves the first buffer, from its position on, that holds a read (R73). -/
theorem served_eq {j : Nat} (hj : j < 8) (hr : (s.decoders[s.assembler.arbiter + Fin.ofNat 8 j]).buffer ≠ [])
    (hk : ∀ k, k < j → (s.decoders[s.assembler.arbiter + Fin.ofNat 8 k]).buffer = []) :
    s.served = some (s.assembler.arbiter + Fin.ofNat 8 j) := by
  have hlist : List.range 8 = List.range j ++ j :: List.range' (j + 1) (7 - j) := by
    interval_cases j <;> rfl
  unfold State.served arbiterOrder
  rw [hlist, List.map_append, List.map_cons, List.find?_append, List.find?_eq_none.2, Option.none_or, List.find?_cons_of_pos]
  · simpa [State.hasReads] using hr
  · intro m hm
    obtain ⟨k, hkj, rfl⟩ := List.mem_map.1 hm
    simp only [State.hasReads, hk k (List.mem_range.1 hkj)]
    decide

/-- DRAW while no read is held serves the arbiter's buffer (R73). -/
theorem exec_draw {m : Fin 8} (hr : s.racing = true) (hh : s.assembler.held = none) (hm : s.served = some m) :
    exec .draw s = .next (drawFrom m (s.withAssembler (atClock s))) := by
  have hready : drawReady s = true := by
    rw [drawReady, hr, hh, hm]
    rfl
  rw [exec, execDraw, if_pos hready, hm, settleClusters_eq]

/-- The state once a read is drawn from a buffer: the read gone, the hold indicator clear at 16 reads or fewer, the
arbiter past the buffer (R65, R66, R73). -/
def drawnState (m : Fin 8) (rest : List Read) (s : State) : State :=
  { s with
    decoders  := s.decoders.set m { s.decoders[m] with
      buffer := rest, hold := (s.decoders[m]).hold && decide (16 < rest.length) }
    assembler := { atClock s with arbiter := m + 1 } }

theorem Decoder.drawn_eq {d : Decoder} {r : Read} {rest : List Read} (h : d.buffer = r :: rest) :
    d.drawn = { d with buffer := rest, hold := d.hold && decide (16 < rest.length) } := by
  rw [Decoder.drawn, h]
  rfl

/-- A read of a mat without a point is discarded (log entry 14). -/
theorem drawFrom_pointless {m : Fin 8} {r : Read} {rest : List Read} (hb : (s.decoders[m]).buffer = r :: rest)
    (hp : s.config.pointOfMat r.mat = none) : drawFrom m (s.withAssembler (atClock s)) = drawnState m rest s := by
  unfold drawFrom
  rw [State.withAssembler_decoders, hb]
  dsimp only
  rw [Decoder.drawn_eq hb]
  split
  · rfl
  · next q hq => cases hp.symm.trans hq

/-- A read of a mat with a point is tested once it is drawn (R74, R75). -/
theorem drawFrom_placed {m : Fin 8} {r : Read} {rest : List Read} {p : Nat} (hb : (s.decoders[m]).buffer = r :: rest)
    (hp : s.config.pointOfMat r.mat = some p) :
    drawFrom m (s.withAssembler (atClock s)) = handleRead ⟨r, p⟩ (drawnState m rest s) := by
  unfold drawFrom
  rw [State.withAssembler_decoders, hb]
  dsimp only
  rw [Decoder.drawn_eq hb]
  split
  · next hn => cases hp.symm.trans hn
  · next q hq =>
    cases hp.symm.trans hq
    rfl

end

/-- The stale test (R75). -/
theorem stampException_stale {clock stamp : Nat} (h : stamp + 60000 < clock) :
    stampException clock stamp = some .staleRead := if_pos h

theorem stampException_future {clock stamp : Nat} (h : clock ≤ stamp + 60000) (hf : clock + 2000 < stamp ∨ 43199999 < stamp) :
    stampException clock stamp = some .futureRead := by
  rw [stampException, if_neg (Nat.not_lt.2 h), if_pos hf]

theorem stampException_none {clock stamp : Nat} (h : clock ≤ stamp + 60000) (hf : stamp ≤ clock + 2000)
    (hc : stamp ≤ 43199999) : stampException clock stamp = none := by
  rw [stampException, if_neg (Nat.not_lt.2 h), if_neg (by simp only [Config.futureLimit, Config.clockCeiling]; omega)]

theorem handleRead_exception {r : PlacedRead} {s : State} {code : ExceptionCode}
    (h : stampException s.raceClock r.read.stamp = some code) :
    handleRead r s = s.record (chipException code r.point r.read.chip r.read.stamp) := by
  rw [handleRead, h]

theorem handleRead_placed {r : PlacedRead} {s : State} (h : stampException s.raceClock r.read.stamp = none) :
    handleRead r s = { s with
      assembler := s.assembler.place s.config (decide (s.engine = .closed)) s.raceClock r } := by
  rw [handleRead, h]
  rfl

/-- Settles O21: the buffer served, then the read by its mat's point and its stamp. -/
theorem drawServesTheNextBuffer : Obligations.DrawServesTheNextBuffer := by
  intro j r rest s hrace hheld hj
  dsimp only
  intro hb hk
  have hserved := served_eq hj (by rw [hb]; exact List.cons_ne_nil _ _) hk
  have hdraw := exec_draw hrace hheld hserved
  refine ⟨fun p hp => ?_, fun hp => hdraw.trans (congrArg _ (drawFrom_pointless hb hp))⟩
  rw [drawFrom_placed hb hp] at hdraw
  refine ⟨fun hstale => ?_, fun hlive hfuture => ?_, fun hlive hnear hceil => ?_⟩
  · exact hdraw.trans (congrArg _ (handleRead_exception (stampException_stale hstale)))
  · exact hdraw.trans (congrArg _ (handleRead_exception (stampException_future hlive hfuture)))
  · exact hdraw.trans (congrArg _ (handleRead_placed (stampException_none hlive hnear hceil)))

end Sys2Proof.Machine

/-! The cluster table: keys, merges, the order of deadlines, the matching of reads, expiry and offers (R76 to R88). -/

namespace Sys2Proof.Machine

/-! ## Keys of the table (R76) -/

theorem Cluster.isFor_iff {point : Nat} {chip : Word} {c : Cluster} :
    c.isFor point chip = true ↔ c.point = point ∧ c.chip = chip := by
  simp [Cluster.isFor]

theorem Assembler.update_eq (point : Nat) (chip : Word) (f : Cluster → Cluster) (a : Assembler) :
    a.update point chip f = { a with
      clusters := a.clusters.map fun x => if x.point = point ∧ x.chip = chip then f x else x } := by
  simp only [Assembler.update, Cluster.isFor_iff]

/-! ## Merges (R79, R80) -/

section
variable {window : Nat} {r : Read} {c : Cluster}

/-- Under either time choice a merge differs from the join of the read in chosen time and best strength alone (R80). -/
theorem Cluster.merge_eq_joined (choice : TimeChoice) (window : Nat) (r : Read) (c : Cluster) :
    c.merge choice window r = { c.joined window r with
      chosen := (c.merge choice window r).chosen, best := (c.merge choice window r).best } := by
  cases choice with
  | first => rfl
  | peak =>
    unfold Cluster.merge
    dsimp only
    split
    · rfl
    · split <;> rfl

theorem Cluster.joined_earlier (h : r.stamp < c.first) :
    (c.joined window r).first = r.stamp ∧ (c.joined window r).deadline = min (r.stamp + window) 43199999 :=
  ⟨Nat.min_eq_right h.le, if_pos h⟩

theorem Cluster.joined_later (h : c.first ≤ r.stamp) :
    (c.joined window r).first = c.first ∧ (c.joined window r).deadline = c.deadline :=
  ⟨Nat.min_eq_left h, if_neg h.not_gt⟩

/-- FIRST: the chosen time is the first time, the best strength the greater one (R80). -/
theorem Cluster.merge_first (window : Nat) (r : Read) (c : Cluster) :
    (c.merge .first window r).chosen = (c.merge .first window r).first ∧
      (c.merge .first window r).best.toNat = max c.best.toNat r.strength.toNat := by
  refine ⟨rfl, ?_⟩
  simp only [Cluster.merge]
  split <;> omega

/-- PEAK: a stronger read gives its strength and its stamp (R80). -/
theorem Cluster.merge_peak_stronger (h : c.best.toNat < r.strength.toNat) :
    c.merge .peak window r = { c.joined window r with best := r.strength, chosen := r.stamp } := if_pos h

/-- PEAK: an equally strong, earlier read gives its stamp (R80). -/
theorem Cluster.merge_peak_equal (hb : c.best = r.strength) (ht : r.stamp < c.chosen) :
    c.merge .peak window r = { c.joined window r with chosen := r.stamp } := by
  rw [Cluster.merge, if_neg (by rw [hb]; exact Nat.lt_irrefl _), if_pos ⟨hb, ht⟩]

/-- PEAK: a weaker read, or an equally strong one no earlier, moves neither (R80). -/
theorem Cluster.merge_peak_kept
    (h : r.strength.toNat < c.best.toNat ∨ (c.best = r.strength ∧ c.chosen ≤ r.stamp)) :
    c.merge .peak window r = c.joined window r := by
  have hstronger : ¬ c.best.toNat < r.strength.toNat := by
    obtain hweaker | ⟨hequal, -⟩ := h
    · exact hweaker.not_gt
    · rw [hequal]
      exact Nat.lt_irrefl _
  have hearlier : ¬ (c.best = r.strength ∧ r.stamp < c.chosen) := by
    rintro ⟨hequal, hstamp⟩
    obtain hweaker | ⟨-, hlater⟩ := h
    · rw [hequal] at hweaker
      exact Nat.lt_irrefl _ hweaker
    · exact hlater.not_gt hstamp
  rw [Cluster.merge, if_neg hstronger, if_neg hearlier]

end

/-- Settles O22: what either choice joins, then the chosen time and best strength under each. -/
theorem mergesFollowTheTimeChoice : Obligations.MergesFollowTheTimeChoice := by
  intro choice w r c
  dsimp only
  have hmerge := Cluster.merge_eq_joined choice w r c
  refine ⟨by rw [hmerge]; rfl, by rw [hmerge]; rfl, by rw [hmerge]; rfl, by rw [hmerge]; rfl, by rw [hmerge]; rfl,
    fun hearlier => ?_, fun hlater => ?_, ?_, ?_⟩
  · rw [hmerge]
    exact Cluster.joined_earlier hearlier
  · rw [hmerge]
    exact Cluster.joined_later hlater
  · rintro rfl
    exact Cluster.merge_first w r c
  · rintro rfl
    refine ⟨fun hstronger => ?_, fun hequal hearlier => ?_, fun hkept => ?_⟩
    · rw [Cluster.merge_peak_stronger hstronger]
      exact ⟨rfl, rfl⟩
    · rw [Cluster.merge_peak_equal hequal hearlier]
      exact ⟨rfl, rfl⟩
    · rw [Cluster.merge_peak_kept hkept]
      exact ⟨rfl, rfl⟩

/-! ## The order of deadlines (R82, R86) -/

theorem Cluster.before_iff {x y : Cluster} :
    x.before y = true ↔ x.deadline < y.deadline ∨ (x.deadline = y.deadline ∧
      (x.point < y.point ∨ (x.point = y.point ∧ x.chip.toNat < y.chip.toNat))) := by
  simp [Cluster.before]

/-- Of three clusters, the order of the outer two gives one of their orders with the middle one. -/
theorem Cluster.before_or_before {x z : Cluster} (y : Cluster) (h : x.before z = true) :
    x.before y = true ∨ y.before z = true := by
  simp only [Cluster.before_iff] at h ⊢
  omega

theorem Cluster.not_before_self (x : Cluster) : ¬ x.before x = true := by
  simp only [Cluster.before_iff]
  omega

theorem Cluster.before_asymm {x y : Cluster} (h : x.before y = true) : ¬ y.before x = true := by
  simp only [Cluster.before_iff] at h ⊢
  omega

theorem firstCluster_eq_none {l : List Cluster} : firstCluster l = none ↔ l = [] := by
  cases l with
  | nil => simp [firstCluster]
  | cons c l =>
    rw [firstCluster]
    split
    · simp
    · split <;> simp

/-- No cluster of a list stands before its first (R82, R86). -/
theorem firstCluster_least {l : List Cluster} {c : Cluster} (h : firstCluster l = some c) :
    ∀ x ∈ l, ¬ x.before c = true := by
  induction l generalizing c with
  | nil => cases h
  | cons y l ih =>
    rw [firstCluster] at h
    split at h
    next hrest =>
      cases h
      rw [firstCluster_eq_none.1 hrest]
      simpa using Cluster.not_before_self y
    next d hd =>
      split at h <;> cases h
      next hdy => exact List.forall_mem_cons.2 ⟨Cluster.before_asymm hdy, ih hd⟩
      next hdy =>
        refine List.forall_mem_cons.2 ⟨Cluster.not_before_self y, fun x hx hxy => ?_⟩
        exact (Cluster.before_or_before d hxy).elim (ih hd x hx) hdy

/-- A cluster that stands before every other of a list is its first. -/
theorem firstCluster_eq_some {l : List Cluster} {c : Cluster} (hc : c ∈ l)
    (h : ∀ x ∈ l, c = x ∨ c.before x = true) : firstCluster l = some c := by
  cases hd : firstCluster l with
  | none =>
    rw [firstCluster_eq_none.1 hd] at hc
    exact absurd hc List.not_mem_nil
  | some d =>
    have hcd : c = d := (h d (firstCluster_mem hd)).resolve_right (firstCluster_least hd c hc)
    rw [hcd]

section
variable {a : Assembler} {c : Cluster}

/-- The head of the CLOSING list is the first of the table's CLOSING clusters (R82). -/
theorem Assembler.closingHead_first (h : a.closingHead = some c) :
    c ∈ a.clusters ∧ c.closing = true ∧ ∀ d ∈ a.clusters, d.closing = true → d.before c = false := by
  refine ⟨Assembler.closingHead_mem h, (List.mem_filter.1 (firstCluster_mem h)).2, fun d hd hclosing => ?_⟩
  exact Bool.eq_false_iff.2 (firstCluster_least h d (List.mem_filter.2 ⟨hd, hclosing⟩))

theorem Assembler.closingHead_eq_none (h : a.closingHead = none) : ∀ d ∈ a.clusters, d.closing = false :=
  fun d hd => Bool.eq_false_iff.2 (List.filter_eq_nil_iff.1 (firstCluster_eq_none.1 h) d hd)

theorem Assembler.earliestOpen_eq_none (h : ∀ x ∈ a.clusters, x.closing = true) : a.earliestOpen = none :=
  firstCluster_eq_none.2 (List.filter_eq_nil_iff.2 fun x hx => by simp [h x hx])

/-- The OPEN cluster that stands before every other OPEN one is the one an early close takes (R86). -/
theorem Assembler.earliestOpen_eq_some (hc : c ∈ a.clusters) (hopen : c.closing = false)
    (h : ∀ x ∈ a.clusters, x.closing = false → c = x ∨ c.before x = true) : a.earliestOpen = some c := by
  refine firstCluster_eq_some (List.mem_filter.2 ⟨hc, by simp [hopen]⟩) fun x hx => ?_
  obtain ⟨hmem, hx⟩ := List.mem_filter.1 hx
  exact h x hmem (by simpa using hx)

end

/-! ## The matching of a read (R77, R78, R85 to R88) -/

theorem Cluster.settle_eq (closed : Bool) (clock : Nat) (c : Cluster) :
    c.settle closed clock =
      if closed = true ∨ c.deadline ≤ clock then { c with closing := true, early := false } else c := by
  simp [Cluster.settle, Cluster.close]

/-- An OPEN cluster that no early close touched settles by its closing flag alone (R78, R88). -/
theorem Cluster.settle_open {c : Cluster} (closed : Bool) (clock : Nat) (hc : c.closing = false) (he : c.early = false) :
    c.settle closed clock = { c with closing := closed || decide (c.deadline ≤ clock) } := by
  unfold Cluster.settle
  split
  next hdue => rw [hdue, Cluster.close, ← he]
  next hdue => rw [Bool.eq_false_iff.2 hdue, ← hc]

/-- The cluster a read opens, closed at once where its deadline is reached or the engine is CLOSED (R78, R88). -/
theorem PlacedRead.opens_settle (L : Loaded) (closed : Bool) (clock : Nat) (r : PlacedRead) :
    (r.opens (L.window r.point)).settle closed clock = openedCluster L closed clock r :=
  Cluster.settle_open closed clock rfl rfl

theorem Assembler.openCluster_eq (L : Loaded) (closed : Bool) (clock : Nat) (r : PlacedRead) (a : Assembler) :
    a.openCluster (L.window r.point) closed clock r =
      { a with clusters := a.clusters ++ [openedCluster L closed clock r] } := by
  rw [Assembler.openCluster, PlacedRead.opens_settle, Assembler.add]

/-- An entry of the closed-crossing memory makes the read an echo (R85). -/
theorem echoes_any_iff {window : Nat} {r : PlacedRead} {l : List ClosedEntry} :
    l.any (ClosedEntry.echoes window r) = true ↔ ∃ e ∈ l, e.point = r.point ∧ e.chip = r.read.chip
      ∧ e.chosen ≤ r.read.stamp + 2 * window ∧ r.read.stamp ≤ e.chosen + 2 * window := by
  simp [ClosedEntry.echoes, and_assoc]

section
variable {L : Loaded} {closed : Bool} {clock : Nat} {r : PlacedRead} {a : Assembler} {c : Cluster}

/-- A read of a CLOSING cluster is discarded (R77). -/
theorem Assembler.place_closing (hf : a.find r.point r.read.chip = some c) (hc : c.closing = true) :
    a.place L closed clock r = a := by
  simp only [Assembler.place, hf]
  exact if_pos hc

/-- A read of an OPEN cluster merges into it (R77, R79). -/
theorem Assembler.place_open (hf : a.find r.point r.read.chip = some c) (hc : c.closing = false) :
    a.place L closed clock r = a.update r.point r.read.chip fun x =>
      (x.merge (L.choice r.point) (L.window r.point) r.read).settle closed clock := by
  simp only [Assembler.place, hf]
  exact if_neg (by simp [hc])

section
variable (hf : a.find r.point r.read.chip = none)
include hf

/-- An echo is discarded (R85). -/
theorem Assembler.place_echo (he : a.memory.any (ClosedEntry.echoes (L.window r.point) r) = true) :
    a.place L closed clock r = a := by
  simp only [Assembler.place, hf]
  exact if_pos he

variable (he : ¬ a.memory.any (ClosedEntry.echoes (L.window r.point) r) = true)
include he

/-- A read that matches nothing opens a cluster while the table has room (R78). -/
theorem Assembler.place_room (hl : a.clusters.length < 1024) :
    a.place L closed clock r = a.openCluster (L.window r.point) closed clock r := by
  simp only [Assembler.place, hf]
  rw [if_neg he]
  exact if_pos hl

/-- A read that matches nothing is held while the table is full (R86, R87). -/
theorem Assembler.place_full (hl : 1024 ≤ a.clusters.length) : a.place L closed clock r = a.holdRead r := by
  simp only [Assembler.place, hf]
  rw [if_neg he]
  exact if_neg hl.not_gt

end

/-- A read held with every cluster CLOSING closes none (R87). -/
theorem Assembler.holdRead_closing (h : ∀ x ∈ a.clusters, x.closing = true) :
    a.holdRead r = { a with held := some r } := by
  have hnone : Assembler.earliestOpen { a with held := some r } = none := Assembler.earliestOpen_eq_none h
  simp only [Assembler.holdRead, hnone]

/-- A held read closes the first OPEN cluster early (R86). -/
theorem Assembler.holdRead_open (hc : c ∈ a.clusters) (hopen : c.closing = false)
    (h : ∀ x ∈ a.clusters, x.closing = false → c = x ∨ c.before x = true) :
    a.holdRead r = Assembler.update c.point c.chip (Cluster.close true) { a with held := some r } := by
  have hsome : Assembler.earliestOpen { a with held := some r } = some c :=
    Assembler.earliestOpen_eq_some hc hopen h
  simp only [Assembler.holdRead, hsome]

end

/-- Settles O23: the four matches of R77 in their order. -/
theorem readMeetsTheClusterTable : Obligations.ReadMeetsTheClusterTable := by
  intro L closed clock r a
  dsimp only
  simp only [← echoes_any_iff]
  refine ⟨fun c hf hc => Assembler.place_closing hf hc, fun c hf hc => ?_, fun hf he => Assembler.place_echo hf he,
    fun hf he hl => ?_, fun hf he hl => ⟨fun hclosing => ?_, fun c hc hopen hfirst => ?_⟩⟩
  · rw [Assembler.place_open hf hc, Assembler.update_eq]
    simp only [Cluster.settle_eq]
  · rw [Assembler.place_room hf he hl, Assembler.openCluster_eq]
  · rw [Assembler.place_full hf he hl, Assembler.holdRead_closing hclosing]
  · rw [Assembler.place_full hf he hl, Assembler.holdRead_open hc hopen hfirst, Assembler.update_eq]
    rfl

/-! ## Expiry and offers (R81 to R86, R90, R91) -/

section
variable {c : Cluster} {s : State}

/-- CLUSTER_EXPIRY of an OPEN cluster whose deadline is reached closes it normally (R81). -/
theorem exec_clusterExpiry {point : Nat} {chip : Word} (he : s.engine = .race)
    (hf : s.assembler.find point chip = some c) (hc : c.closing = false) (hd : c.deadline ≤ s.raceClock) :
    exec (.clusterExpiry point chip) s =
      .next (s.withAssembler (s.assembler.update point chip (Cluster.close false))) := by
  have hready : expiryReady point chip s = true := by simp [expiryReady, he, hf, hc, hd]
  rw [exec, execClusterExpiry, if_pos hready]

/-- CLOSED_CROSSING_OFFER offers the head of the CLOSING list as it stands at the race clock (R82). -/
theorem exec_closedCrossingOffer (hr : s.racing = true) (hc : (atClock s).closingHead = some c)
    (hw : s.assembler.offerWaits = false) :
    exec .closedCrossingOffer s = .next (offerHead c (s.withAssembler (atClock s))) := by
  have hready : offerReady s = true := by
    rw [offerReady, settleClusters_eq, State.withAssembler_assembler, hr, hc, hw]
    rfl
  rw [exec, execClosedCrossingOffer, if_pos hready, settleClusters_eq, State.withAssembler_assembler]
  simp only [hc]

/-- An offer to a full intake queue waits (R82). -/
theorem offerHead_full (h : 256 ≤ s.intake.length) :
    offerHead c s = s.withAssembler { s.assembler with offerWaits := true } := if_neg h.not_gt

/-- An offer the intake queue has room for is taken (R82). -/
theorem offerHead_room (h : s.intake.length < 256) :
    offerHead c s = (s.pushIntake (.crossing c.crossing)).withAssembler
      ((s.assembler.release c).placeHeld s.config (decide (s.engine = .closed)) s.raceClock) := if_pos h

/-- A cluster that leaves the table leaves its entry in the closed-crossing memory, the oldest of 512 gone (R82, R84). -/
theorem Assembler.release_eq (c : Cluster) (a : Assembler) :
    a.release c = { a with
      clusters := a.clusters.filter fun x => !(decide (x.point = c.point) && decide (x.chip = c.chip))
      memory   := (if 512 ≤ a.memory.length then a.memory.tail else a.memory) ++ [⟨c.point, c.chip, c.chosen⟩] } := rfl

/-- The held read, where there is one, opens its cluster (R86). -/
theorem Assembler.placeHeld_eq (L : Loaded) (closed : Bool) (clock : Nat) (a : Assembler) :
    a.placeHeld L closed clock = { a with
      clusters := a.clusters ++ (a.held.map (openedCluster L closed clock)).toList
      held     := none } := by
  obtain ⟨clusters, memory, held, arbiter, waits⟩ := a
  cases held with
  | none => simp [Assembler.placeHeld]
  | some r => exact Assembler.openCluster_eq L closed clock r _

/-- An item joins the tail of the intake queue; at an empty queue its clock reading is taken (R90, R91). -/
theorem State.pushIntake_eq (x : IntakeItem) (s : State) :
    s.pushIntake x = { s with intake := s.intake ++ [x], itemClock := joinedClock s } := by
  simp [State.pushIntake, joinedClock]

end

/-- Settles O24: the order and its first, the expiry, then the offer by the room of the intake queue. -/
theorem clustersExpireAndAreOfferedInOrder : Obligations.ClustersExpireAndAreOfferedInOrder := by
  refine ⟨⟨fun x y => Cluster.before_iff, fun a c h => Assembler.closingHead_first h,
    fun a h => Assembler.closingHead_eq_none h⟩, fun p chip c s he hf hc hd => ?_,
    fun c s hr hc hw => ⟨fun hfull => ?_, fun hroom => ?_⟩⟩
  · rw [exec_clusterExpiry he hf hc hd, Assembler.update_eq]
    rfl
  · rw [exec_closedCrossingOffer hr hc hw, offerHead_full (s := s.withAssembler (atClock s)) hfull]
    rfl
  · dsimp only
    rw [exec_closedCrossingOffer hr hc hw, offerHead_room (s := s.withAssembler (atClock s)) hroom,
      Assembler.placeHeld_eq, Assembler.release_eq, State.pushIntake_eq]
    rfl

end Sys2Proof.Machine

/-! The split unit's crossings: the plan a crossing in flight is handled by, its neighbours in course order, the arithmetic of
a split, and what is refused, stored and handed over (R95 to R113). -/

namespace Sys2Proof.Machine

/-! ## Neighbours of a split (R97, R99, R101) -/

section
variable {r : Runner} {zero : Option Nat} {S n p q u : Nat}

/-- A point above the start with nothing in its slot is passed over by the lower bound. -/
theorem Runner.lowerBound_skip (hp : 1 ≤ p) (h : (r.slot p).time = none) : r.lowerBound zero (p + 1) = r.lowerBound zero p := by
  cases p with
  | zero => omega
  | succ p => simp only [Runner.lowerBound, h]

/-- A time in the slot of the point before is the lower bound. -/
theorem Runner.lowerBound_hit (hp : 1 ≤ p) (h : (r.slot p).time = some u) : r.lowerBound zero (p + 1) = some u := by
  cases p with
  | zero => omega
  | succ p => simp only [Runner.lowerBound, h]

/-- Empty slots from `q` up to `p` leave the lower bound at `p` that of `q`. -/
theorem Runner.lowerBound_of_empty (hq : 1 ≤ q) (hqp : q ≤ p) (h : ∀ j, q ≤ j → j < p → (r.slot j).time = none) :
    r.lowerBound zero p = r.lowerBound zero q := by
  induction p, hqp using Nat.le_induction with
  | base => rfl
  | succ p hqp ih =>
    rw [Runner.lowerBound_skip (by omega) (h p hqp (by omega)), ih fun j hj hjp => h j hj (by omega)]

/-- A slot that gives a segment no beginning: without a time, or SUSPECT (R101). -/
def Slot.unusable (x : Slot) : Prop := x.time = none ∨ slotSuspect x.flags = true

theorem Runner.segmentFrom_skip (hp : 1 ≤ p) (h : (r.slot p).unusable) : r.segmentFrom S (p + 1) = r.segmentFrom S p := by
  cases p with
  | zero => omega
  | succ p =>
    rcases h with h | h
    · simp only [Runner.segmentFrom, h]
    · cases ht : (r.slot (p + 1)).time with
      | none => simp only [Runner.segmentFrom, ht]
      | some u => simp only [Runner.segmentFrom, ht, h, if_true]

theorem Runner.segmentFrom_hit (hp : 1 ≤ p) (h : (r.slot p).time = some u) (hs : slotSuspect (r.slot p).flags = false) :
    r.segmentFrom S (p + 1) = (p, u) := by
  cases p with
  | zero => omega
  | succ p => simp [Runner.segmentFrom, h, hs]

theorem Runner.segmentFrom_of_unusable (hq : 1 ≤ q) (hqp : q ≤ p) (h : ∀ j, q ≤ j → j < p → (r.slot j).unusable) :
    r.segmentFrom S p = r.segmentFrom S q := by
  induction p, hqp using Nat.le_induction with
  | base => rfl
  | succ p hqp ih =>
    rw [Runner.segmentFrom_skip (by omega) (h p hqp (by omega)), ih fun j hj hjp => h j hj (by omega)]

theorem Runner.mem_timesAbove : u ∈ r.timesAbove n p ↔ ∃ q, p < q ∧ q < n ∧ (r.slot q).time = some u := by
  simp only [Runner.timesAbove, List.mem_filterMap, List.mem_range'_1]
  constructor
  · rintro ⟨q, ⟨hpq, hqn⟩, h⟩
    exact ⟨q, hpq, by omega, h⟩
  · rintro ⟨q, hpq, hqn, h⟩
    exact ⟨q, ⟨hpq, by omega⟩, h⟩

/-- Nothing stands above a point at the end of the course or beyond. -/
theorem Runner.timesAbove_end (h : n ≤ p + 1) : r.timesAbove n p = [] := by
  rw [Runner.timesAbove, Nat.sub_eq_zero_of_le h]
  rfl

/-- The times above a point, from the point that follows it on. -/
theorem Runner.timesAbove_next (h : p + 1 < n) :
    r.timesAbove n p = (r.slot (p + 1)).time.toList ++ r.timesAbove n (p + 1) := by
  obtain ⟨k, hk⟩ : ∃ k, n - (p + 1) = k + 1 := ⟨n - (p + 2), by omega⟩
  rw [Runner.timesAbove, Runner.timesAbove, hk, List.range'_succ, show n - (p + 1 + 1) = k by omega, List.filterMap_cons]
  cases (r.slot (p + 1)).time <;> rfl

/-- Empty slots above `p` up to `q` leave the upper bound at `p` that of `q`. -/
theorem Runner.upperBound_of_empty (hpq : p ≤ q) (hq : q < n) (h : ∀ j, p < j → j ≤ q → (r.slot j).time = none) :
    r.upperBound n p = r.upperBound n q := by
  induction q, hpq using Nat.le_induction with
  | base => rfl
  | succ q hpq ih =>
    rw [ih (by omega) fun j hj hjq => h j hj (by omega), Runner.upperBound, Runner.timesAbove_next hq,
      h (q + 1) (by omega) (Nat.le_refl _)]
    rfl

theorem Runner.upperBound_none (h : ∀ q, p < q → q < n → (r.slot q).time = none) : r.upperBound n p = none := by
  rw [Runner.upperBound, List.head?_eq_none_iff, List.eq_nil_iff_forall_not_mem]
  intro u hu
  obtain ⟨q, hpq, hqn, ht⟩ := Runner.mem_timesAbove.1 hu
  rw [h q hpq hqn] at ht
  cases ht

theorem Runner.upperBound_some (hpq : p < q) (hqn : q < n) (ht : (r.slot q).time = some u)
    (h : ∀ j, p < j → j < q → (r.slot j).time = none) : r.upperBound n p = some u := by
  obtain ⟨m, rfl⟩ : ∃ m, q = m + 1 := ⟨q - 1, by omega⟩
  rw [Runner.upperBound_of_empty (q := m) (by omega) (by omega) fun j hj hjm => h j hj (by omega), Runner.upperBound,
    Runner.timesAbove_next hqn, ht]
  rfl

/-- The missed count, over all points below the split (R101). -/
theorem Runner.missedBetween_eq (r : Runner) (q p : Nat) :
    r.missedBetween q p = ((List.range p).filter fun m => decide (q < m) && (r.slot m).time.isNone).length := by
  have hrange : (List.range p).filter (fun m => decide (q < m)) = List.range' (q + 1) (p - (q + 1)) := by
    induction p with
    | zero => simp
    | succ p ih =>
      rw [List.range_succ, List.filter_append, ih]
      by_cases h : q < p
      · rw [show p + 1 - (q + 1) = p - (q + 1) + 1 by omega, List.range'_concat,
          show q + 1 + 1 * (p - (q + 1)) = p by omega]
        simp [h]
      · simp [h, show p - (q + 1) = 0 by omega, show p - q = 0 by omega]
  rw [Runner.missedBetween, ← hrange, List.filter_filter]
  simp only [Bool.and_comm]

end

/-! ## The arithmetic of a split (R101 to R105) -/

theorem elapsedFrom_of_le {u t : Nat} (h : u ≤ t) : elapsedFrom u t = t - u := if_pos h

/-- The projected finish, whether or not it is kept: the net split at FINISH, else the net split and the rest of the course
at the blended pace (R105). -/
def Derived.finish (d : Derived) (L : Loaded) (p : Nat) : Nat :=
  if p + 1 = L.pointCount then d.net else d.net + halfUp (d.blended * (L.finishDistance - L.distance p)) 1000

theorem Derived.net_le_finish (d : Derived) (L : Loaded) (p : Nat) : d.net ≤ d.finish L p := by
  unfold Derived.finish
  split
  · exact Nat.le_refl _
  · exact Nat.le_add_right _ _

theorem derive_beyond (L : Loaded) (r : Runner) (G p t : Nat) :
    (derive L r G p t).beyond =
      (!(derive L r G p t).suspect && decide (L.cutoff < (derive L r G p t).finish L p)) := by
  simp only [derive, Derived.finish, Loaded.isFinish, beq_iff_eq]

theorem derive_projection (L : Loaded) (r : Runner) (G p t : Nat) :
    (derive L r G p t).projection =
      if (derive L r G p t).suspect = true ∨ (derive L r G p t).beyond = true then none
      else some ((derive L r G p t).finish L p) := by
  simp only [← Bool.or_eq_true, derive, Derived.finish, Loaded.isFinish, beq_iff_eq]

/-- Settles O31: the neighbours by the run of slots that are passed over, the arithmetic field by field of a derivation. -/
theorem splitNeighboursAndArithmetic : Obligations.SplitNeighboursAndArithmetic := by
  refine ⟨fun r zero S p hp => ⟨fun h => ?_, fun q u hq hqp ht h => ?_, fun n h => Runner.upperBound_none h,
    fun n q u => Runner.upperBound_some, fun h => ?_, fun q u hq hqp ht hs h => ?_⟩, fun L r G p t => ?_⟩
  · exact Runner.lowerBound_of_empty (Nat.le_refl 1) hp h
  · rw [Runner.lowerBound_of_empty (Nat.le_add_left 1 q) hqp h, Runner.lowerBound_hit hq ht]
  · exact Runner.segmentFrom_of_unusable (Nat.le_refl 1) hp h
  · rw [Runner.segmentFrom_of_unusable (Nat.le_add_left 1 q) hqp h, Runner.segmentFrom_hit hq ht hs]
  · intro S q u d clamp half hS hu
    have hnet : d.net = t - S := elapsedFrom_of_le hS
    have hpace : d.pace = half ((t - u) * 1000) (L.distance p - L.distance q) := by
      rw [← elapsedFrom_of_le hu]
      rfl
    have hproj : d.projection = if d.suspect = true ∨ d.beyond = true then none else some (d.finish L p) :=
      derive_projection L r G p t
    refine ⟨rfl, Runner.missedBetween_eq r q p, hnet, hpace, decide_eq_true_iff, decide_eq_true_iff, Option.isNone_iff_eq_none,
      rfl, rfl, rfl, ?_, hproj, fun n hn => ?_⟩
    · rw [show d.beyond = _ from derive_beyond L r G p t, Bool.and_eq_true, Bool.not_eq_true', decide_eq_true_iff]
      rfl
    · rw [hproj] at hn
      split at hn
      · cases hn
      · cases hn
        exact d.net_le_finish L p


/-! ## The crossing in flight is handled by its plan (R93, R94) -/

/-- A local crossing whose lookup succeeds is the crossing of the runner found (R93). -/
theorem localPlan_found {s : State} {c : ClosedCrossing} {i : Nat}
    (hf : (chipSearch s s.config c.chip 32 0 s.config.chipCount).2 = some i) (hi : i < s.config.runnerCount)
    (hchip : (s.readRunner s.config i).chip = c.chip) :
    ∃ reads, localPlan s c = crossingPlan s s.config ⟨i, c.point, c.time, false, c.early, c.count, c.best⟩ reads := by
  unfold localPlan
  dsimp only
  rw [hf]
  exact ⟨_, (if_neg (Nat.not_le.2 hi)).trans (if_neg (not_not.2 hchip))⟩

/-- A REMOTE_CROSSING that passes its checks is a crossing of the runner it names (R94, R117). -/
theorem remotePlan_checked {s : State} {w : WorkItem} (hi : w.field 0 4 < s.config.runnerCount)
    (hp : w.field 4 1 < s.config.pointCount) (ht : w.field 8 4 ≤ s.itemNow) :
    remotePlan s w = crossingPlan s s.config ⟨w.field 0 4, w.field 4 1, w.field 8 4, true, false, 0, 0⟩
      (s.runnerReads s.config (w.field 0 4)) := by
  unfold remotePlan
  dsimp only
  rw [if_neg (Nat.not_le.2 hi), if_neg (Nat.not_le.2 hp), if_neg (Nat.not_lt.2 ht)]

theorem CrossingHead.working {k : Option WorkItem} {x : Crossing} {s : State} (h : CrossingHead k x s) : s.working = true := by
  cases k with
  | none => exact h.1
  | some w => exact h.1.1

/-- Whether local or remote, the crossing in flight is handled by the plan of a crossing. -/
theorem exec_crossingCommand {k : Option WorkItem} {x : Crossing} {s : State} (h : CrossingHead k x s) :
    ∃ reads, exec (crossingCommand k) s = .next ((crossingPlan s s.config x reads).run k s) := by
  cases k with
  | none =>
    obtain ⟨hw, c, rest, i, hq, hf, hi, hchip, rfl⟩ := h
    obtain ⟨reads, hplan⟩ := localPlan_found hf hi hchip
    refine ⟨reads, ?_⟩
    rw [← hplan]
    simp only [crossingCommand, exec, execLocalCrossing, hw, hq, if_true]
  | some w =>
    obtain ⟨hh, hi, hp, ht, rfl⟩ := h
    refine ⟨s.runnerReads s.config (w.field 0 4), ?_⟩
    rw [← remotePlan_checked hi hp ht]
    exact congrArg _ (runItem_head hh remotePlan)

section
variable {k : Option WorkItem} {x : Crossing} {s : State}

/-- Where no access is refused, the crossing in flight has the effect of its plan, and of any plan that differs from it in
its reads alone. -/
theorem exec_crossing (ha : Accepting s) (hh : CrossingHead k x s) {p : ItemPlan}
    (hp : ∀ reads, ∃ reads', crossingPlan s s.config x reads = { p with reads := reads' }) :
    exec (crossingCommand k) s = .next (planEffect p k s) := by
  obtain ⟨reads, he⟩ := exec_crossingCommand hh
  obtain ⟨reads', hplan⟩ := hp reads
  rw [he, ItemPlan.run_quiet _ _ ha (State.working_running hh.working), hplan, planEffect_reads]

/-- A WITHDRAWN runner's crossing is refused before the gun step (R95). -/
theorem exec_crossing_withdrawn (ha : Accepting s) (hh : CrossingHead k x s)
    (hs : (s.readRunner s.config x.runner).status = .withdrawn) :
    exec (crossingCommand k) s = .next (planEffect (droppedPlan x [] .withdrawnRunner .refusedStatus) k s) :=
  exec_crossing ha hh fun reads => ⟨reads, if_pos hs⟩

/-- A crossing of the start that is not refused goes through the start's plan. -/
theorem exec_crossing_start (ha : Accepting s) (hh : CrossingHead k x s)
    (hs : (s.readRunner s.config x.runner).status ≠ .withdrawn) (hx : x.point = 0) {p : ItemPlan}
    (hp : ∀ reads, startPlan s s.config x reads (s.readRunner s.config x.runner) = { p with reads := reads }) :
    exec (crossingCommand k) s = .next (planEffect p k s) :=
  exec_crossing ha hh fun _ => ⟨_, (if_neg hs).trans ((if_pos hx).trans (hp _))⟩

/-- A crossing above the start that is not refused goes through a split's plan. -/
theorem exec_crossing_split (ha : Accepting s) (hh : CrossingHead k x s)
    (hs : (s.readRunner s.config x.runner).status ≠ .withdrawn) (hx : x.point ≠ 0) {p : ItemPlan}
    (hp : ∀ reads, splitPlan s s.config x reads (s.readRunner s.config x.runner) = { p with reads := reads }) :
    exec (crossingCommand k) s = .next (planEffect p k s) :=
  exec_crossing ha hh fun _ => ⟨_, (if_neg hs).trans ((if_neg hx).trans (hp _))⟩

end

/-! ## The gun step (R96) -/

section
variable {s : State} {L : Loaded} {r : Runner}

theorem fixWrites_of_no_gun (h : s.runnerGun L r = none) : s.fixWrites L r = [] := by
  unfold State.fixWrites
  rw [h]
  cases r.wave <;> rfl

theorem fixWrites_of_gun {w g : Nat} (hw : r.wave = some w) (hg : s.runnerGun L r = some g) :
    s.fixWrites L r =
      if s.field (waveOffset L w 4) 1 = 0 then [(.wave, s.addr (waveOffset L w 4), [1])] else [] := by
  unfold State.fixWrites
  rw [hw, hg]
  by_cases h : s.field (waveOffset L w 4) 1 = 0 <;> simp [State.fixedOn, h]

end

/-! ## The start (R97, R108 to R110) -/

/-- The start value is the time, but not before the gun (R97). -/
theorem startValue_eq (gun : Option Nat) (t : Nat) :
    startValue gun t = (max t (gun.getD 0), decide (t < gun.getD 0)) := by
  cases gun <;> simp [startValue]

theorem lastAfter_eq (held : Option Nat) (p : Nat) : lastAfter held p = max (held.getD 0) p := by
  cases held <;> simp [lastAfter]

/-- The watch test as one condition (R113). -/
theorem watches_eq (s : State) (r : Runner) :
    s.watches r = decide (s.watchLevel ≠ 0 ∧ s.watchLevel.toNat ≤ r.watch ∧ r.status ≠ .held) := by
  have hlevel : s.watchLevel ≠ 0 ↔ s.watchLevel.toNat ≠ 0 := not_congr BitVec.toNat_inj.symm
  simp only [State.watches, hlevel, Bool.decide_and, Bool.and_assoc]

section
variable {s : State} {L : Loaded} {x : Crossing} {r : Runner} (reads : List (Region × Nat × Nat))

theorem startPlan_repeated (h : r.start.isSome = true) :
    startPlan s L x reads r = x.drop reads (s.fixWrites L r) .repeated .conflict :=
  if_pos h

/-- A later time that is not after the start value: an order conflict (R97). -/
theorem startPlan_conflict {q u : Nat} (h : r.start = none) (hq : 1 ≤ q) (hqn : q < L.pointCount)
    (ht : (r.slot q).time = some u) (hu : u ≤ max x.time ((s.runnerGun L r).getD 0)) :
    startPlan s L x reads r = x.drop reads (s.fixWrites L r) .orderConflict .conflict := by
  have hany : (r.timesAbove L.pointCount 0).any (fun u => decide (u ≤ max x.time ((s.runnerGun L r).getD 0))) = true :=
    List.any_eq_true.2 ⟨u, Runner.mem_timesAbove.2 ⟨q, hq, hqn, ht⟩, decide_eq_true hu⟩
  unfold startPlan
  simp only [startValue_eq, h, hany, Option.isSome_none, Bool.false_eq_true, if_false, if_true]


/-- A start that is stored (R97, R108 to R110). -/
theorem startPlan_stored (h : r.start = none)
    (hlater : ∀ q u, 1 ≤ q → q < L.pointCount → (r.slot q).time = some u → max x.time ((s.runnerGun L r).getD 0) < u) :
    startPlan s L x reads r =
      let gun := s.runnerGun L r
      let S := max x.time (gun.getD 0)
      let f : SplitFlags := { x.flags r gun with
        startClamped := decide (x.time < gun.getD 0), lateStart := !(r.timesAbove L.pointCount 0).isEmpty }
      { reads     := reads
        writes    := s.fixWrites L r ++ ([s.runnerWrite L x.runner (slotOffset 0) (slotBytes (some x.time) f.slotWord),
                       s.runnerWrite L x.runner 32 (leBytes 4 S)] ++ s.closingWrites L x.runner 0 r)
        records   := [x.startRecord f S gun]
        handovers := []
        watch     := s.watches r
        outcome   := .ok
        word0     := none
        word1     := some 0 } := by
  have hany : ¬ (r.timesAbove L.pointCount 0).any (fun u => decide (u ≤ max x.time ((s.runnerGun L r).getD 0))) = true := by
    rw [List.any_eq_true]
    rintro ⟨u, hu, hle⟩
    obtain ⟨q, hq, hqn, ht⟩ := Runner.mem_timesAbove.1 hu
    exact absurd (of_decide_eq_true hle) (Nat.not_le.2 (hlater q u hq hqn ht))
  unfold startPlan
  simp only [startValue_eq, h, Option.isSome_none, Bool.false_eq_true, if_false]
  rw [if_neg hany, List.append_assoc]

end

/-- LATE_START: a time is present above the start (R97). -/
theorem Runner.timesAbove_start_iff {r : Runner} {n : Nat} :
    (!(r.timesAbove n 0).isEmpty) = true ↔ ∃ q, 1 ≤ q ∧ q < n ∧ (r.slot q).time.isSome = true := by
  rw [Bool.not_eq_true', List.isEmpty_eq_false_iff_exists_mem]
  constructor
  · rintro ⟨u, hu⟩
    obtain ⟨q, hq, hqn, ht⟩ := Runner.mem_timesAbove.1 hu
    exact ⟨q, hq, hqn, by rw [ht]; rfl⟩
  · rintro ⟨q, hq, hqn, ht⟩
    obtain ⟨u, hu⟩ := Option.isSome_iff_exists.1 ht
    exact ⟨u, Runner.mem_timesAbove.2 ⟨q, hq, hqn, hu⟩⟩

/-- Settles O32: the crossing is handled by the start's plan, and none of the plan's checks is met. -/
theorem startCrossingIsStored : Obligations.StartCrossingIsStored := by
  intro k x s ha hh hx L r gun S later hs hstart hlater f hf hlate
  have hflag : f.lateStart = !(r.timesAbove L.pointCount 0).isEmpty :=
    Bool.eq_iff_iff.2 (hlate.trans Runner.timesAbove_start_iff.symm)
  rw [hflag] at hf
  subst hf
  refine exec_crossing_start ha hh hs hx fun reads => ?_
  rw [startPlan_stored reads hstart hlater, watches_eq, State.closingWrites, lastAfter_eq]
  rfl

/-! ## Crossings above the start (R98 to R110) -/

section
variable {s : State} {L : Loaded} {x : Crossing} {r : Runner} (reads : List (Region × Nat × Nat))

theorem splitPlan_repeated (h : (r.slot x.point).time.isSome = true) :
    splitPlan s L x reads r = x.drop reads (s.fixWrites L r) .repeated .conflict :=
  if_pos h

theorem splitPlan_beforeGun {g : Nat} (h : (r.slot x.point).time = none) (hg : s.runnerGun L r = some g) (ht : x.time < g) :
    splitPlan s L x reads r = x.drop reads (s.fixWrites L r) .beforeGun .conflict := by
  have hgun : (s.runnerGun L r).any (fun g => decide (x.time < g)) = true := by
    rw [hg]
    exact decide_eq_true ht
  exact (if_neg (Option.not_isSome_iff_eq_none.2 h)).trans (if_pos hgun)

/-- A time lies strictly between its neighbours where it lies above the one below and below the one above. -/
theorem fitsBetween_iff {lower upper : Option Nat} {t : Nat} :
    fitsBetween lower upper t = true ↔ (∀ l, lower = some l → l < t) ∧ ∀ u, upper = some u → t < u := by
  cases lower <;> cases upper <;> simp [fitsBetween]

/-- No gun time is later than the crossing. -/
theorem not_before_gun {gun : Option Nat} {t : Nat} (h : ∀ g, gun = some g → g ≤ t) :
    ¬ gun.any (fun g => decide (t < g)) = true := by
  cases gun with
  | none => exact Bool.false_ne_true
  | some g => simpa using h g rfl

theorem splitPlan_conflict (h : (r.slot x.point).time = none) (hg : ∀ g, s.runnerGun L r = some g → g ≤ x.time)
    (hfit : fitsBetween (r.lowerBound (r.start <|> s.runnerGun L r) x.point) (r.upperBound L.pointCount x.point) x.time = false) :
    splitPlan s L x reads r = x.drop reads (s.fixWrites L r) .orderConflict .conflict := by
  refine (if_neg (Option.not_isSome_iff_eq_none.2 h)).trans ((if_neg (not_before_gun hg)).trans (if_pos ?_))
  rw [hfit]
  rfl

/-- The flags of a split: those of the crossing, and those of its derivation where a gun time gives one (R101 to R105). -/
def Crossing.splitFlags (x : Crossing) (r : Runner) (gun upper : Option Nat) (d : Option Derived) : SplitFlags :=
  { x.flags r gun with
    lateFill     := upper.isSome
    netEstimated := d.isSome && r.start.isNone
    suspect      := d.any Derived.suspect
    slow         := d.any Derived.slow
    missed       := d.any fun d => decide (0 < d.missed)
    beyondCutoff := d.any Derived.beyond }

theorem Crossing.splitFlags_eq (x : Crossing) (L : Loaded) (r : Runner) (gun upper : Option Nat) :
    let d := gun.map fun g => derive L r g x.point x.time
    let f0 : SplitFlags := { x.flags r gun with lateFill := upper.isSome }
    (d.map f0.withDerived).getD f0 = x.splitFlags r gun upper d := by
  cases gun <;> rfl

/-- A split that is stored (R100 to R110). -/
theorem splitPlan_stored (h : (r.slot x.point).time = none) (hg : ∀ g, s.runnerGun L r = some g → g ≤ x.time)
    (hfit : fitsBetween (r.lowerBound (r.start <|> s.runnerGun L r) x.point) (r.upperBound L.pointCount x.point) x.time = true) :
    splitPlan s L x reads r =
      let gun := s.runnerGun L r
      let d := gun.map fun g => derive L r g x.point x.time
      let f := x.splitFlags r gun (r.upperBound L.pointCount x.point) d
      { reads     := reads
        writes    := s.fixWrites L r ++ ([
                       s.runnerWrite L x.runner (slotOffset x.point) (slotBytes (some x.time) f.slotWord),
                       s.runnerWrite L x.runner 36 (leBytes 4 (absentOr (d.bind Derived.projection)))]
                     ++ s.closingWrites L x.runner x.point r)
        records   := x.splitRecord f gun d ::
                       (if f.suspect then [runnerException .suspectFast x.point x.runner x.time] else [])
        handovers := s.splitRequests L r x.runner x.point x.time d
        watch     := s.watches r
        outcome   := .ok
        word0     := none
        word1     := some 0 } := by
  dsimp only
  rw [← Crossing.splitFlags_eq, ← List.append_assoc]
  refine (if_neg (Option.not_isSome_iff_eq_none.2 h)).trans ((if_neg (not_before_gun hg)).trans (if_neg ?_))
  rw [hfit]
  exact Bool.false_ne_true

end

/-- Settles O33: the crossing is handled by a split's plan, and none of the plan's checks is met. -/
theorem splitCrossingIsStored : Obligations.SplitCrossingIsStored := by
  intro k x s ha hh hx L r gun upper hs hslot hgun hlower hupper
  refine exec_crossing_split ha hh hs hx fun reads => ?_
  rw [splitPlan_stored reads hslot hgun (fitsBetween_iff.2 ⟨hlower, hupper⟩), watches_eq, State.closingWrites, lastAfter_eq]
  rfl

/-- Settles O30: each refusal by the check of the plan that is met first. -/
theorem crossingsAreRefusedOrDropped : Obligations.CrossingsAreRefusedOrDropped := by
  intro k x s ha hh L r gun fix dropped
  refine ⟨fixWrites_of_no_gun, fun w g => fixWrites_of_gun, exec_crossing_withdrawn ha hh,
    fun hs hx => ⟨fun hrep => ?_, fun q u hstart hq hqn ht hu => ?_⟩,
    fun hs hx => ⟨fun hrep => ?_, fun hslot => ⟨fun g hg ht => ?_, fun hgun hbounds => ?_⟩⟩⟩
  · exact exec_crossing_start ha hh hs hx fun reads => startPlan_repeated reads hrep
  · exact exec_crossing_start ha hh hs hx fun reads => startPlan_conflict reads hstart hq hqn ht hu
  · exact exec_crossing_split ha hh hs hx fun reads => splitPlan_repeated reads hrep
  · exact exec_crossing_split ha hh hs hx fun reads => splitPlan_beforeGun reads hslot hg ht
  · refine exec_crossing_split ha hh hs hx fun reads => splitPlan_conflict reads hslot hgun (Bool.eq_false_iff.2 fun hfit => ?_)
    obtain ⟨hlower, hupper⟩ := fitsBetween_iff.1 hfit
    rcases hbounds with ⟨l, hl, hle⟩ | ⟨u, hu, hle⟩
    · exact absurd (hlower l hl) (Nat.not_lt.2 hle)
    · exact absurd (hupper u hu) (Nat.not_lt.2 hle)

/-! ## Faces, requests and statuses (R106, R107, R112, R127, R130) -/

/-- Settles O34: the arrival is the time and the way to the face at the blended pace, rounded half up. -/
theorem faceTimesOfASplit : Obligations.FaceTimesOfASplit := by
  intro L f p t B now A on off
  have htimes : faceTimes L f p t B now = if off ≤ now then none else some (on, A, off) := rfl
  rw [htimes]
  exact ⟨fun h => if_pos h, fun h => if_neg (Nat.not_le.2 h)⟩

/-- A list with its indices, taken index by index. -/
theorem zipIdx_filterMap_range {α β : Type} (xs : List α) (f : α × Nat → Option β) :
    xs.zipIdx.filterMap f = (List.range xs.length).filterMap fun j => xs[j]?.bind fun a => f (a, j) := by
  have hmap : xs.zipIdx.map some = (List.range xs.length).map fun j => xs[j]?.map fun a => (a, j) := by
    refine List.ext_getElem? fun j => ?_
    by_cases h : j < xs.length <;> simp [h]
  calc xs.zipIdx.filterMap f = (xs.zipIdx.map some).filterMap (·.bind f) := by rw [List.filterMap_map]; rfl
    _ = _ := by
      rw [hmap, List.filterMap_map]
      refine List.filterMap_congr fun j _ => ?_
      cases h : xs[j]? <;> simp [h]

/-- The face of a screen fed by a point: face 0, else face 1 where it stands (R112). -/
theorem Screen.fedBy_eq (c : Screen) (p : Nat) :
    c.fedBy p = if c.face0.feed = p then some (0, c.face0)
      else (c.face1.filter fun f => decide (f.feed = p)).map fun f => (1, f) := by
  unfold Screen.fedBy
  congr 1
  cases c.face1 with
  | none => rfl
  | some f => by_cases h : f.feed = p <;> simp [h, Option.filter]

/-- What is made for each face fed by a point, screen by screen. -/
theorem facesFedBy_filterMap {β : Type} (L : Loaded) (p : Nat) (g : Nat × FaceIx × Face → Option β) :
    (L.facesFedBy p).filterMap g =
      (List.range L.screens.length).filterMap fun j => (L.screens[j]?.bind (Screen.fedBy · p)).bind fun y => g (j, y.1, y.2) := by
  rw [Loaded.facesFedBy, List.filterMap_filterMap, zipIdx_filterMap_range]
  refine List.filterMap_congr fun j _ => ?_
  cases L.screens[j]? with
  | none => rfl
  | some c => cases h : c.fedBy p <;> simp [h]

section
variable {s : State} {L : Loaded} {r : Runner} {i p t : Nat} {d : Derived}

theorem splitRequests_unusable (h : s.engine ≠ .race ∨ d.suspect = true ∨ r.status = .held) :
    s.splitRequests L r i p t (some d) = [] := by
  refine if_neg ?_
  rintro ⟨he, hd, hs⟩
  rcases h with h | h | h
  · exact h he
  · rw [hd] at h
    cases h
  · exact hs h

theorem splitRequests_usable (he : s.engine = .race) (hd : d.suspect = false) (hs : r.status ≠ .held) :
    s.splitRequests L r i p t (some d) =
      (L.facesFedBy p).filterMap fun x => (d.request L r i p t s.itemNow x).map HandOver.request :=
  if_pos ⟨he, hd, hs⟩

theorem removals_start (s : State) (L : Loaded) (i : Nat) : s.removals L i 0 = [] := if_neg fun h => h.2 rfl

theorem removals_not_race (he : s.engine ≠ .race) : s.removals L i p = [] := if_neg fun h => he h.1

theorem removals_race (he : s.engine = .race) (hp : p ≠ 0) :
    s.removals L i p = (L.facesFedBy p).map fun x => .removal x.1 x.2.1 i :=
  if_pos ⟨he, hp⟩

/-- A correction of a split that is SUSPECT or HELD, and one with no gun time, only removes (R130). -/
theorem correctionHandOvers_unusable (h : d.suspect = true ∨ r.status = .held) :
    s.correctionHandOvers L r i p t (some d) = s.removals L i p := by
  refine if_neg ?_
  rintro ⟨hd, hs⟩
  rcases h with h | h
  · rw [hd] at h
    cases h
  · exact hs h

theorem correctionHandOvers_not_race (he : s.engine ≠ .race) (d : Option Derived) :
    s.correctionHandOvers L r i p t d = [] := by
  cases d with
  | none => exact removals_not_race he
  | some d =>
    by_cases hd : d.suspect = false ∧ r.status ≠ .held
    · exact (if_pos hd).trans (if_neg fun h => he h.1)
    · exact (if_neg hd).trans (removals_not_race he)

theorem correctionHandOvers_usable (he : s.engine = .race) (hp : p ≠ 0) (hd : d.suspect = false) (hs : r.status ≠ .held) :
    s.correctionHandOvers L r i p t (some d) = (L.facesFedBy p).map (correctionHandOver L r i p t s.itemNow d) :=
  (if_pos ⟨hd, hs⟩).trans (if_pos ⟨he, hp⟩)

end

/-- Settles O35: the requests face by face, the statuses by their table, and a correction's hand-overs by its cases. -/
theorem statusWrittenAndScreensTold : Obligations.StatusWrittenAndScreensTold := by
  refine ⟨fun s L r i p t d => ?_, fun finish => ⟨rfl, rfl, rfl, rfl, rfl⟩, removals_start, fun s L r i p t hp =>
    ⟨fun he => ⟨removals_not_race he, correctionHandOvers_not_race he⟩,
      fun he => ⟨removals_race he hp, rfl, fun d => ⟨correctionHandOvers_unusable, correctionHandOvers_usable he hp⟩⟩⟩⟩
  intro feeds
  have hfeeds : (Screen.fedBy · p) = feeds := funext fun c => c.fedBy_eq p
  refine ⟨rfl, splitRequests_unusable, fun he hd hs => ?_⟩
  rw [splitRequests_usable he hd hs, facesFedBy_filterMap, hfeeds]
  simp only [Derived.request, Option.map_map]
  rfl

end Sys2Proof.Machine

/-! The work items for runners and waves: the checks that end them, the wave, watch and name writes, the table of runner
actions, and a correction with a new time (R115 to R130). -/

namespace Sys2Proof.Machine

/-! ## A work item in flight has the effect of its plan (R115) -/

section
variable {k : WorkKind} {w : WorkItem} {s : State} {c : Instr} {plan : State → WorkItem → ItemPlan}
  {reads : List (Region × Nat × Nat)}

/-- Where no access is refused, the command of a work item in flight has the effect of the item's plan, and of any plan that
differs from it in its reads alone. -/
theorem exec_workItem (ha : Accepting s) (hh : ItemHead k w s) (hc : exec c s = .next (runItem k plan s)) {p : ItemPlan}
    (reads : List (Region × Nat × Nat)) (hp : plan s w = { p with reads := reads }) : exec c s = .next (planEffect p (some w) s) := by
  rw [hc, runItem_head hh, hp, ItemPlan.run_quiet _ _ ha (State.working_running hh.1), planEffect_reads]

/-- A plan that hands over no record, tells the screens nothing and asks for no watch seal makes its writes and ends. -/
theorem exec_workItem_writes (ha : Accepting s) (hh : ItemHead k w s) (hc : exec c s = .next (runItem k plan s))
    {writes : List (Region × Nat × List Byte)} {code : OutcomeCode} {d0 d1 : Word}
    (hp : plan s w = ⟨reads, writes, [], [], false, code, some d0, some d1⟩) :
    exec c s = .next (itemDone (some ⟨w.slot, code, d0, d1, w.notify⟩) [] { s with mem := Memory.writeAll s.mem writes }) := by
  rw [exec_workItem ha hh hc (p := ⟨reads, writes, [], [], false, code, some d0, some d1⟩) reads hp]
  simp [planEffect, handAll, itemDone, ItemPlan.report]

/-- A work item that ends at a check writes nothing: it leaves, and its end is reported. -/
theorem exec_workItem_refused (ha : Accepting s) (hh : ItemHead k w s) (hc : exec c s = .next (runItem k plan s))
    {code : OutcomeCode} {d0 d1 : Nat} (hp : plan s w = .refusal reads code d0 d1) :
    exec c s = .next (itemDone (some ⟨w.slot, code, toWord d0, toWord d1, w.notify⟩) [] s) :=
  exec_workItem_writes ha hh hc hp

end

/-! ## The checks of the runner items (R116, R117, R125) -/

section
variable {s : State} {w : WorkItem}

/-- A runner item whose runner is not in the table ends with NO_RUNNER, whatever its kind (R116). -/
theorem runnerPlans_noRunner (hi : s.config.runnerCount ≤ w.field 0 4) :
    remotePlan s w = .refusal [] .noRunner 0 0 ∧ runnerStatusPlan s w = .refusal [] .noRunner 0 0 ∧
      setWatchPlan s w = .refusal [] .noRunner 0 0 ∧ setNamePlan s w = .refusal [] .noRunner 0 0 ∧
      correctSplitPlan s w = .refusal [] .noRunner 0 0 :=
  ⟨if_pos hi, if_pos hi, if_pos hi, if_pos hi, if_pos hi⟩

theorem remotePlan_badPoint (hi : w.field 0 4 < s.config.runnerCount) (hp : s.config.pointCount ≤ w.field 4 1) :
    remotePlan s w = .refusal [] .badPoint 0 0 :=
  (if_neg (Nat.not_le.2 hi)).trans (if_pos hp)

theorem remotePlan_badTime (hi : w.field 0 4 < s.config.runnerCount) (hp : w.field 4 1 < s.config.pointCount)
    (ht : s.itemNow < w.field 8 4) : remotePlan s w = .refusal [] .badTime 0 0 :=
  (if_neg (Nat.not_le.2 hi)).trans ((if_neg (Nat.not_le.2 hp)).trans (if_pos ht))

theorem correctSplitPlan_badPoint (hi : w.field 0 4 < s.config.runnerCount) (hp : s.config.pointCount ≤ w.field 4 1) :
    correctSplitPlan s w = .refusal [] .badPoint 0 0 :=
  (if_neg (Nat.not_le.2 hi)).trans (if_pos hp)

/-- A new time beyond the clock ceiling, or later than the item's clock reading, is BAD_TIME (R125). -/
theorem correctSplitPlan_badTime (hi : w.field 0 4 < s.config.runnerCount) (hp : w.field 4 1 < s.config.pointCount)
    (hv : w.field 5 1 = 0) (ht : 43199999 < w.field 8 4 ∨ s.itemNow < w.field 8 4) :
    correctSplitPlan s w = .refusal [] .badTime 0 0 := by
  unfold correctSplitPlan
  dsimp only
  rw [if_neg (Nat.not_le.2 hi), if_neg (Nat.not_le.2 hp), if_neg (by simp [hv])]
  exact if_pos ht

/-- A correction whose time passes its checks is held against its neighbours, and carried out where it fits (R125). -/
theorem correctSplitPlan_timed (hi : w.field 0 4 < s.config.runnerCount) (hp : w.field 4 1 < s.config.pointCount)
    (hv : w.field 5 1 = 0) (hc : w.field 8 4 ≤ 43199999) (ht : w.field 8 4 ≤ s.itemNow) :
    let L := s.config
    let i := w.field 0 4
    let p := w.field 4 1
    let t := w.field 8 4
    let r := s.readRunner L i
    let gun := s.runnerGun L r
    let lower := r.lowerBound (r.start <|> gun) p
    let upper := r.upperBound L.pointCount p
    let reads := s.runnerReads L i ++ s.gunReads L r
    correctSplitPlan s w =
      if fitsBetween lower upper t = true then
        if p = 0 then correctStartPlan s L i t r gun reads else correctTimePlan s L i p t r gun reads
      else .refusal (s.neighbourReads L i p r) .conflict (absentOr lower) (absentOr upper) := by
  have htime : ¬ (Config.clockCeiling < w.field 8 4 ∨ s.itemNow < w.field 8 4) :=
    not_or.2 ⟨Nat.not_lt.2 hc, Nat.not_lt.2 ht⟩
  unfold correctSplitPlan
  dsimp only
  rw [if_neg (Nat.not_le.2 hi), if_neg (Nat.not_le.2 hp), if_neg (by simp [hv]), if_neg htime]
  simp only [Bool.not_eq_true', ← Bool.not_eq_true, ite_not]
  rfl

/-- A time at or beyond one of its neighbours does not fit. -/
theorem not_fitsBetween {lower upper : Option Nat} {t : Nat}
    (h : (∃ l, lower = some l ∧ t ≤ l) ∨ ∃ u, upper = some u ∧ u ≤ t) : ¬ fitsBetween lower upper t = true := by
  intro hfit
  obtain ⟨hlower, hupper⟩ := fitsBetween_iff.1 hfit
  rcases h with ⟨l, hl, hle⟩ | ⟨u, hu, hle⟩
  · exact Nat.not_lt.2 hle (hlower l hl)
  · exact Nat.not_lt.2 hle (hupper u hu)

end

/-- Settles O36: each check by the refusal its plan comes to. -/
theorem itemChecksRefuse : Obligations.ItemChecksRefuse := by
  refine fun w s ha => ⟨fun hi => ?_, fun hi hp => ⟨fun hh => ?_, fun hh => ?_⟩,
    fun hi hp => ⟨fun hh ht => ?_, fun hh hv ht => ?_, fun hh hv hc ht => ?_⟩⟩
  · obtain ⟨hremote, hstatus, hwatch, hname, hcorrect⟩ := runnerPlans_noRunner hi
    exact ⟨fun hh => exec_workItem_refused ha hh rfl hremote, fun hh => exec_workItem_refused ha hh rfl hstatus,
      fun hh => exec_workItem_refused ha hh rfl hwatch, fun hh => exec_workItem_refused ha hh rfl hname,
      fun hh => exec_workItem_refused ha hh rfl hcorrect⟩
  · exact exec_workItem_refused ha hh rfl (remotePlan_badPoint hi hp)
  · exact exec_workItem_refused ha hh rfl (correctSplitPlan_badPoint hi hp)
  · exact exec_workItem_refused ha hh rfl (remotePlan_badTime hi hp ht)
  · exact exec_workItem_refused ha hh rfl (correctSplitPlan_badTime hi hp hv ht)
  · intro r lower upper hbounds
    exact exec_workItem_refused ha hh rfl
      ((correctSplitPlan_timed hi hp hv hc ht).trans (if_neg (not_fitsBetween hbounds)))

/-! ## START_WAVE, SET_WATCH and SET_NAME (R118, R123, R124) -/

section
variable {s : State} {w : WorkItem}

theorem startWavePlan_badPoint (hk : 15 < w.field 0 1) : startWavePlan s w = .refusal [] .badPoint 0 0 := if_pos hk

theorem badWaveTime_iff : badWaveTime w = true ↔ w.field 1 1 = 0 ∧ 43199999 < w.field 4 4 := by
  simp [badWaveTime, Config.clockCeiling]

theorem waveTime_eq : waveTime s w = if w.field 1 1 = 0 then w.field 4 4 else s.itemNow := ite_not ..

theorem startWavePlan_badTime (hk : w.field 0 1 ≤ 15) (hnow : w.field 1 1 = 0) (ht : 43199999 < w.field 4 4) :
    startWavePlan s w = .refusal [] .badTime 0 0 :=
  (if_neg (Nat.not_lt.2 hk)).trans (if_pos (badWaveTime_iff.2 ⟨hnow, ht⟩))

/-- Past its checks of wave and time, a START_WAVE goes by the wave's fixed-on flag (R118). -/
theorem startWavePlan_checked (hk : w.field 0 1 ≤ 15) (ht : w.field 1 1 = 0 → w.field 4 4 ≤ 43199999) :
    let L := s.config
    let v := w.field 0 1
    startWavePlan s w =
      if s.field (waveOffset L v 4) 1 = 0 then
        ⟨s.waveReads L v, [(.wave, s.addr (waveOffset L v 0), leBytes 4 (waveTime s w))], [], [], false, .ok,
          some (toWord (waveTime s w)), some 0⟩
      else .refusal (s.waveReads L v) .conflict (absentOr (s.gunTime L v)) 0 := by
  have htime : ¬ badWaveTime w = true := fun h =>
    have ⟨hnow, hlate⟩ := badWaveTime_iff.1 h
    Nat.not_lt.2 (ht hnow) hlate
  refine (if_neg (Nat.not_lt.2 hk)).trans ((if_neg htime).trans ?_)
  simp only [State.fixedOn, bne_iff_ne, ne_eq, ite_not]

/-- A gun time as a conflict's detail holds it: the time, or the absent value for one above the ceiling (R40, R185). -/
theorem absentOr_optTime (raw : Nat) : absentOr (optTime raw) = if raw ≤ 43199999 then raw else 4294967295 := by
  unfold optTime
  split <;> rfl

theorem setWatchPlan_runner (hi : w.field 0 4 < s.config.runnerCount) :
    setWatchPlan s w = fieldPlan s s.config (w.field 0 4) 10 [BitVec.ofNat 8 (min (w.field 4 1) 7)] (min (w.field 4 1) 7) :=
  if_neg (Nat.not_le.2 hi)

theorem setNamePlan_runner (hi : w.field 0 4 < s.config.runnerCount) :
    setNamePlan s w = fieldPlan s s.config (w.field 0 4) 16 (w.bytes 4 16) 0 :=
  if_neg (Nat.not_le.2 hi)

end

/-- Settles O37: START_WAVE by the branches of its plan, SET_WATCH and SET_NAME as plans of one field. -/
theorem waveWatchAndNameAreWritten : Obligations.WaveWatchAndNameAreWritten := by
  constructor
  · intro w s ha hh wave now time o ended
    refine ⟨fun hk => ?_, fun hk hnow ht => ?_, fun hk ht hfixed => ?_, fun hk ht hfixed => ?_⟩
    · exact exec_workItem_refused ha hh rfl (startWavePlan_badPoint hk)
    · exact exec_workItem_refused ha hh rfl (startWavePlan_badTime hk hnow ht)
    · rw [← absentOr_optTime]
      exact exec_workItem_refused ha hh rfl ((startWavePlan_checked hk ht).trans (if_neg hfixed))
    · rw [show time = waveTime s w from waveTime_eq.symm]
      exact exec_workItem_writes ha hh rfl ((startWavePlan_checked hk ht).trans (if_pos hfixed))
  · intro w s ha hi o priority
    exact ⟨fun hh => exec_workItem_writes ha hh rfl (setWatchPlan_runner hi),
      fun hh => exec_workItem_writes ha hh rfl (setNamePlan_runner hi)⟩

/-! ## RUNNER_STATUS (R120 to R122) -/

/-- A split is present where a point has a time, the start time among them (R47). -/
theorem Runner.hasSplit_iff_exists {r : Runner} {n : Nat} :
    r.hasSplit n = true ↔ ∃ p, p < n ∧ if p = 0 then r.start.isSome = true else (r.slot p).time.isSome = true := by
  simp only [Runner.hasSplit, List.any_eq_true, List.mem_range, Runner.timeAt, apply_ite Option.isSome, Bool.ite_eq_true_distrib]

theorem StatusAction.purges_iff {a : StatusAction} : a.purges = true ↔ a = .withdraw ∨ a = .hold := by
  simp [StatusAction.purges]

section
variable {L : Loaded} {r : Runner}

theorem statusAfter_withdraw (h : r.status ≠ .withdrawn) : statusAfter L r .withdraw = some .withdrawn := by
  unfold statusAfter
  cases hs : r.status
  case withdrawn => exact absurd hs h
  all_goals rfl

theorem statusAfter_withdraw_refused (h : r.status = .withdrawn) : statusAfter L r .withdraw = none := by
  simp only [statusAfter, h]

theorem statusAfter_reinstate (h : r.status = .withdrawn) :
    statusAfter L r .reinstate = some (if (r.slot (L.pointCount - 1)).time.isSome then .finished
      else if r.hasSplit L.pointCount then .onCourse else .registered) := by
  simp only [statusAfter, h]

theorem statusAfter_reinstate_refused (h : r.status ≠ .withdrawn) : statusAfter L r .reinstate = none := by
  unfold statusAfter
  cases hs : r.status
  case withdrawn => exact absurd hs h
  all_goals rfl

theorem statusAfter_hold (h : r.status = .registered ∨ r.status = .onCourse) : statusAfter L r .hold = some .held := by
  rcases h with h | h <;> simp only [statusAfter, h]

theorem statusAfter_hold_refused (h : r.status = .finished ∨ r.status = .withdrawn ∨ r.status = .held) :
    statusAfter L r .hold = none := by
  rcases h with h | h | h <;> simp only [statusAfter, h]

theorem statusAfter_release (h : r.status = .held) :
    statusAfter L r .release = some (if r.hasSplit L.pointCount then .onCourse else .registered) := by
  simp only [statusAfter, h]

theorem statusAfter_release_refused (h : r.status ≠ .held) : statusAfter L r .release = none := by
  unfold statusAfter
  cases hs : r.status
  case held => exact absurd hs h
  all_goals rfl

end

section
variable {s : State} {w : WorkItem} {a : StatusAction}

/-- An action the table gives no new status is refused with the status read (R120). -/
theorem runnerStatusPlan_refused (hi : w.field 0 4 < s.config.runnerCount)
    (h : (StatusAction.ofCode (w.field 4 1)).bind (statusAfter s.config (s.readRunner s.config (w.field 0 4))) = none) :
    runnerStatusPlan s w = .refusal (s.runnerReads s.config (w.field 0 4)) .refusedStatus
      (s.readRunner s.config (w.field 0 4)).status.code 0 := by
  refine (if_neg (Nat.not_le.2 hi)).trans ?_
  cases hcode : StatusAction.ofCode (w.field 4 1) with
  | none => rfl
  | some a =>
    rw [hcode, Option.bind_some] at h
    simp only [h]

/-- An action the table gives a new status is accepted (R120, R121). -/
theorem runnerStatusPlan_accepted (hi : w.field 0 4 < s.config.runnerCount) {after : Status}
    (hcode : StatusAction.ofCode (w.field 4 1) = some a)
    (h : statusAfter s.config (s.readRunner s.config (w.field 0 4)) a = some after) :
    runnerStatusPlan s w = statusPlan s s.config (w.field 0 4) a (s.readRunner s.config (w.field 0 4)).status after := by
  refine (if_neg (Nat.not_le.2 hi)).trans ?_
  simp only [hcode, h]

end

/-- Settles O38: an action is carried out or refused by the status the table gives it, row by row. -/
theorem runnerStatusFollowsItsTable : Obligations.RunnerStatusFollowsItsTable := by
  intro w s ha hh hi L i r action any finished carried refused
  have hany : r.hasSplit L.pointCount = true ↔ any := Runner.hasSplit_iff_exists
  have hcarried : ∀ {a after}, action = some a → statusAfter L r a = some after → carried a after := by
    intro a after hcode hafter
    refine exec_workItem ha hh rfl (s.runnerReads L i) ((runnerStatusPlan_accepted hi hcode hafter).trans ?_)
    simp only [statusPlan, StatusAction.purges_iff]
    rfl
  have hrefused : action.bind (statusAfter L r) = none → refused := fun h =>
    exec_workItem_refused ha hh rfl (runnerStatusPlan_refused hi h)
  refine ⟨fun hcode => hrefused (by rw [hcode]; rfl),
    fun hcode => ⟨fun hs => hcarried hcode (statusAfter_withdraw hs),
      fun hs => hrefused (by rw [hcode]; exact statusAfter_withdraw_refused hs)⟩,
    fun hcode => ⟨fun hs => ?_, fun hs => hrefused (by rw [hcode]; exact statusAfter_reinstate_refused hs)⟩,
    fun hcode => ⟨fun hs => hcarried hcode (statusAfter_hold hs),
      fun hs => hrefused (by rw [hcode]; exact statusAfter_hold_refused hs)⟩,
    fun hcode => ⟨fun hs => ?_, fun hs => hrefused (by rw [hcode]; exact statusAfter_release_refused hs)⟩⟩
  · have hafter := statusAfter_reinstate (L := L) hs
    refine ⟨fun hf => hcarried hcode ?_, fun hf hsplit => hcarried hcode ?_, fun hf hsplit => hcarried hcode ?_⟩
    · rw [hafter, if_pos hf]
    · rw [hafter, if_neg hf, if_pos (hany.2 hsplit)]
    · rw [hafter, if_neg hf, if_neg (mt hany.1 hsplit)]
  · have hafter := statusAfter_release (L := L) hs
    refine ⟨fun hsplit => hcarried hcode ?_, fun hsplit => hcarried hcode ?_⟩
    · rw [hafter, if_pos (hany.2 hsplit)]
    · rw [hafter, if_neg (mt hany.1 hsplit)]

/-! ## CORRECT_SPLIT with a new time (R125 to R130) -/

section
variable {s : State} {L : Loaded} {i p t : Nat} {r : Runner} {gun : Option Nat} {reads : List (Region × Nat × Nat)}

/-- The plan of a correction with a new time, at the start and elsewhere alike: what differs there is the second write, the
net split of the record, and what is handed to the screens (R126, R127, R129, R130). -/
def newTimePlan (s : State) (L : Loaded) (i p t : Nat) (r : Runner) (gun : Option Nat) (d : Option Derived)
    (reads : List (Region × Nat × Nat)) : ItemPlan :=
  let f : SplitFlags :=
    { netEstimated := d.isSome && r.start.isNone, suspect := d.any Derived.suspect, slow := d.any Derived.slow
      held := decide (r.status = .held), gunUnknown := gun.isNone, beyondCutoff := d.any Derived.beyond
      corrected := true }
  { reads     := reads
    writes    :=
      [s.runnerWrite L i (slotOffset p) (slotBytes (some t) f.slotWord),
       (if p = 0 then s.runnerWrite L i 32 (leBytes 4 t)
        else s.runnerWrite L i 36 (leBytes 4 (absentOr (d.bind Derived.projection)))),
       s.runnerWrite L i 12 [BitVec.ofNat 8 (max (r.last.getD 0) p)],
       s.runnerWrite L i 9 [BitVec.ofNat 8 (r.status.stored (L.isFinish p)).code]]
    records   := [⟨kindCorrection, BitVec.ofNat 8 p, f.journalWord, 0, 0, BitVec.ofNat 16 i, toWord t,
      toWord (absentOr (gunSplitFrom gun t)), toWord (if p = 0 then t else absentOr (d.map Derived.net)),
      toWord (absentOr (d.map fun d => paceField d.pace)), toWord (absentOr (d.bind Derived.projection)),
      toWord (absentOr (r.slot p).time)⟩]
    handovers := if p = 0 then [] else s.correctionHandOvers L r i p t d
    watch     := false
    outcome   := .ok
    word0     := none
    word1     := some 0 }

theorem correctStartPlan_eq : correctStartPlan s L i t r gun reads = newTimePlan s L i 0 t r gun none reads := by
  simp only [correctStartPlan, newTimePlan, State.closingWrites, lastAfter_eq]
  rfl

/-- Above the start the flags are those of the derivation, where a gun time gives one (R126). -/
theorem correctTimePlan_eq (hp : p ≠ 0) :
    correctTimePlan s L i p t r gun reads = newTimePlan s L i p t r gun (gun.map fun g => derive L r g p t) reads := by
  simp only [correctTimePlan, newTimePlan, State.closingWrites, lastAfter_eq, if_neg hp]
  cases gun <;> rfl

/-- Both plans of a correction whose time fits are the plan of a new time, with no derivation at the start (R126). -/
theorem correctPlans_eq :
    (if p = 0 then correctStartPlan s L i t r gun reads else correctTimePlan s L i p t r gun reads) =
      newTimePlan s L i p t r gun (if p = 0 then none else gun.map fun g => derive L r g p t) reads := by
  by_cases hp : p = 0
  · rw [if_pos hp, if_pos hp, correctStartPlan_eq, hp]
  · rw [if_neg hp, if_neg hp, correctTimePlan_eq hp]

end

/-- Settles O40: a time strictly between its neighbours passes the last check, and the plan is that of a new time. -/
theorem correctionWritesTheTime : Obligations.CorrectionWritesTheTime := by
  intro w s ha hh hi hp hv hc ht L i p t r gun hlower hupper d f
  have hfits := (correctSplitPlan_timed hi hp hv hc ht).trans (if_pos (fitsBetween_iff.2 ⟨hlower, hupper⟩))
  exact exec_workItem ha hh rfl (s.runnerReads L i ++ s.gunReads L r) (hfits.trans correctPlans_eq)

end Sys2Proof.Machine

/-! Schedules: what the operations on one schedule do to its order, to its keys and to the number of its SHOWN entries. -/

namespace Sys2Proof.Machine

/-! ## Keys and schedule order (R133, R134) -/

theorem Entry.isFor_iff {runner : Nat} {face : FaceIx} {e : Entry} :
    e.isFor runner face = true ↔ e.runner = runner ∧ e.face = face := by
  simp [Entry.isFor]

theorem Entry.not_isFor_iff {runner : Nat} {face : FaceIx} {e : Entry} :
    (!e.isFor runner face) = true ↔ ¬ (e.runner = runner ∧ e.face = face) := by
  rw [Bool.not_eq_true', Bool.eq_false_iff, ne_eq, Entry.isFor_iff]

theorem scheduleBefore_iff {a b : Entry} : scheduleBefore a b = true ↔ a.onTime < b.onTime ∨ (a.onTime = b.onTime ∧
    (a.arrival < b.arrival ∨ (a.arrival = b.arrival ∧
      (a.runner < b.runner ∨ (a.runner = b.runner ∧ a.face.val < b.face.val))))) := by
  simp [scheduleBefore]

theorem scheduleBefore_trans {a b c : Entry} (h : scheduleBefore a b = true) (h' : scheduleBefore b c = true) :
    scheduleBefore a c = true := by
  rw [scheduleBefore_iff] at *
  omega

/-- Entries of different keys stand in one order or the other. -/
theorem scheduleBefore_total {a b : Entry} (hk : ¬ (a.runner = b.runner ∧ a.face = b.face))
    (h : ¬ scheduleBefore a b = true) : scheduleBefore b a = true := by
  rw [Fin.ext_iff] at hk
  rw [scheduleBefore_iff] at *
  omega

theorem insertEntry_perm (e : Entry) (l : List Entry) : (insertEntry e l).Perm (e :: l) := by
  induction l with
  | nil => exact .refl _
  | cons x l ih =>
    rw [insertEntry]
    split
    · exact .refl _
    · exact (ih.cons x).trans (.swap e x l)

/-- An entry put at its place among ordered entries of other keys leaves them ordered. -/
theorem insertEntry_ordered {e : Entry} {l : List Entry} (h : l.Pairwise fun a b => scheduleBefore a b = true)
    (hk : ∀ x ∈ l, ¬ (e.runner = x.runner ∧ e.face = x.face)) :
    (insertEntry e l).Pairwise fun a b => scheduleBefore a b = true := by
  induction l with
  | nil => exact List.pairwise_singleton _ _
  | cons x l ih =>
    obtain ⟨hx, hl⟩ := List.pairwise_cons.1 h
    rw [insertEntry]
    split
    next he =>
      refine List.pairwise_cons.2 ⟨fun y hy => ?_, h⟩
      rcases List.mem_cons.1 hy with rfl | hy
      · exact he
      · exact scheduleBefore_trans he (hx y hy)
    next he =>
      refine List.pairwise_cons.2 ⟨fun y hy => ?_, ih hl fun y hy => hk y (List.mem_cons_of_mem _ hy)⟩
      rcases List.mem_cons.1 ((insertEntry_perm e l).subset hy) with rfl | hy
      · exact scheduleBefore_total (hk x (List.mem_cons_self ..)) he
      · exact hx y hy

/-! ## Finding and removing an entry -/

theorem findEntry_none {runner : Nat} {face : FaceIx} {l : List Entry} :
    findEntry runner face l = none ↔ ∀ e ∈ l, ¬ (e.runner = runner ∧ e.face = face) := by
  simp [findEntry, Entry.isFor_iff]

theorem removeEntry_none (runner : Nat) (face : FaceIx) (l : List Entry) :
    findEntry runner face (removeEntry runner face l) = none :=
  findEntry_none.2 fun _ he => Entry.not_isFor_iff.1 (List.mem_filter.1 he).2

/-- A removal leaves a schedule that has no such entry. -/
theorem removeEntry_eq_self {runner : Nat} {face : FaceIx} {l : List Entry} (h : findEntry runner face l = none) :
    removeEntry runner face l = l :=
  List.filter_eq_self.2 fun e he => Entry.not_isFor_iff.2 (findEntry_none.1 h e he)

theorem findEntry_removeEntry_none {runner : Nat} {face : FaceIx} {l : List Entry} (h : findEntry runner face l = none)
    (runner' : Nat) (face' : FaceIx) : findEntry runner face (removeEntry runner' face' l) = none := by
  rw [findEntry_none] at *
  exact fun e he => h e (List.mem_filter.1 he).1

/-- The entry put into a schedule that has none of its key is the one found. -/
theorem findEntry_insertEntry {e : Entry} {l : List Entry} (h : findEntry e.runner e.face l = none) :
    findEntry e.runner e.face (insertEntry e l) = some e := by
  induction l with
  | nil => simp [insertEntry, findEntry, Entry.isFor]
  | cons x l ih =>
    obtain ⟨hx, hl⟩ := List.forall_mem_cons.1 (findEntry_none.1 h)
    rw [insertEntry]
    split
    · simp [findEntry, Entry.isFor]
    · rw [findEntry, List.find?_cons_of_neg (by rw [Entry.isFor_iff]; exact hx)]
      exact ih (findEntry_none.2 hl)

/-! ## How many entries are SHOWN (R134, R140) -/

theorem shownCount_insertEntry (e : Entry) (l : List Entry) : shownCount (insertEntry e l) = shownCount (e :: l) :=
  ((insertEntry_perm e l).filter _).length_eq

theorem shownCount_removeEntry_le (runner : Nat) (face : FaceIx) (l : List Entry) :
    shownCount (removeEntry runner face l) ≤ shownCount l :=
  (List.filter_sublist.filter _).length_le

/-- An entry that is removed takes its row with it. -/
theorem shownCount_cons_removeEntry {runner : Nat} {face : FaceIx} {l : List Entry} {e : Entry} (he : e ∈ l)
    (hk : e.isFor runner face = true) : shownCount (e :: removeEntry runner face l) ≤ shownCount l := by
  induction l with
  | nil => exact absurd he List.not_mem_nil
  | cons x l ih =>
    rw [removeEntry, List.filter_cons, ← removeEntry]
    rcases List.mem_cons.1 he with rfl | he
    · have := shownCount_removeEntry_le runner face l
      simp only [hk, Bool.not_true, Bool.false_eq_true, if_false, shownCount_cons]
      omega
    · have hrest := ih he
      by_cases hx : (!x.isFor runner face) = true
      · simp only [if_pos hx, shownCount_cons] at hrest ⊢
        omega
      · simp only [if_neg hx, shownCount_cons] at hrest ⊢
        omega

/-- Showing an entry changes nothing where no entry has its key. -/
theorem showEntry_eq_self {clock : Nat} {e : Entry} {l : List Entry}
    (h : ∀ x ∈ l, ¬ (x.runner = e.runner ∧ x.face = e.face)) : showEntry clock e l = l := by
  refine (List.map_congr_left fun x hx => if_neg ?_).trans l.map_id
  rw [Entry.isFor_iff]
  exact h x hx

/-- Where keys are unique, showing an entry takes one row at most. -/
theorem shownCount_showEntry_le {l : List Entry} (h : l.Pairwise fun a b => ¬ (a.runner = b.runner ∧ a.face = b.face))
    (clock : Nat) (e : Entry) : shownCount (showEntry clock e l) ≤ shownCount l + 1 := by
  induction l with
  | nil => exact Nat.zero_le _
  | cons x l ih =>
    obtain ⟨hx, hl⟩ := List.pairwise_cons.1 h
    rw [showEntry, List.map_cons, ← showEntry, shownCount_cons, shownCount_cons]
    by_cases hk : x.isFor e.runner e.face = true
    · obtain ⟨hr, hf⟩ := Entry.isFor_iff.1 hk
      have hrest : showEntry clock e l = l :=
        showEntry_eq_self fun y hy hyk => hx y hy ⟨hr.trans hyk.1.symm, hf.trans hyk.2.symm⟩
      simp only [hrest, if_pos hk, Option.isSome_some, if_true]
      omega
    · have := ih hl
      rw [if_neg hk]
      omega

/-! ## The schedule law (R134) -/

namespace ScheduleLaw

variable {rows : Nat} {l : List Entry}

theorem nil (rows : Nat) : ScheduleLaw rows [] := ⟨.nil, .nil, Nat.zero_le _⟩

theorem removeEntry (h : ScheduleLaw rows l) (runner : Nat) (face : FaceIx) :
    ScheduleLaw rows (removeEntry runner face l) := by
  obtain ⟨ho, hk, hn⟩ := h
  exact ⟨ho.sublist List.filter_sublist, hk.sublist List.filter_sublist, (shownCount_removeEntry_le runner face l).trans hn⟩

/-- An entry of a new key joins a schedule in which it has a row, if it needs one. -/
theorem insertEntry {e : Entry} (h : ScheduleLaw rows l) (hf : findEntry e.runner e.face l = none)
    (hn : shownCount (e :: l) ≤ rows) : ScheduleLaw rows (insertEntry e l) := by
  obtain ⟨ho, hk, -⟩ := h
  have hnew : ∀ x ∈ l, ¬ (e.runner = x.runner ∧ e.face = x.face) := fun x hx hx' =>
    findEntry_none.1 hf x hx ⟨hx'.1.symm, hx'.2.symm⟩
  refine ⟨insertEntry_ordered ho hnew, ?_, (shownCount_insertEntry e l).trans_le hn⟩
  refine ((insertEntry_perm e l).pairwise_iff fun {a b} hab hba => hab ⟨hba.1.symm, hba.2.symm⟩).2 ?_
  exact List.pairwise_cons.2 ⟨hnew, hk⟩

/-- A new PENDING entry needs no row (R135). -/
theorem insertPending {e : Entry} (h : ScheduleLaw rows l) (hf : findEntry e.runner e.face l = none)
    (hp : e.shownSince = none) : ScheduleLaw rows (Machine.insertEntry e l) :=
  h.insertEntry hf (by rw [shownCount_cons, hp]; simpa using h.2.2)

/-- An entry that replaces the one of its key keeps its row, where that one had one (R135). -/
theorem replaceEntry {e old : Entry} (h : ScheduleLaw rows l) (hold : findEntry e.runner e.face l = some old)
    (hs : e.shownSince = old.shownSince) :
    ScheduleLaw rows (Machine.insertEntry e (Machine.removeEntry e.runner e.face l)) := by
  obtain ⟨hm, hk⟩ := findEntry_some hold
  refine (h.removeEntry _ _).insertEntry (removeEntry_none _ _ _) ?_
  have hrow := (shownCount_cons_removeEntry hm hk).trans h.2.2
  rw [shownCount_cons] at hrow ⊢
  rw [hs]
  exact hrow

/-- An entry shown in a free row (R141). -/
theorem showEntry (h : ScheduleLaw rows l) (hfree : shownCount l < rows) (clock : Nat) (e : Entry) :
    ScheduleLaw rows (showEntry clock e l) := by
  obtain ⟨ho, hk, -⟩ := h
  have hsame : ∀ x : Entry, ∃ t, (if x.isFor e.runner e.face then { x with shownSince := some clock } else x)
      = { x with shownSince := t } := fun x => by
    split
    · exact ⟨_, rfl⟩
    · exact ⟨_, rfl⟩
  refine ⟨List.pairwise_map.2 (ho.imp fun {a b} hab => ?_), List.pairwise_map.2 (hk.imp fun {a b} hab => ?_),
    (shownCount_showEntry_le hk clock e).trans hfree⟩
  all_goals
    obtain ⟨t, ha⟩ := hsame a
    obtain ⟨u, hb⟩ := hsame b
    rw [ha, hb]
    exact hab

end ScheduleLaw

/-! ## Events at one screen (R135 to R150) -/

namespace ScheduleLaw

variable {c : Screen} {x : ScreenState} (clock now : Nat)

theorem retest (h : ScheduleLaw c.rows x.schedule) : ScheduleLaw c.rows (retest c clock now x).schedule := by
  rw [(retest_schedule c clock now x).1]
  exact h

theorem leaveEntry (h : ScheduleLaw c.rows x.schedule) (runner : Nat) (face : FaceIx) :
    ScheduleLaw c.rows (leaveEntry c clock now runner face x).schedule :=
  retest clock now (h.removeEntry runner face)

theorem missEntry (h : ScheduleLaw c.rows x.schedule) (runner : Nat) (face : FaceIx) :
    ScheduleLaw c.rows (missEntry c clock now runner face x).schedule :=
  leaveEntry (x := { x with missed := bumpTally x.missed }) clock now h runner face

theorem showFree (n : Nat) (h : ScheduleLaw c.rows x.schedule) :
    ScheduleLaw c.rows (showFree c clock now n x).schedule := by
  induction n generalizing x with
  | zero => exact h
  | succ n ih =>
    rw [Machine.showFree]
    split
    · split
      · exact h
      · exact ih (retest clock now (h.showEntry ‹_› clock _))
    · exact h

theorem offerRows (h : ScheduleLaw c.rows x.schedule) : ScheduleLaw c.rows (offerRows c clock now x).schedule :=
  h.showFree clock now c.rows

theorem settleEntry (h : ScheduleLaw c.rows x.schedule) (runner : Nat) (face : FaceIx) :
    ScheduleLaw c.rows (settleEntry c clock now runner face x).schedule := by
  unfold Machine.settleEntry
  split
  · exact h
  · split
    · split
      · exact (h.missEntry clock now runner face).offerRows clock now
      · exact h.offerRows clock now
    · split
      · exact (h.leaveEntry clock now runner face).offerRows clock now
      · exact h.offerRows clock now

theorem enterRequest (h : ScheduleLaw c.rows x.schedule) {r : Request} (hf : findEntry r.runner r.face x.schedule = none) :
    ScheduleLaw c.rows (enterRequest c clock now r x).schedule :=
  retest clock now (h.insertPending (e := r.entry none) hf rfl)

theorem requestEvent (h : ScheduleLaw c.rows x.schedule) (r : Request) :
    ScheduleLaw c.rows (requestEvent r c clock now x).schedule := by
  unfold Machine.requestEvent
  split
  next old hold =>
    exact (retest clock now (h.replaceEntry (e := r.entry old.shownSince) hold rfl)).settleEntry clock now _ _
  next hnone =>
    split
    · exact h
    · split
      · exact (h.enterRequest clock now hnone).settleEntry clock now _ _
      · split
        · exact h
        next e _ =>
          have hevict : ScheduleLaw c.rows (evictEntry c clock now e x).schedule :=
            retest clock now (h.removeEntry e.runner e.face)
          have hstill : findEntry r.runner r.face (evictEntry c clock now e x).schedule = none := by
            rw [evictEntry, (retest_schedule c clock now _).1]
            exact findEntry_removeEntry_none hnone e.runner e.face
          exact (hevict.enterRequest clock now hstill).settleEntry clock now _ _

theorem removalEvent (h : ScheduleLaw c.rows x.schedule) (runner : Nat) (face : FaceIx) :
    ScheduleLaw c.rows (removalEvent runner face c clock now x).schedule := by
  unfold Machine.removalEvent
  split
  · exact h
  · exact (h.leaveEntry clock now runner face).offerRows clock now

theorem leaveIfAny (h : ScheduleLaw c.rows x.schedule) (runner : Nat) (face : FaceIx) :
    ScheduleLaw c.rows (leaveIfAny c clock now runner face x).schedule := by
  unfold Machine.leaveIfAny
  split
  · exact h
  · exact h.leaveEntry clock now runner face

theorem purgeEvent (h : ScheduleLaw c.rows x.schedule) (runner : Nat) :
    ScheduleLaw c.rows (purgeEvent runner c clock now x).schedule := by
  unfold Machine.purgeEvent
  split
  · exact ((h.leaveIfAny clock now runner 0).leaveIfAny clock now runner 1).offerRows clock now
  · exact h

theorem leaveEvent (h : ScheduleLaw c.rows x.schedule) (runner : Nat) (face : FaceIx) :
    ScheduleLaw c.rows (leaveEvent runner face c clock now x).schedule :=
  (h.leaveEntry clock now runner face).offerRows clock now

end ScheduleLaw

/-! ## Events that leave the schedule (R148, R155 to R160) -/

theorem bannerEvent_schedule (b : Option Banner) (c : Screen) (clock now : Nat) (x : ScreenState) :
    (bannerEvent b c clock now x).schedule = x.schedule := (retarget_schedule now _).1

theorem wakeLeadEvent_schedule (f : FaceIx) (c : Screen) (clock now : Nat) (x : ScreenState) :
    (wakeLeadEvent f c clock now x).schedule = x.schedule :=
  (retarget_schedule now _).1.trans (retestFace_schedule c clock now f x).1

theorem dimAfterEvent_schedule (f : FaceIx) (c : Screen) (clock now : Nat) (x : ScreenState) :
    (dimAfterEvent f c clock now x).schedule = x.schedule := (retarget_schedule now _).1

theorem darkAfterEvent_schedule (c : Screen) (clock now : Nat) (x : ScreenState) :
    (darkAfterEvent c clock now x).schedule = x.schedule := by
  unfold darkAfterEvent
  dsimp only
  split <;> rfl

theorem wakeAgeEvent_schedule (c : Screen) (clock now : Nat) (x : ScreenState) :
    (wakeAgeEvent c clock now x).schedule = x.schedule := by
  unfold wakeAgeEvent
  dsimp only
  split <;> rfl

end Sys2Proof.Machine

/-! Every step keeps the schedule law of every screen (R134). -/

namespace Sys2Proof.Machine

/-! ## Operations that keep the schedules sound -/

/-- From `s` an operation comes to `t`, and sound schedules stay sound. -/
def SchedulesKept (s t : State) : Prop := SchedulesSound s → SchedulesSound t

/-- Right after a reset there is no screen (R17, R18). -/
theorem SchedulesSound.of_reset {s : State} (hs : s.screens = []) (hl : s.loaded = none) : SchedulesSound s := by
  refine ⟨by rw [hs, State.config, hl]; rfl, fun i c x hx => ?_⟩
  have := hx.2
  rw [hs] at this
  cases this

/-- An event at one screen that keeps the schedule law. -/
def EventLaw (f : Screen → Nat → Nat → ScreenState → ScreenState) : Prop :=
  ∀ (c : Screen) (clock now : Nat) (x : ScreenState),
    ScheduleLaw c.rows x.schedule → ScheduleLaw c.rows (f c clock now x).schedule

/-- An event that leaves every schedule as it is. -/
theorem EventLaw.of_same {f : Screen → Nat → Nat → ScreenState → ScreenState}
    (hf : ∀ c clock now x, (f c clock now x).schedule = x.schedule) : EventLaw f := fun c clock now x h => by
  rw [hf]
  exact h

namespace SchedulesKept

variable {s t u : State}

/-! ## Operations in sequence -/

theorem refl (s : State) : SchedulesKept s s := id

theorem trans (h : SchedulesKept s t) (h' : SchedulesKept t u) : SchedulesKept s u := h' ∘ h

theorem andThen {f : State → State} (h : SchedulesKept s t) (hf : ∀ u, SchedulesKept u (f u)) :
    SchedulesKept s (t.andThen f) := by
  unfold State.andThen
  split
  · exact h
  · exact h.trans (hf t)

/-- An operation carried out where a condition holds. -/
theorem when {p : Prop} [Decidable p] (h : p → SchedulesKept s t) : SchedulesKept s (if p then t else s) := by
  split
  · exact h ‹_›
  · exact refl s

/-- An operation that leaves the screens and the loaded copy. -/
theorem stays (hs : t.screens = s.screens) (hl : t.loaded = s.loaded) : SchedulesKept s t := by
  have hc : t.config = s.config := by rw [State.config, State.config, hl]
  unfold SchedulesKept SchedulesSound ScreenAt
  rw [hs, hc]
  exact id

/-- An operation through the memory port. -/
theorem port (h : PortStep s t) : SchedulesKept s t := by
  rcases h.2 with ⟨m, p, rfl⟩ | ⟨m, p, rfl⟩ | ⟨r, m, p, rfl⟩
  · exact stays rfl rfl
  · exact stays rfl rfl
  · exact stays rfl rfl

/-- An operation of the journal writer. -/
theorem writer (h : JournalStep False s t) : SchedulesKept s t := by
  rcases h.form with ⟨m, p, c, j, rfl⟩ | ⟨m, p, c, j, rfl⟩ | ⟨fr, m, p, c, j, rfl⟩
  · exact stays rfl rfl
  · exact stays rfl rfl
  · exact stays rfl rfl

theorem record (r : JRecord) (s : State) : SchedulesKept s (s.record r) := writer (handRecord_step r False.elim)

/-- A record handed over after a change that leaves the screens and the loaded copy. -/
theorem recorded {r : JRecord} (hs : t.screens = s.screens) (hl : t.loaded = s.loaded) : SchedulesKept s (t.record r) :=
  (stays hs hl).trans (record r t)

theorem reread (s : State) : SchedulesKept s (reread s) := writer (reread_step s)

theorem sealPage (s : State) : SchedulesKept s (sealPage s) := writer (sealPage_step s)

theorem runFlush (w : WorkItem) (s : State) : SchedulesKept s (runFlush w s) :=
  (reread s).andThen fun t => (sealPage t).andThen fun _ => stays rfl rfl

/-! ## The screens -/

/-- A screen's schedule replaced by one that keeps the law. -/
theorem withScreen {i : Nat} {c : Screen} {x y : ScreenState} (hx : ScreenAt s i c x)
    (hy : ScheduleLaw c.rows x.schedule → ScheduleLaw c.rows y.schedule) : SchedulesKept s (s.withScreen i y) := by
  rintro ⟨hlength, hlaw⟩
  refine ⟨by simpa [State.withScreen, State.config] using hlength, fun j d z hz => ?_⟩
  obtain ⟨hd, hz⟩ := hz
  have hi : i < s.screens.length := (List.getElem?_eq_some_iff.1 hx.2).1
  by_cases hj : j = i
  · subst hj
    obtain rfl : c = d := Option.some.inj (hx.1.symm.trans hd)
    obtain rfl : y = z := Option.some.inj ((List.getElem?_set_self hi).symm.trans hz)
    exact hy (hlaw j c x hx)
  · exact hlaw j d z ⟨hd, (List.getElem?_set_ne (Ne.symm hj)).symm.trans hz⟩

theorem placeFrames (i : Nat) (fs : List OutFrame) (s : State) : SchedulesKept s (placeFrames i fs s) := by
  rw [placeFrames_panels]
  exact stays rfl rfl

theorem screenEvent (i : Nat) {f : Screen → Nat → Nat → ScreenState → ScreenState} (hf : EventLaw f) (s : State) :
    SchedulesKept s (screenEvent i f s) := by
  unfold Machine.screenEvent
  split
  next c x hc hx => exact (withScreen ⟨hc, hx⟩ (hf c _ _ x)).trans (placeFrames i _ _)
  next => exact refl s

theorem endScreen (i : Nat) (s : State) : SchedulesKept s (endScreen i s) := by
  unfold Machine.endScreen
  split
  next c x hc hx => exact (withScreen ⟨hc, hx⟩ fun _ => .nil c.rows).trans (placeFrames i _ _)
  next => exact refl s

theorem setBanner (b : Option Banner) (i : Nat) (s : State) : SchedulesKept s (setBanner b i s) :=
  (screenEvent i (.of_same (bannerEvent_schedule b)) s).trans (placeFrames i [bannerFrame b] _)

theorem eachScreen {f : Nat → State → State} (hf : ∀ i u, SchedulesKept u (f i u)) (n : Nat) (s : State) :
    SchedulesKept s (eachScreen f n s) := by
  induction n with
  | zero => exact refl s
  | succ n ih => exact ih.trans (hf n _)

theorem endScreens (s : State) : SchedulesKept s (endScreens s) :=
  (eachScreen endScreen s.screens.length s).trans (stays rfl rfl)

theorem runBanner (w : WorkItem) (s : State) : SchedulesKept s (runBanner w s) := by
  unfold Machine.runBanner
  dsimp only
  split
  · exact stays rfl rfl
  · refine (eachScreen (fun i u => ?_) _ s).trans (stays rfl rfl)
    exact when fun _ => setBanner _ i u

theorem writeStatus (i : Nat) (xs : List ScreenState) (s : State) : SchedulesKept s (writeStatus i xs s) := by
  rw [writeStatus_eq rfl rfl rfl]
  exact port (.storeAll _ s)

theorem refresh (i : Nat) (s : State) : SchedulesKept s (refresh i s) := by
  rw [refresh_panels]
  exact stays rfl rfl

/-! ## The panels -/

theorem serve (l : LineIx) (s : State) : SchedulesKept s (serve l s) := by
  refine when fun _ => ?_
  split
  · exact refl s
  · split
    · exact refl s
    · split
      · exact refl s
      · exact stays rfl rfl

theorem panelMissed (i : Nat) (p : Panel) (s : State) : SchedulesKept s (panelMissed i p s) := by
  unfold Machine.panelMissed
  split
  · exact stays rfl rfl
  · split
    · exact stays rfl rfl
    · exact recorded rfl rfl

theorem panelWaits (i : Nat) (p : Panel) (s : State) : SchedulesKept s (panelWaits i p s) := by
  unfold Machine.panelWaits
  split
  · exact panelMissed i p s
  · exact stays rfl rfl

theorem panelAcked (i : Nat) (p : Panel) (s : State) : SchedulesKept s (panelAcked i p s) := by
  unfold Machine.panelAcked
  split
  · exact andThen (recorded rfl rfl) (refresh i)
  · exact stays rfl rfl

theorem concludeExchange (l : LineIx) (i : Nat) {act : Nat → Panel → State → State}
    (ha : ∀ i p u, SchedulesKept u (act i p u)) (s : State) : SchedulesKept s (concludeExchange l i act s) := by
  unfold Machine.concludeExchange
  split
  · exact stays rfl rfl
  · exact trans (stays rfl rfl) (ha i _ (endExchange l s))

theorem panelFrame (l : LineIx) (type : Byte) (f : RxFrame) {act : Nat → Panel → State → State}
    (ha : ∀ i p u, SchedulesKept u (act i p u)) (s : State) : SchedulesKept s (panelFrame l type f act s) := by
  unfold Machine.panelFrame
  split
  · exact refl s
  · refine when fun _ => ?_
    split
    · exact concludeExchange l _ ha s
    · exact concludeExchange l _ panelMissed s

theorem endBackOff (i : Nat) (s : State) : SchedulesKept s (endBackOff i s) := by
  unfold Machine.endBackOff
  split
  · exact refl s
  next p _ => exact trans (t := s.withPanel i { p with backOff := none }) (stays rfl rfl) (serve p.line _)

theorem placePing (i : Nat) (s : State) : SchedulesKept s (placePing i s) := by
  unfold Machine.placePing
  split
  · exact refl s
  · exact stays rfl rfl

/-! ## The mat lines and the assembler -/

theorem silence (l : LineIx) (a : Nat) (s : State) : SchedulesKept s (silence l a s) := by
  unfold Machine.silence
  dsimp only
  split
  · exact recorded rfl rfl
  · exact stays rfl rfl

theorem decoderReplied (l : LineIx) (a : Nat) (s : State) : SchedulesKept s (decoderReplied l a s) := by
  unfold Machine.decoderReplied
  dsimp only
  split
  · exact recorded rfl rfl
  · exact stays rfl rfl

theorem matFrame (l : LineIx) (type : Byte) (f : RxFrame) {handle : Nat → State → State}
    (hh : ∀ a u, SchedulesKept u (handle a u)) (s : State) : SchedulesKept s (matFrame l type f handle s) := by
  unfold Machine.matFrame
  split
  · exact refl s
  · refine when fun _ => ?_
    split
    · exact ((decoderReplied l _ s).andThen (hh _)).andThen fun _ => stays rfl rfl
    · exact silence l _ s

theorem handleBatch (l : LineIx) (f : RxFrame) (a : Nat) (s : State) : SchedulesKept s (handleBatch l f a s) := by
  unfold Machine.handleBatch
  dsimp only
  split <;> exact stays rfl rfl

theorem handleEmpty (l : LineIx) (f : RxFrame) (a : Nat) (s : State) : SchedulesKept s (handleEmpty l f a s) := by
  unfold Machine.handleEmpty
  dsimp only
  split
  · exact stays rfl rfl
  · exact recorded rfl rfl

theorem settleClusters (s : State) : SchedulesKept s (settleClusters s) := when fun _ => stays rfl rfl

theorem drawFrom (m : Fin 8) (s : State) : SchedulesKept s (drawFrom m s) := by
  unfold Machine.drawFrom
  split
  · exact refl s
  · dsimp only
    split
    · exact stays rfl rfl
    · unfold handleRead
      split
      · exact recorded rfl rfl
      · exact stays rfl rfl

theorem offerHead (c : Cluster) (s : State) : SchedulesKept s (offerHead c s) := by
  unfold Machine.offerHead
  split <;> exact stays rfl rfl

/-! ## The work sweep -/

theorem endSweep (s : State) : SchedulesKept s (endSweep s) := (reread s).andThen fun _ => stays rfl rfl

theorem advanceSweep (i : Nat) (s : State) : SchedulesKept s (advanceSweep i s) := by
  unfold Machine.advanceSweep
  split
  · exact stays rfl rfl
  · exact endSweep s

theorem takeSlot (i : Nat) (s : State) : SchedulesKept s (takeSlot i s) :=
  (port (.store _ _ _ s)).andThen fun _ => stays rfl rfl

theorem failSlot (i : Nat) (code : OutcomeCode) (notify : Bool) (s : State) : SchedulesKept s (failSlot i code notify s) :=
  (takeSlot i s).andThen fun _ => stays rfl rfl

theorem offerItem (w : WorkItem) (s : State) : SchedulesKept s (offerItem w s) := by
  unfold Machine.offerItem
  split
  · have hpush : SchedulesKept s (s.pushIntake (.work w)) := stays rfl rfl
    exact (hpush.trans (takeSlot _ _)).andThen (advanceSweep _)
  · exact endSweep s

theorem dispatch (w : WorkItem) (s : State) : SchedulesKept s (dispatch w s) := by
  unfold Machine.dispatch
  split
  · exact (takeSlot _ s).andThen fun u => andThen (stays rfl rfl) (advanceSweep _)
  · exact (takeSlot _ s).andThen fun u => andThen (stays rfl rfl) (advanceSweep _)
  all_goals exact offerItem w s

theorem takePosted (i : Nat) (s : State) : SchedulesKept s (takePosted i s) := by
  refine (port (.accessAll _ s)).andThen fun u => ?_
  split
  · exact failSlot _ _ _ u
  · dsimp only
    split
    · exact dispatch _ u
    · exact failSlot _ _ _ u

theorem visitSlot (i : Nat) (s : State) : SchedulesKept s (visitSlot i s) := by
  refine (port (.access _ _ _ s)).andThen fun u => ?_
  split
  · exact advanceSweep i u
  · exact takePosted i u

theorem writeEnd (e : EndReport) (s : State) : SchedulesKept s (writeEnd e s) := by
  rw [writeEnd_eq]
  refine (port (.storeAll _ s)).andThen fun u => ?_
  have hsweep : SchedulesKept u (u.withSweep (u.sweep.closed e)) := stays rfl rfl
  unfold endFollows
  dsimp only
  generalize u.withSweep (u.sweep.closed e) = v at hsweep
  have hcause : SchedulesKept v (if e.notify then v.setCause .workDone else v) := when fun _ => stays rfl rfl
  generalize (if e.notify then v.setCause .workDone else v) = z at hcause
  exact (hsweep.trans hcause).trans (when fun _ => advanceSweep e.slot z)

/-! ## Items of the split unit -/

theorem handAll (rs : List JRecord) (s : State) : SchedulesKept s (handAll rs s).state := by
  cases rs with
  | nil => exact refl s
  | cons r rest =>
    simp only [Machine.handAll]
    have h : SchedulesKept s (handRecord r s).state := record r s
    generalize (handRecord r s).state = u at h
    induction rest generalizing u with
    | nil => exact h
    | cons r rest ih => exact ih _ (h.andThen (record r))

theorem finish (p : ItemPlan) (w : Option WorkItem) (n : Word) (place : Place) (s : State) :
    SchedulesKept s (p.finish w n place s) := by
  have hhand : SchedulesKept s { s with handovers := s.handovers ++ p.handovers } := stays rfl rfl
  unfold ItemPlan.finish
  dsimp only
  refine andThen (t := if p.watch then _ else _) ?_ fun u => ?_
  · split
    · exact hhand.trans (writer (watchSeal_step n place _))
    · exact hhand
  · cases w <;> exact stays rfl rfl

theorem run (p : ItemPlan) (w : Option WorkItem) (s : State) : SchedulesKept s (p.run w s) :=
  andThen ((port (.accessAll p.reads s)).andThen fun u => port (.storeAll p.writes u)) fun u =>
    (handAll p.records u).andThen (finish p w _ _)

theorem handleHead (s : State) : SchedulesKept s (handleHead s) := by
  refine when fun _ => ?_
  split
  · exact refl s
  · split
    · exact refl s
    · exact run _ _ s

/-- A command that does nothing, or handles the item in flight. -/
theorem item (h : t = s ∨ t = Machine.handleHead s) : SchedulesKept s t := by
  rcases h with rfl | rfl
  · exact refl t
  · exact handleHead s

end SchedulesKept

/-! ## Steps that may be under way -/

namespace SchedulesKept

variable (s : State)

theorem execSlotVisit : SchedulesKept s (stateAfter (execSlotVisit s) s) := by
  refine when fun _ => ?_
  split
  · exact refl s
  · exact visitSlot _ s

theorem execItemEnd : SchedulesKept s (stateAfter (execItemEnd s) s) := by
  refine when fun _ => ?_
  split
  · exact refl s
  · exact writeEnd _ s

theorem execStatusTimer : SchedulesKept s (stateAfter (execStatusTimer s) s) :=
  when fun _ => (writeStatus 0 s.screens s).andThen fun _ => stays rfl rfl

theorem execSealTimer : SchedulesKept s (stateAfter (execSealTimer s) s) := when fun _ => sealPage s

theorem execDrain : SchedulesKept s (stateAfter (execDrain s) s) := when fun _ => writer (drainHead_step False.elim)

theorem execFlushJournal : SchedulesKept s (stateAfter (execFlushJournal s) s) := by
  refine when fun _ => ?_
  split
  · exact refl s
  · exact runFlush _ s

theorem execDraw : SchedulesKept s (stateAfter (execDraw s) s) := by
  refine when fun _ => ?_
  split
  · exact refl s
  · exact (settleClusters s).trans (drawFrom _ _)

theorem execSilence (l : LineIx) (failed : Bool) : SchedulesKept s (stateAfter (execSilence l failed s) s) := by
  refine when fun _ => ?_
  split
  · exact refl s
  · exact silence l _ s

theorem execNoReply (l : LineIx) (failed : Bool) : SchedulesKept s (stateAfter (execNoReply l failed s) s) := by
  refine when fun _ => ?_
  split
  · exact refl s
  · exact concludeExchange l _ panelMissed s

theorem endRaceNow : SchedulesKept s (endRaceNow s) := by
  unfold Machine.endRaceNow
  refine trans (trans ?_ (endScreens _)) (sealPage _)
  exact stays rfl rfl

/-- The blocks begin with an empty schedule for each screen of the loaded copy (R132). -/
theorem beginBlocks (L : Loaded) (resume : Bool) : SchedulesKept s (beginBlocks L resume s) := fun _ => by
  refine ⟨List.length_map .., fun i c x hx => ?_⟩
  obtain ⟨hc, hx⟩ := hx
  have hc : L.screens[i]? = some c := hc
  rw [Machine.beginBlocks, List.getElem?_map, hc] at hx
  cases hx
  exact .nil c.rows

theorem enterPrep (L : Loaded) : SchedulesKept s (enterPrep L s) := by
  refine (port (.access _ _ _ s)).andThen fun u => ?_
  dsimp only
  have hbegin : SchedulesKept u (refreshAll (Machine.beginBlocks L (decide (u.directory 8 ≠ 0)) u)) :=
    (beginBlocks u L _).trans (eachScreen refresh _ _)
  generalize refreshAll (Machine.beginBlocks L (decide (u.directory 8 ≠ 0)) u) = v at hbegin
  have hpolling : SchedulesKept v (if decide (u.directory 8 ≠ 0) then v else beginPolling v) := by
    split
    · exact refl v
    · exact stays rfl rfl
  exact (hbegin.trans hpolling).trans (writer (tryNextPage_step true _))

theorem scanTable (L : Loaded) : SchedulesKept s (scanTable L s) := by
  unfold Machine.scanTable
  generalize List.range L.slotCount = is
  induction is generalizing s with
  | nil => exact refl s
  | cons i is ih =>
    refine trans ?_ (ih (scanSlot L s i))
    exact (refl s).andThen fun u => (port (.access _ _ _ u)).andThen fun v => port (.storeAll _ v)

theorem execLoadPassed : SchedulesKept s (stateAfter (execLoadPassed s) s) := by
  refine when fun _ => ?_
  split
  · exact (scanTable s _).andThen (enterPrep · _)
  · exact stays rfl rfl
  · exact refl s

theorem runUnderway (u : Underway) : SchedulesKept s (runUnderway u s) := by
  cases u with
  | load => exact execLoadPassed s
  | endRace => exact when fun _ => endRaceNow s
  | item => exact handleHead s
  | slotVisit => exact execSlotVisit s
  | itemEnd => exact execItemEnd s
  | statusTimer => exact execStatusTimer s
  | sealTimer => exact execSealTimer s
  | drain => exact execDrain s
  | flushJournal => exact execFlushJournal s
  | draw => exact execDraw s
  | batch l f => exact matFrame l _ f (handleBatch l f) s
  | empty l f => exact matFrame l _ f (handleEmpty l f) s
  | busy l f => exact matFrame l _ f (fun _ => refl) s
  | silence l failed => exact execSilence s l failed
  | ack l f => exact panelFrame l _ f panelAcked s
  | wait l f => exact panelFrame l _ f panelWaits s
  | noReply l failed => exact execNoReply s l failed

/-- A step cut short, wherever it is cut (log entry 8). -/
theorem cutStep (c : Cut) : SchedulesKept s (cutStep s c) := by
  have hopen : ∀ t : State, SchedulesKept t t.openPort := fun t => by
    unfold State.openPort
    split <;> exact stays rfl rfl
  have hport : ∀ p, SchedulesKept s (s.withPort p (Machine.runUnderway c.step)) := fun p =>
    (trans (t := { s with port := p }) (stays rfl rfl) (runUnderway _ c.step)).trans (hopen _)
  unfold Machine.cutStep cutAt
  split
  · exact hport _
  · split
    · exact refl s
    · exact hport _

theorem cutAll (cuts : List Cut) : SchedulesKept s (cutAll cuts s) := by
  induction cuts generalizing s with
  | nil => exact refl s
  | cons c cuts ih => exact (cutStep s c).trans (ih _)

/-! ## The register window, START and the resets -/

theorem startRace : SchedulesKept s (startRace s) := by
  refine (port (.access _ _ _ s)).andThen fun u => ?_
  split
  · exact stays rfl rfl
  · unfold beginRace
    dsimp only
    repeat' split
    all_goals exact stays rfl rfl

theorem controlWrite (code : Nat) (cuts : List Cut) : SchedulesKept s (controlWrite code cuts s) := by
  unfold Machine.controlWrite
  split
  · split <;> exact stays rfl rfl
  · split
    · exact startRace s
    · exact stays rfl rfl
  · split
    · exact endRaceNow s
    · exact stays rfl rfl
  · exact fun _ => .of_reset rfl rfl
  · exact stays rfl rfl

end SchedulesKept

/-! ## Every command -/

/-- Every command keeps the schedules sound. -/
theorem exec_schedules (c : Instr) (s : State) : SchedulesKept s (stateAfter (exec c s) s) := by
  cases c with
  -- the register window, the clock unit and the load
  | load => exact .controlWrite s 1 []
  | start => exact .controlWrite s 2 []
  | endRace => exact .controlWrite s 3 []
  | reset cuts => exact .controlWrite s 4 cuts
  | unknownCommand code => exact .controlWrite s code.toNat []
  | baseLoWrite v | baseHiWrite v =>
    simp only [exec, execBaseLoWrite, execBaseHiWrite, stateAfter]
    split <;> exact .stays rfl rfl
  | sweepWrite v => exact .when fun _ => by split <;> exact .stays rfl rfl
  | causeWrite v | causeEnableWrite v | registerWriteIgnored r v => exact .stays rfl rfl
  | loadPassed => exact .execLoadPassed s
  | loadFailed => exact .when fun _ => by split <;> exact .stays rfl rfl
  | memoryFault report =>
    simp only [exec, execMemoryFault, stateAfter]
    split
    · exact .refl s
    · exact (SchedulesKept.cutAll s report.cuts).trans (.stays rfl rfl)
  | powerOnReset => exact fun _ => .of_reset rfl rfl
  | secondMark | clockCeiling => exact .when fun _ => .stays rfl rfl
  -- mat lines
  | round l => exact .when fun _ => .stays rfl rfl
  | call l | mark l => exact .when fun _ => by split <;> exact .stays rfl rfl
  | batch l f => exact .matFrame l _ f (.handleBatch l f) s
  | empty l f => exact .matFrame l _ f (.handleEmpty l f) s
  | busy l f => exact .matFrame l _ f (fun _ => .refl) s
  | silence l failed => exact .execSilence s l failed
  -- the crossing assembler
  | draw => exact .execDraw s
  | clusterExpiry point chip => exact .when fun _ => .stays rfl rfl
  | closedCrossingOffer =>
    refine .when fun _ => ?_
    split
    · exact .refl s
    · exact (SchedulesKept.settleClusters s).trans (.offerHead _ _)
  -- the work sweep
  | slotVisit => exact .execSlotVisit s
  | sweepTimer => exact .when fun _ => .stays rfl rfl
  | itemEnd => exact .execItemEnd s
  -- the split unit
  | localCrossing => exact .item (execLocalCrossing_cases s)
  | remoteCrossing | startWave | runnerStatus | setWatch | setName | correctSplit =>
    exact .item (runItem_cases fun w hk => by simp only [State.planOf, hk])
  -- the screen scheduler
  | screenRequest =>
    refine .when fun _ => ?_
    split
    · exact (SchedulesKept.screenEvent _ (fun _ clock now _ h => h.requestEvent clock now _) s).trans (.stays rfl rfl)
    · exact .refl s
  | purge =>
    refine .when fun _ => ?_
    split
    · exact (SchedulesKept.eachScreen (fun i => .screenEvent i fun _ clock now _ h => h.purgeEvent clock now _) _ s).trans
        (.stays rfl rfl)
    · exact .refl s
  | removal =>
    refine .when fun _ => ?_
    split
    · exact (SchedulesKept.screenEvent _ (fun _ clock now _ h => h.removalEvent clock now _ _) s).trans (.stays rfl rfl)
    · exact .refl s
  | entryDue i => exact .when fun _ => .screenEvent i (fun _ clock now _ h => h.offerRows clock now) s
  | leaveTime i n f => exact .when fun _ => .screenEvent i (fun _ clock now _ h => h.leaveEvent clock now n f) s
  | missed i n f => exact .when fun _ => .screenEvent i (fun _ clock now _ h => h.missEntry clock now n f) s
  | banner =>
    refine .when fun _ => ?_
    split
    · exact .refl s
    · exact .runBanner _ s
  | bannerExpiry i => exact .when fun _ => .setBanner none i s
  | statusTimer => exact .execStatusTimer s
  | wakeLeadReached i f => exact .when fun _ => .screenEvent i (.of_same (wakeLeadEvent_schedule f)) s
  | dimAfter i f => exact .when fun _ => .screenEvent i (.of_same (dimAfterEvent_schedule f)) s
  | darkAfter i => exact .when fun _ => .screenEvent i (.of_same darkAfterEvent_schedule) s
  | wakeAgeOut i => exact .when fun _ => .screenEvent i (.of_same wakeAgeEvent_schedule) s
  -- panel lines
  | panelExchange l => exact .serve l s
  | ack l f => exact .panelFrame l _ f .panelAcked s
  | wait l f => exact .panelFrame l _ f .panelWaits s
  | noReply l failed => exact .execNoReply s l failed
  | backOffEnd i => exact .when fun _ => .endBackOff i s
  | probeDue i => exact .when fun _ => .placePing i s
  | clock l => exact .when fun _ => by split <;> exact .stays rfl rfl
  -- the journal writer
  | sealTimer => exact .execSealTimer s
  | drain => exact .execDrain s
  | flushJournal => exact .execFlushJournal s

theorem passTime_schedules (s : State) : SchedulesKept s (passTime s) := by
  have hlines : SchedulesKept s (linesGoOn s) := .when fun _ => .stays rfl rfl
  unfold passTime
  dsimp only
  split <;> exact hlines.trans (.stays rfl rfl)

/-- Settles O59: every command keeps the schedules sound, and a millisecond that passes leaves them. -/
theorem schedulesStaySound : Obligations.SchedulesStaySound := by
  intro s t h hs
  unfold step at hs
  split at hs
  · have hpick : SchedulesKept s s.countPick := .stays rfl rfl
    unfold idle at hs
    split at hs
    · rw [exec_next] at hs
      cases hs
      exact exec_schedules _ _ (hpick h)
    · cases hs
      exact passTime_schedules _ (hpick h)
  · next c rest _ =>
    have hrest : SchedulesKept s (s.withPending rest) := .stays rfl rfl
    rw [exec_next] at hs
    cases hs
    exact exec_schedules c _ (hrest h)

end Sys2Proof.Machine

/-! The commands of the screen scheduler: requests, removals and purges (R135 to R146). -/

namespace Sys2Proof.Machine

/-! ## Events at one screen -/

section
variable {s : State} {i : Nat} {c : Screen} {x : ScreenState}

theorem screenEvent_at (h : ScreenAt s i c x) (f : Screen → Nat → Nat → ScreenState → ScreenState) :
    screenEvent i f s = screenAfter i c x (f c s.raceClock s.localTime x) s := by
  obtain ⟨hc, hx⟩ := h
  simp only [screenEvent, hc, hx]
  rfl

theorem screenTest_at (h : ScreenAt s i c x) (f : Screen → Nat → Nat → ScreenState → Bool) :
    screenTest i f s = f c s.raceClock s.localTime x := by
  obtain ⟨hc, hx⟩ := h
  simp only [screenTest, hc, hx]

/-- The hand-over acted on leaves the hand-overs. -/
theorem popHandover_screenAfter {h : HandOver} {rest : List HandOver} (hs : s.handovers = h :: rest) (y : ScreenState) :
    (screenAfter i c x y s).popHandover = { screenAfter i c x y s with handovers := rest } := by
  have hkept : (screenAfter i c x y s).handovers = s.handovers := by rw [screenAfter, placeFrames_panels]
  rw [State.popHandover, hkept, hs]
  rfl

theorem exec_screenRequest {q : Request} {rest : List HandOver} (hw : s.working = true)
    (hs : s.handovers = .request q :: rest) (h : ScreenAt s q.screen c x) :
    exec .screenRequest s = .next
      { screenAfter q.screen c x (requestEvent q c s.raceClock s.localTime x) s with handovers := rest } := by
  rw [exec, execScreenRequest, if_pos hw, hs]
  dsimp only
  rw [screenEvent_at h, popHandover_screenAfter hs]

theorem exec_removal {face : FaceIx} {runner : Nat} {rest : List HandOver} (hw : s.working = true)
    (hs : s.handovers = .removal i face runner :: rest) (h : ScreenAt s i c x) :
    exec .removal s = .next
      { screenAfter i c x (removalEvent runner face c s.raceClock s.localTime x) s with handovers := rest } := by
  rw [exec, execRemoval, if_pos hw, hs]
  dsimp only
  rw [screenEvent_at h, popHandover_screenAfter hs]

end

/-! ## The clock rules of a request's entry (R135) -/

section
variable {runner : Nat} {face : FaceIx} {x : ScreenState} {e : Entry} (c : Screen) (clock now : Nat)

theorem settleEntry_pending (hf : findEntry runner face x.schedule = some e) (hp : e.shownSince = none) :
    settleEntry c clock now runner face x =
      offerRows c clock now (if e.offTime ≤ clock then missEntry c clock now runner face x else x) := by
  simp only [settleEntry, hf, hp]

theorem settleEntry_shown {t : Nat} (hf : findEntry runner face x.schedule = some e) (hs : e.shownSince = some t) :
    settleEntry c clock now runner face x =
      offerRows c clock now (if e.leaveTime c t ≤ clock then leaveEntry c clock now runner face x else x) := by
  simp only [settleEntry, hf, hs]

end

/-! ## The eviction candidate (R137) -/

/-- The better candidate of two: the later one, unless its priority is higher. -/
def Entry.orLater (best : Option Entry) (e : Entry) : Option Entry :=
  match best with
  | none => some e
  | some b => if e.priority ≤ b.priority then some e else some b

/-- The entry may be evicted for a request of a priority. -/
def Entry.evictable (priority : Nat) (e : Entry) : Bool := e.shownSince.isNone && decide (e.priority < priority)

theorem candidate_eq (priority : Nat) (l : List Entry) :
    candidate priority l = (l.filter (Entry.evictable priority)).foldl Entry.orLater none := rfl

theorem Entry.evictable_iff {priority : Nat} {e : Entry} :
    e.evictable priority = true ↔ e.shownSince = none ∧ e.priority < priority := by
  simp [Entry.evictable]

theorem Entry.orLater_cases (best : Option Entry) (e : Entry) :
    Entry.orLater best e = some e ∨ Entry.orLater best e = best := by
  unfold Entry.orLater
  split
  · exact .inl rfl
  · split
    · exact .inl rfl
    · exact .inr rfl

/-- An entry of no higher priority than the best so far becomes the best. -/
theorem Entry.orLater_takes {best : Option Entry} {e : Entry} (h : ∀ b, best = some b → e.priority ≤ b.priority) :
    Entry.orLater best e = some e := by
  cases best with
  | none => rfl
  | some b => exact if_pos (h b rfl)

theorem candidate_none {priority : Nat} {l : List Entry} (h : ∀ e ∈ l, ¬ (e.shownSince = none ∧ e.priority < priority)) :
    candidate priority l = none := by
  have hnone : l.filter (Entry.evictable priority) = [] :=
    List.filter_eq_nil_iff.2 fun e he hc => h e he (Entry.evictable_iff.1 hc)
  rw [candidate_eq, hnone]
  rfl

/-- The best so far stays the best among entries of higher priority. -/
theorem foldl_orLater_keeps {e : Entry} {l : List Entry} (h : ∀ g ∈ l, e.priority < g.priority) :
    l.foldl Entry.orLater (some e) = some e := by
  induction l with
  | nil => rfl
  | cons g l ih =>
    obtain ⟨hg, hl⟩ := List.forall_mem_cons.1 h
    rw [List.foldl_cons, show Entry.orLater (some e) g = some e from if_neg (Nat.not_le.2 hg)]
    exact ih hl

/-- The candidate: none before it has a lower priority, and those after it have a higher one. -/
theorem candidate_some {priority : Nat} {a b : List Entry} {e : Entry} (he : e.shownSince = none ∧ e.priority < priority)
    (ha : ∀ g ∈ a, g.shownSince = none ∧ g.priority < priority → e.priority ≤ g.priority)
    (hb : ∀ g ∈ b, g.shownSince = none ∧ g.priority < priority → e.priority < g.priority) :
    candidate priority (a ++ e :: b) = some e := by
  have hbefore : ∀ g, (a.filter (Entry.evictable priority)).foldl Entry.orLater none = some g →
      e.priority ≤ g.priority := fun g hg => by
    obtain ⟨hm, hc⟩ := List.mem_filter.1 ((foldl_choice_mem Entry.orLater_cases hg).resolve_right fun h => nomatch h)
    exact ha g hm (Entry.evictable_iff.1 hc)
  have hafter : ∀ g ∈ b.filter (Entry.evictable priority), e.priority < g.priority := fun g hg => by
    obtain ⟨hm, hc⟩ := List.mem_filter.1 hg
    exact hb g hm (Entry.evictable_iff.1 hc)
  rw [candidate_eq, List.filter_append, List.filter_cons_of_pos (Entry.evictable_iff.2 he), List.foldl_append,
    List.foldl_cons, Entry.orLater_takes hbefore]
  exact foldl_orLater_keeps hafter

/-! ## Requests (R135 to R138) -/

/-- What becomes of a request that enters: its entry, and the floor's test against high water (R135, R138). -/
theorem enterRequest_eq (c : Screen) (clock now : Nat) (r : Request) (x : ScreenState) :
    enterRequest c clock now r x = retest c clock now { x with
      schedule := insertEntry (r.entry none) x.schedule
      floor    := if c.high ≤ x.schedule.length + 1 ∧ x.floor < 7 then x.floor + 1 else x.floor } := by
  unfold enterRequest
  dsimp only
  rw [insertEntry_length]
  rfl

section
variable {r : Request} {x : ScreenState} (c : Screen) (clock now : Nat)

/-- The entry of a request that enters is PENDING: it is missed at once or stays, and the rows are offered. -/
theorem settleEntry_enterRequest (hf : findEntry r.runner r.face x.schedule = none) :
    settleEntry c clock now r.runner r.face (enterRequest c clock now r x) =
      offerRows c clock now (if r.offTime ≤ clock then missEntry c clock now r.runner r.face (enterRequest c clock now r x)
        else enterRequest c clock now r x) := by
  have hfound : findEntry r.runner r.face (enterRequest c clock now r x).schedule = some (r.entry none) := by
    rw [enterRequest, (retest_schedule c clock now _).1]
    exact findEntry_insertEntry (e := r.entry none) hf
  exact settleEntry_pending c clock now hfound rfl

theorem requestEvent_below (hf : findEntry r.runner r.face x.schedule = none) (h : r.priority < x.floor) :
    requestEvent r c clock now x = dropRequest x := by
  simp only [requestEvent, hf, if_pos h]

theorem requestEvent_room (hf : findEntry r.runner r.face x.schedule = none) (h : x.floor ≤ r.priority)
    (hl : x.schedule.length < 48) :
    requestEvent r c clock now x = settleEntry c clock now r.runner r.face (enterRequest c clock now r x) := by
  simp only [requestEvent, hf, if_neg (Nat.not_lt.2 h), if_pos hl]

theorem requestEvent_noCandidate (hf : findEntry r.runner r.face x.schedule = none) (h : x.floor ≤ r.priority)
    (hl : 48 ≤ x.schedule.length) (hc : candidate r.priority x.schedule = none) :
    requestEvent r c clock now x = dropRequest x := by
  simp only [requestEvent, hf, if_neg (Nat.not_lt.2 h), if_neg (Nat.not_lt.2 hl), hc]

theorem requestEvent_evicts {e : Entry} (hf : findEntry r.runner r.face x.schedule = none) (h : x.floor ≤ r.priority)
    (hl : 48 ≤ x.schedule.length) (hc : candidate r.priority x.schedule = some e) :
    requestEvent r c clock now x =
      settleEntry c clock now r.runner r.face (enterRequest c clock now r (evictEntry c clock now e x)) := by
  simp only [requestEvent, hf, if_neg (Nat.not_lt.2 h), if_neg (Nat.not_lt.2 hl), hc]

/-- An eviction makes no entry (R137). -/
theorem findEntry_evictEntry (hf : findEntry r.runner r.face x.schedule = none) (e : Entry) :
    findEntry r.runner r.face (evictEntry c clock now e x).schedule = none := by
  rw [evictEntry, (retest_schedule c clock now _).1]
  exact findEntry_removeEntry_none hf e.runner e.face

end

/-- Settles O41: the drop, the admission and the eviction of `requestEvent`, the entry then settled as a PENDING one. -/
theorem newRequestsAreAdmittedOrDropped : Obligations.NewRequestsAreAdmittedOrDropped := by
  intro q rest c x s hw hs hx hf clock now acts dropped entry entered isCandidate
  have hacts : ∀ y, requestEvent q c clock now x = y → acts y := fun y hy => by
    rw [← hy]
    exact exec_screenRequest hw hs hx
  have hentered : ∀ u, findEntry q.runner q.face u.schedule = none →
      settleEntry c clock now q.runner q.face (enterRequest c clock now q u) = entered u := fun u hu => by
    rw [settleEntry_enterRequest c clock now hu, enterRequest_eq]
    rfl
  refine ⟨fun hp => hacts _ (requestEvent_below c clock now hf hp), fun hp hl => hacts _ ?_, fun hp hl hnone => hacts _ ?_,
    fun a e b hp hl hab he ha hb => hacts _ ?_⟩
  · exact (requestEvent_room c clock now hf hp hl).trans (hentered x hf)
  · exact requestEvent_noCandidate c clock now hf hp hl (candidate_none hnone)
  · have hcandidate : candidate q.priority x.schedule = some e := by
      rw [hab]
      exact candidate_some he ha hb
    exact (requestEvent_evicts c clock now hf hp hl hcandidate).trans
      (hentered _ (findEntry_evictEntry c clock now hf e))

/-- Settles O42: the entry put in the place of the one removed is the one the clock rules are applied to. -/
theorem requestsReplaceTheirEntry : Obligations.RequestsReplaceTheirEntry := by
  intro q rest c x old s hw hs hx hold clock now entry z acts
  have hfound : findEntry q.runner q.face z.schedule = some entry := by
    rw [(retest_schedule c clock now _).1]
    exact findEntry_insertEntry (e := entry) (removeEntry_none _ _ _)
  have hevent : requestEvent q c clock now x = settleEntry c clock now q.runner q.face z := by
    simp only [requestEvent, hold]
    rfl
  have hacts : ∀ y, settleEntry c clock now q.runner q.face z = y → acts y := fun y hy => by
    rw [← hy, ← hevent]
    exact exec_screenRequest hw hs hx
  refine ⟨fun hp hoff => hacts _ ?_, fun hp hoff => hacts _ ?_, fun t ht => ⟨fun hleave => hacts _ ?_,
    fun hleave => hacts _ ?_⟩⟩
  · rw [settleEntry_pending c clock now hfound hp]
    exact congrArg _ (if_pos hoff)
  · rw [settleEntry_pending c clock now hfound hp]
    exact congrArg _ (if_neg (Nat.not_le.2 hoff))
  · rw [settleEntry_shown c clock now hfound ht]
    exact congrArg _ (if_pos hleave)
  · rw [settleEntry_shown c clock now hfound ht]
    exact congrArg _ (if_neg (Nat.not_le.2 hleave))

/-! ## Removals and purges (R138, R145, R146) -/

/-- A removal leaves the tallies, takes the entry, and does not raise the floor (R138). -/
theorem leaveEntry_frame (c : Screen) (clock now runner : Nat) (face : FaceIx) (x : ScreenState) :
    let y := leaveEntry c clock now runner face x
    y.schedule = removeEntry runner face x.schedule ∧ y.floor ≤ x.floor ∧ y.dropped = x.dropped ∧ y.missed = x.missed := by
  dsimp only
  obtain ⟨hs, hf, hd, hm⟩ := retest_schedule c clock now { x with
    schedule := removeEntry runner face x.schedule
    floor := floorAfterRemoval c (removeEntry runner face x.schedule).length x.floor }
  refine ⟨hs, hf.trans_le ?_, hd, hm⟩
  unfold floorAfterRemoval
  split
  · exact Nat.sub_le _ _
  · exact Nat.le_refl _

/-- The same where there may be no such entry. -/
theorem leaveIfAny_frame (c : Screen) (clock now runner : Nat) (face : FaceIx) (x : ScreenState) :
    let y := leaveIfAny c clock now runner face x
    y.schedule = removeEntry runner face x.schedule ∧ y.floor ≤ x.floor ∧ y.dropped = x.dropped ∧ y.missed = x.missed := by
  unfold leaveIfAny
  split
  next hf => exact ⟨(removeEntry_eq_self hf).symm, Nat.le_refl _, rfl, rfl⟩
  next => exact leaveEntry_frame c clock now runner face x

theorem leaveIfAny_eq (c : Screen) (clock now runner : Nat) (face : FaceIx) (x : ScreenState) :
    leaveIfAny c clock now runner face x =
      if findEntry runner face x.schedule = none then x else leaveEntry c clock now runner face x := by
  unfold leaveIfAny
  cases findEntry runner face x.schedule with
  | none => rfl
  | some e => rfl

/-- The entries of both faces gone, those of the runner are. -/
theorem removeEntry_faces (runner : Nat) (l : List Entry) :
    removeEntry runner 1 (removeEntry runner 0 l) = l.filter fun e => !decide (e.runner = runner) := by
  rw [removeEntry, removeEntry, List.filter_filter]
  refine List.filter_congr fun e _ => ?_
  have hface : ∀ f : FaceIx, (!(f == 1) && !(f == 0)) = false := by decide
  rw [Entry.isFor, Entry.isFor, ← beq_eq_decide]
  cases e.runner == runner with
  | false => rfl
  | true => exact hface e.face

theorem purgeEvent_eq (runner : Nat) (c : Screen) (clock now : Nat) {x : ScreenState}
    (h : ∃ e ∈ x.schedule, e.runner = runner) : purgeEvent runner c clock now x =
      offerRows c clock now (leaveIfAny c clock now runner 1 (leaveIfAny c clock now runner 0 x)) := by
  rw [purgeEvent, if_pos (by simpa using h)]

theorem purgeEvent_none {runner : Nat} (c : Screen) (clock now : Nat) {x : ScreenState}
    (h : ∀ e ∈ x.schedule, e.runner ≠ runner) : purgeEvent runner c clock now x = x := by
  rw [purgeEvent, if_neg (by simpa using h)]

/-- What a purge leaves of a screen's schedule, but for the rows offered afterwards, and of its floor and tallies (R145). -/
theorem purgeEvent_frame (runner : Nat) (c : Screen) (clock now : Nat) (x : ScreenState) :
    let y := purgeEvent runner c clock now x
    y.schedule.map (fun e => { e with shownSince := none }) =
      (x.schedule.filter fun e => !decide (e.runner = runner)).map (fun e => { e with shownSince := none }) ∧
    y.dropped = x.dropped ∧ y.missed = x.missed ∧ y.floor ≤ x.floor := by
  dsimp only
  by_cases h : ∃ e ∈ x.schedule, e.runner = runner
  · rw [purgeEvent_eq runner c clock now h]
    obtain ⟨hs0, hf0, hd0, hm0⟩ := leaveIfAny_frame c clock now runner 0 x
    obtain ⟨hs1, hf1, hd1, hm1⟩ := leaveIfAny_frame c clock now runner 1 (leaveIfAny c clock now runner 0 x)
    obtain ⟨-, hs, hf, hd, hm⟩ := offerRows_frame c clock now
      (leaveIfAny c clock now runner 1 (leaveIfAny c clock now runner 0 x))
    rw [hs1, hs0, removeEntry_faces] at hs
    exact ⟨hs, hd.trans (hd1.trans hd0), hm.trans (hm1.trans hm0), hf.trans_le (hf1.trans hf0)⟩
  · have hnone : ∀ e ∈ x.schedule, e.runner ≠ runner := fun e he hr => h ⟨e, he, hr⟩
    rw [purgeEvent_none c clock now hnone, List.filter_eq_self.2 fun e he => by simpa using hnone e he]
    exact ⟨rfl, rfl, rfl, Nat.le_refl _⟩

/-- No entry of the runner is left (R145). -/
theorem purgeEvent_runner (runner : Nat) (c : Screen) (clock now : Nat) (x : ScreenState) :
    ∀ e ∈ (purgeEvent runner c clock now x).schedule, e.runner ≠ runner := fun e he => by
  have hm := List.mem_map_of_mem (f := fun e : Entry => { e with shownSince := none }) he
  rw [(purgeEvent_frame runner c clock now x).1] at hm
  obtain ⟨g, hg, hge⟩ := List.mem_map.1 hm
  have hrunner : g.runner = e.runner := (Entry.mk.inj hge).1
  rw [← hrunner]
  simpa using (List.mem_filter.1 hg).2

theorem rowFrames_self (rows : Nat) (board : List Entry) : rowFrames rows board board = [] := by
  refine List.flatMap_eq_nil_iff.2 fun k _ => ?_
  cases board[k]? with
  | none => rfl
  | some e => exact if_pos rfl

/-- An event that changes nothing hands over no frame (R144, R161). -/
theorem eventFrames_self (rows : Nat) (x : ScreenState) : eventFrames rows x x = [] := by
  rw [eventFrames, if_pos rfl, rowFrames_self, List.append_nil]

theorem screenAfter_self {s : State} {i : Nat} {c : Screen} {x : ScreenState} (h : ScreenAt s i c x) :
    screenAfter i c x x s = s := by
  have hset : s.screens.set i x = s.screens := by
    obtain ⟨hi, hx⟩ := List.getElem?_eq_some_iff.1 h.2
    rw [← hx, List.set_getElem_self]
  rw [screenAfter, eventFrames_self, hset]
  rfl

/-- The panel of a screen after an event there: its frames placed in its outbox as it was. -/
theorem screenAfter_panel (i : Nat) (c : Screen) (x y : ScreenState) (s : State) :
    (screenAfter i c x y s).panels[i]? = (placeFrames i (eventFrames c.rows x y) s).panels[i]? :=
  placeFrames_same (s := { s with screens := s.screens.set i y }) (t := s) rfl rfl _

theorem screenAfter_screen {s : State} {i : Nat} {c : Screen} {x : ScreenState} (h : ScreenAt s i c x) (y : ScreenState) :
    (screenAfter i c x y s).screens[i]? = some y := by
  rw [screenAfter, placeFrames_panels]
  exact List.getElem?_set_self (List.getElem?_eq_some_iff.1 h.2).1

/-- An event made at every screen leaves each screen and its panel as the event alone there would. -/
theorem eachScreen_event_at {s : State} {i : Nat} {c : Screen} {x : ScreenState} (h : ScreenAt s i c x)
    (f : Screen → Nat → Nat → ScreenState → ScreenState) :
    let t := eachScreen (fun i => screenEvent i f) s.screens.length s
    let y := f c s.raceClock s.localTime x
    t.screens[i]? = some y ∧ t.panels[i]? = (placeFrames i (eventFrames c.rows x y) s).panels[i]? := by
  obtain ⟨-, -, -, heach⟩ := eachScreen_local (fun i => ScreenLocal.screenEvent i f) s.screens.length s
  obtain ⟨hscreen, hpanel⟩ := (heach i).1 (List.getElem?_eq_some_iff.1 h.2).1
  rw [screenEvent_at h] at hscreen hpanel
  exact ⟨hscreen.trans (screenAfter_screen h _), hpanel.trans (screenAfter_panel i c x _ s)⟩

/-- A purge's effect on the part: the event at every screen, and the hand-over gone. -/
theorem exec_purge {runner : Nat} {rest : List HandOver} {s : State} (hw : s.working = true)
    (hs : s.handovers = .purge runner :: rest) :
    exec .purge s = .next (eachScreen (fun i => screenEvent i (purgeEvent runner)) s.screens.length s).popHandover := by
  rw [exec, execPurge, if_pos hw, hs]

/-- Settles O43: `removalEvent` and `purgeEvent` screen by screen, and `leaveEntry` by the model's definitions. -/
theorem purgesAndRemovals : Obligations.PurgesAndRemovals := by
  refine ⟨fun i runner face rest s hw hs => ⟨fun c x hx e he => ?_, fun c x hx hnone => ?_⟩, fun runner rest s hw hs => ?_,
    fun c clock now runner face x => ?_⟩
  · rw [exec_removal hw hs hx]
    simp only [removalEvent, he]
  · rw [exec_removal hw hs hx]
    simp only [removalEvent, hnone, screenAfter_self hx]
  · obtain ⟨hshape, hscreens, hpanels, -⟩ := eachScreen_local
      (fun i => ScreenLocal.screenEvent i (purgeEvent runner)) s.screens.length s
    have hat := fun i c x (hx : ScreenAt s i c x) => eachScreen_event_at hx (purgeEvent runner)
    rw [exec_purge hw hs]
    generalize eachScreen (fun i => screenEvent i (purgeEvent runner)) s.screens.length s = t at *
    refine ⟨t.popHandover, rfl, ?_, hscreens, hpanels, fun i c x hx => ?_⟩
    · have hrest : t.handovers.tail = rest := by rw [hshape, hs]; rfl
      rw [State.popHandover, hrest]
      exact congrArg (fun u : State => { u with handovers := rest }) hshape
    · obtain ⟨hscreen, hpanel⟩ := hat i c x hx
      obtain ⟨hentries, hdropped, hmissed, hfloor⟩ := purgeEvent_frame runner c s.raceClock s.localTime x
      refine ⟨_, hscreen, fun h => ?_, purgeEvent_none c _ _, purgeEvent_runner runner c _ _ x, hentries, hdropped, hmissed,
        hfloor, hpanel⟩
      rw [purgeEvent_eq runner c _ _ h, leaveIfAny_eq, leaveIfAny_eq]
  · have hkept : removeEntry runner face x.schedule =
        x.schedule.filter fun e => !(decide (e.runner = runner) && decide (e.face = face)) := rfl
    rw [leaveEntry, hkept]
    rfl

end Sys2Proof.Machine

/-! The boards, the clock events of their entries, the banners and the status records (R140 to R152). -/

namespace Sys2Proof.Machine

/-! ## Board order (R140) -/

theorem boardBefore_iff {a b : Entry} : boardBefore a b = true ↔ a.arrival < b.arrival ∨ (a.arrival = b.arrival ∧
    (a.runner < b.runner ∨ (a.runner = b.runner ∧ a.face.val < b.face.val))) := by
  simp [boardBefore]

theorem boardBefore_asymm {a b : Entry} (h : boardBefore a b = true) : boardBefore b a = false := by
  rw [← Bool.not_eq_true]
  rw [boardBefore_iff] at *
  omega

theorem boardBefore_trans {a b c : Entry} (h : boardBefore a b = true) (h' : boardBefore b c = true) :
    boardBefore a c = true := by
  rw [boardBefore_iff] at *
  omega

theorem insertBoard_perm (e : Entry) (l : List Entry) : (insertBoard e l).Perm (e :: l) := by
  induction l with
  | nil => exact .refl _
  | cons x l ih =>
    rw [insertBoard]
    split
    · exact .refl _
    · exact (ih.cons x).trans (.swap e x l)

/-- An entry put at its place leaves a board in board order. -/
theorem insertBoard_ordered {e : Entry} {l : List Entry} (h : l.Pairwise fun a b => boardBefore b a = false) :
    (insertBoard e l).Pairwise fun a b => boardBefore b a = false := by
  induction l with
  | nil => exact List.pairwise_singleton _ _
  | cons x l ih =>
    obtain ⟨hx, hl⟩ := List.pairwise_cons.1 h
    rw [insertBoard]
    split
    next he =>
      refine List.pairwise_cons.2 ⟨fun y hy => ?_, h⟩
      rcases List.mem_cons.1 hy with rfl | hy
      · exact boardBefore_asymm he
      · rw [← Bool.not_eq_true]
        intro hye
        exact absurd ((boardBefore_trans hye he).symm.trans (hx y hy)) (by decide)
    next he =>
      refine List.pairwise_cons.2 ⟨fun y hy => ?_, ih hl⟩
      rcases List.mem_cons.1 ((insertBoard_perm e l).subset hy) with rfl | hy
      · exact Bool.eq_false_iff.2 he
      · exact hx y hy

/-- The board holds the SHOWN entries (R140). -/
theorem boardOf_perm (l : List Entry) : (boardOf l).Perm (l.filter fun e => e.shownSince.isSome) := by
  induction l with
  | nil => exact .refl _
  | cons e l ih =>
    rw [boardOf, List.filter_cons]
    split
    · exact (insertBoard_perm e _).trans (ih.cons e)
    · exact ih

theorem boardOf_ordered (l : List Entry) : (boardOf l).Pairwise fun a b => boardBefore b a = false := by
  induction l with
  | nil => exact .nil
  | cons e l ih =>
    rw [boardOf]
    split
    · exact insertBoard_ordered ih
    · exact ih

theorem Entry.content_iff {a b : Entry} :
    a.content = b.content ↔ a.runner = b.runner ∧ a.face = b.face ∧ a.snapshot = b.snapshot := by
  simp [Entry.content]

/-! ## Free rows (R141) -/

theorem Entry.showable_iff {clock : Nat} {e : Entry} :
    e.showable clock = true ↔ e.shownSince = none ∧ e.onTime ≤ clock ∧ clock < e.offTime := by
  simp [Entry.showable, and_assoc]

theorem find_showable_none {clock : Nat} {l : List Entry} :
    l.find? (Entry.showable clock) = none ↔ ∀ e ∈ l, e.showable clock = false := by
  simp

theorem showEntry_eq (clock : Nat) (e : Entry) (l : List Entry) : showEntry clock e l = l.map fun z =>
    if z.runner = e.runner ∧ z.face = e.face then { z with shownSince := some clock } else z :=
  List.map_congr_left fun _ _ => if_congr Entry.isFor_iff rfl rfl

/-- The last free row taken, no more is offered (R141). -/
theorem offerRows_last {c : Screen} {clock : Nat} {x : ScreenState} {e : Entry} (now : Nat)
    (h : shownCount x.schedule + 1 = c.rows) (he : x.schedule.find? (Entry.showable clock) = some e) :
    offerRows c clock now x = retest c clock now { x with schedule := showEntry clock e x.schedule } := by
  rw [offerRows_next now (by omega) he]
  refine offerRows_full clock now ?_
  have hpending := (Entry.showable_iff.1 (List.find?_some he)).1
  have hmore := shownCount_lt_showEntry clock (List.mem_of_find?_eq_some he) hpending
  rw [(retest_schedule c clock now _).1]
  dsimp only
  omega

/-! ## The clock events of an entry (R141 to R143) -/

section
variable {s : State} {i : Nat} {c : Screen} {x : ScreenState}

theorem exec_entryDue (hr : s.engine = .race) (h : ScreenAt s i c x) (hfree : shownCount x.schedule < c.rows)
    (hdue : ∃ e ∈ x.schedule, e.showable s.raceClock = true) :
    exec (.entryDue i) s = .next (screenAfter i c x (offerRows c s.raceClock s.localTime x) s) := by
  have hready : entryDueReady i s = true := by
    rw [entryDueReady, screenTest_at h, entryDueTest, List.any_eq_true.2 hdue]
    simp [hr, hfree]
  rw [exec, execEntryDue, if_pos hready, screenEvent_at h]

theorem exec_leaveTime {e : Entry} {t : Nat} (hr : s.engine = .race) (h : ScreenAt s i c x)
    (he : findEntry e.runner e.face x.schedule = some e) (ht : e.shownSince = some t)
    (hleave : e.leaveTime c t ≤ s.raceClock) :
    exec (.leaveTime i e.runner e.face) s =
      .next (screenAfter i c x (leaveEvent e.runner e.face c s.raceClock s.localTime x) s) := by
  have hready : leaveReady i e.runner e.face s = true := by
    rw [leaveReady, screenTest_at h, leaveTest, he]
    simp [hr, ht, hleave]
  rw [exec, execLeaveTime, if_pos hready, screenEvent_at h]

theorem exec_missed {e : Entry} (hr : s.engine = .race) (h : ScreenAt s i c x)
    (he : findEntry e.runner e.face x.schedule = some e) (hp : e.shownSince = none) (hoff : e.offTime ≤ s.raceClock) :
    exec (.missed i e.runner e.face) s =
      .next (screenAfter i c x (missEntry c s.raceClock s.localTime e.runner e.face x) s) := by
  have hready : missedReady i e.runner e.face s = true := by
    rw [missedReady, screenTest_at h, missedTest, he]
    simp [hr, hp, hoff]
  rw [exec, execMissed, if_pos hready, screenEvent_at h]
  rfl

end

/-- Settles O44: the laws of `offerRows`, of `boardOf` and of the row frames, and the three clock events. -/
theorem boardsOfferRowsByTheClock : Obligations.BoardsOfferRowsByTheClock := by
  refine ⟨fun c clock now x => ?_, ⟨fun x => ⟨boardOf_perm _, boardOf_ordered _⟩, fun a b => boardBefore_iff,
    fun rows before after => ?_, fun rows x y => rfl⟩, fun i c x s hr hx => ⟨fun e he hdue hfree => ?_,
    fun e t he ht hleave => ?_, fun e he hp hoff => ?_⟩⟩
  · obtain ⟨hend, hentries, hfloor, hdropped, hmissed⟩ := offerRows_frame c clock now x
    refine ⟨hend.imp_right find_showable_none.1, hentries, hfloor, hdropped, hmissed, offerRows_full clock now,
      fun hnone => offerRows_none c now (find_showable_none.2 hnone), fun e hfree he => ?_, fun e => Entry.showable_iff⟩
    dsimp only
    rw [← showEntry_eq]
    exact ⟨offerRows_next now hfree he, fun hlast => offerRows_last now hlast he⟩
  · unfold rowFrames
    congr 1
    funext k
    unfold rowChange
    cases before[k]? with
    | none => cases after[k]? <;> rfl
    | some b =>
      cases after[k]? with
      | none => rfl
      | some e => exact if_congr Entry.content_iff rfl rfl
  · exact exec_entryDue hr hx hfree ⟨e, he, hdue⟩
  · exact exec_leaveTime hr hx he ht hleave
  · exact exec_missed hr hx he hp hoff

/-! ## Banners (R148, R149) -/

theorem emptyText_iff {t : List Byte} : emptyText t = true ↔ ∀ b ∈ t, b = 0 ∨ b = 0x20 := by
  simp [emptyText]

/-- The banner an item sets, if any (R148). -/
def WorkItem.banner (w : WorkItem) : Option Banner :=
  if emptyText (w.bytes 8 32) then none else some ⟨w.bytes 8 32, optTime (w.field 4 4)⟩

/-- The item's expiry fails its check (R148). -/
def WorkItem.bannerRefused (w : WorkItem) (s : State) : Bool :=
  !emptyText (w.bytes 8 32) && badExpiry s.raceClock (w.field 4 4)

/-- A BANNER item at one screen: the banner set where the screen is in the item's set (R148). -/
def WorkItem.bannerAt (w : WorkItem) (i : Nat) (s : State) : State :=
  if (w.field 0 4).testBit i then setBanner w.banner i s else s

theorem runBanner_eq (w : WorkItem) (s : State) : runBanner w s =
    if w.bannerRefused s then bannerEnd w .badTime 0 s
    else bannerEnd w .ok (appliedSet (w.field 0 4) s.screens.length) (eachScreen w.bannerAt s.screens.length s) := rfl

theorem WorkItem.bannerAt_local (w : WorkItem) (i : Nat) : ScreenLocal i (w.bannerAt i) := by
  unfold WorkItem.bannerAt
  cases (w.field 0 4).testBit i with
  | true => exact ScreenLocal.setBanner w.banner i
  | false => exact ScreenLocal.id i

theorem badExpiry_iff {clock raw : Nat} :
    badExpiry clock raw = true ↔ raw ≠ 4294967295 ∧ (43199999 < raw ∨ raw ≤ clock) := by
  simp [badExpiry]

theorem WorkItem.bannerRefused_iff {w : WorkItem} {s : State} : w.bannerRefused s = true ↔
    ¬ (∀ b ∈ w.bytes 8 32, b = 0 ∨ b = 0x20) ∧ w.field 4 4 ≠ 4294967295 ∧
      (43199999 < w.field 4 4 ∨ w.field 4 4 ≤ s.raceClock) := by
  rw [WorkItem.bannerRefused, Bool.and_eq_true, Bool.not_eq_true', badExpiry_iff, Bool.eq_false_iff, ne_eq, emptyText_iff]

/-- A banner set or cleared at a screen: the event's frames, then the BANNER frame. -/
theorem setBanner_at {s : State} {i : Nat} {c : Screen} {x : ScreenState} (h : ScreenAt s i c x) (b : Option Banner) :
    setBanner b i s = placeFrame i (bannerFrame b)
      (screenAfter i c x (retarget s.localTime { x with banner := b, force := b.isSome }) s) := by
  rw [setBanner, screenEvent_at h]
  rfl

theorem setBanner_screen {s : State} {i : Nat} {c : Screen} {x : ScreenState} (h : ScreenAt s i c x) (b : Option Banner) :
    (setBanner b i s).screens[i]? = some (retarget s.localTime { x with banner := b, force := b.isSome }) := by
  rw [setBanner_at h, placeFrame_panels]
  exact screenAfter_screen h _

/-- BANNER carries out the item at the head of the scheduler's hands. -/
theorem exec_banner {w : WorkItem} {rest : List WorkItem} {s : State} (hw : s.working = true)
    (hb : s.bannerItems = w :: rest) : exec .banner s = .next (runBanner w s) := by
  rw [exec, execBanner, if_pos hw, hb]

theorem exec_bannerExpiry {i : Nat} {c : Screen} {x : ScreenState} {b : Banner} {t : Nat} {s : State}
    (hw : s.working = true) (h : ScreenAt s i c x) (hb : x.banner = some b) (ht : b.expiry = some t) (hr : t ≤ s.raceClock) :
    exec (.bannerExpiry i) s = .next (setBanner none i s) := by
  have hready : bannerExpiryReady i s = true := by
    rw [bannerExpiryReady, screenTest_at h, bannerExpiryTest]
    simp [hw, hb, ht, hr]
  rw [exec, execBannerExpiry, if_pos hready]

/-- The end of a BANNER item. -/
theorem bannerEnd_eq {w : WorkItem} {rest : List WorkItem} {s : State} (hb : s.bannerItems = w :: rest)
    (code : OutcomeCode) (detail : Nat) : bannerEnd w code detail s = { s with
      bannerItems := rest
      sweep       := { s.sweep with ends := s.sweep.ends ++ [⟨w.slot, code, toWord detail, 0, w.notify⟩] } } := by
  rw [bannerEnd, hb]
  rfl

/-- Settles O45: an item by `runBanner`, screen by screen, and an expiry by `setBanner`. -/
theorem bannersAreSetAndExpire : Obligations.BannersAreSetAndExpire := by
  refine ⟨?_, fun i c x b t s hw hx hb ht hr => by rw [exec_bannerExpiry hw hx hb ht hr, setBanner_at hx]; rfl⟩
  intro w rest s hw hb set expiry text empty b
  refine ⟨fun hne hexp hbad => ?_, fun hgood v hv => ?_⟩
  · have hrefused : w.bannerRefused s = true := WorkItem.bannerRefused_iff.2 ⟨hne, hexp, hbad⟩
    rw [exec_banner hw hb, runBanner_eq, if_pos hrefused, bannerEnd_eq hb]
    rfl
  · have haccepted : ¬ w.bannerRefused s = true := by
      rw [WorkItem.bannerRefused_iff]
      rintro ⟨hne, hexp, hbad⟩
      rcases hgood with he | he | he
      · exact hne he
      · exact hexp he
      · omega
    have hbanner : w.banner = v := by
      obtain ⟨hnone, hsome⟩ := hv
      unfold WorkItem.banner
      by_cases he : empty
      · rw [hnone he, if_pos (emptyText_iff.2 he)]
      · rw [hsome he, if_neg (emptyText_iff.not.2 he)]
        rfl
    obtain ⟨hshape, hscreens, -, heach⟩ := eachScreen_local w.bannerAt_local s.screens.length s
    rw [exec_banner hw hb, runBanner_eq, if_neg haccepted]
    generalize eachScreen w.bannerAt s.screens.length s = u at *
    have hub : u.bannerItems = w :: rest := by rw [hshape]; exact hb
    rw [bannerEnd_eq hub]
    refine ⟨_, rfl, ?_, hscreens, fun i c x hx => ?_⟩
    · conv_lhs => rw [hshape]
      rfl
    · obtain ⟨hscreen, hpanel⟩ := (heach i).1 (List.getElem?_eq_some_iff.1 hx.2).1
      refine ⟨fun hin => ?_, fun hout => ?_⟩
      · rw [WorkItem.bannerAt, if_pos hin, hbanner] at hscreen hpanel
        rw [setBanner_at hx] at hpanel
        exact ⟨hscreen.trans (setBanner_screen hx v), hpanel⟩
      · rw [WorkItem.bannerAt, if_neg (by simp [show (w.field 0 4).testBit i = false from hout])] at hscreen hpanel
        exact ⟨hscreen.trans hx.2, hpanel⟩

/-! ## Status records (R152) -/

/-- The elements of a list, each with its index. -/
theorem filterMap_range_getElem {α β : Type} (g : Nat → α → β) (l : List α) :
    ((List.range l.length).filterMap fun i => l[i]?.map (g i)) = l.zipIdx.map fun y => g y.2 y.1 := by
  induction l using List.reverseRecOn with
  | nil => rfl
  | append_singleton l x ih =>
    have hinit : ((List.range l.length).filterMap fun i => (l ++ [x])[i]?.map (g i)) =
        (List.range l.length).filterMap fun i => l[i]?.map (g i) := List.filterMap_congr fun i hi => by
      rw [List.getElem?_append_left (List.mem_range.1 hi)]
    rw [List.length_append, List.length_singleton, List.range_succ, List.filterMap_append, hinit, ih, List.zipIdx_append]
    simp

/-- The bytes of a status record, its first the state's code or that of OFFLINE (R152). -/
theorem statusBytes_eq (x : ScreenState) (online : Bool) : statusBytes x online =
    [(if online then BitVec.ofNat 8 x.power.code else 3), BitVec.ofNat 8 x.floor, BitVec.ofNat 8 x.schedule.length, 0]
      ++ leBytes 2 x.dropped ++ leBytes 2 x.missed := by
  cases online <;> rfl

/-- The write of a screen's status record (R152). -/
def State.statusWrite (s : State) (i : Nat) (x : ScreenState) : Region × Nat × List Byte :=
  (.screenStatus, s.addr (s.config.statusOffset + 8 * i), statusBytes x ((s.panels[i]?.map Panel.online).getD true))

/-- The writes of a pass of the status timer, in ascending index (R152). -/
theorem statusWrites_eq (s : State) : statusWrites s =
    (List.range s.screens.length).filterMap fun i => s.screens[i]?.map fun x =>
      (.screenStatus, s.addr (s.config.statusOffset + 8 * i),
        [(if (s.panels[i]?.map Panel.online).getD true then BitVec.ofNat 8 x.power.code else 3),
          BitVec.ofNat 8 x.floor, BitVec.ofNat 8 x.schedule.length, 0] ++ leBytes 2 x.dropped ++ leBytes 2 x.missed) := by
  simp only [← statusBytes_eq]
  exact (filterMap_range_getElem s.statusWrite s.screens).symm

/-- Settles O46: the writes of the pass in order, where no access is refused, and then the timer. -/
theorem statusRecordsAreWritten : Obligations.StatusRecordsAreWritten := by
  intro t0 s hw ha ht hdue
  have hready : statusDue s = true := by simp [statusDue, hw, ht, State.elapsed, hdue]
  have hrun := State.working_running hw
  rw [exec, execStatusTimer, if_pos hready, writeStatus_eq rfl rfl rfl, State.storeAll_ok ha.1 ha.2 hrun,
    ← statusWrites_eq]
  exact congrArg _ (State.andThen_running (s := s.withMem _) _ hrun)

end Sys2Proof.Machine

/-! The panels' replies, the coalescing of frames by key, and the display texts (R151, R166 to R172). -/

namespace Sys2Proof.Machine

/-! ## The end of an exchange (R169) -/

section
variable {l : LineIx} {e : Exchange} {p : Panel} {s : State}

theorem concludeExchange_at (hp : s.panels[e.target]? = some p) (act : Nat → Panel → State → State) :
    concludeExchange l e.target act s = act e.target p (endExchange l s) := by
  rw [concludeExchange, hp]

/-- A reply of its type is handled by its kind, and the exchange ends (R169). -/
theorem panelFrame_reply {type : Byte} {g : RxFrame} (hx : s.panelLines[l].exchange = some e)
    (hp : s.panels[e.target]? = some p) (hr : ReplyTo e type p.address g s) (act : Nat → Panel → State → State) :
    panelFrame l type g act s = act e.target p (endExchange l s) := by
  obtain ⟨hw, hopen, hclose, hnow, hreply⟩ := hr
  rw [panelFrame, hx]
  dsimp only
  rw [if_pos (window_holds hw hopen hclose hnow), hp, if_pos (by exact hreply), concludeExchange_at hp]

theorem exec_noReply (hx : s.panelLines[l].exchange = some e) (hp : s.panels[e.target]? = some p) (hw : s.working = true)
    {failed : Bool} (h : failed = true ∨ e.closes ≤ s.localTime ∧ e.receiving = false) :
    exec (.noReply l failed) s = .next (panelMissed e.target p (endExchange l s)) := by
  have hready : noReplyReady l failed s = true := by
    rw [noReplyReady, hw, hx]
    simpa [Exchange.unanswered] using h
  rw [exec, execNoReply, if_pos hready, hx]
  exact congrArg _ (concludeExchange_at hp panelMissed)

/-- While a frame begun in the window is being received, its close is no missing reply (R169). -/
theorem exec_noReply_receiving (hx : s.panelLines[l].exchange = some e) (h : e.receiving = true) :
    exec (.noReply l false) s = .next s := by
  have hready : ¬ noReplyReady l false s = true := by
    rw [noReplyReady, hx]
    simp [Exchange.unanswered, h]
  rw [exec, execNoReply, if_neg hready]

end

/-! ## What a reply and a missing reply do (R169 to R172) -/

section
variable {i : Nat} {p : Panel} {f : OutFrame} {rest : List OutFrame} (s : State)

theorem Panel.pinging_iff (hb : p.outbox = f :: rest) : p.pinging = true ↔ f.key = .ping := by
  simp [Panel.pinging, hb]

theorem panelAcked_frame (hb : p.outbox = f :: rest) (hk : f.key ≠ .ping) : panelAcked i p s = s.withPanel i { p with
    misses := 0, waits := 0, outbox := if f.replaced then f :: rest else rest } := by
  rw [panelAcked, if_neg ((Panel.pinging_iff hb).not.2 hk), hb]
  rfl

/-- A panel comes back: its record is handed over, and where no access is refused the refresh follows (R151, R172). -/
theorem panelAcked_ping {s : State} (ha : Accepting s) (he : s.engine ≠ .halted) (hb : p.outbox = f :: rest)
    (hk : f.key = .ping) : panelAcked i p s = refresh i
      ((s.withPanel i { p with online := true, outbox := rest, misses := 0, waits := 0, probeDue := none }).record
        (lineRecord .panelBack p.line p.address i s.raceClock)) := by
  have hback : p.cameBack = { p with online := true, outbox := rest, misses := 0, waits := 0, probeDue := none } := by
    rw [Panel.cameBack, hb]
    rfl
  rw [panelAcked, if_pos ((Panel.pinging_iff hb).2 hk), hback]
  refine State.andThen_running _ ?_
  obtain ⟨m, c, j, hrecord⟩ := (handRecord_step (panelRecord .panelBack i p s) False.elim).quiet
    (s := s.withPanel i { p with online := true, outbox := rest, misses := 0, waits := 0, probeDue := none }) ha he
  rw [State.record, hrecord]
  exact he

theorem panelMissed_ping (hb : p.outbox = f :: rest) (hk : f.key = .ping) :
    panelMissed i p s = s.withPanel i { p with outbox := rest, probeDue := some (s.localTime + 5000) } := by
  rw [panelMissed, if_pos ((Panel.pinging_iff hb).2 hk), Panel.probeFailed, hb]
  rfl

theorem panelMissed_frame (hb : p.outbox = f :: rest) (hk : f.key ≠ .ping) (hm : p.misses < 2) :
    panelMissed i p s = s.withPanel i { p with waits := 0, misses := p.misses + 1 } := by
  rw [panelMissed, if_neg ((Panel.pinging_iff hb).not.2 hk), if_pos (by omega)]

/-- The third missing reply (R171). -/
theorem panelMissed_offline (hb : p.outbox = f :: rest) (hk : f.key ≠ .ping) (hm : ¬ p.misses < 2) :
    panelMissed i p s = ((s.withPanel i (p.wentOffline s.localTime)).setCause .lineFault).record
      (panelRecord .panelOffline i p s) := by
  rw [panelMissed, if_neg ((Panel.pinging_iff hb).not.2 hk), if_neg (by omega)]

theorem panelWaits_frame (hb : p.outbox = f :: rest) (hk : f.key ≠ .ping) (hw : p.waits < 19) :
    panelWaits i p s = s.withPanel i { p with waits := p.waits + 1, backOff := some (s.localTime + 50) } := by
  have hping : p.pinging = false := Bool.eq_false_iff.2 ((Panel.pinging_iff hb).not.2 hk)
  rw [panelWaits, hping, if_neg (by simp; omega)]

/-- A WAIT to a PING, and a twentieth WAIT, are handled as no reply (R170, R172). -/
theorem panelWaits_missed (hb : p.outbox = f :: rest) (h : f.key = .ping ∨ 19 ≤ p.waits) :
    panelWaits i p s = panelMissed i p s := by
  rw [panelWaits, if_pos]
  rw [Bool.or_eq_true, Panel.pinging_iff hb, decide_eq_true_eq]
  exact h.imp_right Nat.succ_le_succ

end

/-- Settles O49: a reply and a missing reply end the exchange, and the panel's record is acted on. -/
theorem panelRepliesAreActedOn : Obligations.PanelRepliesAreActedOn := by
  refine ⟨?_, ?_⟩
  · intro l e p f rest g s hx hp hb ha hr u
    refine ⟨fun hk => ?_, fun hk => ?_⟩
    · rw [exec, execAck, panelFrame_reply hx hp hr, panelAcked_frame _ hb hk]
      rfl
    · have hrun : (endExchange l s).engine ≠ .halted := State.working_running hr.1
      rw [exec, execAck, panelFrame_reply hx hp hr, panelAcked_ping (s := endExchange l s) ha hrun hb hk]
      rfl
  · intro l e p f rest s hx hp hb u missed
    have hmissed : panelMissed e.target p (endExchange l s) = missed := by
      dsimp only [missed]
      split
      next hk => exact panelMissed_ping _ hb hk
      next hk =>
        split
        next hm => exact panelMissed_frame _ hb hk hm
        next hm => exact panelMissed_offline _ hb hk hm
    refine ⟨exec_noReply_receiving hx, fun failed hw h => ?_, fun g hr => ⟨fun hk hw => ?_, fun h => ?_⟩⟩
    · rw [exec_noReply hx hp hw h, hmissed]
    · rw [exec, execWait, panelFrame_reply hx hp hr, panelWaits_frame _ hb hk hw]
      rfl
    · rw [exec, execWait, panelFrame_reply hx hp hr, panelWaits_missed _ hb h, hmissed]

/-! ## Frames in an outbox (R166) -/

theorem placeIn_new {f : OutFrame} {box : List OutFrame} (h : ∀ g ∈ box, g.key ≠ f.key) (fly : Bool) :
    placeIn f fly box = box ++ [{ f with replaced := false }] := by
  rw [placeIn, if_neg (by simpa using h)]

/-- The frame of its key is replaced in its place; only at the head can it be in flight. -/
theorem replaceFrame_at {f g : OutFrame} {a : List OutFrame} (b : List OutFrame) (hg : g.key = f.key)
    (ha : ∀ h ∈ a, h.key ≠ f.key) (fly : Bool) :
    replaceFrame f fly (a ++ g :: b) = a ++ { f with replaced := decide (a = []) && fly } :: b := by
  induction a generalizing fly with
  | nil => exact if_pos hg
  | cons h a ih =>
    obtain ⟨hh, ha⟩ := List.forall_mem_cons.1 ha
    have hrest := ih ha false
    rw [Bool.and_false] at hrest
    exact (if_neg hh).trans (congrArg (h :: ·) hrest)

theorem placeIn_replaces {f g : OutFrame} {a : List OutFrame} (b : List OutFrame) (hg : g.key = f.key)
    (ha : ∀ h ∈ a, h.key ≠ f.key) (fly : Bool) :
    placeIn f fly (a ++ g :: b) = a ++ { f with replaced := decide (a = []) && fly } :: b := by
  rw [placeIn, if_pos (by simp [hg]), replaceFrame_at b hg ha]

section
variable {i : Nat} {p : Panel} {s : State} (f : OutFrame)

theorem placeFrame_offline (hp : s.panels[i]? = some p) (h : p.online = false) : placeFrame i f s = s := by
  simp only [placeFrame, hp, h, Bool.false_eq_true, if_false]

theorem placeFrame_online (hp : s.panels[i]? = some p) (h : p.online = true) :
    placeFrame i f s = s.withPanel i { p with outbox := placeIn f (s.panelInFlight i p) p.outbox } := by
  simp only [placeFrame, hp, h, if_true]

end

/-- The frames of a full refresh (R151). -/
theorem refresh_at {i : Nat} {c : Screen} {x : ScreenState} {s : State} (h : ScreenAt s i c x) :
    refresh i s = placeFrames i (refreshFrames c.rows x) s := by
  obtain ⟨hc, hx⟩ := h
  simp only [refresh, hc, hx]

/-! ## Display texts (R167) -/

theorem digit_eq {n m : Nat} (h : n % 10 = m) : digit n = BitVec.ofNat 8 (48 + m) := by
  rw [digit, h]

/-- Text aligned to the right keeps its last characters. -/
theorem rightAlign_append (width : Nat) {whole : Nat} (t : List Byte) {u : List Byte} (h : whole = width + u.length) :
    rightAlign whole (t ++ u) = rightAlign width t ++ u := by
  rw [h, rightAlign, rightAlign, List.length_append, Nat.add_sub_add_right, List.append_assoc]

theorem decimal_digit (fuel : Nat) {n : Nat} (h : n < 10) : decimal (fuel + 1) n = [digit n] := if_pos h

theorem decimal_more (fuel : Nat) {n : Nat} (h : ¬ n < 10) : decimal (fuel + 1) n = decimal fuel (n / 10) ++ [digit n] :=
  if_neg h

/-- A number of one or two digits in two places. -/
theorem rightAlign_decimal_two (fuel : Nat) {n : Nat} (h : n < 100) :
    rightAlign 2 (decimal (fuel + 2) n) = [if n < 10 then 0x20 else digit (n / 10), digit n] := by
  by_cases hn : n < 10
  · rw [decimal_digit _ hn, if_pos hn]
    rfl
  · rw [decimal_more _ hn, decimal_digit _ (by omega), if_neg hn]
    rfl

/-- The column of a number for a power of ten: its digit, or a space before the first one. -/
def column (n k : Nat) : Byte := if n < k then 0x20 else BitVec.ofNat 8 (48 + n / k % 10)

theorem column_div (n j : Nat) : column (n / 10) (10 ^ j) = column n (10 ^ (j + 1)) := by
  have hlt : n / 10 < 10 ^ j ↔ n < 10 ^ (j + 1) := by rw [Nat.div_lt_iff_lt_mul (by decide), Nat.pow_succ]
  have hdiv : n / 10 / 10 ^ j = n / 10 ^ (j + 1) := by rw [Nat.div_div_eq_div_mul, Nat.pow_succ, Nat.mul_comm]
  rw [column, column, hdiv]
  exact if_congr hlt rfl rfl

theorem column_one {n : Nat} (h : 0 < n) : column n 1 = digit n := by
  rw [column, if_neg (by omega), Nat.div_one, digit]

/-- The decimal text of a number, column by column. -/
theorem rightAlign_decimal {n : Nat} (width : Nat) (h0 : 0 < n) (h : n < 10 ^ width) :
    rightAlign width (decimal width n) = (List.range width).reverse.map fun j => column n (10 ^ j) := by
  induction width generalizing n with
  | zero => omega
  | succ width ih =>
    rw [List.range_succ_eq_map, List.reverse_cons, List.map_append, List.map_singleton, Nat.pow_zero, column_one h0,
      ← List.map_reverse, List.map_map]
    by_cases hn : n < 10
    · have hspace : ∀ j ∈ (List.range width).reverse, ((fun j => column n (10 ^ j)) ∘ Nat.succ) j = 0x20 := fun j _ =>
        if_pos (hn.trans_le (Nat.le_self_pow (Nat.succ_ne_zero j) 10))
      rw [decimal_digit _ hn, List.map_congr_left hspace, List.map_const', List.length_reverse, List.length_range]
      rfl
    · have htens : n / 10 < 10 ^ width := by rwa [Nat.div_lt_iff_lt_mul (by decide)]
      rw [decimal_more _ hn, rightAlign_append width (h := by rfl), ih (by omega) htens]
      exact congrArg (· ++ [digit n]) (List.map_congr_left fun j _ => column_div n j)

/-- The minutes and seconds of a text. -/
theorem twoDigits_eq {n a b : Nat} (ha : n / 10 % 10 = a) (hb : n % 10 = b) :
    twoDigits n = [BitVec.ofNat 8 (48 + a), BitVec.ofNat 8 (48 + b)] := by
  rw [twoDigits, digit_eq ha, digit_eq hb]

theorem timeText_eq {ms t : Nat} (ht : (ms + 999) / 1000 = t) (h : t < 43200) : timeText ms =
    [if t < 36000 then 0x20 else BitVec.ofNat 8 (48 + t / 36000), BitVec.ofNat 8 (48 + t / 3600 % 10), 0x3A,
      BitVec.ofNat 8 (48 + t % 3600 / 600), BitVec.ofNat 8 (48 + t / 60 % 10), 0x3A,
      BitVec.ofNat 8 (48 + t % 60 / 10), BitVec.ofNat 8 (48 + t % 10)] := by
  have hminutes : twoDigits (t / 60 % 60) = [BitVec.ofNat 8 (48 + t % 3600 / 600), BitVec.ofNat 8 (48 + t / 60 % 10)] :=
    twoDigits_eq (by omega) (by omega)
  have hseconds : twoDigits (t % 60) = [BitVec.ofNat 8 (48 + t % 60 / 10), BitVec.ofNat 8 (48 + t % 10)] :=
    twoDigits_eq (by omega) (by omega)
  have htens : digit (t / 3600 / 10) = BitVec.ofNat 8 (48 + t / 36000) := digit_eq (by omega)
  have hten : t / 3600 < 10 ↔ t < 36000 := by omega
  rw [timeText, upSeconds, ht, if_pos h, hminutes, hseconds, List.append_assoc, List.append_assoc, List.append_assoc]
  rw [rightAlign_append 2 (h := by rfl), rightAlign_decimal_two 0 (by omega), htens]
  exact congrArg (· :: _) (if_congr hten rfl rfl)

theorem paceText_eq {ms t : Nat} (ht : (ms + 999) / 1000 = t) (h : t < 6000) : paceText ms =
    [if t < 600 then 0x20 else BitVec.ofNat 8 (48 + t / 600), BitVec.ofNat 8 (48 + t / 60 % 10), 0x3A,
      BitVec.ofNat 8 (48 + t % 60 / 10), BitVec.ofNat 8 (48 + t % 10)] := by
  have hseconds : twoDigits (t % 60) = [BitVec.ofNat 8 (48 + t % 60 / 10), BitVec.ofNat 8 (48 + t % 10)] :=
    twoDigits_eq (by omega) (by omega)
  have htens : digit (t / 60 / 10) = BitVec.ofNat 8 (48 + t / 600) := digit_eq (by omega)
  have hten : t / 60 < 10 ↔ t < 600 := by omega
  rw [paceText, upSeconds, ht, hseconds, List.append_assoc]
  rw [rightAlign_append 2 (h := by rfl), rightAlign_decimal_two 3 (by omega), htens]
  exact congrArg (· :: _) (if_congr hten rfl rfl)

theorem bibText_eq {bib : Nat} (h0 : 1 ≤ bib) (h : bib ≤ 99999) :
    bibText bib = [(10000 : Nat), 1000, 100, 10, 1].map (column bib) := by
  rw [bibText, if_neg (by omega), rightAlign_decimal 5 h0 (by omega)]
  rfl

/-- Settles O50: placing by `placeIn`, the refresh by its frames, and the texts digit by digit. -/
theorem framesCoalesceByKey : Obligations.FramesCoalesceByKey := by
  refine ⟨fun i p f s hp => ⟨placeFrame_offline f hp, fun hon hnew => ?_, fun a g b hon hb hg ha => ?_⟩,
    fun i c x s hx => ?_, fun row x => ⟨?_, rfl⟩, ⟨rfl, rfl, rfl⟩, ⟨rfl, fun b => rfl⟩,
    fun ms => ⟨fun ht => ?_, timeText_eq rfl, paceText_eq rfl⟩, fun bib => ⟨fun h0 => ?_, bibText_eq⟩⟩
  · rw [placeFrame_online f hp hon, placeIn_new hnew]
    rfl
  · rw [placeFrame_online f hp hon, hb, placeIn_replaces b hg ha]
    rfl
  · exact refresh_at hx
  · unfold rowFrame rowPayload
    cases x.projection <;> rfl
  · exact if_neg (Nat.not_lt.2 ht)
  · exact if_pos h0

end Sys2Proof.Machine

/-! Screen power: the face test, the target and the power state, and the four timed events (R155 to R160). -/

namespace Sys2Proof.Machine

/-! ## The face test (R155) -/

theorem Screen.hasFace_iff {c : Screen} {f : FaceIx} : c.hasFace f = true ↔ f = 0 ∨ c.face1 ≠ none := by
  simp [Screen.hasFace, Option.isSome_iff_ne_none]

theorem Entry.busies_iff {c : Screen} {clock : Nat} {e : Entry} :
    e.busies c clock = true ↔ e.shownSince ≠ none ∨ e.onTime ≤ clock + 1000 * c.wakeLead := by
  simp [Entry.busies, Option.isSome_iff_ne_none, Nat.mul_comm]

theorem faceBusy_iff {c : Screen} {clock : Nat} {x : ScreenState} {f : FaceIx} : faceBusy c clock x f = true ↔
    ∃ e ∈ x.schedule, e.face = f ∧ (e.shownSince ≠ none ∨ e.onTime ≤ clock + 1000 * c.wakeLead) := by
  simp only [faceBusy, List.any_eq_true, Bool.and_eq_true, decide_eq_true_eq, Entry.busies_iff]

/-- A configured face with an entry that makes it BUSY is BUSY after the test. -/
theorem retestFace_busy {c : Screen} {clock : Nat} {x : ScreenState} {f : FaceIx} (now : Nat) (hf : c.hasFace f = true)
    (hb : faceBusy c clock x f = true) :
    retestFace c clock now f x = { x with faces := x.faces.set f { x.faces[f] with activity := .busy } } := by
  rw [retestFace, if_pos hf, FaceState.tested, if_pos hb]

/-! ## The target and the power state (R157, R158) -/

theorem ScreenState.targetActive_eq_false {x : ScreenState} : x.targetActive = false ↔
    x.force = false ∧ x.faces[0].activity = .idle ∧ x.faces[1].activity = .idle := by
  simp [ScreenState.targetActive, and_assoc]

section
variable {x : ScreenState} (now : Nat)

theorem retarget_active_dims (hp : x.power = .active) (ht : x.targetActive = false) :
    retarget now x = { x with power := .dim, dimSince := some now, demoted := false } := by
  simp only [retarget, hp, ht]

theorem retarget_dim_lights (hp : x.power = .dim) (ht : x.targetActive = true) :
    retarget now x = { x with power := .active, dimSince := none, demoted := false } := by
  simp only [retarget, hp, ht]

theorem retarget_dark_wakes (hp : x.power = .dark) (ht : x.targetActive = true) :
    retarget now x = { x with power := .active, wakes := addWake now x.wakes } := by
  simp only [retarget, hp, ht]

/-- A screen in the state its target asks for stays there; DARK, as DIM, answers a target of DIM. -/
theorem retarget_keeps (h : x.power = .active ↔ x.targetActive = true) : retarget now x = x := by
  cases ht : x.targetActive with
  | true => simp only [retarget, h.2 ht, ht]
  | false =>
    have hp : x.power ≠ .active := fun hp => Bool.false_ne_true (ht.symm.trans (h.1 hp))
    cases hx : x.power with
    | active => exact absurd hx hp
    | dim => simp only [retarget, hx, ht]
    | dark => simp only [retarget, hx, ht]

end

/-- The history holds at most 15 wakes: at a full one the oldest goes (R160). -/
theorem addWake_eq (now : Nat) (wakes : List Nat) :
    addWake now wakes = (if 15 ≤ wakes.length then wakes.tail else wakes) ++ [now] := by
  by_cases h : 15 ≤ wakes.length
  · rw [if_pos h]
    exact if_pos h
  · rw [if_neg h]
    exact if_neg h

/-! ## DARK and the wake history (R159, R160) -/

theorem agedBefore_eq (c : Screen) (now w : Nat) : agedBefore c now w = decide (w + 1000 * c.flapWindow < now) := by
  rw [agedBefore, Nat.mul_comm]

theorem agedOut_iff {c : Screen} {now w : Nat} : agedOut c now w = true ↔ w + 1000 * c.flapWindow ≤ now := by
  rw [agedOut, decide_eq_true_eq, Nat.mul_comm]

/-- The screen with the wakes that had aged out dropped (R159). -/
def ScreenState.dropAged (c : Screen) (now : Nat) (x : ScreenState) : ScreenState :=
  { x with wakes := x.wakes.filter fun w => !agedBefore c now w }

theorem ScreenState.dropAged_eq (c : Screen) (now : Nat) (x : ScreenState) : x.dropAged c now =
    { x with wakes := x.wakes.filter fun w => !decide (w + 1000 * c.flapWindow < now) } := by
  simp only [ScreenState.dropAged, agedBefore_eq]

theorem darkAfterEvent_darkens {c : Screen} {now : Nat} {x : ScreenState} (clock : Nat)
    (h : (x.dropAged c now).wakes.length < c.flapLimit) : darkAfterEvent c clock now x = (x.dropAged c now).goDark :=
  if_pos h

theorem darkAfterEvent_demotes {c : Screen} {now : Nat} {x : ScreenState} (clock : Nat)
    (h : c.flapLimit ≤ (x.dropAged c now).wakes.length) :
    darkAfterEvent c clock now x = { x.dropAged c now with demoted := true } :=
  if_neg (Nat.not_lt.2 h)

/-- The age-out that brings a demoted screen below the flap limit sends it to DARK. -/
theorem wakeAgeEvent_darkens {c : Screen} {x : ScreenState} (clock now : Nat) (hd : x.demoted = true)
    (hl : x.wakes.tail.length < c.flapLimit) : wakeAgeEvent c clock now x = { x with wakes := x.wakes.tail }.goDark :=
  if_pos (by rw [Bool.and_eq_true, decide_eq_true_eq]; exact ⟨hd, hl⟩)

theorem wakeAgeEvent_drops {c : Screen} {x : ScreenState} (clock now : Nat)
    (h : x.demoted = false ∨ c.flapLimit ≤ x.wakes.tail.length) :
    wakeAgeEvent c clock now x = { x with wakes := x.wakes.tail } := by
  refine if_neg fun hdark => ?_
  rw [Bool.and_eq_true, decide_eq_true_eq] at hdark
  obtain ⟨hd, hl⟩ := hdark
  exact h.elim (fun hn => Bool.false_ne_true (hn.symm.trans hd)) (Nat.not_le.2 hl)

/-! ## The timed events (R155, R156, R159, R160) -/

section
variable {s : State} {i : Nat} {c : Screen} {x : ScreenState} {f : FaceIx}

theorem exec_wakeLeadReached (hr : s.engine = .race) (h : ScreenAt s i c x) (hf : c.hasFace f = true)
    (hn : x.faces[f].activity ≠ .busy) (hb : faceBusy c s.raceClock x f = true) :
    exec (.wakeLeadReached i f) s =
      .next (screenAfter i c x (wakeLeadEvent f c s.raceClock s.localTime x) s) := by
  have hready : wakeLeadReady i f s = true := by
    rw [wakeLeadReady, screenTest_at h, wakeLeadTest, hf, hb]
    simpa [hr] using hn
  rw [exec, execWakeLeadReached, if_pos hready, screenEvent_at h]

theorem exec_dimAfter (he : s.engine = .prep ∨ s.engine = .race) (h : ScreenAt s i c x) (hf : c.hasFace f = true)
    (hq : x.faces[f].activity = .quiet) (ht : x.faces[f].idleSince + 1000 * c.dimAfter ≤ s.localTime) :
    exec (.dimAfter i f) s = .next (screenAfter i c x (dimAfterEvent f c s.raceClock s.localTime x) s) := by
  have hready : dimAfterReady i f s = true := by
    rw [dimAfterReady, screenTest_at h, dimAfterTest, hf, hq, Nat.mul_comm]
    simpa [he] using ht
  rw [exec, execDimAfter, if_pos hready, screenEvent_at h]

theorem exec_darkAfter {t : Nat} (hw : s.working = true) (h : ScreenAt s i c x) (hp : x.power = .dim)
    (hd : x.demoted = false) (hs : x.dimSince = some t) (ht : t + 1000 * c.darkAfter ≤ s.localTime) :
    exec (.darkAfter i) s = .next (screenAfter i c x (darkAfterEvent c s.raceClock s.localTime x) s) := by
  have hready : darkAfterReady i s = true := by
    rw [darkAfterReady, screenTest_at h, darkAfterTest, hw, hp, hd, hs, Nat.mul_comm]
    simp [ht]
  rw [exec, execDarkAfter, if_pos hready, screenEvent_at h]

theorem exec_wakeAgeOut {w : Nat} {rest : List Nat} (hw : s.working = true) (h : ScreenAt s i c x)
    (hs : x.wakes = w :: rest) (ht : w + 1000 * c.flapWindow ≤ s.localTime) :
    exec (.wakeAgeOut i) s = .next (screenAfter i c x (wakeAgeEvent c s.raceClock s.localTime x) s) := by
  have hready : wakeAgeReady i s = true := by
    rw [wakeAgeReady, screenTest_at h, wakeAgeTest, hw, hs, Bool.true_and]
    exact agedOut_iff.2 ht
  rw [exec, execWakeAgeOut, if_pos hready, screenEvent_at h]

end

/-- Settles O47: the test, the target and the power state by their cases, and the four events, each at its screen. -/
theorem screenPowerFollowsItsRules : Obligations.ScreenPowerFollowsItsRules := by
  refine ⟨⟨fun c clock x f => faceBusy_iff, fun c clock now x f => if_congr Screen.hasFace_iff rfl rfl,
    fun c clock now x => rfl, fun x => ScreenState.targetActive_eq_false, fun now x =>
      ⟨retarget_active_dims now, retarget_dim_lights now, fun hp ht => ?_, fun h => retarget_keeps now ?_⟩⟩,
    fun i f c x s hx => ⟨fun hr hf hn hb => ?_, fun he hf hq ht => ?_, fun hw hp hd t hs ht => ?_,
      fun hw w rest hs ht => ⟨fun hd hl => ?_, fun hkeep => ?_⟩⟩⟩
  · rw [retarget_dark_wakes now hp ht, addWake_eq]
  · rcases h with h | ⟨hp, ht⟩
    · exact h
    · simp [hp, ht]
  · have hface := Screen.hasFace_iff.2 hf
    dsimp only
    rw [exec_wakeLeadReached hr hx hface hn hb, wakeLeadEvent, retestFace_busy _ hface hb]
  · exact exec_dimAfter he hx (Screen.hasFace_iff.2 hf) hq ht
  · have hevent := exec_darkAfter hw hx hp hd hs ht
    rw [← ScreenState.dropAged_eq]
    refine ⟨fun hl => ?_, fun hl => ?_⟩
    · rwa [darkAfterEvent_darkens _ hl] at hevent
    · rwa [darkAfterEvent_demotes _ hl] at hevent
  · have hevent := exec_wakeAgeOut hw hx hs ht
    rwa [wakeAgeEvent_darkens _ _ hd hl] at hevent
  · have hevent := exec_wakeAgeOut hw hx hs ht
    rwa [wakeAgeEvent_drops _ _ hkeep] at hevent

end Sys2Proof.Machine

/-! Panel lines: the panel served, the frame sent, the end of a back-off and the probe (R164, R168, R169, R172). -/

namespace Sys2Proof.Machine

/-! ## The panel at an address, and the panel a line serves (R164, R168) -/

/-- A search by ascending number ends at the first hit. -/
theorem findSome?_range_eq_some {α : Type} {f : Nat → Option α} {j n : Nat} {b : α} (hj : j < n) (hb : f j = some b)
    (hfirst : ∀ k, k < j → f k = none) : (List.range n).findSome? f = some b := by
  induction n with
  | zero => exact absurd hj (Nat.not_lt_zero j)
  | succ n ih =>
    rw [List.range_succ, List.findSome?_append]
    obtain hlt | rfl := Nat.lt_succ_iff_lt_or_eq.1 hj
    · rw [ih hlt, Option.some_or]
    · have hnone : (List.range j).findSome? f = none :=
        List.findSome?_eq_none_iff.2 fun k hk => hfirst k (List.mem_range.1 hk)
      rw [hnone, Option.none_or, List.findSome?_singleton, hb]

theorem Panel.servable_iff {now : Nat} {p : Panel} :
    p.servable now = true ↔ p.outbox ≠ [] ∧ ∀ t, p.backOff = some t → t ≤ now := by
  simp [Panel.servable, Panel.free, Option.all_eq_true]

section
variable {l : LineIx} {a i j : Nat} {p : Panel} {f : OutFrame} {rest : List OutFrame} {s : State}

/-- The panel at an address of a line is the first of that line and address (R164). -/
theorem State.panelAt_first (h : s.panelAt l a = some i) (hp : s.panels[i]? = some p) :
    p.line = l ∧ p.address = a ∧ ∀ j q, j < i → s.panels[j]? = some q → ¬ (q.line = l ∧ q.address = a) := by
  obtain ⟨hi, hhere, hbefore⟩ := List.findIdx?_eq_some_iff_getElem.1 h
  obtain ⟨_, hpi⟩ := List.getElem?_eq_some_iff.1 hp
  obtain ⟨hline, haddr⟩ : p.line = l ∧ p.address = a := by simpa [hpi] using hhere
  refine ⟨hline, haddr, fun j q hj hq => ?_⟩
  obtain ⟨_, hqj⟩ := List.getElem?_eq_some_iff.1 hq
  simpa [hqj] using hbefore j hj

theorem State.servableAt_free (h : s.panelAt l a = some i) (hp : s.panels[i]? = some p)
    (hfree : p.servable s.localTime = true) : s.servableAt l a = some i := by
  simp [State.servableAt, h, hp, hfree]

/-- The line passes an address whose panel, if there is one, has no frames or waits out a back-off (R168). -/
theorem State.servableAt_none
    (h : ∀ i q, s.panelAt l a = some i → s.panels[i]? = some q → ¬ q.servable s.localTime = true) :
    s.servableAt l a = none := by
  rw [State.servableAt]
  split
  next => rfl
  next i hi =>
    cases hq : s.panels[i]? with
    | none => rfl
    | some q => simp [h i q hi hq]

/-- The line chooses the first address from the service position on whose panel can be served (R168). -/
theorem State.nextPanel_first (hj : j < 16)
    (hhere : s.servableAt l ((s.panelLines[l].position + 15 + j) % 16 + 1) = some i)
    (hbefore : ∀ k, k < j → s.servableAt l ((s.panelLines[l].position + 15 + k) % 16 + 1) = none) :
    s.nextPanel l = some i := by
  rw [State.nextPanel, serviceOrder, List.findSome?_map]
  exact findSome?_range_eq_some hj hhere hbefore

/-- A free line sends the head frame of the panel it chooses (R168, R169). -/
theorem serve_sends (hw : s.working = true) (hx : s.panelLines[l].exchange = none)
    (hc : s.panelLines[l].pendingClock = none) (hn : s.nextPanel l = some i) (hp : s.panels[i]? = some p)
    (hb : p.outbox = f :: rest) : serve l s = sendHead l i p f s := by
  have hready : panelReady l s = true := by
    rw [panelReady, hw, hx, hc, hn]
    rfl
  simp only [serve, if_pos hready, hn, hp, hb]

/-! ## The end of a back-off, and the probe (R168, R172) -/

/-- The end of a back-off clears it, and the panel's line chooses again (R168). -/
theorem exec_backOffEnd {t : Nat} (hp : s.panels[i]? = some p) (hw : s.working = true) (hb : p.backOff = some t)
    (ht : t ≤ s.localTime) :
    exec (.backOffEnd i) s = .next (serve p.line (s.withPanel i { p with backOff := none })) := by
  have hready : backOffReady i s = true := by simp [backOffReady, hw, hp, hb, ht]
  rw [exec, execBackOffEnd, if_pos hready, endBackOff, hp]

/-- A due probe places a PING in the outbox of an OFFLINE panel in which none waits (R172). -/
theorem exec_probeDue {t : Nat} (hp : s.panels[i]? = some p) (hw : s.working = true) (hoff : p.online = false)
    (hd : p.probeDue = some t) (ht : t ≤ s.localTime) (hping : ∀ f ∈ p.outbox, f.key ≠ .ping) :
    exec (.probeDue i) s = .next (s.withPanel i { p with outbox := p.outbox ++ [pingFrame] }) := by
  have hready : probeReady i s = true := by
    simp only [probeReady, hw, hp, Option.map_some, Option.getD_some, Panel.probeReady, hoff, hd]
    simpa [ht] using hping
  rw [exec, execProbeDue, if_pos hready, placePing, hp]

end

/-- Settles O48: the line's choice is the first servable address; a back-off's end and a due probe act on their panel. -/
theorem panelsAreServedAndProbed : Obligations.PanelsAreServedAndProbed := by
  refine ⟨?_, fun i p s hp => ⟨fun l a hat => State.panelAt_first hat hp, fun t hw hb ht => ?_,
    fun t hw hoff hd ht hping => exec_probeDue hp hw hoff hd ht hping⟩⟩
  · intro l j i p f rest s hw hx hc hj address free hat hp hb hfree hbefore
    have hnext : s.nextPanel l = some i :=
      State.nextPanel_first hj (State.servableAt_free hat hp (Panel.servable_iff.2 hfree)) fun k hk =>
        State.servableAt_none fun i' q hat' hq => Panel.servable_iff.not.2 (hbefore k i' q hk hat' hq)
    rw [exec, execPanelExchange, serve_sends hw hx hc hnext hp hb, sendHead, hb]
    rfl
  · exact ⟨_, exec_backOffEnd hp hw hb ht, rfl⟩

end Sys2Proof.Machine

/-! What the blocks' operations keep of the journal writer: its page indices stay inside the loaded journal, and a place stays
free in its page (R176, R178). -/

namespace Sys2Proof.Machine

/-- From `s` an operation of the blocks comes to `t`: the loaded copy stands, the writer's page indices stay among its pages,
and a place stays free in the writer's page. -/
structure WriterKept (s t : State) : Prop where
  loaded : t.loaded = s.loaded
  range  : s.journal.inRange s.config.pages.length → t.journal.inRange s.config.pages.length
  fill   : s.fillOk → t.fillOk

namespace WriterKept

variable {s t u : State}

/-! ## Operations in sequence -/

theorem refl (s : State) : WriterKept s s := ⟨rfl, id, id⟩

theorem trans (h : WriterKept s t) (h' : WriterKept t u) : WriterKept s u where
  loaded := h'.loaded.trans h.loaded
  range hr := by
    have hc : t.config = s.config := by rw [State.config, State.config, h.loaded]
    exact hc ▸ h'.range (hc.symm ▸ h.range hr)
  fill := h'.fill ∘ h.fill

theorem andThenRunning {f : State → State} (h : WriterKept s t) (hf : t.engine ≠ .halted → WriterKept t (f t)) :
    WriterKept s (t.andThen f) := by
  unfold State.andThen
  split
  · exact h
  · exact h.trans (hf ‹_›)

theorem andThen {f : State → State} (h : WriterKept s t) (hf : ∀ u, WriterKept u (f u)) : WriterKept s (t.andThen f) :=
  h.andThenRunning fun _ => hf t

/-- An operation carried out where a condition holds. -/
theorem when {p : Prop} [Decidable p] (h : p → WriterKept s t) : WriterKept s (if p then t else s) := by
  split
  · exact h ‹_›
  · exact refl s

/-- An operation that leaves the loaded copy and the writer, and no halted engine running. -/
theorem stays (hl : t.loaded = s.loaded) (hj : t.journal = s.journal) (he : s.engine = .halted → t.engine = .halted) :
    WriterKept s t :=
  ⟨hl, by rw [hj]; exact id, fun hf => by rw [State.fillOk, hj]; exact hf.imp_left he⟩

/-- An operation through the memory port. -/
theorem port (h : PortStep s t) : WriterKept s t := by
  rcases h.2 with ⟨m, p, rfl⟩ | ⟨m, p, rfl⟩ | ⟨r, m, p, rfl⟩
  · exact stays rfl rfl id
  · exact stays rfl rfl fun _ => rfl
  · exact stays rfl rfl fun _ => rfl

/-- An operation on one screen and its panel. -/
theorem screenLocal {i : Nat} {g : State → State} (h : ScreenLocal i g) (s : State) : WriterKept s (g s) := by
  rw [h.shape s]
  exact stays rfl rfl id

/-! ## The journal writer -/

/-- An operation of the writer that leaves a place free in its page. -/
theorem writer (h : JournalStep False s t) (hf : s.fillOk → t.fillOk) : WriterKept s t :=
  ⟨h.kept.2.2.2.1, h.range, hf⟩

theorem handRecord (r : JRecord) (s : State) : WriterKept s (handRecord r s).state :=
  writer (handRecord_step r False.elim) (handRecord_fillOk r)

theorem record (r : JRecord) (s : State) : WriterKept s (s.record r) := handRecord r s

theorem reread (s : State) : WriterKept s (reread s) := writer (reread_step s) reread_fillOk

theorem sealPage (s : State) : WriterKept s (sealPage s) := writer (sealPage_step s) sealPage_fillOk

theorem drainHead (he : s.engine ≠ .halted) : WriterKept s (drainHead s) := by
  refine writer (drainHead_step False.elim) fun hf => ?_
  unfold Machine.drainHead
  split
  · exact hf
  · exact putRecord_fillOk _ _ _ (fillOk.running hf he)

theorem watchSeal (n : Word) (place : Place) (s : State) : WriterKept s (watchSeal n place s) := by
  refine writer (watchSeal_step n place s) fun hf => ?_
  unfold Machine.watchSeal
  cases place with
  | page seq =>
    dsimp only
    split
    · exact sealPage_fillOk hf
    · exact hf
  | spill => exact hf
  | dropped => exact hf

theorem runFlush (w : WorkItem) (s : State) : WriterKept s (runFlush w s) :=
  (reread s).andThen fun t => (sealPage t).andThen fun u =>
    trans (t := u.withJournal { u.journal with flushes := u.journal.flushes.tail })
      (writer (.withJournal_same _ rfl rfl) id) (stays rfl rfl id)

/-! ## The work sweep -/

theorem endSweep (s : State) : WriterKept s (endSweep s) := (reread s).andThen fun _ => stays rfl rfl id

theorem advanceSweep (i : Nat) (s : State) : WriterKept s (advanceSweep i s) := by
  unfold Machine.advanceSweep
  split
  · exact stays rfl rfl id
  · exact endSweep s

theorem takeSlot (i : Nat) (s : State) : WriterKept s (takeSlot i s) :=
  (port (.store _ _ _ s)).andThen fun _ => stays rfl rfl id

theorem failSlot (i : Nat) (code : OutcomeCode) (notify : Bool) (s : State) : WriterKept s (failSlot i code notify s) :=
  (takeSlot i s).andThen fun _ => stays rfl rfl id

theorem offerItem (w : WorkItem) (s : State) : WriterKept s (offerItem w s) := by
  unfold Machine.offerItem
  split
  · have hpush : WriterKept s (s.pushIntake (.work w)) := stays rfl rfl id
    exact (hpush.trans (takeSlot _ _)).andThen (advanceSweep _)
  · exact endSweep s

/-- A FLUSH_JOURNAL item joins those the writer has not yet acted on (R182). -/
theorem pushFlush (w : WorkItem) (s : State) :
    WriterKept s (s.withJournal { s.journal with flushes := s.journal.flushes ++ [w] }) :=
  writer (.withJournal_same _ rfl rfl) id

theorem dispatch (w : WorkItem) (s : State) : WriterKept s (dispatch w s) := by
  unfold Machine.dispatch
  split
  · exact (takeSlot _ s).andThen fun u => andThen (stays rfl rfl id) (advanceSweep _)
  · exact (takeSlot _ s).andThen fun u => (pushFlush w u).andThen (advanceSweep _)
  all_goals exact offerItem w s

theorem visitSlot (i : Nat) (s : State) : WriterKept s (visitSlot i s) := by
  refine (port (.access _ _ _ s)).andThen fun u => ?_
  split
  · exact advanceSweep i u
  · refine (port (.accessAll _ u)).andThen fun v => ?_
    split
    · exact failSlot _ _ _ v
    · dsimp only
      split
      · exact dispatch _ v
      · exact failSlot _ _ _ v

theorem endFollows (e : EndReport) (s : State) : WriterKept s (endFollows e s) := by
  have hsweep : WriterKept s (s.withSweep (s.sweep.closed e)) := stays rfl rfl id
  unfold Machine.endFollows
  dsimp only
  generalize s.withSweep (s.sweep.closed e) = u at hsweep
  have hcause : WriterKept u (if e.notify then u.setCause .workDone else u) := when fun _ => stays rfl rfl id
  generalize (if e.notify then u.setCause .workDone else u) = v at hcause
  exact (hsweep.trans hcause).trans (when fun _ => advanceSweep e.slot v)

theorem writeEnd (e : EndReport) (s : State) : WriterKept s (writeEnd e s) := by
  rw [writeEnd_eq]
  exact (port (.storeAll _ s)).andThen (endFollows e)

/-! ## Items of the split unit -/

theorem handAll (rs : List JRecord) (s : State) : WriterKept s (handAll rs s).state := by
  cases rs with
  | nil => exact refl s
  | cons r rest =>
    simp only [Machine.handAll]
    have h : WriterKept s (Machine.handRecord r s).state := handRecord r s
    generalize (Machine.handRecord r s).state = u at h
    induction rest generalizing u with
    | nil => exact h
    | cons r rest ih => exact ih _ (h.andThen (record r))

theorem finish (p : ItemPlan) (w : Option WorkItem) (n : Word) (place : Place) (s : State) :
    WriterKept s (p.finish w n place s) := by
  have hhand : WriterKept s { s with handovers := s.handovers ++ p.handovers } := stays rfl rfl id
  unfold ItemPlan.finish
  dsimp only
  refine andThen (t := if p.watch then _ else _) ?_ fun u => ?_
  · split
    · exact hhand.trans (watchSeal n place _)
    · exact hhand
  · cases w <;> exact stays rfl rfl id

theorem run (p : ItemPlan) (w : Option WorkItem) (s : State) : WriterKept s (p.run w s) :=
  andThen ((port (.accessAll p.reads s)).andThen fun u => port (.storeAll p.writes u)) fun u =>
    (handAll p.records u).andThen (finish p w _ _)

/-! ## The mat lines and the assembler -/

/-- A record handed over after a change that leaves the loaded copy, the writer and the engine. -/
theorem recorded {r : JRecord} (hl : t.loaded = s.loaded) (hj : t.journal = s.journal)
    (he : s.engine = .halted → t.engine = .halted) : WriterKept s (t.record r) :=
  (stays hl hj he).trans (record r t)

theorem silence (l : LineIx) (a : Nat) (s : State) : WriterKept s (silence l a s) := by
  unfold Machine.silence
  dsimp only
  split
  · exact recorded rfl rfl id
  · exact stays rfl rfl id

theorem decoderReplied (l : LineIx) (a : Nat) (s : State) : WriterKept s (decoderReplied l a s) := by
  unfold Machine.decoderReplied
  dsimp only
  split
  · exact recorded rfl rfl id
  · exact stays rfl rfl id

theorem handleBatch (l : LineIx) (f : RxFrame) (a : Nat) (s : State) : WriterKept s (handleBatch l f a s) := by
  unfold Machine.handleBatch
  dsimp only
  split <;> exact stays rfl rfl id

theorem handleEmpty (l : LineIx) (f : RxFrame) (a : Nat) (s : State) : WriterKept s (handleEmpty l f a s) := by
  unfold Machine.handleEmpty
  dsimp only
  split
  · exact stays rfl rfl id
  · exact recorded rfl rfl id

theorem settleClusters (s : State) : WriterKept s (settleClusters s) := when fun _ => stays rfl rfl id

theorem drawFrom (m : Fin 8) (s : State) : WriterKept s (drawFrom m s) := by
  unfold Machine.drawFrom
  split
  · exact refl s
  · dsimp only
    split
    · exact stays rfl rfl id
    · unfold handleRead
      split
      · exact recorded rfl rfl id
      · exact stays rfl rfl id

/-! ## The screens and the panels -/

theorem writeStatus (i : Nat) (xs : List ScreenState) (s : State) : WriterKept s (writeStatus i xs s) := by
  rw [writeStatus_eq rfl rfl rfl]
  exact port (.storeAll _ s)

theorem panelMissed (i : Nat) (p : Panel) (s : State) : WriterKept s (panelMissed i p s) := by
  unfold Machine.panelMissed
  split
  · exact stays rfl rfl id
  · split
    · exact stays rfl rfl id
    · exact recorded rfl rfl id

theorem panelWaits (i : Nat) (p : Panel) (s : State) : WriterKept s (panelWaits i p s) := by
  unfold Machine.panelWaits
  split
  · exact panelMissed i p s
  · exact stays rfl rfl id

theorem panelAcked (i : Nat) (p : Panel) (s : State) : WriterKept s (panelAcked i p s) := by
  unfold Machine.panelAcked
  split
  · exact andThen (recorded rfl rfl id) (screenLocal (ScreenLocal.refresh i))
  · exact stays rfl rfl id

theorem concludeExchange (l : LineIx) (i : Nat) {act : Nat → Panel → State → State}
    (ha : ∀ i p u, WriterKept u (act i p u)) (s : State) : WriterKept s (concludeExchange l i act s) := by
  unfold Machine.concludeExchange
  split
  · exact stays rfl rfl id
  · exact trans (t := endExchange l s) (stays rfl rfl id) (ha i _ _)

/-! ## END and START -/

/-- END closes the race, clears the screens and seals the page (R12). -/
theorem endRaceNow (he : s.engine = .race) : WriterKept s (endRaceNow s) := by
  refine trans ?_ (sealPage _)
  unfold endScreens
  rw [(eachScreen_local ScreenLocal.endScreen _ _).1]
  exact stays rfl rfl fun hh => by rw [he] at hh; cases hh

/-- START reads the clock start value and enters RACE, or is refused (R11). -/
theorem startRace (s : State) : WriterKept s (startRace s) := by
  refine (port (.access _ _ _ s)).andThenRunning fun he => ?_
  split
  · exact stays rfl rfl id
  · refine stays ?_ ?_ fun hh => absurd hh he
    all_goals
      unfold beginRace
      dsimp only
      repeat' split
      all_goals rfl

end WriterKept

end Sys2Proof.Machine

/-! Commands of the blocks, the load and steps cut short: they keep the journal sound. -/

namespace Sys2Proof.Machine

/-! ## Commands of the blocks -/

/-- A command of the blocks comes from `s` to `t`: it does nothing, or it acts where they work, and keeps the writer. -/
def WriterActs (s t : State) : Prop := t = s ∨ s.working = true ∧ WriterKept s t

namespace WriterActs

variable {s t : State}

theorem nothing (s : State) : WriterActs s s := .inl rfl

/-- A command carried out where a condition holds. -/
theorem when {p : Prop} [Decidable p] (h : p → WriterActs s t) : WriterActs s (if p then t else s) := by
  split
  · exact h ‹_›
  · exact nothing s

theorem handleHead (s : State) : WriterActs s (handleHead s) := by
  refine when fun hw => ?_
  split
  · exact nothing s
  · split
    · exact nothing s
    · exact .inr ⟨hw, .run _ _ s⟩

/-- A command that does nothing, or handles the item in flight. -/
theorem item (h : t = s ∨ t = Machine.handleHead s) : WriterActs s t := by
  rcases h with rfl | rfl
  · exact nothing t
  · exact handleHead s

theorem matFrame (l : LineIx) (type : Byte) (f : RxFrame) {handle : Nat → State → State}
    (hh : ∀ a u, WriterKept u (handle a u)) (s : State) : WriterActs s (matFrame l type f handle s) := by
  unfold Machine.matFrame
  split
  · exact nothing s
  · refine when fun hr => .inr ⟨(Bool.and_eq_true_iff.1 (Bool.and_eq_true_iff.1 hr).1).1, ?_⟩
    split
    · exact ((WriterKept.decoderReplied l _ s).andThen (hh _)).andThen fun _ => .stays rfl rfl id
    · exact .silence l _ s

theorem panelFrame (l : LineIx) (type : Byte) (f : RxFrame) {act : Nat → Panel → State → State}
    (ha : ∀ i p u, WriterKept u (act i p u)) (s : State) : WriterActs s (panelFrame l type f act s) := by
  unfold Machine.panelFrame
  split
  · exact nothing s
  · refine when fun hr => .inr ⟨(Bool.and_eq_true_iff.1 (Bool.and_eq_true_iff.1 hr).1).1, ?_⟩
    split
    · exact .concludeExchange l _ ha s
    · exact .concludeExchange l _ .panelMissed s

theorem execSlotVisit (s : State) : WriterActs s (stateAfter (execSlotVisit s) s) := by
  refine when fun hr => ?_
  split
  · exact nothing s
  · exact .inr ⟨slotVisitReady_working hr, .visitSlot _ s⟩

theorem execItemEnd (s : State) : WriterActs s (stateAfter (execItemEnd s) s) := by
  refine when fun hr => ?_
  split
  · exact nothing s
  · exact .inr ⟨itemEndReady_working hr, .writeEnd _ s⟩

theorem execStatusTimer (s : State) : WriterActs s (stateAfter (execStatusTimer s) s) :=
  when fun hr => .inr ⟨statusDue_working hr, (WriterKept.writeStatus 0 s.screens s).andThen fun _ => .stays rfl rfl id⟩

theorem execSealTimer (s : State) : WriterActs s (stateAfter (execSealTimer s) s) :=
  when fun hr => .inr ⟨sealDue_working hr, .sealPage s⟩

theorem execDrain (s : State) : WriterActs s (stateAfter (execDrain s) s) :=
  when fun hr => .inr ⟨drainReady_working hr, .drainHead (State.working_running (drainReady_working hr))⟩

theorem execFlushJournal (s : State) : WriterActs s (stateAfter (execFlushJournal s) s) := by
  refine when fun hw => ?_
  split
  · exact nothing s
  · exact .inr ⟨hw, .runFlush _ s⟩

theorem execDraw (s : State) : WriterActs s (stateAfter (execDraw s) s) := by
  refine when fun hr => ?_
  split
  · exact nothing s
  · exact .inr ⟨drawReady_working hr, (WriterKept.settleClusters s).trans (.drawFrom _ _)⟩

theorem execSilence (l : LineIx) (failed : Bool) (s : State) : WriterActs s (stateAfter (execSilence l failed s) s) := by
  refine when fun hr => ?_
  split
  · exact nothing s
  · exact .inr ⟨silenceReady_working hr, .silence l _ s⟩

theorem execNoReply (l : LineIx) (failed : Bool) (s : State) : WriterActs s (stateAfter (execNoReply l failed s) s) := by
  refine when fun hr => ?_
  split
  · exact nothing s
  · exact .inr ⟨noReplyReady_working hr, .concludeExchange l _ .panelMissed s⟩

theorem endRace (s : State) : WriterActs s (if s.engine = .race then endRaceNow s else s) :=
  when fun he => .inr ⟨by simp [State.working, he], .endRaceNow he⟩

/-- A step that may be under way, but a load. -/
theorem runUnderway {u : Underway} (hu : u ≠ .load) (s : State) : WriterActs s (runUnderway u s) := by
  cases u with
  | load => exact absurd rfl hu
  | endRace => exact endRace s
  | item => exact handleHead s
  | slotVisit => exact execSlotVisit s
  | itemEnd => exact execItemEnd s
  | statusTimer => exact execStatusTimer s
  | sealTimer => exact execSealTimer s
  | drain => exact execDrain s
  | flushJournal => exact execFlushJournal s
  | draw => exact execDraw s
  | batch l f => exact matFrame l _ f (.handleBatch l f) s
  | empty l f => exact matFrame l _ f (.handleEmpty l f) s
  | busy l f => exact matFrame l _ f (fun _ => .refl) s
  | silence l failed => exact execSilence l failed s
  | ack l f => exact panelFrame l _ f .panelAcked s
  | wait l f => exact panelFrame l _ f .panelWaits s
  | noReply l failed => exact execNoReply l failed s

end WriterActs

/-! ## The loaded copy and the writer's pages -/

/-- The loaded copy stands where the blocks work, and the writer names pages of it (R36, R176). -/
def State.CopyStands (s : State) : Prop :=
  (s.working = true → s.loaded.isSome = true) ∧
    match s.loaded with
    | none => s.journal.current = none
    | some L => s.journal.inRange L.pages.length

theorem journalSound_iff {s : State} : JournalSound s ↔ s.fillOk ∧ s.CopyStands := Iff.rfl

namespace State.CopyStands

variable {s t : State}

theorem of_loaded {L : Loaded} (hl : s.loaded = some L) (hr : s.journal.inRange L.pages.length) : s.CopyStands := by
  rw [State.CopyStands, hl]
  exact ⟨fun _ => rfl, hr⟩

/-- The loaded copy and the writer stand, and the blocks do not begin to work. -/
theorem stays (h : s.CopyStands) (hl : t.loaded = s.loaded) (hj : t.journal = s.journal)
    (hw : t.working = true → s.working = true) : t.CopyStands := by
  obtain ⟨hc, hr⟩ := h
  rw [State.CopyStands, hl, hj]
  exact ⟨hc ∘ hw, hr⟩

/-- Where the blocks work a copy is loaded, and the writer names its pages. -/
theorem copy (h : s.CopyStands) (hw : s.working = true) : ∃ L, s.loaded = some L ∧ s.journal.inRange L.pages.length := by
  obtain ⟨hc, hr⟩ := h
  obtain ⟨L, hL⟩ := Option.isSome_iff_exists.1 (hc hw)
  rw [hL] at hr
  exact ⟨L, hL, hr⟩

/-- The blocks' operations leave the loaded copy, and the writer naming its pages. -/
theorem acts (h : s.CopyStands) (hw : s.working = true) (hk : WriterKept s t) :
    ∃ L, t.loaded = some L ∧ t.journal.inRange L.pages.length := by
  obtain ⟨L, hL, hr⟩ := h.copy hw
  have hrange := hk.range
  rw [State.config, hL] at hrange
  exact ⟨L, hk.loaded.trans hL, hrange hr⟩

end State.CopyStands

@[simp] theorem State.openPort_loaded (s : State) : s.openPort.loaded = s.loaded := by
  unfold State.openPort
  split <;> rfl

@[simp] theorem State.openPort_journal (s : State) : s.openPort.journal = s.journal := by
  unfold State.openPort
  split <;> rfl

/-! ## The load -/

/-- A load is in progress, or a memory fault has ended it. -/
def Engine.loadingOrHalted (e : Engine) : Prop := e = .loading ∨ e = .halted

theorem Engine.loadingOrHalted.not_working {s : State} (h : s.engine.loadingOrHalted) : s.working = false := by
  rcases h with h | h <;> simp [State.working, h]

/-- The engine is in LOADING or HALTED, and the port of a step cut short has not stopped it elsewhere. -/
def State.LoadCut (s : State) : Prop :=
  s.engine.loadingOrHalted ∧ ∀ e, s.port = .stopped e → e.loadingOrHalted

namespace State.LoadCut

variable {s : State}

theorem halt (h : s.LoadCut) (r : Region) : (s.halt r).LoadCut := ⟨.inr rfl, h.2⟩

theorem access (h : s.LoadCut) (r : Region) (a n : Nat) : (s.access r a n).LoadCut := by
  unfold State.access
  split
  · exact h.halt r
  · exact h

theorem stopPort (h : s.LoadCut) : s.stopPort.LoadCut := ⟨.inr rfl, fun e he => by cases he; exact h.1⟩

theorem put (h : s.LoadCut) (a : Nat) (bs : List Byte) : (s.put a bs).LoadCut := by
  have hmem : (s.withMem (Memory.writeBytes s.mem a bs)).LoadCut := h
  unfold State.put
  split
  case h_1 => exact h.stopPort
  case h_3 => exact hmem.stopPort
  case h_2 | h_4 => exact ⟨h.1, fun e he => nomatch he⟩
  all_goals exact hmem

theorem andThen {f : State → State} (h : s.LoadCut) (hf : (f s).LoadCut) : (s.andThen f).LoadCut := by
  unfold State.andThen
  split
  · exact h
  · exact hf

theorem storeAll (h : s.LoadCut) (ws : List (Region × Nat × List Byte)) : (s.storeAll ws).LoadCut := by
  induction ws generalizing s with
  | nil => exact h
  | cons w ws ih =>
    have ha := h.access w.1 w.2.1 w.2.2.length
    have hs : (s.store w.1 w.2.1 w.2.2).LoadCut := ha.andThen (ha.put _ _)
    exact hs.andThen (ih hs)

theorem scanTable (h : s.LoadCut) (L : Loaded) : (scanTable L s).LoadCut := by
  unfold Machine.scanTable
  generalize List.range L.slotCount = is
  induction is generalizing s with
  | nil => exact h
  | cons i is ih =>
    have ha := h.access .work (s.addr (scanOffset L i 0)) 4
    exact ih (h.andThen (ha.andThen (ha.storeAll _)))

/-- With the port open again no block works. -/
theorem openPort (h : s.LoadCut) : s.openPort.working = false := by
  unfold State.openPort
  split
  · exact Engine.loadingOrHalted.not_working (h.2 _ ‹_›)
  all_goals exact Engine.loadingOrHalted.not_working h.1

end State.LoadCut

end Sys2Proof.Machine

namespace Sys2Proof.Machine

theorem scanSlot_port (L : Loaded) (s : State) (i : Nat) : PortStep s (scanSlot L s i) :=
  (PortStep.refl s).andThen ((PortStep.access _ _ _ s).andThen (.storeAll _ _))

/-- The scan of the work table is a list of accesses through the memory port. -/
theorem scanTable_port (L : Loaded) (s : State) : PortStep s (scanTable L s) := by
  unfold scanTable
  generalize List.range L.slotCount = is
  induction is generalizing s with
  | nil => exact .refl s
  | cons i is ih =>
    have hs := scanSlot_port L s i
    rw [List.foldl_cons]
    by_cases he : (scanSlot L s i).engine = .halted
    · rw [scanSlots_halted L is he]
      exact hs
    · exact hs.trans he (ih _)

theorem PortStep.journal {s t : State} (h : PortStep s t) : t.journal = s.journal := by
  rcases h.2 with ⟨m, p, rfl⟩ | ⟨m, p, rfl⟩ | ⟨r, m, p, rfl⟩ <;> rfl

/-- What a load that goes on does to the loaded copy and the writer: neither changes and the blocks do not begin to work, or
a copy is loaded and the writer names its pages, with a place free. -/
theorem loadPassed_cases {s : State} (he : s.engine = .loading) :
    let t := stateAfter (execLoadPassed s) s
    (t.loaded = s.loaded ∧ t.journal = s.journal ∧ t.engine.loadingOrHalted ∧ (s.LoadCut → t.LoadCut)) ∨
      (t.fillOk ∧ ∃ L, t.loaded = some L ∧ t.journal.inRange L.pages.length) := by
  simp only [execLoadPassed, stateAfter, if_pos he]
  cases hl : s.loadOutcome with
  | error e =>
    cases e with
    | refused r => exact .inl ⟨rfl, rfl, .inr rfl, fun h => h.halt r⟩
    | failed x => exact .inl ⟨rfl, rfl, .inl he, id⟩
  | ok L =>
    have hscan := scanTable_port L s
    have hengine : (scanTable L s).engine.loadingOrHalted := by
      exact (scanTable_steady L s).engine.imp_left (·.trans he)
    have hcut : s.LoadCut → (scanTable L s).LoadCut := fun h => h.scanTable L
    dsimp only
    generalize scanTable L s = u at hscan hengine hcut
    unfold State.andThen
    split
    · exact .inl ⟨hscan.loaded, hscan.journal, hengine, hcut⟩
    · rcases enterPrep_eq L u with hread | ⟨v, -, hv, -, hj, hpage⟩
      · have hport := PortStep.access .directory (u.addr 8) 4 u
        rw [hread]
        exact .inl ⟨hport.loaded.trans hscan.loaded, hport.journal.trans hscan.journal,
          (Steady.access u .directory (u.addr 8) 4).engine.elim (fun h => by rw [h]; exact hengine) .inr,
          fun h => (hcut h).access _ _ _⟩
      · have hstep := tryNextPage_step (q := False) true v
        have hrange : v.journal.inRange v.config.pages.length := by
          rw [hj, State.config, hv]
          exact ⟨fun _ hp => (nomatch hp), loadOutcome_pages hl⟩
        obtain ⟨-, -, -, hloaded, -⟩ := hstep.kept
        rw [hpage]
        refine .inr ⟨tryNextPage_fillOk true (.inr (by rw [hj]; decide)), L, hloaded.trans hv, ?_⟩
        have h := hstep.range hrange
        rwa [State.config, hv] at h

/-! ## Steps cut short -/

/-- A step that may be under way leaves the loaded copy and the writer's pages sound, wherever the port stops it. -/
theorem State.CopyStands.runUnderway {s : State} (h : s.CopyStands) (hp : ∀ e, s.port ≠ .stopped e) (u : Underway) :
    (runUnderway u s).openPort.CopyStands := by
  have hopen : s.openPort.CopyStands := by
    refine h.stays s.openPort_loaded s.openPort_journal fun hw => ?_
    unfold State.openPort at hw
    split at hw
    · exact absurd ‹_› (hp _)
    all_goals exact hw
  have hloaded : ∀ {t : State} {L : Loaded}, t.loaded = some L → t.journal.inRange L.pages.length → t.openPort.CopyStands :=
    fun hL hr => .of_loaded ((State.openPort_loaded _).trans hL) (by rwa [State.openPort_journal])
  by_cases hu : u = .load
  · subst hu
    by_cases he : s.engine = .loading
    · rcases loadPassed_cases he with ⟨hl, hj, -, hs⟩ | ⟨-, L, hL, hr⟩
      · have hasleep := (hs ⟨.inl he, fun e hs => absurd hs (hp e)⟩).openPort
        exact h.stays ((State.openPort_loaded _).trans hl) ((State.openPort_journal _).trans hj)
          fun hw => absurd (hasleep.symm.trans hw) (by decide)
      · exact hloaded hL hr
    · rw [show Machine.runUnderway .load s = s from if_neg he]
      exact hopen
  · rcases WriterActs.runUnderway hu s with ht | ⟨hw, hk⟩
    · rw [ht]
      exact hopen
    · obtain ⟨L, hL, hr⟩ := h.acts hw hk
      exact hloaded hL hr

/-- So does a step cut short, wherever it is cut (log entry 8). -/
theorem State.CopyStands.cutStep {s : State} (h : s.CopyStands) (c : Cut) : (cutStep s c).CopyStands := by
  have hport : ∀ p, (∀ e, p ≠ .stopped e) → (s.withPort p (Machine.runUnderway c.step)).CopyStands := fun p hp =>
    State.CopyStands.runUnderway (s := { s with port := p }) h hp c.step
  unfold Machine.cutStep cutAt
  split
  · exact hport _ fun _ => nofun
  · split
    · exact h
    · exact hport _ fun _ => nofun

theorem State.CopyStands.cutAll {s : State} (h : s.CopyStands) (cuts : List Cut) : (cutAll cuts s).CopyStands := by
  induction cuts generalizing s with
  | nil => exact h
  | cons c cuts ih => exact ih (h.cutStep c)

/-! ## Every command -/

/-- From `s` a command comes to `t`, and a sound journal stays sound. -/
def JournalKept (s t : State) : Prop := JournalSound s → JournalSound t

namespace JournalKept

variable {s t u : State}

theorem refl (s : State) : JournalKept s s := id

theorem trans (h : JournalKept s t) (h' : JournalKept t u) : JournalKept s u := h' ∘ h

/-- A command that acts where a condition holds. -/
theorem when {p : Prop} [Decidable p] (h : p → JournalKept s t) : JournalKept s (if p then t else s) := by
  split
  · exact h ‹_›
  · exact refl s

/-- A command that leaves the engine, the loaded copy and the writer. -/
theorem stays (he : t.engine = s.engine) (hl : t.loaded = s.loaded) (hj : t.journal = s.journal) : JournalKept s t := by
  unfold JournalKept JournalSound State.fillOk State.working
  rw [he, hl, hj]
  exact id

theorem acts (h : WriterActs s t) : JournalKept s t := by
  rcases h with rfl | ⟨hw, hk⟩
  · exact refl t
  · intro hs
    obtain ⟨hf, hc⟩ := journalSound_iff.1 hs
    obtain ⟨L, hL, hr⟩ := hc.acts hw hk
    exact ⟨hk.fill hf, State.CopyStands.of_loaded hL hr⟩

/-- A reset: the writer at its reset values, and no copy loaded (R17, R18). -/
theorem reset (hl : t.loaded = none) (hj : t.journal = Journal.reset) (hw : t.working = false) : JournalKept s t := fun _ => by
  refine ⟨.inr (by rw [hj]; decide), fun h => absurd h (by rw [hw]; decide), ?_⟩
  rw [hl, hj]
  rfl

/-- The blocks stop, and the writer stays as it is. -/
theorem sleeps (hl : t.loaded = s.loaded) (hj : t.journal = s.journal) (he : s.engine = .halted → t.engine = .halted)
    (hw : t.working = false) : JournalKept s t := fun hs => by
  obtain ⟨hf, hc⟩ := journalSound_iff.1 hs
  refine ⟨?_, hc.stays hl hj fun h => by rw [hw] at h; cases h⟩
  rw [State.fillOk, hj]
  exact hf.imp_left he

theorem loadPassed (s : State) : JournalKept s (stateAfter (execLoadPassed s) s) := by
  by_cases he : s.engine = .loading
  · rcases loadPassed_cases he with ⟨hl, hj, hengine, -⟩ | ⟨hf, L, hL, hr⟩
    · exact sleeps hl hj (fun h => by rw [he] at h; cases h) (hengine.not_working)
    · exact fun _ => ⟨hf, State.CopyStands.of_loaded hL hr⟩
  · rw [show stateAfter (execLoadPassed s) s = s from if_neg he]
    exact refl s

theorem loadFailed (s : State) : JournalKept s (stateAfter (execLoadFailed s) s) := by
  refine when fun he => ?_
  split
  · exact refl s
  · exact sleeps rfl rfl (fun _ => rfl) rfl
  · exact sleeps rfl rfl (fun h => by rw [he] at h; cases h) rfl

/-- A fault report leaves the steps under way where they were cut, and the engine halted (R16). -/
theorem memoryFault (cuts : List Cut) (r : Region) (s : State) : JournalKept s ((cutAll cuts s).halt r) := fun hs =>
  ⟨.inl rfl, ((journalSound_iff.1 hs).2.cutAll cuts).stays rfl rfl fun h => nomatch h⟩

theorem controlWrite (code : Nat) (cuts : List Cut) (s : State) : JournalKept s (controlWrite code cuts s) := by
  have hrefuse : JournalKept s (refuseCommand s) := stays rfl rfl rfl
  unfold Machine.controlWrite
  split
  · split
    · exact sleeps rfl rfl (fun h => by simp_all) rfl
    · exact hrefuse
  · split
    · exact acts (.inr ⟨by simp [State.working, *], .startRace s⟩)
    · exact hrefuse
  · split
    · exact acts (.inr ⟨by simp [State.working, *], .endRaceNow ‹_›⟩)
    · exact hrefuse
  · exact reset rfl rfl rfl
  · exact hrefuse

theorem screenLocal {i : Nat} {g : State → State} (h : ScreenLocal i g) (s : State) : JournalKept s (g s) := by
  rw [h.shape s]
  exact stays rfl rfl rfl

theorem eachScreen {f : Nat → State → State} (hf : ∀ i, ScreenLocal i (f i)) (n : Nat) (s : State) :
    JournalKept s (eachScreen f n s) := by
  rw [(eachScreen_local hf n s).1]
  exact stays rfl rfl rfl

theorem runBanner (w : WorkItem) (s : State) : JournalKept s (runBanner w s) := by
  unfold Machine.runBanner
  dsimp only
  split
  · exact stays rfl rfl rfl
  · exact (eachScreen (fun i => w.bannerAt_local i) s.screens.length s).trans (stays rfl rfl rfl)

theorem serve (l : LineIx) (s : State) : JournalKept s (serve l s) := by
  refine when fun _ => ?_
  repeat' split
  all_goals exact stays rfl rfl rfl

theorem endBackOff (i : Nat) (s : State) : JournalKept s (endBackOff i s) := by
  unfold Machine.endBackOff
  split
  · exact refl s
  next p _ => exact trans (t := s.withPanel i { p with backOff := none }) (stays rfl rfl rfl) (serve p.line _)

theorem placePing (i : Nat) (s : State) : JournalKept s (placePing i s) := by
  unfold Machine.placePing
  split <;> exact stays rfl rfl rfl

theorem passTime (s : State) : JournalKept s (passTime s) := by
  have hlines : JournalKept s (linesGoOn s) := when fun _ => stays rfl rfl rfl
  unfold Machine.passTime
  dsimp only
  split <;> exact hlines.trans (stays rfl rfl rfl)

/-- Every command keeps the journal sound. -/
theorem exec (c : Instr) (s : State) : JournalKept s (stateAfter (exec c s) s) := by
  cases c with
  -- the register window, the clock unit and the load
  | load => exact controlWrite 1 [] s
  | start => exact controlWrite 2 [] s
  | endRace => exact controlWrite 3 [] s
  | reset cuts => exact controlWrite 4 cuts s
  | unknownCommand code => exact controlWrite code.toNat [] s
  | baseLoWrite v | baseHiWrite v =>
    simp only [Machine.exec, execBaseLoWrite, execBaseHiWrite, stateAfter]
    split <;> exact stays rfl rfl rfl
  | sweepWrite v => exact when fun _ => by split <;> exact stays rfl rfl rfl
  | causeWrite v | causeEnableWrite v | registerWriteIgnored r v => exact stays rfl rfl rfl
  | loadPassed => exact loadPassed s
  | loadFailed => exact loadFailed s
  | memoryFault report =>
    simp only [Machine.exec, execMemoryFault, stateAfter]
    split
    · exact refl s
    · exact memoryFault report.cuts report.region s
  | powerOnReset => exact reset rfl rfl rfl
  | secondMark | clockCeiling => exact when fun _ => stays rfl rfl rfl
  -- mat lines
  | round l => exact when fun _ => stays rfl rfl rfl
  | call l | mark l => exact when fun _ => by split <;> exact stays rfl rfl rfl
  | batch l f => exact acts (.matFrame l _ f (.handleBatch l f) s)
  | empty l f => exact acts (.matFrame l _ f (.handleEmpty l f) s)
  | busy l f => exact acts (.matFrame l _ f (fun _ => .refl) s)
  | silence l failed => exact acts (.execSilence l failed s)
  -- the crossing assembler
  | draw => exact acts (.execDraw s)
  | clusterExpiry point chip => exact when fun _ => stays rfl rfl rfl
  | closedCrossingOffer =>
    refine when fun _ => ?_
    split
    · exact refl s
    · refine trans (t := settleClusters s) (when fun _ => stays rfl rfl rfl) ?_
      unfold offerHead
      split <;> exact stays rfl rfl rfl
  -- the work sweep
  | slotVisit => exact acts (.execSlotVisit s)
  | sweepTimer => exact when fun _ => stays rfl rfl rfl
  | itemEnd => exact acts (.execItemEnd s)
  -- the split unit
  | localCrossing => exact acts (.item (execLocalCrossing_cases s))
  | remoteCrossing | startWave | runnerStatus | setWatch | setName | correctSplit =>
    exact acts (.item (runItem_cases fun w hk => by simp only [State.planOf, hk]))
  -- the screen scheduler
  | screenRequest =>
    refine when fun _ => ?_
    split
    · exact (screenLocal (.screenEvent _ _) s).trans (stays rfl rfl rfl)
    · exact refl s
  | purge =>
    refine when fun _ => ?_
    split
    · exact (eachScreen (fun i => .screenEvent i _) _ s).trans (stays rfl rfl rfl)
    · exact refl s
  | removal =>
    refine when fun _ => ?_
    split
    · exact (screenLocal (.screenEvent _ _) s).trans (stays rfl rfl rfl)
    · exact refl s
  | entryDue | leaveTime | missed | wakeLeadReached | dimAfter | darkAfter | wakeAgeOut =>
    exact when fun _ => screenLocal (.screenEvent _ _) s
  | banner =>
    refine when fun _ => ?_
    split
    · exact refl s
    · exact runBanner _ s
  | bannerExpiry i => exact when fun _ => screenLocal (.setBanner none i) s
  | statusTimer => exact acts (.execStatusTimer s)
  -- panel lines
  | panelExchange l => exact serve l s
  | ack l f => exact acts (.panelFrame l _ f .panelAcked s)
  | wait l f => exact acts (.panelFrame l _ f .panelWaits s)
  | noReply l failed => exact acts (.execNoReply l failed s)
  | backOffEnd i => exact when fun _ => endBackOff i s
  | probeDue i => exact when fun _ => placePing i s
  | clock l => exact when fun _ => by split <;> exact stays rfl rfl rfl
  -- the journal writer
  | sealTimer => exact acts (.execSealTimer s)
  | drain => exact acts (.execDrain s)
  | flushJournal => exact acts (.execFlushJournal s)

end JournalKept

/-- Settles O58: every command keeps the journal sound, and a millisecond that passes leaves the writer as it is. -/
theorem journalStaysSound : Obligations.JournalStaysSound := by
  intro s t h hs
  unfold step at hs
  split at hs
  · have hpick : JournalKept s s.countPick := .stays rfl rfl rfl
    unfold idle at hs
    split at hs
    · rw [exec_next] at hs
      cases hs
      exact JournalKept.exec _ _ (hpick h)
    · cases hs
      exact JournalKept.passTime _ (hpick h)
  next c rest _ =>
    have hrest : JournalKept s (s.withPending rest) := .stays rfl rfl rfl
    rw [exec_next] at hs
    cases hs
    exact JournalKept.exec c _ (hrest h)

end Sys2Proof.Machine

/-! Pages sealed, records drained and watch seals where no access is refused (R178, R179, R181, R182). -/

namespace Sys2Proof.Machine

section
variable {s : State}

/-! ## Seals (R178, R179) -/

/-- The next page is opened, or the writer spills: after a seal JOURNAL_SPILL is set (R179). -/
theorem tryNextPage_seals (h : Accepting s) (he : s.engine ≠ .halted) :
    (s.field (s.config.pages.getD s.journal.nextPage 0) 4 = 0 → tryNextPage true s = { s with
      mem := Memory.writeAll s.mem
        [(.page, s.addr (s.config.pages.getD s.journal.nextPage 0), [1, 0, 0, 0]),
         (.page, s.addr (s.config.pages.getD s.journal.nextPage 0 + 8), [0, 0, 0, 0])]
      journal := { s.journal with current := some s.journal.nextPage, fill := 0 } }) ∧
    (s.field (s.config.pages.getD s.journal.nextPage 0) 4 ≠ 0 → tryNextPage true s = { s with
      cause := s.cause ||| 0x008#9 }) := by
  rw [tryNextPage_quiet h he true]
  exact ⟨fun hfree => if_pos hfree, fun hused => if_neg hused⟩

/-- Settles O52: the writes of the seal by `sealPage_quiet`, the move to the next page by `tryNextPage_seals`. -/
theorem sealsMoveToTheNextPage : Obligations.SealsMoveToTheNextPage := by
  intro p s h he hp hf
  dsimp only
  rw [sealPage_quiet h he hp hf]
  exact tryNextPage_seals (s := { s with
    mem := Memory.writeAll s.mem [(.page, s.addr (s.config.pages.getD p 0 + 8), leBytes 4 s.journal.fill),
      (.page, s.addr (s.config.pages.getD p 0 + 4), leBytes 4 s.journal.pageSeq.toNat),
      (.page, s.addr (s.config.pages.getD p 0 + 0), [2, 0, 0, 0])]
    cause   := s.cause ||| 0x002#9
    journal := s.journal.afterSeal p s.config.pages.length }) h he

/-! ## The seal timer, flushes and draining (R178, R181, R182) -/

theorem exec_sealTimer {p t0 : Nat} (hw : s.working = true) (hp : s.journal.current = some p) (hf : s.journal.fill ≠ 0)
    (ht : s.journal.sealTimer = some t0) (hd : t0 + s.config.sealInterval ≤ s.localTime) :
    exec .sealTimer s = .next (sealPage s) := by
  have hdue : sealDue s = true := by simp [sealDue, State.elapsed, hw, hp, hf, ht, hd]
  rw [exec, execSealTimer, if_pos hdue]

theorem exec_drain {x : Spilled} {rest : List Spilled} (hw : s.working = true) (hc : s.journal.current ≠ none)
    (hs : s.journal.spill = x :: rest) :
    exec .drain s = .next (putRecord x.record x.serial x.watch (s.withJournal { s.journal with spill := rest })) := by
  have hready : drainReady s = true := by simp [drainReady, hw, hs, Option.isSome_iff_ne_none.2 hc]
  rw [exec, execDrain, if_pos hready, drainHead, hs]

/-! ## What the re-read, seals and record writes leave -/

/-- The journal serial and the flushes that wait stand. -/
def SerialKept (s t : State) : Prop := t.journal.serial = s.journal.serial ∧ t.journal.flushes = s.journal.flushes

theorem SerialKept.tryNextPage (h : Accepting s) (he : s.engine ≠ .halted) (b : Bool) : SerialKept s (tryNextPage b s) := by
  rw [tryNextPage_quiet h he]
  split
  · exact ⟨rfl, rfl⟩
  · split <;> exact ⟨rfl, rfl⟩

/-- A seal, whether or not the page holds a record, leaves serial and flushes. -/
theorem SerialKept.sealPage (h : Accepting s) (he : s.engine ≠ .halted) : SerialKept s (sealPage s) := by
  cases hp : s.journal.current with
  | none =>
    rw [sealPage_none hp]
    exact ⟨rfl, rfl⟩
  | some p =>
    by_cases hf : s.journal.fill = 0
    · rw [sealPage_empty hf]
      exact ⟨rfl, rfl⟩
    · rw [sealPage_quiet h he hp hf]
      exact SerialKept.tryNextPage (s := { s with
        mem     := _
        cause   := withCause s.cause .pageSealed
        journal := s.journal.afterSeal p s.config.pages.length }) h he true

theorem SerialKept.putRecord (h : Accepting s) (he : s.engine ≠ .halted) {p : Nat} (hp : s.journal.current = some p)
    (r : JRecord) (n : Word) (mark : Bool) : SerialKept s (putRecord r n mark s) := by
  have hput := putRecord_quiet h he hp r n mark
  dsimp only at hput
  rw [hput]
  split
  · exact SerialKept.sealPage (s := { s with
      mem     := _
      journal := { s.journal with fill := _, sealTimer := _ } }) h he
  · exact ⟨rfl, rfl⟩

/-- The re-read changes memory and the writer's page alone. -/
theorem afterReread_shape (s : State) : ∃ m c f,
    afterReread s = { s with mem := m, journal := { s.journal with current := c, fill := f } } := by
  unfold afterReread
  dsimp only
  split <;> exact ⟨_, _, _, rfl⟩

/-! ## Flushes (R182) -/

/-- A flush after the re-read: a page that holds a record is sealed, the item leaves, and its end is reported. -/
theorem runFlush_quiet {w : WorkItem} {rest : List WorkItem} (h : Accepting s) (he : s.engine ≠ .halted)
    (hw : s.journal.flushes = w :: rest) :
    runFlush w s = { sealPage (afterReread s) with
      journal := { (sealPage (afterReread s)).journal with flushes := rest }
      sweep   := { s.sweep with ends := s.sweep.ends ++ [⟨w.slot, .ok,
        if (afterReread s).journal.current ≠ none ∧ (afterReread s).journal.fill ≠ 0 then (afterReread s).journal.pageSeq
        else toWord 4294967295, 0, w.notify⟩] } } := by
  have hue : (afterReread s).engine ≠ .halted := by rwa [afterReread_engine]
  have hflushes : (afterReread s).journal.flushes = w :: rest ∧ (afterReread s).sweep = s.sweep := by
    obtain ⟨m, c, f, hu⟩ := afterReread_shape s
    rw [hu]
    exact ⟨hw, rfl⟩
  rw [runFlush, reread_quiet h he, State.andThen_running _ hue]
  have hua := afterReread_accepting h
  generalize afterReread s = u at *
  obtain ⟨hflushes, hsweep⟩ := hflushes
  obtain ⟨m, c, j, hseal⟩ := (sealPage_step (q := False) u).quiet hua hue
  have hserial := SerialKept.sealPage hua hue
  rw [hseal] at hserial ⊢
  rw [State.andThen_running (s := u.journaled m c j) _ hue, State.reportEnd]
  simp only [State.withJournal, State.withSweep, State.journaled] at hserial ⊢
  rw [hserial.2, hflushes, hsweep]
  simp [Option.isSome_iff_ne_none]

theorem exec_flushJournal {w : WorkItem} {rest : List WorkItem} (hw : s.working = true) (hf : s.journal.flushes = w :: rest) :
    exec .flushJournal s = .next (runFlush w s) := by
  rw [exec, execFlushJournal, if_pos hw, hf]

/-- A page that holds no record, or none at all, is not sealed. -/
theorem sealPage_of_nothing (h : ¬ (s.journal.current ≠ none ∧ s.journal.fill ≠ 0)) : sealPage s = s := by
  by_cases hc : s.journal.current = none
  · exact sealPage_none hc
  · exact sealPage_empty (by_contra fun hf => h ⟨hc, hf⟩)

/-! ## Watch seals (R182) -/

/-- A record in the spill buffer is marked by its serial; a GAP record is not. -/
theorem Spilled.marked_eq (n : Word) :
    Spilled.marked n = fun x => if x.serial = n ∧ x.gap = false then { x with watch := true } else x := by
  funext x
  simp [Spilled.marked]

theorem watchSeal_page (n seq : Word) (s : State) : watchSeal n (.page seq) s =
    if s.journal.current ≠ none ∧ s.journal.pageSeq = seq then sealPage (s.setCause .watch) else s.setCause .watch := by
  refine if_congr ?_ rfl rfl
  rw [Bool.and_eq_true, Option.isSome_iff_ne_none, decide_eq_true_iff]
  rfl

end

/-- Settles O53: each command in a state in which its moment has come, and the write of a record by `putRecord_quiet`. -/
theorem sealRequestsAndDraining : Obligations.SealRequestsAndDraining := by
  intro s h
  refine ⟨fun p t0 hw hp hf ht hd => exec_sealTimer hw hp hf ht hd, fun w rest hw hf => ?_,
    fun x rest hw hc hs => exec_drain hw hc hs, fun n seq _ => ⟨fun hc hq => ?_, fun hn => ?_, rfl, ?_⟩,
    fun p r n he hp => ?_⟩
  · have hrun := runFlush_quiet h (State.working_running hw) hf
    refine ⟨fun hholds => ?_, fun hnone => ?_⟩
    · rw [exec_flushJournal hw hf, hrun, if_pos hholds]
    · rw [exec_flushJournal hw hf, hrun, if_neg hnone, sealPage_of_nothing hnone]
  · rw [watchSeal_page, if_pos ⟨hc, hq⟩]
    rfl
  · rw [watchSeal_page, if_neg fun hh => hn.elim hh.1 (· hh.2)]
    rfl
  · rw [watchSeal, Spilled.marked_eq]
    rfl
  · refine ⟨(putRecord_quiet h he hp r n true).trans (if_pos (.inr rfl)), (putRecord_quiet h he hp r n false).trans ?_⟩
    simp only [Bool.false_eq_true, or_false]
    rfl

end Sys2Proof.Machine

/-! Records handed to the writer where no access is refused (R177, R180, R181). -/

namespace Sys2Proof.Machine

/-! ## Where a record goes (R177, R180, R181) -/

theorem Journal.direct_iff (j : Journal) : j.direct = true ↔ j.current ≠ none ∧ j.spill = [] := by
  rw [Journal.direct, Bool.and_eq_true, Option.isSome_iff_ne_none, List.isEmpty_iff]

theorem Journal.direct_eq_false_iff (j : Journal) : j.direct = false ↔ j.current = none ∨ j.spill ≠ [] := by
  rw [← Bool.not_eq_true, Journal.direct_iff, not_and_or, not_not]

theorem Journal.full_of_direct {j : Journal} (h : j.direct = true) : j.full = false := by
  rw [Journal.full, h]
  rfl

theorem Journal.full_of_waiting {j : Journal} (h : j.direct = false) : j.full = decide (256 ≤ j.places) := by
  rw [Journal.full, h]
  rfl

section
variable {s : State} {r : JRecord}

/-- A record in a page of the writer with nothing waiting. -/
theorem placeRecord_direct (gap : Bool) (h : s.journal.direct = true) : placeRecord r gap s =
    putRecord r s.journal.serial false { s with journal := { s.journal with serial := s.journal.serial + 1 } } :=
  if_pos h

/-- A record at the tail of the spill buffer. -/
theorem placeRecord_waiting (gap : Bool) (h : s.journal.direct = false) : placeRecord r gap s = { s with
    journal := { s.journal with
      serial := s.journal.serial + 1
      spill  := s.journal.spill ++ [⟨r, s.journal.serial, gap, false⟩] } } :=
  if_neg (Bool.eq_false_iff.1 h)

theorem formGap_none (h : s.journal.dropped = 0) : formGap s = s := if_pos h

/-- Where drops wait, a GAP record is placed and JOURNAL_GAP set (R181). -/
theorem formGap_drops (h : s.journal.dropped ≠ 0) : formGap s =
    placeRecord (gapRecord s.journal.dropped s.raceClock) true { s with
      cause := s.cause ||| 0x010#9, journal := { s.journal with dropped := 0 } } :=
  if_neg h

theorem formGap_direct (hd : s.journal.dropped ≠ 0) (h : s.journal.direct = true) : formGap s =
    putRecord (gapRecord s.journal.dropped s.raceClock) s.journal.serial false { s with
      cause   := s.cause ||| 0x010#9
      journal := { s.journal with serial := s.journal.serial + 1, dropped := 0 } } :=
  (formGap_drops hd).trans (placeRecord_direct (s := { s with
    cause := s.cause ||| 0x010#9, journal := { s.journal with dropped := 0 } }) true h)

theorem formGap_waiting (hd : s.journal.dropped ≠ 0) (h : s.journal.direct = false) : formGap s = { s with
    cause   := s.cause ||| 0x010#9
    journal := { s.journal with
      serial  := s.journal.serial + 1
      dropped := 0
      spill   := s.journal.spill ++ [⟨gapRecord s.journal.dropped s.raceClock, s.journal.serial, true, false⟩] } } :=
  (formGap_drops hd).trans (placeRecord_waiting (s := { s with
    cause := s.cause ||| 0x010#9, journal := { s.journal with dropped := 0 } }) true h)

/-- What the writer does with a record after the re-read. -/
def afterRereadPlace (r : JRecord) (s : State) : Handed :=
  if s.journal.full then ⟨dropRecord s, s.journal.serial, .dropped⟩
  else ⟨placeRecord r false (formGap s), (formGap s).journal.serial, (formGap s).journal.nextPlace⟩

theorem handRecord_eq (h : Accepting s) (he : s.engine ≠ .halted) :
    handRecord r s = afterRereadPlace r (afterReread s) := by
  have hue : (afterReread s).engine ≠ .halted := by rwa [afterReread_engine]
  have hua := afterReread_accepting h
  unfold handRecord afterRereadPlace
  rw [reread_quiet h he]
  generalize afterReread s = u at *
  dsimp only
  obtain ⟨m, c, j, hgap⟩ := (formGap_step (q := False) (s := u) False.elim).quiet hua hue
  have hge : (formGap u).engine ≠ .halted := by
    rw [hgap]
    exact hue
  rw [if_neg hue, if_neg hge]

theorem afterRereadPlace_open (hf : s.journal.full = false) : afterRereadPlace r s =
    ⟨placeRecord r false (formGap s), (formGap s).journal.serial, (formGap s).journal.nextPlace⟩ := by
  rw [afterRereadPlace, hf]
  rfl

/-- A record written into the page of an open writer with nothing waiting. -/
theorem place_in_page (h : Accepting s) (he : s.engine ≠ .halted) {p : Nat} (hp : s.journal.current = some p)
    (hs : s.journal.spill = []) (hd : s.journal.dropped = 0) :
    let j := s.journal
    let o : Nat → Nat := fun k => s.addr (pageOffset s.config p k)
    let v : State := { s with
      mem := Memory.writeAll s.mem ([(.page, o (32 + 32 * j.fill), r.bytes)]
        ++ (if j.fill = 0 then [(.page, o 12, leBytes 4 j.serial.toNat)] else [])
        ++ [(.page, o 8, leBytes 4 (j.fill + 1))])
      journal := { j with
        serial    := j.serial + 1
        fill      := j.fill + 1
        sealTimer := if j.sealTimer = none then some s.localTime else j.sealTimer } }
    (afterRereadPlace r s).serial = j.serial ∧ (afterRereadPlace r s).place = .page j.pageSeq ∧
      (afterRereadPlace r s).state = if j.fill + 1 = 128 then sealPage v else v := by
  have hdirect : s.journal.direct = true := s.journal.direct_iff.2 ⟨by simp [hp], hs⟩
  rw [afterRereadPlace_open (Journal.full_of_direct hdirect), formGap_none hd]
  refine ⟨rfl, if_pos hdirect, ?_⟩
  refine (placeRecord_direct false hdirect).trans ((putRecord_quiet (s := { s with
    journal := { s.journal with serial := s.journal.serial + 1 } }) h he hp r s.journal.serial false).trans ?_)
  simp only [Bool.false_eq_true, or_false]
  rfl

/-- A GAP record written into the page first, then the record, into the page or the buffer (R181). -/
theorem place_after_gap (h : Accepting s) (he : s.engine ≠ .halted) {p : Nat} (hp : s.journal.current = some p)
    (hs : s.journal.spill = []) (hd : s.journal.dropped ≠ 0) :
    let j := s.journal
    let g := putRecord (gapRecord j.dropped s.raceClock) j.serial false { s with
      cause   := s.cause ||| 0x010#9
      journal := { j with serial := j.serial + 1, dropped := 0 } }
    (afterRereadPlace r s).serial = j.serial + 1 ∧
      (g.journal.current ≠ none → (afterRereadPlace r s).place = .page g.journal.pageSeq ∧
        (afterRereadPlace r s).state = putRecord r (j.serial + 1) false { g with
          journal := { g.journal with serial := j.serial + 2 } }) ∧
      (g.journal.current = none → (afterRereadPlace r s).place = .spill ∧ (afterRereadPlace r s).state = { g with
        journal := { g.journal with serial := j.serial + 2, spill := [⟨r, j.serial + 1, false, false⟩] } }) := by
  have hdirect : s.journal.direct = true := s.journal.direct_iff.2 ⟨by simp [hp], hs⟩
  rw [afterRereadPlace_open (Journal.full_of_direct hdirect), formGap_direct hd hdirect]
  dsimp only
  have hserial := (SerialKept.putRecord (s := { s with
      cause   := s.cause ||| 0x010#9
      journal := { s.journal with serial := s.journal.serial + 1, dropped := 0 } }) h he hp
    (gapRecord s.journal.dropped s.raceClock) s.journal.serial false).1
  have hspill := (SpillKept.putRecord (gapRecord s.journal.dropped s.raceClock) s.journal.serial false { s with
      cause   := s.cause ||| 0x010#9
      journal := { s.journal with serial := s.journal.serial + 1, dropped := 0 } }).1
  generalize putRecord (gapRecord s.journal.dropped s.raceClock) s.journal.serial false _ = g at *
  have htwo : s.journal.serial + 1 + 1 = s.journal.serial + 2 := BitVec.add_assoc ..
  have hserial : g.journal.serial = s.journal.serial + 1 := hserial
  have hspill : g.journal.spill = [] := hspill.trans hs
  refine ⟨hserial, fun hc => ?_, fun hc => ?_⟩
  · have hg : g.journal.direct = true := g.journal.direct_iff.2 ⟨hc, hspill⟩
    rw [placeRecord_direct false hg, hserial, htwo]
    exact ⟨if_pos hg, rfl⟩
  · have hg : g.journal.direct = false := g.journal.direct_eq_false_iff.2 (.inl hc)
    rw [placeRecord_waiting false hg, hserial, htwo, hspill]
    exact ⟨if_neg (Bool.eq_false_iff.1 hg), rfl⟩

/-- While spilling or draining: the record joins the buffer, behind a GAP record where drops wait, or a full buffer drops
it (R177, R180, R181). -/
theorem place_in_buffer (hw : s.journal.current = none ∨ s.journal.spill ≠ []) :
    let j := s.journal
    let h := afterRereadPlace r s
    (j.places < 256 → j.dropped = 0 →
      h.serial = j.serial ∧ h.place = .spill ∧ h.state = { s with
        journal := { j with serial := j.serial + 1, spill := j.spill ++ [⟨r, j.serial, false, false⟩] } }) ∧
    (j.places < 256 → j.dropped ≠ 0 →
      h.serial = j.serial + 1 ∧ h.place = .spill ∧ h.state = { s with
        cause   := s.cause ||| 0x010#9
        journal := { j with
          serial  := j.serial + 2
          dropped := 0
          spill   := j.spill ++ [⟨gapRecord j.dropped s.raceClock, j.serial, true, false⟩,
                       ⟨r, j.serial + 1, false, false⟩] } }) ∧
    (256 ≤ j.places → h.serial = j.serial ∧ h.place = .dropped ∧
      (j.dropped ≠ 65535 → h.state = { s with
        journal := { j with serial := j.serial + 1, dropped := j.dropped + 1 } }) ∧
      (j.dropped = 65535 → h.state = s)) := by
  have hwait : s.journal.direct = false := s.journal.direct_eq_false_iff.2 hw
  have hopen (hlt : s.journal.places < 256) : s.journal.full = false := by
    rw [Journal.full_of_waiting hwait, decide_eq_false (Nat.not_le.2 hlt)]
  dsimp only
  refine ⟨fun hlt hd => ?_, fun hlt hd => ?_, fun hge => ?_⟩
  · rw [afterRereadPlace_open (hopen hlt), formGap_none hd, placeRecord_waiting false hwait]
    exact ⟨rfl, if_neg (Bool.eq_false_iff.1 hwait), rfl⟩
  · rw [afterRereadPlace_open (hopen hlt), formGap_waiting hd hwait]
    generalize hg : ({ s with cause := _, journal := _ } : State) = g
    have hgw : g.journal.direct = false := by
      rw [← hg]
      exact Journal.direct_eq_false_iff _ |>.2 (.inr (by simp))
    rw [placeRecord_waiting false hgw]
    refine ⟨by rw [← hg], if_neg (Bool.eq_false_iff.1 hgw), ?_⟩
    rw [← hg]
    simp only [List.append_assoc, List.cons_append, List.nil_append, BitVec.add_assoc]
    rfl
  · rw [afterRereadPlace, if_pos (by rw [Journal.full_of_waiting hwait]; exact decide_eq_true hge)]
    exact ⟨rfl, rfl, fun hd => if_neg hd, fun hd => if_pos hd⟩

end

/-! ## What a record handed over changes -/

/-- A record handed over where no access is refused changes shared memory inside the pages, CAUSE and the writer. -/
theorem record_frame (r : JRecord) {s : State} (h : Accepting s) (he : s.engine ≠ .halted) :
    let t := s.record r
    t = { s with mem := t.mem, cause := t.cause, journal := t.journal } ∧ s.cause &&& t.cause = s.cause ∧
      (Memory.wf s.mem = true → Memory.wf t.mem = true) ∧
      (s.journal.inRange s.config.pages.length → s.journal.fill < 128 →
        t.journal.inRange s.config.pages.length ∧ t.journal.fill < 128 ∧
        ∀ a, OutsidePages s a → Memory.read t.mem a = Memory.read s.mem a) := by
  have hstep : JournalStep (s.journal.fill < 128) s (s.record r) := record_step r .inr
  obtain ⟨m, c, j, hq⟩ := hstep.quiet h he
  refine ⟨by rw [hq]; rfl, hstep.causes, hstep.wf, fun hr hf => ⟨hstep.range hr, ?_, hstep.outside hf hr⟩⟩
  exact fillOk.running (record_fillOk r (.inr hf)) (by rw [hq]; exact he)

/-- Settles O51: the re-read by `handRecord_eq`, the place of the record by the lemmas on `afterRereadPlace`. -/
theorem recordsArePlacedInTheJournal : Obligations.RecordsArePlacedInTheJournal := by
  refine ⟨fun r s h he => ?_, fun r s h he => record_frame r h he⟩
  dsimp only
  rw [handRecord_eq h he]
  have hua := afterReread_accepting h
  have hue : (afterReread s).engine ≠ .halted := by rwa [afterReread_engine]
  obtain ⟨m, c, f, hu⟩ := afterReread_shape s
  rw [hu] at hua hue ⊢
  exact ⟨fun p hp hs hd => place_in_page hua hue hp hs hd, fun p hp hs hd => place_after_gap hua hue hp hs hd,
    fun hw => place_in_buffer hw⟩

end Sys2Proof.Machine

/-! Causes and the interrupt line (R183). -/

namespace Sys2Proof.Machine

/-- The causes in the order of their bits (spec 12.2). -/
def Cause.all : List Cause :=
  [.workDone, .pageSealed, .watch, .journalSpill, .journalGap, .lineFault, .clockCeiling, .loadDone, .memoryFault]

theorem Cause.all_bit (c : Cause) : Cause.all[c.bit]? = some c := by
  cases c <;> rfl

theorem Cause.bit_lt (c : Cause) : c.bit < 9 := (List.getElem?_eq_some_iff.1 c.all_bit).1

/-- Each cause has a bit of its own. -/
theorem Cause.bit_inj {c d : Cause} : d.bit = c.bit ↔ d = c :=
  ⟨fun h => Option.some.inj (d.all_bit.symm.trans (h ▸ c.all_bit)), congrArg Cause.bit⟩

/-- Every bit of CAUSE is a cause's. -/
theorem Cause.exists_bit {i : Nat} (h : i < 9) : ∃ c : Cause, c.bit = i := by
  have hall : ∀ j : Fin 9, (Cause.all[j]'j.isLt).bit = j := by decide
  exact ⟨_, hall ⟨i, h⟩⟩

/-- The bits of CAUSE after a cause is set. -/
theorem withCause_getLsbD (v : BitVec 9) (c : Cause) (i : Nat) :
    (withCause v c).getLsbD i = (v.getLsbD i || decide (i = c.bit)) := by
  have hone : (1#9 <<< c.bit).getLsbD i = decide (i = c.bit) := by
    rw [← BitVec.twoPow_eq, BitVec.getLsbD_twoPow, decide_eq_true c.bit_lt, Bool.true_and]
    exact decide_eq_decide.2 eq_comm
  rw [withCause, BitVec.getLsbD_or, hone]

/-- Setting a cause sets that cause alone (R183). -/
theorem State.hasCause_setCause (c d : Cause) (s : State) :
    (s.setCause c).hasCause d = (decide (d = c) || s.hasCause d) := by
  rw [State.hasCause, State.setCause_cause, withCause_getLsbD, Bool.or_comm]
  congr 1
  exact decide_eq_decide.2 Cause.bit_inj

/-- Setting a set cause changes nothing (R183). -/
theorem State.setCause_of_hasCause {c : Cause} {s : State} (h : s.hasCause c = true) : s.setCause c = s := by
  have hsame : withCause s.cause c = s.cause := BitVec.eq_of_getLsbD_eq fun i _ => by
    rw [withCause_getLsbD]
    by_cases hi : i = c.bit
    · subst hi
      rw [show s.cause.getLsbD c.bit = true from h, Bool.true_or]
    · rw [decide_eq_false hi, Bool.or_false]
  rw [State.setCause, hsame]

/-- The interrupt line is asserted while some cause is both set and enabled (R183). -/
theorem State.interruptLine_iff (s : State) :
    s.interruptLine = true ↔ ∃ c : Cause, s.hasCause c = true ∧ s.causeEnable.getLsbD c.bit = true := by
  rw [State.interruptLine, bne_iff_ne]
  refine ⟨fun hne => ?_, fun ⟨c, hset, henabled⟩ hzero => ?_⟩
  · by_contra hnone
    refine hne (BitVec.eq_of_getLsbD_eq fun i hi => ?_)
    obtain ⟨c, rfl⟩ := Cause.exists_bit hi
    rw [BitVec.getLsbD_and]
    exact (Bool.eq_false_iff.2 fun hboth => hnone ⟨c, Bool.and_eq_true_iff.1 hboth⟩).trans BitVec.getLsbD_zero.symm
  · have hbit := congrArg (fun v : BitVec 9 => v.getLsbD c.bit) hzero
    simp [show s.cause.getLsbD c.bit = true from hset, henabled] at hbit

/-- Settles O10: bit by bit. -/
theorem causesAndInterruptLine : Obligations.CausesAndInterruptLine := by
  refine ⟨fun v s => ?_, State.hasCause_setCause, fun c s => State.setCause_of_hasCause, State.interruptLine_iff⟩
  rw [exec, execCauseWrite, BitVec.truncate_eq_setWidth, BitVec.setWidth_eq_extractLsb' (by decide)]

end Sys2Proof.Machine

/-! The front of the queue, and the events that are not due (log entries 1 and 2). -/

namespace Sys2Proof.Machine

/-! ## The front of the queue -/

/-- Settles O1: by the case of `step` for a queue that is not empty. -/
theorem stepRunsFrontCommand : Obligations.StepRunsFrontCommand := by
  intro c rest s hp
  simp only [step, hp, State.withPending]

/-! ## Events that are not due

A command of an event acts only under its test, or only where the queue it takes from has a head. -/

section
variable {s t : State}

/-- A command whose test fails leaves the state as it is. -/
theorem next_of_test_fails {ready : Bool} (h : ready = false) :
    (.next (if ready then t else s) : Host.Outcome State Fault Refusal) = .next s := by
  rw [h, if_neg Bool.false_ne_true]

/-- A command that finds nothing to take leaves the state as it is, whether its blocks work or not. -/
theorem next_of_nothing_taken {works : Bool} (h : t = s) :
    (.next (if works then t else s) : Host.Outcome State Fault Refusal) = .next s := by
  rw [h, ite_self]

/-- Outside LOADING no load is in progress that could end (R9, R10). -/
theorem load_end_not_due (h : s.engine ≠ .loading) : exec .loadPassed s = .next s ∧ exec .loadFailed s = .next s :=
  ⟨congrArg Host.Outcome.next (if_neg h), congrArg Host.Outcome.next (if_neg h)⟩

/-- The events of the mat lines and the panel lines that are not due. -/
theorem line_events_not_due (l : LineIx) :
    (roundReady l s = false → exec (.round l) s = .next s) ∧ (callReady l s = false → exec (.call l) s = .next s) ∧
    (markReady l s = false → exec (.mark l) s = .next s) ∧
    (∀ b, silenceReady l b s = false → exec (.silence l b) s = .next s) ∧
    (panelReady l s = false → exec (.panelExchange l) s = .next s) ∧
    (∀ b, noReplyReady l b s = false → exec (.noReply l b) s = .next s) ∧
    (clockReady l s = false → exec (.clock l) s = .next s) :=
  ⟨next_of_test_fails, next_of_test_fails, next_of_test_fails, fun _ => next_of_test_fails, next_of_test_fails,
    fun _ => next_of_test_fails, next_of_test_fails⟩

/-- The events of a screen and its panel that are not due. -/
theorem screen_events_not_due (i : Nat) :
    (entryDueReady i s = false → exec (.entryDue i) s = .next s) ∧
    (∀ n f, leaveReady i n f s = false → exec (.leaveTime i n f) s = .next s) ∧
    (∀ n f, missedReady i n f s = false → exec (.missed i n f) s = .next s) ∧
    (bannerExpiryReady i s = false → exec (.bannerExpiry i) s = .next s) ∧
    (∀ f, wakeLeadReady i f s = false → exec (.wakeLeadReached i f) s = .next s) ∧
    (∀ f, dimAfterReady i f s = false → exec (.dimAfter i f) s = .next s) ∧
    (darkAfterReady i s = false → exec (.darkAfter i) s = .next s) ∧
    (wakeAgeReady i s = false → exec (.wakeAgeOut i) s = .next s) ∧
    (backOffReady i s = false → exec (.backOffEnd i) s = .next s) ∧
    (probeReady i s = false → exec (.probeDue i) s = .next s) :=
  ⟨next_of_test_fails, fun _ _ => next_of_test_fails, fun _ _ => next_of_test_fails, next_of_test_fails,
    fun _ => next_of_test_fails, fun _ => next_of_test_fails, next_of_test_fails, next_of_test_fails, next_of_test_fails,
    next_of_test_fails⟩

/-- No end can be written where none waits (R32). -/
theorem itemEndReady_of_no_ends (h : s.sweep.ends = []) : itemEndReady s = false := by
  rw [itemEndReady, h, List.head?_nil, Option.any_none, Bool.and_false]

/-- With no item in the intake queue a command of an item's kind finds none (R92). -/
theorem runItem_of_no_intake (h : s.intake = []) (k : WorkKind) (plan : State → WorkItem → ItemPlan) :
    runItem k plan s = s := by
  simp only [runItem, State.headItem, h]

/-- The commands of the split unit where its intake queue is empty. -/
theorem intake_empty_not_due (h : s.intake = []) :
    exec .localCrossing s = .next s ∧ exec .remoteCrossing s = .next s ∧ exec .startWave s = .next s ∧
    exec .runnerStatus s = .next s ∧ exec .setWatch s = .next s ∧ exec .setName s = .next s ∧
    exec .correctSplit s = .next s := by
  have hitem (k : WorkKind) (plan : State → WorkItem → ItemPlan) :
      (.next (runItem k plan s) : Host.Outcome State Fault Refusal) = .next s :=
    congrArg _ (runItem_of_no_intake h k plan)
  refine ⟨next_of_nothing_taken ?_, hitem _ _, hitem _ _, hitem _ _, hitem _ _, hitem _ _, hitem _ _⟩
  rw [h]

/-- The commands that act on a hand-over where none waits. -/
theorem handovers_empty_not_due (h : s.handovers = []) :
    exec .screenRequest s = .next s ∧ exec .purge s = .next s ∧ exec .removal s = .next s := by
  refine ⟨next_of_nothing_taken ?_, next_of_nothing_taken ?_, next_of_nothing_taken ?_⟩
  all_goals rw [h]

theorem banner_not_due (h : s.bannerItems = []) : exec .banner s = .next s :=
  next_of_nothing_taken (by rw [h])

theorem flush_not_due (h : s.journal.flushes = []) : exec .flushJournal s = .next s :=
  next_of_nothing_taken (by rw [h])

end

/-- Settles O54: each event by its own test, and each command on a queue by the queue's being empty. -/
theorem eventsNotDueChangeNothing : Obligations.EventsNotDueChangeNothing := by
  intro s
  have hend : s.sweep.ends = [] ∨ itemEndReady s = false → exec .itemEnd s = .next s := fun h =>
    itemEnd_waits (h.elim itemEndReady_of_no_ends id)
  exact ⟨next_of_test_fails, next_of_test_fails, load_end_not_due, line_events_not_due, next_of_test_fails,
    fun _ _ => next_of_test_fails, next_of_test_fails, next_of_test_fails, next_of_test_fails, hend,
    intake_empty_not_due, handovers_empty_not_due, banner_not_due, next_of_test_fails, screen_events_not_due,
    next_of_test_fails, next_of_test_fails, flush_not_due⟩

end Sys2Proof.Machine
